-- ==== Sys2Proof/Word.lean ====
section
/-! DEFINITION. The word types of the TIS FIFO engine (00_scope.md R11, R12). -/

namespace Sys2Proof

/-- A byte on a bus, in a buffer or in a TPM register. -/
abbrev Byte := BitVec 8

/-- The 16-bit burst count (10_state.md R31, R40). -/
abbrev Half := BitVec 16

/-- A 32-bit counter, identifier or host command word (10_state.md R31, 30_encoding.md R126). -/
abbrev Word := BitVec 32

end Sys2Proof
end

