-- ==== Sys2Proof/Syntax.lean ====
section
/-! DEFINITION. The instructions: one constructor of `Instr` per row of spec/opcode_table.json. -/

namespace Sys2Proof

/-- The four TPM register kinds the engine addresses (10_state.md R38). -/
inductive Kind where
  | access | sts | dataFifo | didVid
deriving DecidableEq, Repr, Inhabited

/-- The direction of a register transaction (40_transport.md R153). -/
inductive Dir where
  | read | write
deriving DecidableEq, Repr, Inhabited

/-- The formats of the table's words (30_encoding.md R110). A word is read in the format of the place
it stands in: the host port, the sequencer, the I2C bus, the SPI bus, or a register's payload. -/
inductive Format where
  | hcmd | uop | i2cAddr | spiHdr | stsWr | accessWr
deriving DecidableEq, Repr, Inhabited

/-- The rows of the opcode table. A field of a row is a natural number bounded by `Instr.WellFormed`;
`force` is one bit. The procedure codes (UOP) carry no field: their operands stand in the machine. -/
inductive Instr where
  -- host commands, 30_encoding.md R127
  | probe
  | send (len : Nat)
  | recv (cap : Nat)
  | release (force : Bool)
  | shutdown
  -- internal procedure codes, 30_encoding.md R128
  | i2cRead
  | i2cWrite
  | spiRead
  | spiWrite
  | readyWait
  | spiXfer
  | checkLocality
  | requestLocality
  | releaseLocality
  | getBurstAndStatus
  | readStatus
  | setReady
  | waitCommandReady
  | fifoWriteBody
  | writeGo
  | fifoReadBody
  | cleanup
  -- I2C register address bytes, 30_encoding.md R111
  | i2cAddrAccess (loc : Nat)
  | i2cAddrSts (loc : Nat)
  | i2cAddrDataFifo (loc : Nat)
  | i2cAddrDidVid (loc : Nat)
  -- SPI frame headers, 30_encoding.md R114, R115
  | spiHdrReadAccess (lenM1 loc : Nat)
  | spiHdrWriteAccess (lenM1 loc : Nat)
  | spiHdrReadSts (lenM1 loc : Nat)
  | spiHdrWriteSts (lenM1 loc : Nat)
  | spiHdrReadDataFifo (lenM1 loc : Nat)
  | spiHdrWriteDataFifo (lenM1 loc : Nat)
  | spiHdrReadDidVid (lenM1 loc : Nat)
  -- register write values, 30_encoding.md R117, R118
  | stsGoVal
  | stsReadyVal
  | accessReqVal
  | accessRelVal
deriving DecidableEq, Repr, Inhabited

/-- The format each row of the opcode table is written in. -/
def Instr.format : Instr → Format
  | .probe => .hcmd
  | .send _ => .hcmd
  | .recv _ => .hcmd
  | .release _ => .hcmd
  | .shutdown => .hcmd
  | .i2cRead => .uop
  | .i2cWrite => .uop
  | .spiRead => .uop
  | .spiWrite => .uop
  | .readyWait => .uop
  | .spiXfer => .uop
  | .checkLocality => .uop
  | .requestLocality => .uop
  | .releaseLocality => .uop
  | .getBurstAndStatus => .uop
  | .readStatus => .uop
  | .setReady => .uop
  | .waitCommandReady => .uop
  | .fifoWriteBody => .uop
  | .writeGo => .uop
  | .fifoReadBody => .uop
  | .cleanup => .uop
  | .i2cAddrAccess _ => .i2cAddr
  | .i2cAddrSts _ => .i2cAddr
  | .i2cAddrDataFifo _ => .i2cAddr
  | .i2cAddrDidVid _ => .i2cAddr
  | .spiHdrReadAccess _ _ => .spiHdr
  | .spiHdrWriteAccess _ _ => .spiHdr
  | .spiHdrReadSts _ _ => .spiHdr
  | .spiHdrWriteSts _ _ => .spiHdr
  | .spiHdrReadDataFifo _ _ => .spiHdr
  | .spiHdrWriteDataFifo _ _ => .spiHdr
  | .spiHdrReadDidVid _ _ => .spiHdr
  | .stsGoVal => .stsWr
  | .stsReadyVal => .stsWr
  | .accessReqVal => .accessWr
  | .accessRelVal => .accessWr

end Sys2Proof
end

