-- ==== Sys2Proof/Config.lean ====
section
/-! DEFINITION. What one Device Handle fixes (00_scope.md R9), and the free values: the environment's
answers and the host's moves, constants without a body, so that nothing can be proved of their values. -/

namespace Sys2Proof

/-- The bus variant of a Device Handle, immutable for its life (00_scope.md R3). -/
inductive Transport where
  | i2c | spi
deriving DecidableEq, Repr, Inhabited

/-- What R9 takes from general knowledge of the TPM's registers (93_implementation_defined.md G1 to G4,
G6), and the SPI vendor byte. Kept apart so that it can be corrected without touching a procedure. -/
structure TpmMap where
  accessValid : Byte
  accessActiveLocality : Byte
  accessRequestPending : Byte
  accessRequestUse : Byte
  stsValid : Byte
  stsCommandReady : Byte
  stsGo : Byte
  stsDataAvail : Byte
  stsDataExpect : Byte
  i2cBaseAccess : BitVec 4
  i2cBaseSts : BitVec 4
  i2cBaseDataFifo : BitVec 4
  i2cBaseDidVid : BitVec 4
  spiBaseAccess : BitVec 12
  spiBaseSts : BitVec 12
  spiBaseDataFifo : BitVec 12
  spiBaseDidVid : BitVec 12
  didVidCr50 : Word
  didVidTi50 : Word
  /-- the value of SPI header bit 7 for a read; a write has the other one (D12) -/
  spiRwRead : Bool
  /-- the value of SPI header bit 6 (D12) -/
  spiMarker : Bool
  spiVendor : Byte
deriving DecidableEq, Repr

/-- The values R9, R82 and R123 give. -/
def TpmMap.standard : TpmMap where
  accessValid := 0x80
  accessActiveLocality := 0x20
  accessRequestPending := 0x04
  accessRequestUse := 0x02
  stsValid := 0x80
  stsCommandReady := 0x40
  stsGo := 0x20
  stsDataAvail := 0x10
  stsDataExpect := 0x08
  i2cBaseAccess := 0x0
  i2cBaseSts := 0x1
  i2cBaseDataFifo := 0x5
  i2cBaseDidVid := 0x6
  spiBaseAccess := 0x000
  spiBaseSts := 0x018
  spiBaseDataFifo := 0x024
  spiBaseDidVid := 0xF00
  didVidCr50 := 0x00281AE0
  didVidTi50 := 0x504A6666
  spiRwRead := true
  spiMarker := true
  spiVendor := 0xD4

/-- The configuration record of R9. Budgets are in milliseconds. -/
structure Cfg where
  transport : Transport
  loc : Nat
  scratchCap : Nat
  maxXfer : Nat
  burstCap : Nat
  hdrSize : Nat
  tLong : Nat
  tShort : Nat
  tIrq : Nat
  tSpi : Nat
  locTries : Nat
  locDelay : Nat
  clkPerMs : Nat
  releaseWriteOnReadFail : Bool
  map : TpmMap
deriving DecidableEq, Repr

/-- The values of R9 for a handle on the given bus, with the suggested CLK_PER_MS. -/
def Cfg.standard (t : Transport) : Cfg where
  transport := t
  loc := 0
  scratchCap := 65
  maxXfer := 64
  burstCap := 64
  hdrSize := 10
  tLong := 2000
  tShort := 2
  tIrq := 750
  tSpi := 100
  locTries := 3
  locDelay := 2
  clkPerMs := 1000
  releaseWriteOnReadFail := false
  map := .standard

/-- The largest locality the wire encoding of a transport holds (R10 (e), 30_encoding.md R111, R115). -/
def Transport.maxLoc : Transport → Nat
  | .i2c => 15
  | .spi => 3

/-- The constraints of R10; a configuration that breaks one is refused at attach. -/
def Cfg.ok (c : Cfg) : Bool :=
  decide (c.maxXfer + 1 ≤ c.scratchCap)                            -- (a)
    && (c.transport == .i2c || decide (c.maxXfer ≤ 64))            -- (b)
    && decide (c.burstCap ≤ c.maxXfer + 1)                         -- (c)
    && decide (c.hdrSize + 1 ≤ c.burstCap)                         -- (d)
    && decide (c.loc ≤ c.transport.maxLoc)                         -- (e)

/-- What the environment does while ONE port primitive of R15 runs, and how it ends. A primitive uses
the parts it needs; the clock and the ready-signal source may act during any of them (R8, log 1). -/
structure Answer where
  /-- by how many ticks the clock grows (for `Sleep`: beyond its lower bound) -/
  ticks : Nat
  /-- the ready-signal source raises an edge -/
  edge : Bool
  /-- no other user holds the SPI controller -/
  lockFree : Bool
  /-- a bus operation fails with the bus's own error value -/
  err : Option Nat
  /-- the bytes the TPM puts on the bus for a read -/
  bytes : List Byte
deriving DecidableEq, Repr, Inhabited

/-- A move of the host while the engine is idle (60_exceptions.md R311, R312; 70_reset_and_hazards.md
R340, R341). No rule says what the host does with RSPBUF between commands: that it may hand over any
contents then, and that they stay where it does not, is the model's choice (DESIGN CHOICE, log 37). -/
inductive HostMove where
  /-- the host does nothing -/
  | wait
  /-- the host issues a host command word -/
  | command (w : Word)
  /-- the host writes the bytes of its next command into CMDBUF, from index 0 -/
  | fillCmdbuf (bytes : List Byte)
  /-- the host hands over a response buffer with these bytes from index 0 on (log 37) -/
  | giveRspbuf (bytes : List Byte)
  /-- the host detaches the handle -/
  | detach
  /-- the host attaches a new handle -/
  | attach (cfg : Cfg)
deriving DecidableEq, Repr, Inhabited

/-- FREE VALUE: the environment's `k`-th answer where none stands in the inbox (R8, R46, R47, U10, U25;
log 1). -/
opaque Config.freeAnswer (k : Nat) : Answer

/-- FREE VALUE: byte `i` of the string `bs` where the string has no such byte: R12 gives none (log 34). -/
opaque Config.absentByte (bs : List Byte) (i : Nat) : Byte

/-- FREE VALUE: the host's `k`-th move at the idle wait (R312, log 4). -/
opaque Config.hostMove (k : Nat) : HostMove

end Sys2Proof
end

