-- ==== Sys2Proof/WellFormed.lean ====
section
/-! DEFINITION. Which instructions are well formed: every field fits the bits the encoding gives it. -/

namespace Sys2Proof

/-- A host length or capacity fits HCMD bits 23:0 (30_encoding.md R126). -/
abbrev HostArgFits (v : Nat) : Prop := v < 2 ^ 24

/-- A locality fits the I2C address nibble 7:4 (30_encoding.md R111). -/
abbrev I2cLocFits (loc : Nat) : Prop := loc ≤ 15

/-- A locality keeps `loc << 12` within the 14-bit SPI address (30_encoding.md R115). -/
abbrev SpiLocFits (loc : Nat) : Prop := loc ≤ 3

/-- A length-minus-one fits SPI header bits 29:24 (30_encoding.md R114). -/
abbrev LenM1Fits (lenM1 : Nat) : Prop := lenM1 ≤ 63

/-- Every field of the instruction fits its encoding. -/
abbrev Instr.WellFormed : Instr → Prop
  | .probe => True
  | .send len => HostArgFits len
  | .recv cap => HostArgFits cap
  | .release _ => True
  | .shutdown => True
  | .i2cRead => True
  | .i2cWrite => True
  | .spiRead => True
  | .spiWrite => True
  | .readyWait => True
  | .spiXfer => True
  | .checkLocality => True
  | .requestLocality => True
  | .releaseLocality => True
  | .getBurstAndStatus => True
  | .readStatus => True
  | .setReady => True
  | .waitCommandReady => True
  | .fifoWriteBody => True
  | .writeGo => True
  | .fifoReadBody => True
  | .cleanup => True
  | .i2cAddrAccess loc => I2cLocFits loc
  | .i2cAddrSts loc => I2cLocFits loc
  | .i2cAddrDataFifo loc => I2cLocFits loc
  | .i2cAddrDidVid loc => I2cLocFits loc
  | .spiHdrReadAccess lenM1 loc => LenM1Fits lenM1 ∧ SpiLocFits loc
  | .spiHdrWriteAccess lenM1 loc => LenM1Fits lenM1 ∧ SpiLocFits loc
  | .spiHdrReadSts lenM1 loc => LenM1Fits lenM1 ∧ SpiLocFits loc
  | .spiHdrWriteSts lenM1 loc => LenM1Fits lenM1 ∧ SpiLocFits loc
  | .spiHdrReadDataFifo lenM1 loc => LenM1Fits lenM1 ∧ SpiLocFits loc
  | .spiHdrWriteDataFifo lenM1 loc => LenM1Fits lenM1 ∧ SpiLocFits loc
  | .spiHdrReadDidVid lenM1 loc => LenM1Fits lenM1 ∧ SpiLocFits loc
  | .stsGoVal => True
  | .stsReadyVal => True
  | .accessReqVal => True
  | .accessRelVal => True

end Sys2Proof
end

