-- ==== Sys2Proof/Decode.lean ====
section
/-! DEFINITION. The decoder of the opcode table's words, total on any bytes, and the encoder
(30_encoding.md R110 to R128). A word is a byte string, the byte with its top bits first, as R114 and
R117 put a 4-byte word on the wire (R83); for the host command word the order is the model's (log 21). -/

namespace Sys2Proof

/-- Why a byte string is no instruction of a format. -/
inductive Reject where
  /-- the format's words have another length (R110) -/
  | badLength
  /-- an HCMD opcode outside R127 (R124 (g)) -/
  | reservedOpcode
  /-- a nonzero reserved operand bit of an HCMD word (R124 (g)) -/
  | reservedOperandBits
  /-- a procedure code outside R128 -/
  | reservedProcedure
  /-- a register base that is none of the four kinds (R124 (d)) -/
  | unknownRegister
  /-- SPI header bit 6 is not the marker (R124 (f)) -/
  | spiMarkerClear
  /-- SPI header byte 1 is not the vendor marker (R114) -/
  | spiVendorWrong
  /-- SPI header bits 15:14 are not 0 (R124 (f)) -/
  | spiAddressHighBits
  /-- an SPI write header for DID_VID, which is read-only to the engine (10_state.md R42) -/
  | spiDidVidWrite
  /-- a register value the engine never writes (R117, R118) -/
  | unknownRegisterValue
  /-- no format of the table has this word -/
  | noFormat
deriving DecidableEq, Repr

/-- The number a byte string spells, first byte highest. -/
def beNat (bs : List Byte) : Nat :=
  bs.foldl (fun acc b => acc * 256 + b.toNat) 0

/-- The number as four bytes, first byte highest. -/
def beBytes4 (w : Nat) : List Byte :=
  [BitVec.ofNat 8 (w / 2 ^ 24), BitVec.ofNat 8 (w / 2 ^ 16), BitVec.ofNat 8 (w / 2 ^ 8), BitVec.ofNat 8 w]

/-- Bits `hi` down to `lo` of a number (00_scope.md R11). -/
def natBits (w hi lo : Nat) : Nat :=
  w / 2 ^ lo % 2 ^ (hi + 1 - lo)

/-- HCMD: `op` in bits 31:24, `arg` in bits 23:0 (R126, R127, R124 (g)). -/
def decodeHcmd (w : Nat) : Except Reject Instr :=
  let arg := natBits w 23 0
  match natBits w 31 24 with
  | 0x01 => if arg = 0 then .ok .probe else .error .reservedOperandBits
  | 0x02 => .ok (.send arg)
  | 0x03 => .ok (.recv arg)
  | 0x04 => if arg < 2 then .ok (.release (arg == 1)) else .error .reservedOperandBits
  | 0x05 => if arg = 0 then .ok .shutdown else .error .reservedOperandBits
  | _ => .error .reservedOpcode

/-- UOP: the internal procedure codes (R128). -/
def decodeUop (b : Nat) : Except Reject Instr :=
  match b with
  | 0x10 => .ok .i2cRead
  | 0x11 => .ok .i2cWrite
  | 0x12 => .ok .spiRead
  | 0x13 => .ok .spiWrite
  | 0x14 => .ok .readyWait
  | 0x15 => .ok .spiXfer
  | 0x20 => .ok .checkLocality
  | 0x21 => .ok .requestLocality
  | 0x22 => .ok .releaseLocality
  | 0x30 => .ok .getBurstAndStatus
  | 0x31 => .ok .readStatus
  | 0x32 => .ok .setReady
  | 0x40 => .ok .waitCommandReady
  | 0x41 => .ok .fifoWriteBody
  | 0x42 => .ok .writeGo
  | 0x43 => .ok .fifoReadBody
  | 0x44 => .ok .cleanup
  | _ => .error .reservedProcedure

/-- I2C_ADDR: `loc` in bits 7:4, the register base in bits 3:0 (R111, 20_memory.md R82). -/
def decodeI2cAddr (b : Nat) : Except Reject Instr :=
  let loc := natBits b 7 4
  match natBits b 3 0 with
  | 0x0 => .ok (.i2cAddrAccess loc)
  | 0x1 => .ok (.i2cAddrSts loc)
  | 0x5 => .ok (.i2cAddrDataFifo loc)
  | 0x6 => .ok (.i2cAddrDidVid loc)
  | _ => .error .unknownRegister

/-- The register of a read or write header, by its base in address bits 11:0 (R114, R115, R82). -/
def decodeSpiRegister (read : Bool) (base lenM1 loc : Nat) : Except Reject Instr :=
  match base with
  | 0x000 => .ok (if read then .spiHdrReadAccess lenM1 loc else .spiHdrWriteAccess lenM1 loc)
  | 0x018 => .ok (if read then .spiHdrReadSts lenM1 loc else .spiHdrWriteSts lenM1 loc)
  | 0x024 => .ok (if read then .spiHdrReadDataFifo lenM1 loc else .spiHdrWriteDataFifo lenM1 loc)
  | 0xF00 => if read then .ok (.spiHdrReadDidVid lenM1 loc) else .error .spiDidVidWrite
  | _ => .error .unknownRegister

/-- SPI_HDR as the 32-bit word H of R114. -/
def decodeSpiHdr (w : Nat) : Except Reject Instr :=
  if natBits w 30 30 ≠ 1 then .error .spiMarkerClear
  else if natBits w 23 16 ≠ 0xD4 then .error .spiVendorWrong
  else if natBits w 15 14 ≠ 0 then .error .spiAddressHighBits
  else decodeSpiRegister (natBits w 31 31 == 1) (natBits w 11 0) (natBits w 29 24) (natBits w 13 12)

/-- STS_WR: the two STS write values, flag in byte 0 (R117). -/
def decodeStsWr (w : Nat) : Except Reject Instr :=
  match w with
  | 0x20000000 => .ok .stsGoVal
  | 0x40000000 => .ok .stsReadyVal
  | _ => .error .unknownRegisterValue

/-- ACCESS_WR: the two ACCESS write values (R118). -/
def decodeAccessWr (b : Nat) : Except Reject Instr :=
  match b with
  | 0x02 => .ok .accessReqVal
  | 0x20 => .ok .accessRelVal
  | _ => .error .unknownRegisterValue

/-- How many bytes a format's words have (R110). -/
def formatBytes : Format → Nat
  | .hcmd => 4
  | .uop => 1
  | .i2cAddr => 1
  | .spiHdr => 4
  | .stsWr => 4
  | .accessWr => 1

/-- Decode a byte string in the format of the place it stands in. -/
def decodeAs (f : Format) (bs : List Byte) : Except Reject Instr :=
  if bs.length ≠ formatBytes f then .error .badLength
  else
    match f with
    | .hcmd => decodeHcmd (beNat bs)
    | .uop => decodeUop (beNat bs)
    | .i2cAddr => decodeI2cAddr (beNat bs)
    | .spiHdr => decodeSpiHdr (beNat bs)
    | .stsWr => decodeStsWr (beNat bs)
    | .accessWr => decodeAccessWr (beNat bs)

/-- The order in which a word of unknown place is tried. The 4-byte formats have no word in common.
The 1-byte ones have: such a byte is read as a procedure code, else as an ACCESS value, else as an I2C
address (log 3). -/
def formatOrder : List Format :=
  [.hcmd, .spiHdr, .stsWr, .uop, .accessWr, .i2cAddr]

/-- Whether the bytes are an instruction in the format. -/
def decodesAs (f : Format) (bs : List Byte) : Bool :=
  match decodeAs f bs with
  | .ok _ => true
  | .error _ => false

/-- The first format the bytes are an instruction in. -/
def classify (bs : List Byte) : Option Format :=
  formatOrder.find? (fun f => decodesAs f bs)

/-- Decode a byte string whose place is not known. -/
def decodeAny (bs : List Byte) : Except Reject Instr :=
  match classify bs with
  | some f => decodeAs f bs
  | none => .error .noFormat

/-- The bytes of a table word of `nbits` bits, 8 or 32, bit 0 the least significant. -/
def tableBytes (nbits w : Nat) : Option (List Byte) :=
  if nbits = 8 ∧ w < 2 ^ 8 then some [BitVec.ofNat 8 w]
  else if nbits = 32 ∧ w < 2 ^ 32 then some (beBytes4 w)
  else none

/-- The instruction the decoder reads from a word numbered as spec/opcode_table.json numbers it. -/
def decodeTableWord (nbits w : Nat) : Option Instr :=
  match tableBytes nbits w with
  | none => none
  | some bs =>
    match decodeAny bs with
    | .ok i => some i
    | .error _ => none

/-! ### The encoder -/

/-- An HCMD word (R126). -/
def hcmdWord (op arg : Nat) : List Byte :=
  beBytes4 (op * 2 ^ 24 + arg)

/-- An I2C address byte, `base | loc << 4` (R111). -/
def i2cAddrWord (base loc : Nat) : List Byte :=
  [BitVec.ofNat 8 (loc * 16 + base)]

/-- An SPI frame header as the word H of R114. -/
def spiHdrWord (rw lenM1 loc base : Nat) : List Byte :=
  beBytes4 (rw * 2 ^ 31 + 2 ^ 30 + lenM1 * 2 ^ 24 + 0xD4 * 2 ^ 16 + loc * 2 ^ 12 + base)

/-- The word of a well-formed instruction in its own format. -/
def encode : Instr → List Byte
  | .probe => hcmdWord 0x01 0
  | .send len => hcmdWord 0x02 len
  | .recv cap => hcmdWord 0x03 cap
  | .release force => hcmdWord 0x04 force.toNat
  | .shutdown => hcmdWord 0x05 0
  | .i2cRead => [0x10]
  | .i2cWrite => [0x11]
  | .spiRead => [0x12]
  | .spiWrite => [0x13]
  | .readyWait => [0x14]
  | .spiXfer => [0x15]
  | .checkLocality => [0x20]
  | .requestLocality => [0x21]
  | .releaseLocality => [0x22]
  | .getBurstAndStatus => [0x30]
  | .readStatus => [0x31]
  | .setReady => [0x32]
  | .waitCommandReady => [0x40]
  | .fifoWriteBody => [0x41]
  | .writeGo => [0x42]
  | .fifoReadBody => [0x43]
  | .cleanup => [0x44]
  | .i2cAddrAccess loc => i2cAddrWord 0x0 loc
  | .i2cAddrSts loc => i2cAddrWord 0x1 loc
  | .i2cAddrDataFifo loc => i2cAddrWord 0x5 loc
  | .i2cAddrDidVid loc => i2cAddrWord 0x6 loc
  | .spiHdrReadAccess lenM1 loc => spiHdrWord 1 lenM1 loc 0x000
  | .spiHdrWriteAccess lenM1 loc => spiHdrWord 0 lenM1 loc 0x000
  | .spiHdrReadSts lenM1 loc => spiHdrWord 1 lenM1 loc 0x018
  | .spiHdrWriteSts lenM1 loc => spiHdrWord 0 lenM1 loc 0x018
  | .spiHdrReadDataFifo lenM1 loc => spiHdrWord 1 lenM1 loc 0x024
  | .spiHdrWriteDataFifo lenM1 loc => spiHdrWord 0 lenM1 loc 0x024
  | .spiHdrReadDidVid lenM1 loc => spiHdrWord 1 lenM1 loc 0xF00
  | .stsGoVal => [0x20, 0x00, 0x00, 0x00]
  | .stsReadyVal => [0x40, 0x00, 0x00, 0x00]
  | .accessReqVal => [0x02]
  | .accessRelVal => [0x20]

end Sys2Proof
end

