-- ==== Sys2Proof/Machine/State.lean ====
section
/-! DEFINITION. The state of the engine (10_state.md R30 to R50), plain data, with the reasons a step can
stop and the state right after attach, which is the engine's reset (70_reset_and_hazards.md R340). -/

namespace Sys2Proof.Machine

/-- The session state, the engine's program counter (R33). -/
inductive Sess where
  | idle | localityRequested | commandReadyWait | sending | started | receiving | localityReleased
deriving DecidableEq, Repr, Inhabited

/-- Which wait expired (60_exceptions.md R300). -/
inductive TimeoutKind where
  | ready | spiStall | locality | status | commandReady
deriving DecidableEq, Repr

/-- Which protocol check failed (R300). -/
inductive ViolationKind where
  | badFirstBurst | dataStillExpected | dataStillAvailable | shutdownMismatch
deriving DecidableEq, Repr

/-- The errors a procedure raises (R300), with the information each records. -/
inductive Err where
  | timeout (kind : TimeoutKind)
  | invalidDeviceState (access : Byte)
  | protocolViolation (kind : ViolationKind)
  | bufferTooSmall (expected : Word) (cap : Nat)
  | insufficientResources (n : Nat)
  | unsupportedDevice (id : Word)
  /-- the bus's own error value, unchanged (40_transport.md R158) -/
  | io (e : Nat)
deriving DecidableEq, Repr

/-- The TPM chip families (00_scope.md R4). -/
inductive Family where
  | cr50 | ti50
deriving DecidableEq, Repr

/-- The value of a successful host command (10_state.md R37). -/
inductive HostVal where
  | unit
  | count (c : Word)
  | family (f : Family)
deriving DecidableEq, Repr

/-- The host-visible outcome of the last host command (R37). -/
inductive HostResult where
  | ok (v : HostVal)
  | err (e : Err)
deriving DecidableEq, Repr

/-- The value a procedure returns (00_scope.md R13). -/
inductive RetVal where
  | unit
  | bytes (bs : List Byte)
  | burstStatus (burst : Half) (status : Byte)
  | status (s : Byte)
  | count (c : Word)
deriving DecidableEq, Repr

/-- What a procedure run by its own code returned: `Ok(v)` or `Err(e)` (R13). -/
inductive Ret where
  | ok (v : RetVal)
  | err (e : Err)
deriving DecidableEq, Repr

/-- The working registers `x[...]` (10_state.md R31). -/
structure Regs where
  status : Byte
  burst : Half
  access : Byte
  sent : Word
  limit : Word
  cur : Word
  expected : Word
  n : Word
  t0 : Nat
  t1 : Nat
  tries : Byte
  id : Word
deriving DecidableEq, Repr

/-- Where the bytes of a FIFO write come from (43_fifo_transfer.md, `srcbyte`). -/
inductive Src where
  | cmdbuf | shutdownCmd
deriving DecidableEq, Repr

/-- MODEL's own: the operands of a procedure run by its own code; UOP words carry none (log 5). -/
structure Args where
  dir : Dir
  loc : Nat
  kind : Kind
  n : Nat
  payload : List Byte
  mask : Byte
  len : Nat
  src : Src
  cap : Nat
  force : Bool
deriving DecidableEq, Repr

/-- The SPI controller's lock (10_state.md R45). -/
inductive Lock where
  | free
  /-- held by the engine -/
  | engine
  /-- held by another user of the controller -/
  | other
deriving DecidableEq, Repr

/-- Host buffer bytes as (index, byte) pairs: indices strictly rising, no byte equal to `bufFill`. -/
abbrev Memory := List Host.Cell

/-- What an unlisted host buffer byte reads as (DESIGN CHOICE, log 13). -/
def bufFill : Byte := 0x00

/-- The host buffers' size: the largest length or capacity a command names (30_encoding.md R127). -/
def bufSize : Nat := 0xFFFFFF

/-- A port primitive of 00_scope.md R15 that waits for the environment. -/
inductive Prim where
  | busWrite (bs : List Byte)
  | busRead (n : Nat)
  | now
  | sleep (ms : Nat)
  | readyFlag
  | spiLock
deriving DecidableEq, Repr

/-- The host buffers (10_state.md R48). -/
inductive HostBuf where
  | cmdbuf | rspbuf
deriving DecidableEq, Repr

/-- A port event of R15, recorded when it completes (log 26). -/
inductive Event where
  | busWrite (bs : List Byte)
  | busWriteErr (bs : List Byte) (e : Nat)
  | busRead (bs : List Byte)
  | busReadErr (n : Nat) (e : Nat)
  | lock
  | unlock
  | readyClear
  | readyFlag (seen : Bool)
  | now (t : Nat)
  | sleep (ms : Nat)
  | memRead (buf : HostBuf) (i : Nat) (v : Byte)
  | memWrite (i : Nat) (v : Byte)
deriving DecidableEq, Repr

/-- The engine with its ports: R30's tuple, and what R30 lists as outside it. -/
structure Engine where
  cfg : Cfg
  attached : Bool
  sess : Sess
  busy : Bool
  ready : Bool
  /-- the ready-signal path is enabled (60_exceptions.md R307) -/
  readyPath : Bool
  scratch : List Byte
  x : Regs
  result : HostResult
  /-- the error an abort has saved while its cleanup runs (R304) -/
  pending : Option Err
  lock : Lock
  clock : Nat
  cmdbuf : Memory
  rspbuf : Memory
  /-- MODEL's own: a procedure code's operands (log 5) -/
  args : Args
  /-- MODEL's own: what a procedure run by its own code returned (log 5) -/
  ret : Ret
  /-- MODEL's own: the environment's answers not yet taken, oldest first (log 1) -/
  inbox : List Answer
  /-- MODEL's own: the port events, oldest first (log 26) -/
  trace : List Event
deriving DecidableEq, Repr

/-- MODEL's own: an instruction in progress. The engine's sequence is fixed (20_memory.md R97), so the
engine as it stood when the instruction began, with the answers it has had since (`start.inbox`), fixes
the place inside the instruction (log 2). -/
structure Running where
  instr : Instr
  start : Engine
  /-- the primitive the engine is blocked at -/
  waits : Prim
deriving DecidableEq, Repr

/-- MODEL's own: an instruction word and the format of the place it stands in (log 3). -/
structure Slot where
  fmt : Format
  bytes : List Byte
deriving DecidableEq, Repr

/-- The whole machine. -/
structure State extends Engine where
  running : Option Running
  slot : Option Slot
  /-- MODEL's own: how many free answers have been drawn (log 1) -/
  drawn : Nat
  /-- MODEL's own: how many free host moves have been taken (log 4) -/
  hostTurn : Nat
deriving DecidableEq, Repr

/-- Why the machine stops. -/
inductive Fault where
  /-- Raised by MemRead and MemWrite at an index no host command can name (00_scope.md R15, 20_memory.md
  R80), and by `srcbyte` beyond SHUTDOWN_CMD. Only operands outside R221's and R224's ranges reach it.
  Safe: the spec gives such an access no meaning. -/
  | bufferRange (i : Nat)
deriving DecidableEq, Repr

/-- Why the machine gives an instruction no step. -/
inductive Refusal where
  /-- The instruction has no meaning in this model. Raised by `exec`'s arms only; no arm raises it.
  Safe. -/
  | notModelled (mnemonic : String)
  /-- A host command while `busy`, or any word while an instruction is in progress (10_state.md R35,
  60_exceptions.md R311). Raised by the host commands and by `step`. Safe: the spec refuses it. -/
  | hostBusy
  /-- A host command that R260's table does not allow in the session state (44_session.md R260, R311).
  Raised by PROBE, SEND, RECV and SHUTDOWN. Safe: the spec refuses it. -/
  | hostOrder
  /-- A word after detach (70_reset_and_hazards.md R341). Raised by `step`. Safe: the handle does not
  exist. -/
  | detached
  /-- A reserved or illegal word (30_encoding.md R124). Raised by `step`. Safe: the spec refuses it. -/
  | badWord (r : Reject)
  /-- A configuration that breaks R10. Raised by the host's attach. Safe: the spec refuses it. -/
  | badConfig
  /-- A procedure or wire encoding of the transport variant this handle does not use (00_scope.md R3,
  R15; log 15). Raised by the transport's rows. Safe: that unit is absent. -/
  | otherTransport
  /-- A locality operand that does not fit the wire encoding (20_memory.md R81, R124 (c); log 16).
  Raised by the transport's rows. Safe: the spec refuses it. -/
  | localityRange
deriving DecidableEq, Repr

/-- Working registers at attach: R50 gives no value; zero is a DESIGN CHOICE (log 10). -/
def Regs.zero : Regs where
  status := 0
  burst := 0
  access := 0
  sent := 0
  limit := 0
  cur := 0
  expected := 0
  n := 0
  t0 := 0
  t1 := 0
  tries := 0
  id := 0

/-- The operand record at attach: a DESIGN CHOICE (log 28). -/
def Args.zero : Args where
  dir := .read
  loc := 0
  kind := .access
  n := 0
  payload := []
  mask := 0
  len := 0
  src := .cmdbuf
  cap := 0
  force := false

/-- The machine right after attach (R50, R340), on I2C with R9's values (TRANSPORT and CLK_PER_MS are
OPEN in the spec: log 9). -/
def State.reset : State where
  cfg := Cfg.standard .i2c
  attached := true
  sess := .idle
  busy := false
  ready := false
  readyPath := true
  scratch := List.replicate 65 0
  x := Regs.zero
  result := .ok .unit
  pending := none
  lock := .free
  clock := 0
  cmdbuf := []
  rspbuf := []
  args := Args.zero
  ret := .ok .unit
  inbox := []
  trace := []
  running := none
  slot := none
  drawn := 0
  hostTurn := 0

end Sys2Proof.Machine
end

