-- ==== Sys2Proof/Machine/Ops.lean ====
section
/-! DEFINITION. The operations every procedure is made of: the control forms of 00_scope.md R13, the port
primitives of R15, the host buffers, the bounded loops, the abort (60_exceptions.md R304, R305), and how
an instruction is started and carried on (log 2). -/

namespace Sys2Proof.Machine

/-! ### Updates of the engine -/

/-- The engine after the environment's answer to a primitive: the answer is used up, the clock has grown
(R47), an edge has set the ready flag if the path is enabled (R36, D36), and, on SPI, other users of
the controller have come or gone while the engine did not hold it (R45). -/
def Engine.settle (e : Engine) (a : Answer) (rest : List Answer) : Engine :=
  { e with
    inbox := rest
    clock := e.clock + a.ticks
    ready := e.ready || (a.edge && e.readyPath)
    lock :=
      if e.lock = .engine ∨ e.cfg.transport = .i2c then e.lock
      else if a.lockFree then .free else .other }

/-- Record a port event (R15). -/
def Engine.log (e : Engine) (ev : Event) : Engine :=
  { e with trace := e.trace ++ [ev] }

/-- The clock has grown by `t` ticks. -/
def Engine.addTicks (e : Engine) (t : Nat) : Engine :=
  { e with clock := e.clock + t }

/-- Write the ready flag. -/
def Engine.setReady (e : Engine) (b : Bool) : Engine :=
  { e with ready := b }

/-- Write the SPI lock. -/
def Engine.setLock (e : Engine) (l : Lock) : Engine :=
  { e with lock := l }

/-- `pc <- S` (R14). -/
def Engine.setSess (e : Engine) (s : Sess) : Engine :=
  { e with sess := s }

/-- Write `busy`. -/
def Engine.setBusy (e : Engine) (b : Bool) : Engine :=
  { e with busy := b }

/-- Write `result`. -/
def Engine.setResult (e : Engine) (r : HostResult) : Engine :=
  { e with result := r }

/-- Save, or drop, the error an abort is running for (R304). -/
def Engine.setPending (e : Engine) (p : Option Err) : Engine :=
  { e with pending := p }

/-- Write the working registers. -/
def Engine.setX (e : Engine) (x : Regs) : Engine :=
  { e with x := x }

/-- Write the scratch buffer from byte 0; the bytes above keep what they held (40_transport.md R152). -/
def Engine.setScratch (e : Engine) (bs : List Byte) : Engine :=
  { e with scratch := bs ++ e.scratch.drop bs.length }

/-- Write what a procedure run by its own code returned. -/
def Engine.setRet (e : Engine) (r : Ret) : Engine :=
  { e with ret := r }

/-! ### Host buffer bytes -/

/-- The byte at index `a`. -/
def memGet : Memory → Nat → Byte
  | [], _ => bufFill
  | (b, w) :: rest, a => if a = b then w else memGet rest a

/-- Put a cell before `rest`, unless it holds what an unlisted byte reads as. -/
def memCons (a : Nat) (v : Byte) (rest : Memory) : Memory :=
  if v = bufFill then rest else (a, v) :: rest

/-- Write one byte, keeping the canonical form. -/
def memSet : Memory → Nat → Byte → Memory
  | [], a, v => memCons a v []
  | (b, w) :: rest, a, v =>
    if a < b then memCons a v ((b, w) :: rest)
    else if a = b then memCons a v rest
    else (b, w) :: memSet rest a v

/-- Write a byte string from index `a` on. -/
def memSetAll (m : Memory) (a : Nat) : List Byte → Memory
  | [] => m
  | v :: vs => memSetAll (memSet m a v) (a + 1) vs

/-- The `n` bytes from index `a` on. -/
def memBytes (m : Memory) (a n : Nat) : List Byte :=
  (List.range n).map fun i => memGet m (a + i)

/-- Indices above `lo` in rising order, and no byte that equals the fill. -/
def memSortedFrom : Option Nat → Memory → Bool
  | _, [] => true
  | lo, (a, v) :: rest =>
    (match lo with
      | none => true
      | some b => decide (b < a))
      && decide (v ≠ bufFill) && memSortedFrom (some a) rest

/-- The canonical form of a host buffer. -/
def Memory.wf (m : Memory) : Bool :=
  memSortedFrom none m

/-- Write byte `i` of RSPBUF. -/
def Engine.setRsp (e : Engine) (i : Nat) (v : Byte) : Engine :=
  { e with rspbuf := memSet e.rspbuf i v }

/-! ### Procedures -/

/-- Why a procedure has not returned a value. -/
inductive Stop where
  /-- it raised an error (R13) -/
  | raised (e : Err)
  /-- it waits for the environment at a primitive -/
  | blocked (p : Prim)
  /-- it made an access that does not exist -/
  | faulted (f : Fault)
deriving DecidableEq, Repr

/-- A procedure of the engine: from the engine's state to a value or a stop, and the state then. -/
abbrev P (α : Type) := EStateM Stop Engine α

/-- The engine's present state. -/
def look : P Engine := fun e => .ok e e

/-- Update the engine's state. -/
def change (f : Engine → Engine) : P Unit := fun e => .ok () (f e)

/-- Write working registers: `x[name] <- v` (R14). -/
def onX (f : Regs → Regs) : P Unit := change fun e => e.setX (f e.x)

/-- Record a port event. -/
def record (ev : Event) : P Unit := change fun e => e.log ev

/-- `raise e` (R13). -/
def raise {α : Type} (er : Err) : P α := fun e => .error (.raised er) e

/-- Stop with a fault. -/
def stopFault {α : Type} (f : Fault) : P α := fun e => .error (.faulted f) e

/-- Wait at a primitive. -/
def block {α : Type} (p : Prim) : P α := fun e => .error (.blocked p) e

/-- `r <- try P(...)`: the whole result, `Ok(v)` or `Err(e)`; only a raised error is caught (R13). -/
def attempt {α : Type} (p : P α) : P (Except Err α) := fun e =>
  match p e with
  | .ok a t => .ok (.ok a) t
  | .error (.raised er) t => .ok (.error er) t
  | .error (.blocked w) t => .error (.blocked w) t
  | .error (.faulted f) t => .error (.faulted f) t

/-- Raise the error of a result, or give its value. -/
def ofExcept {α : Type} : Except Err α → P α
  | .ok a => pure a
  | .error er => raise er

/-- `ignore P(...)`: run P and discard its result, an error included (R13). -/
def ignore {α : Type} (p : P α) : P Unit := do
  let _ ← attempt p
  pure ()

/-- Run P only if `c`. -/
def onlyIf (c : Bool) (p : P Unit) : P Unit :=
  match c with
  | true => p
  | false => pure ()

/-- Take the environment's next answer to the primitive `p`; with none there, the engine waits. -/
def take (p : Prim) : P Answer := fun e =>
  match e.inbox with
  | [] => .error (.blocked p) e
  | a :: rest => .ok a (e.settle a rest)

/-! ### Loops

No loop of the engine has a cap (43_fifo_transfer.md R227, 70_reset_and_hazards.md R345). Each turn that
does not end its loop takes at least one answer, so one more turn than there are answers ends, or waits
for the environment; Laws/Loops.lean proves that no further turn would change anything. -/

/-- Run `body` until it gives a value, at most `fuel` turns. -/
def untilDone {α : Type} (body : P (Option α)) : Nat → P α
  | 0 => block .now
  | k + 1 => body >>= fun
    | some a => pure a
    | none => untilDone body k

/-- Run `body` until it gives a value. -/
def repeatP {α : Type} (body : P (Option α)) : P α := fun e =>
  untilDone body (e.inbox.length + 1) e

/-- Run `body` from a value, each turn on what the turn before gave, until it gives a result; at most `fuel`
turns. -/
def untilDoneFrom {σ α : Type} (body : σ → P (σ ⊕ α)) : Nat → σ → P α
  | 0, _ => block .now
  | k + 1, v => body v >>= fun
    | .inr a => pure a
    | .inl w => untilDoneFrom body k w

/-- Run `body` from a value until it gives a result. -/
def repeatFrom {σ α : Type} (body : σ → P (σ ⊕ α)) (v : σ) : P α := fun e =>
  untilDoneFrom body (e.inbox.length + 1) v e

/-! ### Port primitives (R15, R45 to R48) -/

/-- `BusWrite(bytes)` (R46). -/
def busWrite (bs : List Byte) : P Unit := do
  let a ← take (.busWrite bs)
  match a.err with
  | some er => do
    record (.busWriteErr bs er)
    raise (.io er)
  | none => record (.busWrite bs)

/-- A read of n bytes takes exactly n: the answer's bytes, cut or filled with zeros (log 17). -/
def answerBytes (n : Nat) (bs : List Byte) : List Byte :=
  (bs ++ List.replicate n 0).take n

/-- `BusRead(n)` (R46). -/
def busRead (n : Nat) : P (List Byte) := do
  let a ← take (.busRead n)
  match a.err with
  | some er => do
    record (.busReadErr n er)
    raise (.io er)
  | none => do
    record (.busRead (answerBytes n a.bytes))
    pure (answerBytes n a.bytes)

/-- `Now()` (R47). -/
def now : P Nat := do
  let _ ← take .now
  let e ← look
  record (.now e.clock)
  pure e.clock

/-- `Sleep(ms)`: the clock grows by at least `ms * CLK_PER_MS` (R47). -/
def sleep (ms : Nat) : P Unit := do
  let _ ← take (.sleep ms)
  change fun e => e.addTicks (ms * e.cfg.clkPerMs)
  record (.sleep ms)

/-- `expired(t0, T)`: `Now() - t0 >= T * CLK_PER_MS` (R16). -/
def expired (t0 budget : Nat) : P Bool := do
  let t ← now
  let e ← look
  pure (decide (budget * e.cfg.clkPerMs ≤ t - t0))

/-- `ReadyClear()` (R36). It waits for nothing. -/
def readyClear : P Unit := do
  change fun e => e.setReady false
  record .readyClear

/-- `ReadyFlag()` (R36). -/
def readyFlag : P Bool := do
  let _ ← take .readyFlag
  let e ← look
  record (.readyFlag e.ready)
  pure e.ready

/-- One turn of waiting for the SPI controller (R45). -/
def spiLockTurn : P (Option Unit) := do
  let a ← take .spiLock
  match a.lockFree with
  | true => do
    change fun e => e.setLock .engine
    record .lock
    pure (some ())
  | false => pure none

/-- `SpiLock()`: waits until the lock is free, and takes it; it never times out (R45, U20). -/
def spiLock : P Unit := repeatP spiLockTurn

/-- `SpiUnlock()` (R45). -/
def spiUnlock : P Unit := do
  change fun e => e.setLock .free
  record .unlock

/-- The bytes of a host buffer. -/
def Engine.buffer (e : Engine) : HostBuf → Memory
  | .cmdbuf => e.cmdbuf
  | .rspbuf => e.rspbuf

/-- `MemRead(buf, i, 1)` (R15; 20_memory.md R80). The engine reads CMDBUF and never RSPBUF (R48). -/
def memRead (buf : HostBuf) (i : Nat) : P Byte :=
  if i < bufSize then do
    let e ← look
    record (.memRead buf i (memGet (e.buffer buf) i))
    pure (memGet (e.buffer buf) i)
  else stopFault (.bufferRange i)

/-- `MemWrite(RSPBUF, i, 1, v)` (R48). The other bytes keep what they held, those at or beyond a RECV's count
among them, which R48 leaves unspecified (DESIGN CHOICE, log 37). -/
def memWrite (i : Nat) (v : Byte) : P Unit :=
  if i < bufSize then do
    change fun e => e.setRsp i v
    record (.memWrite i v)
  else stopFault (.bufferRange i)

/-- `MemWrite` of a byte string, one byte at a time in rising order (20_memory.md R98). -/
def memWriteAll (i : Nat) : List Byte → P Unit
  | [] => pure ()
  | v :: vs => do
    memWrite i v
    memWriteAll (i + 1) vs

/-! ### Taking an error to the host: the abort, and the end of a host command -/

/-- Abort entry and return (60_exceptions.md R304, R305): the error is saved, the command's abort path
runs, and the saved error is what the command ends with. Paths raise nothing, so aborts never nest. -/
def abort {α : Type} (er : Err) (path : P Unit) : P α := do
  change fun e => e.setPending (some er)
  path
  change fun e => e.setPending none
  raise er

/-- The host result of a command's outcome (10_state.md R37). -/
def hostResultOf : Except Err HostVal → HostResult
  | .ok v => .ok v
  | .error er => .err er

/-- A host command: `busy` is true from here until `result` is written (R35). -/
def hostCommand (p : P HostVal) : P Unit := do
  change fun e => e.setBusy true
  let r ← attempt p
  change fun e => (e.setResult (hostResultOf r)).setBusy false

/-- What a procedure's outcome is recorded as. -/
def retOf : Except Err RetVal → Ret
  | .ok v => .ok v
  | .error er => .err er

/-- A procedure run by its own code: its outcome goes to `ret` (log 5). -/
def procedure (p : P RetVal) : P Unit := do
  let r ← attempt p
  change fun e => e.setRet (retOf r)

/-! ### Starting an instruction and carrying it on (log 2) -/

/-- Run an instruction's body on the answers there are. If it waits for the environment, the machine
keeps what is needed to carry it on. -/
def launch (i : Instr) (body : P Unit) (s : State) : Host.Outcome State Fault Refusal :=
  match body s.toEngine with
  | .ok _ e => .next { s with toEngine := e, running := none }
  | .error (.raised _) e => .next { s with toEngine := e, running := none }
  | .error (.blocked p) e =>
    .next { s with
      toEngine := e
      running := some { instr := i, start := s.toEngine, waits := p } }
  | .error (.faulted f) _ => .fault f

/-- Start a host command if it is allowed (44_session.md R260, 60_exceptions.md R311). -/
def launchHost (i : Instr) (allowed : Bool) (p : P HostVal) (s : State) :
    Host.Outcome State Fault Refusal :=
  if s.busy then .refused .hostBusy
  else if allowed then launch i (hostCommand p) s
  else .refused .hostOrder

/-- Start a procedure or a wire encoding of one transport variant, at a locality its encoding holds
(00_scope.md R3, R15; 20_memory.md R81; log 15, log 16). -/
def launchOn (t : Transport) (loc : Nat) (i : Instr) (p : P RetVal) (s : State) :
    Host.Outcome State Fault Refusal :=
  if s.cfg.transport ≠ t then .refused .otherTransport
  else if loc ≤ t.maxLoc then launch i (procedure p) s
  else .refused .localityRange

/-- The answers the environment gives next: those in the inbox, else one free answer. -/
def nextAnswers (s : State) : List Answer :=
  match s.inbox with
  | [] => [Config.freeAnswer s.drawn]
  | a :: rest => a :: rest

/-- How many free answers `nextAnswers` draws. -/
def drawnNext (s : State) : Nat :=
  match s.inbox with
  | [] => s.drawn + 1
  | _ :: _ => s.drawn

/-- The state from which the instruction in progress is run again, with the answers it had and the new
ones: it comes to where it waited, and goes on from there. -/
def resumeState (r : Running) (s : State) : State :=
  { s with
    toEngine := { r.start with inbox := r.start.inbox ++ nextAnswers s }
    running := none
    drawn := drawnNext s }

end Sys2Proof.Machine
end

