-- ==== Sys2Proof/Machine/Operands.lean ====
section
/-! DEFINITION. The operand forms: byte-order helpers, register addresses, frame headers, register values
and the fixed byte strings (00_scope.md R12; 20_memory.md R81 to R87; 30_encoding.md R111 to R123). -/

namespace Sys2Proof.Machine

/-- `le16(x, y) = x | (y << 8)` (R12). -/
def le16 (x y : Byte) : Half :=
  x.setWidth 16 ||| (y.setWidth 16 <<< 8)

/-- `be32(a, b, c, d)` (R12). -/
def be32 (a b c d : Byte) : Word :=
  (a.setWidth 32 <<< 24) ||| (b.setWidth 32 <<< 16) ||| (c.setWidth 32 <<< 8) ||| d.setWidth 32

/-- `le32(a, b, c, d)` (R12). -/
def le32 (a b c d : Byte) : Word :=
  a.setWidth 32 ||| (b.setWidth 32 <<< 8) ||| (c.setWidth 32 <<< 16) ||| (d.setWidth 32 <<< 24)

/-- `b[i]`, byte `i` of a string (R12). R12 gives a string no byte beyond its length; such a read gives a
free value (DESIGN CHOICE, log 34). -/
def byteAt (bs : List Byte) (i : Nat) : Byte :=
  bs.getD i (Config.absentByte bs i)

/-- The flag byte of an STS snapshot (30_encoding.md R119). -/
def snapStatus (b : List Byte) : Byte :=
  byteAt b 0

/-- The burst count of an STS snapshot, little-endian in bytes 1 and 2 (R84, R119). -/
def snapBurst (b : List Byte) : Half :=
  le16 (byteAt b 1) (byteAt b 2)

/-- The declared length of a TPM header, big-endian in bytes 2 to 5 (R85, R121). Where HDR_SIZE is below 6 a
first chunk may be shorter than that; each header byte it does not have is a free value (DESIGN CHOICE,
log 34). -/
def declaredLength (h : List Byte) : Word :=
  be32 (byteAt h 2) (byteAt h 3) (byteAt h 4) (byteAt h 5)

/-- The DID_VID value, little-endian (R87). -/
def didVidValue (b : List Byte) : Word :=
  le32 (byteAt b 0) (byteAt b 1) (byteAt b 2) (byteAt b 3)

/-- `I2C_BASE[kind]` (R82). -/
def i2cBase (m : TpmMap) : Kind → BitVec 4
  | .access => m.i2cBaseAccess
  | .sts => m.i2cBaseSts
  | .dataFifo => m.i2cBaseDataFifo
  | .didVid => m.i2cBaseDidVid

/-- `SPI_BASE[kind]` (R82). -/
def spiBase (m : TpmMap) : Kind → BitVec 12
  | .access => m.spiBaseAccess
  | .sts => m.spiBaseSts
  | .dataFifo => m.spiBaseDataFifo
  | .didVid => m.spiBaseDidVid

/-- `i2c_addr(loc, kind) = I2C_BASE[kind] | (loc << 4)` (R81, R111). -/
def i2cAddr (m : TpmMap) (loc : Nat) (kind : Kind) : Byte :=
  (i2cBase m kind).setWidth 8 ||| (BitVec.ofNat 8 loc <<< 4)

/-- `spi_addr(loc, kind) = SPI_BASE[kind] | (loc << 12)`, 14 bits (R81, R115). -/
def spiAddr (m : TpmMap) (loc : Nat) (kind : Kind) : BitVec 14 :=
  (spiBase m kind).setWidth 14 ||| (BitVec.ofNat 14 loc <<< 12)

/-- Bit 7 of an SPI header's byte 0 (R114). -/
def spiRwBit (m : TpmMap) (dir : Dir) : Byte :=
  if (dir == .read) = m.spiRwRead then 0x80 else 0x00

/-- Bit 6 of an SPI header's byte 0 (R114). -/
def spiMarkerBit (m : TpmMap) : Byte :=
  if m.spiMarker then 0x40 else 0x00

/-- `spi_header(dir, loc, kind, n)` (R115); its address is big-endian (R86). -/
def spiHeader (m : TpmMap) (dir : Dir) (loc : Nat) (kind : Kind) (n : Nat) : List Byte :=
  [ spiRwBit m dir ||| spiMarkerBit m ||| BitVec.ofNat 8 (n - 1),
    m.spiVendor,
    (spiAddr m loc kind >>> 8).setWidth 8,
    (spiAddr m loc kind).setWidth 8 ]

/-- STS_GO_VAL (R117). -/
def stsGoBytes (m : TpmMap) : List Byte := [m.stsGo, 0, 0, 0]

/-- STS_READY_VAL (R117). -/
def stsReadyBytes (m : TpmMap) : List Byte := [m.stsCommandReady, 0, 0, 0]

/-- ACCESS_REQ_VAL (R118). -/
def accessReqBytes (m : TpmMap) : List Byte := [m.accessRequestUse]

/-- ACCESS_REL_VAL (R118). -/
def accessRelBytes (m : TpmMap) : List Byte := [m.accessActiveLocality]

/-- SHUTDOWN_CMD (R122). -/
def shutdownCmd : List Byte :=
  [0x80, 0x01, 0x00, 0x00, 0x00, 0x0C, 0x00, 0x00, 0x01, 0x45, 0x00, 0x01]

/-- SHUTDOWN_RSP (R122). -/
def shutdownRsp : List Byte :=
  [0x80, 0x01, 0x00, 0x00, 0x00, 0x0A, 0x00, 0x00, 0x00, 0x00]

/-- The family tag (R123, D25). -/
def familyTag : Family → Nat
  | .cr50 => 0
  | .ti50 => 1

/-- The numeric code and sub-code of an error; 0 stands for "no sub-code" (60_exceptions.md R300). -/
def errCode : Err → Nat × Nat
  | .timeout .ready => (1, 1)
  | .timeout .spiStall => (1, 2)
  | .timeout .locality => (1, 3)
  | .timeout .status => (1, 4)
  | .timeout .commandReady => (1, 5)
  | .invalidDeviceState _ => (2, 0)
  | .protocolViolation .badFirstBurst => (3, 1)
  | .protocolViolation .dataStillExpected => (3, 2)
  | .protocolViolation .dataStillAvailable => (3, 3)
  | .protocolViolation .shutdownMismatch => (3, 4)
  | .bufferTooSmall _ _ => (4, 0)
  | .insufficientResources _ => (5, 0)
  | .unsupportedDevice _ => (6, 0)
  | .io _ => (7, 0)

/-- `srcbyte(i)`: CMDBUF[i], or SHUTDOWN_CMD[i] (43_fifo_transfer.md). -/
def srcByte (src : Src) (i : Nat) : P Byte :=
  match src with
  | .cmdbuf => memRead .cmdbuf i
  | .shutdownCmd =>
    match shutdownCmd[i]? with
    | some b => pure b
    | none => stopFault (.bufferRange i)

/-- `[srcbyte(i), ..., srcbyte(i + k - 1)]`, read in rising order (20_memory.md R98). -/
def srcBytes (src : Src) (i : Nat) : Nat → P (List Byte)
  | 0 => pure []
  | k + 1 => do
    let b ← srcByte src i
    let bs ← srcBytes src (i + 1) k
    pure (b :: bs)

/-- The first `n` bytes of the payload operand, zeros beyond it (log 7). -/
def payloadOf (a : Args) (n : Nat) : List Byte :=
  answerBytes n a.payload

end Sys2Proof.Machine
end

