-- ==== Sys2Proof/Machine/Flags.lean ====
section
/-! DEFINITION. The tests of flag bytes (30_encoding.md R116, R119, R120; 42_status_burst.md R201). The
engine has no condition code of its own (10_state.md R37). -/

namespace Sys2Proof.Machine

/-- Every bit of `m` is set in `s` (R119). -/
def hasAll (s m : Byte) : Bool :=
  s &&& m == m

/-- Some bit of `m` is set in `s` (R119). -/
def hasAny (s m : Byte) : Bool :=
  s &&& m != 0

/-- Mask VALID (R119). -/
def maskValid (m : TpmMap) : Byte := m.stsValid

/-- Mask VALID|DATA_AVAIL (R119). -/
def maskValidAvail (m : TpmMap) : Byte := m.stsValid ||| m.stsDataAvail

/-- Mask VALID|DATA_EXPECT (R119). -/
def maskValidExpect (m : TpmMap) : Byte := m.stsValid ||| m.stsDataExpect

/-- `cmd_ready(s)` (R119). -/
def cmdReady (m : TpmMap) (s : Byte) : Bool := hasAny s m.stsCommandReady

/-- `data_avail(s)` (R119). -/
def dataAvail (m : TpmMap) (s : Byte) : Bool := hasAny s m.stsDataAvail

/-- `data_expect(s)` (R119). -/
def dataExpect (m : TpmMap) (s : Byte) : Bool := hasAny s m.stsDataExpect

/-- `locality_ok(a)`: VALID and ACTIVE_LOCALITY (R120). -/
def localityOk (m : TpmMap) (a : Byte) : Bool :=
  hasAll a (m.accessValid ||| m.accessActiveLocality)

/-- `release_wanted(a)`: VALID and REQUEST_PENDING (R120). -/
def releaseWanted (m : TpmMap) (a : Byte) : Bool :=
  hasAll a (m.accessValid ||| m.accessRequestPending)

/-- Bit 0 of an SPI stall byte: not stalled (R116). -/
def notStalled (s : Byte) : Bool :=
  s &&& 0x01 == 0x01

/-- `accept(mask, status, burst)` (R201). -/
def accept (burstCap : Nat) (mask status : Byte) (burst : Half) : Bool :=
  hasAll status mask && decide (1 ≤ burst.toNat) && decide (burst.toNat + 1 ≤ burstCap)

end Sys2Proof.Machine
end

