-- ==== Sys2Proof/Machine/Transport.lean ====
section
/-! DEFINITION. Register transport, I2C and SPI (40_transport.md R150 to R158): the procedures, and the
meanings of their codes. The procedures above this file know only `regRead` and `regWrite`. -/

namespace Sys2Proof.Machine

/-! ### I2C -/

/-- Whether the flag is set at the moment the deadline is first seen as expired: then it counts as seen
(R157, its corner cases; D3). It is the flag as the clock read left it, and takes no further answer; a flag
that counts as seen is recorded as a `ReadyFlag()` that gave 1 (DEDUCED, log 35). -/
def readyAtDeadline : P Bool := do
  let e ← look
  onlyIf e.ready (record (.readyFlag true))
  pure e.ready

/-- One turn of READY_WAIT: the flag is tested before the deadline, and one set by the time the deadline is
first seen as expired counts as seen (R157, R303 (b), D3). -/
def readyWaitTurn : P (Option Unit) := do
  let seen ← readyFlag
  match seen with
  | true => pure (some ())
  | false => do
    let e ← look
    let late ← expired e.x.t1 e.cfg.tIrq
    match late with
    | false => pure none
    | true => do
      let set ← readyAtDeadline
      match set with
      | true => pure (some ())
      | false => raise (.timeout .ready)

/-- READY_WAIT(T_IRQ) (R157). -/
def readyWait : P Unit := do
  let t ← now
  onX fun x => { x with t1 := t }
  repeatP readyWaitTurn

/-- On an error, clear the ready flag and raise the error again: every I2C error exit does (R151, R152,
R156). -/
def clearOnErr {α : Type} (p : P α) : P α := do
  let r ← attempt p
  match r with
  | .ok a => pure a
  | .error er => do
    readyClear
    raise er

/-- The bus write of an I2C transaction and the wait after it. The flag is cleared before the write,
never after it (70_reset_and_hazards.md R343). -/
def i2cSend (bs : List Byte) : P Unit := do
  readyClear
  clearOnErr (busWrite bs)
  clearOnErr readyWait

/-- I2C_READ (R151, 30_encoding.md R112). The length error leaves the flag 0 too (R156; log 14). -/
def i2cRead (loc : Nat) (kind : Kind) (n : Nat) : P (List Byte) := do
  let e ← look
  if e.cfg.maxXfer < n then clearOnErr (raise (.insufficientResources n))
  else do
    i2cSend [i2cAddr e.cfg.map loc kind]
    clearOnErr (busRead n)

/-- I2C_WRITE (R152, 30_encoding.md R113): address and payload are put together in the scratch buffer and
sent from there. A payload above MAX_XFER is refused too (20_memory.md R90, 30_encoding.md R124 (b);
log 33). -/
def i2cWrite (loc : Nat) (kind : Kind) (p : List Byte) : P Unit := do
  let e ← look
  if e.cfg.maxXfer < p.length ∨ e.cfg.scratchCap < p.length + 1 then
    clearOnErr (raise (.insufficientResources p.length))
  else do
    change fun e => e.setScratch (i2cAddr e.cfg.map loc kind :: p)
    let e ← look
    i2cSend (e.scratch.take (p.length + 1))

/-! ### SPI -/

/-- One turn of the stall poll: the bit is tested before the deadline (R153, R303 (b)). -/
def spiStallTurn : P (Option Unit) := do
  let s ← busRead 1
  match notStalled (byteAt s 0) with
  | true => pure (some ())
  | false => do
    let e ← look
    let late ← expired e.x.t1 e.cfg.tSpi
    match late with
    | true => raise (.timeout .spiStall)
    | false => pure none

/-- The payload of a frame (R153). -/
def spiPayload (dir : Dir) (n : Nat) (p : List Byte) : P (List Byte) :=
  match dir with
  | .read => busRead n
  | .write => do
    busWrite p
    pure []

/-- SPI_BODY: header, stall poll, payload (R153). -/
def spiBody (dir : Dir) (hdr : List Byte) (n : Nat) (p : List Byte) : P (List Byte) := do
  busWrite hdr
  let t ← now
  onX fun x => { x with t1 := t }
  repeatP spiStallTurn
  spiPayload dir n p

/-- SPI_XFER: one locked register transaction; the lock is freed on every exit (R153, 70 R344). -/
def spiXfer (dir : Dir) (loc : Nat) (kind : Kind) (n : Nat) (p : List Byte) : P (List Byte) := do
  let e ← look
  if n < 1 ∨ e.cfg.maxXfer < n then raise (.insufficientResources n)
  else do
    spiLock
    let r ← attempt (spiBody dir (spiHeader e.cfg.map dir loc kind n) n p)
    spiUnlock
    ofExcept r

/-- SPI_READ (R154). -/
def spiRead (loc : Nat) (kind : Kind) (n : Nat) : P (List Byte) :=
  spiXfer .read loc kind n []

/-- SPI_WRITE (R155). -/
def spiWrite (loc : Nat) (kind : Kind) (p : List Byte) : P Unit := do
  let _ ← spiXfer .write loc kind p.length p
  pure ()

/-! ### The contract (R150) -/

/-- `RegRead(loc, kind, n)` at the engine's locality. -/
def regRead (kind : Kind) (n : Nat) : P (List Byte) := do
  let e ← look
  match e.cfg.transport with
  | .i2c => i2cRead e.cfg.loc kind n
  | .spi => spiRead e.cfg.loc kind n

/-- `RegWrite(loc, kind, p)` at the engine's locality. -/
def regWrite (kind : Kind) (p : List Byte) : P Unit := do
  let e ← look
  match e.cfg.transport with
  | .i2c => i2cWrite e.cfg.loc kind p
  | .spi => spiWrite e.cfg.loc kind p

/-! ### The procedure codes -/

/-- The value of a procedure that returns bytes. -/
def asBytes (p : P (List Byte)) : P RetVal := do
  let bs ← p
  pure (.bytes bs)

/-- The value of a procedure that returns nothing. -/
def asUnit (p : P Unit) : P RetVal := do
  p
  pure .unit

/-- The value of a frame: the bytes of a read, nothing of a write (R153). -/
def asFrame (dir : Dir) (p : P (List Byte)) : P RetVal :=
  match dir with
  | .read => asBytes p
  | .write => do
    let _ ← p
    pure .unit

/-- I2C_READ, UOP 0x10 (R151). -/
def execI2cRead (s : State) : Host.Outcome State Fault Refusal :=
  launchOn .i2c s.args.loc .i2cRead (asBytes (i2cRead s.args.loc s.args.kind s.args.n)) s

/-- I2C_WRITE, UOP 0x11 (R152). -/
def execI2cWrite (s : State) : Host.Outcome State Fault Refusal :=
  launchOn .i2c s.args.loc .i2cWrite (asUnit (i2cWrite s.args.loc s.args.kind s.args.payload)) s

/-- SPI_READ, UOP 0x12 (R154). -/
def execSpiRead (s : State) : Host.Outcome State Fault Refusal :=
  launchOn .spi s.args.loc .spiRead (asBytes (spiRead s.args.loc s.args.kind s.args.n)) s

/-- SPI_WRITE, UOP 0x13 (R155). -/
def execSpiWrite (s : State) : Host.Outcome State Fault Refusal :=
  launchOn .spi s.args.loc .spiWrite (asUnit (spiWrite s.args.loc s.args.kind s.args.payload)) s

/-- READY_WAIT, UOP 0x14 (R157). It raises only with the flag 0, as R156 asks of every transport procedure. -/
def execReadyWait (s : State) : Host.Outcome State Fault Refusal :=
  launchOn .i2c 0 .readyWait (asUnit readyWait) s

/-- SPI_XFER, UOP 0x15 (R153); a WRITE carries the first n payload bytes. -/
def execSpiXfer (s : State) : Host.Outcome State Fault Refusal :=
  launchOn .spi s.args.loc .spiXfer
    (asFrame s.args.dir
      (spiXfer s.args.dir s.args.loc s.args.kind s.args.n (payloadOf s.args s.args.n))) s

end Sys2Proof.Machine
end

