-- ==== Sys2Proof/Machine/Locality.lean ====
section
/-! DEFINITION. The Locality Manager (41_locality.md R180 to R183). -/

namespace Sys2Proof.Machine

/-- CHECK_LOCALITY (R180). -/
def checkLocality : P Unit := do
  let b ← regRead .access 1
  onX fun x => { x with access := byteAt b 0 }
  let e ← look
  match localityOk e.cfg.map (byteAt b 0) with
  | true => pure ()
  | false => raise (.invalidDeviceState (byteAt b 0))

/-- The checks after REQUEST_USE, with `left` of LOC_TRIES still to make; a sleep stands between two
checks, none after the last (R181, D20). With LOC_TRIES = 0, which R10 admits, there is no check, as the
pseudocode's loop has none, though R16 has every bounded loop run its attempt once (DESIGN CHOICE, log 36). -/
def requestChecks : Nat → P Unit
  | 0 => raise (.timeout .locality)
  | left + 1 => do
    let e ← look
    onX fun x => { x with tries := BitVec.ofNat 8 (e.cfg.locTries - left) }
    let c ← attempt checkLocality
    match c with
    | .ok _ => pure ()
    | .error _ => do
      onlyIf (left != 0) (sleep e.cfg.locDelay)
      requestChecks left

/-- REQUEST_LOCALITY (R181). -/
def requestLocality : P Unit := do
  let c ← attempt checkLocality
  match c with
  | .ok _ => pure ()
  | .error _ => do
    let e ← look
    regWrite .access (accessReqBytes e.cfg.map)
    requestChecks e.cfg.locTries

/-- The write of a release (R182). -/
def relinquish : P Unit := do
  let e ← look
  ignore (regWrite .access (accessRelBytes e.cfg.map))

/-- RELEASE_LOCALITY(force): it never fails (R182, 90_conflicts.md C4). -/
def releaseLocality (force : Bool) : P Unit := do
  let r ← attempt (regRead .access 1)
  let e ← look
  match r with
  | .error _ => onlyIf (e.cfg.releaseWriteOnReadFail && force) relinquish
  | .ok b => do
    onX fun x => { x with access := byteAt b 0 }
    onlyIf (force || releaseWanted e.cfg.map (byteAt b 0)) relinquish

/-- CHECK_LOCALITY, UOP 0x20. -/
def execCheckLocality (s : State) : Host.Outcome State Fault Refusal :=
  launch .checkLocality (procedure (asUnit checkLocality)) s

/-- REQUEST_LOCALITY, UOP 0x21. -/
def execRequestLocality (s : State) : Host.Outcome State Fault Refusal :=
  launch .requestLocality (procedure (asUnit requestLocality)) s

/-- RELEASE_LOCALITY, UOP 0x22. -/
def execReleaseLocality (s : State) : Host.Outcome State Fault Refusal :=
  launch .releaseLocality (procedure (asUnit (releaseLocality s.args.force))) s

end Sys2Proof.Machine
end

