-- ==== Sys2Proof/Machine/StatusBurst.lean ====
section
/-! DEFINITION. The Status/Burst Reader (42_status_burst.md R200 to R203). -/

namespace Sys2Proof.Machine

/-- What a read of STS gives the poll: the snapshot's burst count and flags if it is accepted (R200,
R201). A snapshot that arrived is in `x[status]` and `x[burst]` whether it is accepted or not. -/
def noteSnapshot (mask : Byte) (r : Except Err (List Byte)) : P (Option (Half × Byte)) :=
  match r with
  | .error _ => pure none
  | .ok b => do
    onX fun x => { x with status := snapStatus b, burst := snapBurst b }
    let e ← look
    match accept e.cfg.burstCap mask (snapStatus b) (snapBurst b) with
    | true => pure (some (snapBurst b, snapStatus b))
    | false => pure none

/-- One turn of the poll: read, and on a failure or a mismatch sleep and then test the deadline (R200,
R303 (c)). -/
def burstTurn (mask : Byte) : P (Option (Half × Byte)) := do
  let r ← attempt (regRead .sts 4)
  let v ← noteSnapshot mask r
  match v with
  | some v => pure (some v)
  | none => do
    let e ← look
    sleep e.cfg.tShort
    let late ← expired e.x.t0 e.cfg.tLong
    match late with
    | true => raise (.timeout .status)
    | false => pure none

/-- GET_BURST_AND_STATUS(mask) (R200). -/
def getBurstAndStatus (mask : Byte) : P (Half × Byte) := do
  let t ← now
  onX fun x => { x with t0 := t }
  repeatP (burstTurn mask)

/-- The flag byte of a status read; a failed read reads as no flag set (R202, D7). -/
def statusOf : Except Err (List Byte) → Byte
  | .ok b => snapStatus b
  | .error _ => 0x00

/-- READ_STATUS: it never fails (R202). -/
def readStatus : P Byte := do
  let r ← attempt (regRead .sts 4)
  onX fun x => { x with status := statusOf r }
  pure (statusOf r)

/-- SET_READY: it never fails (R203). -/
def setReady : P Unit := do
  let e ← look
  ignore (regWrite .sts (stsReadyBytes e.cfg.map))

/-- The value GET_BURST_AND_STATUS returns. -/
def asBurstStatus (p : P (Half × Byte)) : P RetVal := do
  let v ← p
  pure (.burstStatus v.1 v.2)

/-- The value READ_STATUS returns. -/
def asStatus (p : P Byte) : P RetVal := do
  let v ← p
  pure (.status v)

/-- GET_BURST_AND_STATUS, UOP 0x30. -/
def execGetBurstAndStatus (s : State) : Host.Outcome State Fault Refusal :=
  launch .getBurstAndStatus (procedure (asBurstStatus (getBurstAndStatus s.args.mask))) s

/-- READ_STATUS, UOP 0x31. -/
def execReadStatus (s : State) : Host.Outcome State Fault Refusal :=
  launch .readStatus (procedure (asStatus readStatus)) s

/-- SET_READY, UOP 0x32. -/
def execSetReady (s : State) : Host.Outcome State Fault Refusal :=
  launch .setReady (procedure (asUnit setReady)) s

end Sys2Proof.Machine
end

