-- ==== Sys2Proof/Machine/Fifo.lean ====
section
/-! DEFINITION. The FIFO Transfer Engine (43_fifo_transfer.md R220 to R227). -/

namespace Sys2Proof.Machine

/-- One turn of the command-ready wait: the status is tested before the deadline, and the deadline before
the set-ready write (R220, R303 (e)). -/
def commandReadyTurn : P (Option Unit) := do
  let st ← readStatus
  let e ← look
  match cmdReady e.cfg.map st with
  | true => pure (some ())
  | false => do
    let late ← expired e.x.t0 e.cfg.tLong
    match late with
    | true => raise (.timeout .commandReady)
    | false => do
      setReady
      pure none

/-- WAIT_COMMAND_READY (R220). -/
def waitCommandReady : P Unit := do
  let t ← now
  onX fun x => { x with t0 := t }
  repeatP commandReadyTurn

/-- The mask of a send poll: VALID until a byte has been sent, then VALID|DATA_EXPECT (R221, D22). -/
def sendMask (m : TpmMap) (sent : Word) : Byte :=
  if sent = 0 then maskValid m else maskValidExpect m

/-- The size of a send chunk, `min(burst - 1, len - sent)` (R221). -/
def sendChunk (burst : Half) (len : Nat) (sent : Word) : Nat :=
  min (burst.toNat - 1) (len - sent.toNat)

/-- One turn of the send loop (R221): it ends when every byte is sent. Nothing bounds the turns, a burst
of 1 moves no byte (70_reset_and_hazards.md R345, 90_conflicts.md C9). -/
def sendTurn (src : Src) (len : Nat) : P (Option Unit) := do
  let e ← look
  if e.x.sent.toNat < len then do
    let v ← getBurstAndStatus (sendMask e.cfg.map e.x.sent)
    onX fun x => { x with limit := BitVec.ofNat 32 (sendChunk v.1 len e.x.sent) }
    let p ← srcBytes src e.x.sent.toNat (sendChunk v.1 len e.x.sent)
    regWrite .dataFifo p
    onX fun x => { x with sent := x.sent + x.limit }
    pure none
  else pure (some ())

/-- FIFO_WRITE_BODY(len) (R221). -/
def fifoWriteBody (src : Src) (len : Nat) : P Unit := do
  onX fun x => { x with sent := 0 }
  repeatP (sendTurn src len)
  let e ← look
  let v ← getBurstAndStatus (maskValid e.cfg.map)
  match dataExpect e.cfg.map v.2 with
  | true => raise (.protocolViolation .dataStillExpected)
  | false => pure ()

/-- WRITE_GO (R223). -/
def writeGo : P Unit := do
  let e ← look
  regWrite .sts (stsGoBytes e.cfg.map)

/-- The size of a later receive chunk, `min(burst, expected - cur)` (R224). -/
def recvChunk (burst : Half) (expected cur : Word) : Nat :=
  min burst.toNat (expected.toNat - cur.toNat)

/-- One turn of the receive loop (R224): it ends when the declared length is reached. `got` are the bytes
that stand in RSPBUF. -/
def recvTurn (got : List Byte) : P (List Byte ⊕ List Byte) := do
  let e ← look
  if e.x.cur.toNat < e.x.expected.toNat then do
    let v ← getBurstAndStatus (maskValidAvail e.cfg.map)
    onX fun x => { x with n := BitVec.ofNat 32 (recvChunk v.1 e.x.expected e.x.cur) }
    let d ← regRead .dataFifo (recvChunk v.1 e.x.expected e.x.cur)
    memWriteAll e.x.cur.toNat d
    onX fun x => { x with cur := x.cur + x.n }
    pure (.inl (got ++ d))
  else pure (.inr got)

/-- What FIFO_READ_BODY gives its caller: the count it returns, and the bytes it has put in RSPBUF from
index 0 on, which the engine has received and need not read back. -/
structure Received where
  count : Word
  bytes : List Byte
deriving DecidableEq, Repr

/-- The receive loop and the final check (R224, 70_reset_and_hazards.md R346). -/
def recvRest (first : List Byte) : P Received := do
  let got ← repeatFrom recvTurn first
  let e ← look
  let v ← getBurstAndStatus (maskValid e.cfg.map)
  match dataAvail e.cfg.map v.2 with
  | true => raise (.protocolViolation .dataStillAvailable)
  | false => pure { count := e.x.cur, bytes := got }

/-- The first chunk's test (R224): at least a header, at most the capacity. -/
def badFirstBurst (hdrSize cap : Nat) (burst : Half) : Bool :=
  decide (burst.toNat < hdrSize) || decide (cap < burst.toNat)

/-- FIFO_READ_BODY(cap) (R224). The first chunk is in RSPBUF before the declared length is tested. -/
def fifoReadBody (cap : Nat) : P Received := do
  let e ← look
  let v ← getBurstAndStatus (maskValidAvail e.cfg.map)
  match badFirstBurst e.cfg.hdrSize cap v.1 with
  | true => raise (.protocolViolation .badFirstBurst)
  | false => do
    let d ← regRead .dataFifo v.1.toNat
    memWriteAll 0 d
    onX fun x => { x with expected := declaredLength d }
    if cap < (declaredLength d).toNat then raise (.bufferTooSmall (declaredLength d) cap)
    else do
      onX fun x => { x with cur := v.1.setWidth 32 }
      recvRest d

/-- CLEANUP: the abort path of a failed SEND or RECV; it never fails (R225, 90_conflicts.md C6). -/
def cleanup : P Unit := do
  let st ← readStatus
  let e ← look
  onlyIf (cmdReady e.cfg.map st) setReady
  releaseLocality true

/-- The value FIFO_READ_BODY returns. -/
def asCount (p : P Received) : P RetVal := do
  let r ← p
  pure (.count r.count)

/-- WAIT_COMMAND_READY, UOP 0x40. -/
def execWaitCommandReady (s : State) : Host.Outcome State Fault Refusal :=
  launch .waitCommandReady (procedure (asUnit waitCommandReady)) s

/-- FIFO_WRITE_BODY, UOP 0x41. -/
def execFifoWriteBody (s : State) : Host.Outcome State Fault Refusal :=
  launch .fifoWriteBody (procedure (asUnit (fifoWriteBody s.args.src s.args.len))) s

/-- WRITE_GO, UOP 0x42. -/
def execWriteGo (s : State) : Host.Outcome State Fault Refusal :=
  launch .writeGo (procedure (asUnit writeGo)) s

/-- FIFO_READ_BODY, UOP 0x43. -/
def execFifoReadBody (s : State) : Host.Outcome State Fault Refusal :=
  launch .fifoReadBody (procedure (asCount (fifoReadBody s.args.cap))) s

/-- CLEANUP, UOP 0x44. -/
def execCleanup (s : State) : Host.Outcome State Fault Refusal :=
  launch .cleanup (procedure (asUnit cleanup)) s

end Sys2Proof.Machine
end

