-- ==== Sys2Proof/Machine/Session.lean ====
section
/-! DEFINITION. The TIS Session and the Device Probe: the five host commands (44_session.md R260 to
R267). -/

namespace Sys2Proof.Machine

/-- `pc <- S` (00_scope.md R14). -/
def setSess (s : Sess) : P Unit := change fun e => e.setSess s

/-- SEND_CORE(src, len) (R261). -/
def sendCore (src : Src) (len : Nat) : P Unit := do
  setSess .localityRequested
  requestLocality
  setSess .commandReadyWait
  waitCommandReady
  setSess .sending
  fifoWriteBody src len
  writeGo

/-- The abort path of SEND and RECV (R261, R262; 60_exceptions.md R304). -/
def sessionAbort : P Unit := do
  cleanup
  setSess .idle

/-- The abort path of SHUTDOWN's send and receive parts (R265). -/
def shutdownAbort : P Unit := do
  sessionAbort
  releaseLocality true

/-- SEND(len) (R261). -/
def sendCommand (len : Nat) : P HostVal := do
  let r ← attempt (sendCore .cmdbuf len)
  match r with
  | .error er => abort er sessionAbort
  | .ok _ => do
    setSess .started
    pure .unit

/-- RECV_CORE(cap) (R262). LOCALITY_RELEASED only names the phase (90_conflicts.md C8). -/
def recvCore (cap : Nat) : P Received := do
  setSess .receiving
  let got ← fifoReadBody cap
  setSess .localityReleased
  releaseLocality false
  setSess .idle
  pure got

/-- RECV(cap) (R262). -/
def recvCommand (cap : Nat) : P HostVal := do
  let r ← attempt (recvCore cap)
  match r with
  | .error er => abort er sessionAbort
  | .ok got => pure (.count got.count)

/-- The family whose value DID_VID holds; all 32 bits must match (R263). -/
def familyOf (m : TpmMap) (id : Word) : Option Family :=
  if id = m.didVidCr50 then some .cr50
  else if id = m.didVidTi50 then some .ti50
  else none

/-- Identify the chip of an acquired locality (R263). -/
def probeIdentify : P HostVal := do
  let d ← regRead .didVid 4
  onX fun x => { x with id := didVidValue d }
  let e ← look
  match familyOf e.cfg.map (didVidValue d) with
  | some f => pure (.family f)
  | none => raise (.unsupportedDevice (didVidValue d))

/-- The part of PROBE that can fail: acquire the locality, and identify the chip (R263). -/
def probeCore : P HostVal := do
  requestLocality
  probeIdentify

/-- PROBE (R263): a success keeps the locality, a failure force-releases it. -/
def probeCommand : P HostVal := do
  let r ← attempt probeCore
  match r with
  | .error er => abort er (releaseLocality true)
  | .ok v => pure v

/-- RELEASE(force) (R264). -/
def releaseCommand (force : Bool) : P HostVal := do
  releaseLocality force
  pure .unit

/-- Whether SHUTDOWN got its response: `Ok(10)`, and RSPBUF[0 .. 10) is SHUTDOWN_RSP (R265). The engine
compares the bytes it has just put there, and does not read RSPBUF back, which it only writes (10_state.md
R48; log 22). -/
def shutdownMatches (got : Received) : Bool :=
  got.count == 10 && got.bytes == shutdownRsp

/-- The end of SHUTDOWN: compare, force-release whatever the comparison gave, and answer (R265). -/
def shutdownFinish (got : Received) : P HostVal := do
  releaseLocality true
  match shutdownMatches got with
  | true => pure .unit
  | false => raise (.protocolViolation .shutdownMismatch)

/-- SHUTDOWN (R265). -/
def shutdownCommand : P HostVal := do
  let r1 ← attempt (sendCore .shutdownCmd 12)
  match r1 with
  | .error er => abort er shutdownAbort
  | .ok _ => do
    setSess .started
    let r2 ← attempt (recvCore 10)
    match r2 with
    | .error er => abort er shutdownAbort
    | .ok got => shutdownFinish got

/-- PROBE, HCMD op 0x01: allowed in IDLE (R260). -/
def execProbe (s : State) : Host.Outcome State Fault Refusal :=
  launchHost .probe (s.sess == .idle) probeCommand s

/-- SEND, HCMD op 0x02: allowed in IDLE (R260). -/
def execSend (len : Nat) (s : State) : Host.Outcome State Fault Refusal :=
  launchHost (.send len) (s.sess == .idle) (sendCommand len) s

/-- RECV, HCMD op 0x03: allowed in STARTED (R260). -/
def execRecv (cap : Nat) (s : State) : Host.Outcome State Fault Refusal :=
  launchHost (.recv cap) (s.sess == .started) (recvCommand cap) s

/-- RELEASE, HCMD op 0x04: allowed in IDLE and STARTED, the two states between commands (R260, R33). -/
def execRelease (force : Bool) (s : State) : Host.Outcome State Fault Refusal :=
  launchHost (.release force) true (releaseCommand force) s

/-- SHUTDOWN, HCMD op 0x05: allowed in IDLE (R260). -/
def execShutdown (s : State) : Host.Outcome State Fault Refusal :=
  launchHost .shutdown (s.sess == .idle) shutdownCommand s

end Sys2Proof.Machine
end

