-- ==== Sys2Proof/Machine/Wire.lean ====
section
/-! DEFINITION. The meanings of the wire encodings of the opcode table (30_encoding.md R111 to R118). The
spec gives these rows as encodings, not as steps: executing one is the part of a register transaction
that the encoding fixes (DESIGN CHOICE, log 6, log 7, log 8). -/

namespace Sys2Proof.Machine

/-- An I2C address byte fixes the address phase: the byte on the bus, and the wait after it (R112 steps 1
and 2; the same bus traffic as an I2C_WR of no payload, R113). -/
def i2cAddressPhase (loc : Nat) (kind : Kind) : P RetVal := do
  let e ← look
  asUnit (i2cSend [i2cAddr e.cfg.map loc kind])

/-- A SPI frame header fixes direction, locality, register and length: the whole frame (R114, R153). A
frame must not be split (70_reset_and_hazards.md R344). -/
def spiFrame (dir : Dir) (kind : Kind) (lenM1 loc : Nat) (a : Args) : P RetVal :=
  asFrame dir (spiXfer dir loc kind (lenM1 + 1) (payloadOf a (lenM1 + 1)))

/-- I2C_ADDR.ACCESS (R111). -/
def execI2cAddrAccess (loc : Nat) (s : State) : Host.Outcome State Fault Refusal :=
  launchOn .i2c loc (.i2cAddrAccess loc) (i2cAddressPhase loc .access) s

/-- I2C_ADDR.STS (R111). -/
def execI2cAddrSts (loc : Nat) (s : State) : Host.Outcome State Fault Refusal :=
  launchOn .i2c loc (.i2cAddrSts loc) (i2cAddressPhase loc .sts) s

/-- I2C_ADDR.DATA_FIFO (R111). -/
def execI2cAddrDataFifo (loc : Nat) (s : State) : Host.Outcome State Fault Refusal :=
  launchOn .i2c loc (.i2cAddrDataFifo loc) (i2cAddressPhase loc .dataFifo) s

/-- I2C_ADDR.DID_VID (R111). -/
def execI2cAddrDidVid (loc : Nat) (s : State) : Host.Outcome State Fault Refusal :=
  launchOn .i2c loc (.i2cAddrDidVid loc) (i2cAddressPhase loc .didVid) s

/-- SPI_HDR.READ.ACCESS (R115). -/
def execSpiHdrReadAccess (lenM1 loc : Nat) (s : State) : Host.Outcome State Fault Refusal :=
  launchOn .spi loc (.spiHdrReadAccess lenM1 loc) (spiFrame .read .access lenM1 loc s.args) s

/-- SPI_HDR.WRITE.ACCESS (R115). -/
def execSpiHdrWriteAccess (lenM1 loc : Nat) (s : State) : Host.Outcome State Fault Refusal :=
  launchOn .spi loc (.spiHdrWriteAccess lenM1 loc) (spiFrame .write .access lenM1 loc s.args) s

/-- SPI_HDR.READ.STS (R115). -/
def execSpiHdrReadSts (lenM1 loc : Nat) (s : State) : Host.Outcome State Fault Refusal :=
  launchOn .spi loc (.spiHdrReadSts lenM1 loc) (spiFrame .read .sts lenM1 loc s.args) s

/-- SPI_HDR.WRITE.STS (R115). -/
def execSpiHdrWriteSts (lenM1 loc : Nat) (s : State) : Host.Outcome State Fault Refusal :=
  launchOn .spi loc (.spiHdrWriteSts lenM1 loc) (spiFrame .write .sts lenM1 loc s.args) s

/-- SPI_HDR.READ.DATA_FIFO (R115). -/
def execSpiHdrReadDataFifo (lenM1 loc : Nat) (s : State) : Host.Outcome State Fault Refusal :=
  launchOn .spi loc (.spiHdrReadDataFifo lenM1 loc) (spiFrame .read .dataFifo lenM1 loc s.args) s

/-- SPI_HDR.WRITE.DATA_FIFO (R115). -/
def execSpiHdrWriteDataFifo (lenM1 loc : Nat) (s : State) : Host.Outcome State Fault Refusal :=
  launchOn .spi loc (.spiHdrWriteDataFifo lenM1 loc) (spiFrame .write .dataFifo lenM1 loc s.args) s

/-- SPI_HDR.READ.DID_VID (R115). -/
def execSpiHdrReadDidVid (lenM1 loc : Nat) (s : State) : Host.Outcome State Fault Refusal :=
  launchOn .spi loc (.spiHdrReadDidVid lenM1 loc) (spiFrame .read .didVid lenM1 loc s.args) s

/-- A register value fixes the register write that carries it, at the engine's locality. -/
def writeValue (kind : Kind) (value : TpmMap → List Byte) : P RetVal := do
  let e ← look
  asUnit (regWrite kind (value e.cfg.map))

/-- STS_GO_VAL (R117). -/
def execStsGoVal (s : State) : Host.Outcome State Fault Refusal :=
  launch .stsGoVal (procedure (writeValue .sts stsGoBytes)) s

/-- STS_READY_VAL (R117). -/
def execStsReadyVal (s : State) : Host.Outcome State Fault Refusal :=
  launch .stsReadyVal (procedure (writeValue .sts stsReadyBytes)) s

/-- ACCESS_REQ_VAL (R118). -/
def execAccessReqVal (s : State) : Host.Outcome State Fault Refusal :=
  launch .accessReqVal (procedure (writeValue .access accessReqBytes)) s

/-- ACCESS_REL_VAL (R118). -/
def execAccessRelVal (s : State) : Host.Outcome State Fault Refusal :=
  launch .accessRelVal (procedure (writeValue .access accessRelBytes)) s

end Sys2Proof.Machine
end

