-- ==== Sys2Proof/Machine/Dispatch.lean ====
section
/-! DEFINITION. The dispatch: one arm per row of spec/opcode_table.json. -/

namespace Sys2Proof.Machine

/-- Execute one instruction. -/
def exec (i : Instr) (s : State) : Host.Outcome State Fault Refusal :=
  match i with
  | .probe => Sys2Proof.Machine.execProbe s
  | .send len => Sys2Proof.Machine.execSend len s
  | .recv cap => Sys2Proof.Machine.execRecv cap s
  | .release force => Sys2Proof.Machine.execRelease force s
  | .shutdown => Sys2Proof.Machine.execShutdown s
  | .i2cRead => Sys2Proof.Machine.execI2cRead s
  | .i2cWrite => Sys2Proof.Machine.execI2cWrite s
  | .spiRead => Sys2Proof.Machine.execSpiRead s
  | .spiWrite => Sys2Proof.Machine.execSpiWrite s
  | .readyWait => Sys2Proof.Machine.execReadyWait s
  | .spiXfer => Sys2Proof.Machine.execSpiXfer s
  | .checkLocality => Sys2Proof.Machine.execCheckLocality s
  | .requestLocality => Sys2Proof.Machine.execRequestLocality s
  | .releaseLocality => Sys2Proof.Machine.execReleaseLocality s
  | .getBurstAndStatus => Sys2Proof.Machine.execGetBurstAndStatus s
  | .readStatus => Sys2Proof.Machine.execReadStatus s
  | .setReady => Sys2Proof.Machine.execSetReady s
  | .waitCommandReady => Sys2Proof.Machine.execWaitCommandReady s
  | .fifoWriteBody => Sys2Proof.Machine.execFifoWriteBody s
  | .writeGo => Sys2Proof.Machine.execWriteGo s
  | .fifoReadBody => Sys2Proof.Machine.execFifoReadBody s
  | .cleanup => Sys2Proof.Machine.execCleanup s
  | .i2cAddrAccess loc => Sys2Proof.Machine.execI2cAddrAccess loc s
  | .i2cAddrSts loc => Sys2Proof.Machine.execI2cAddrSts loc s
  | .i2cAddrDataFifo loc => Sys2Proof.Machine.execI2cAddrDataFifo loc s
  | .i2cAddrDidVid loc => Sys2Proof.Machine.execI2cAddrDidVid loc s
  | .spiHdrReadAccess lenM1 loc => Sys2Proof.Machine.execSpiHdrReadAccess lenM1 loc s
  | .spiHdrWriteAccess lenM1 loc => Sys2Proof.Machine.execSpiHdrWriteAccess lenM1 loc s
  | .spiHdrReadSts lenM1 loc => Sys2Proof.Machine.execSpiHdrReadSts lenM1 loc s
  | .spiHdrWriteSts lenM1 loc => Sys2Proof.Machine.execSpiHdrWriteSts lenM1 loc s
  | .spiHdrReadDataFifo lenM1 loc => Sys2Proof.Machine.execSpiHdrReadDataFifo lenM1 loc s
  | .spiHdrWriteDataFifo lenM1 loc => Sys2Proof.Machine.execSpiHdrWriteDataFifo lenM1 loc s
  | .spiHdrReadDidVid lenM1 loc => Sys2Proof.Machine.execSpiHdrReadDidVid lenM1 loc s
  | .stsGoVal => Sys2Proof.Machine.execStsGoVal s
  | .stsReadyVal => Sys2Proof.Machine.execStsReadyVal s
  | .accessReqVal => Sys2Proof.Machine.execAccessReqVal s
  | .accessRelVal => Sys2Proof.Machine.execAccessRelVal s

end Sys2Proof.Machine
end

