-- ==== Sys2Proof/Machine/HostPort.lean ====
section
/-! DEFINITION. The host's side: attach and detach (70_reset_and_hazards.md R340, R341), the idle wait,
the fetch of the word in the instruction slot, and the slot a table word is placed in (log 3, log 4). -/

namespace Sys2Proof.Machine

/-- The engine right after attach with a configuration (R340, R50). The clock, the host buffers and the
model's own fields are outside the handle and stay. -/
def Engine.attach (e : Engine) (c : Cfg) : Engine :=
  { e with
    cfg := c
    attached := true
    sess := .idle
    busy := false
    ready := false
    readyPath := c.transport == .i2c
    scratch := List.replicate c.scratchCap 0
    x := Regs.zero
    result := .ok .unit
    pending := none
    lock := .free }

/-- The engine after detach: the ready path is disabled and the scratch buffer released; no bus operation
(R341). -/
def Engine.detach (e : Engine) : Engine :=
  { e with
    attached := false
    readyPath := false
    scratch := [] }

/-- Attach: a configuration that breaks R10 is refused (R10, R340, U18). -/
def attachHandle (c : Cfg) (s : State) : Host.Outcome State Fault Refusal :=
  if c.ok then .next { s with toEngine := s.toEngine.attach c, running := none, slot := none }
  else .refused .badConfig

/-- What a host move does to an idle machine. A host attaches only a detached handle; other moves than
attach change nothing of a detached one but the buffers it owns and the word it issues. It replaces RSPBUF
whole, or leaves what it holds (DESIGN CHOICE, log 37). -/
def hostMoves (m : HostMove) (s : State) : Host.Outcome State Fault Refusal :=
  match m with
  | .wait => .next s
  | .command w => .next { s with slot := some { fmt := .hcmd, bytes := beBytes4 w.toNat } }
  | .fillCmdbuf bs =>
    .next { s with toEngine := { s.toEngine with cmdbuf := memSetAll s.cmdbuf 0 (bs.take bufSize) } }
  | .giveRspbuf bs =>
    .next { s with toEngine := { s.toEngine with rspbuf := memSetAll [] 0 (bs.take bufSize) } }
  | .detach => .next { s with toEngine := s.toEngine.detach }
  | .attach c => if s.attached then .next s else attachHandle c s

/-- The idle engine while the clock and the ready-signal source move: one answer of the environment. -/
def idleSettle (s : State) : State :=
  match s.inbox with
  | [] =>
    { s with
      toEngine := s.toEngine.settle (Config.freeAnswer s.drawn) []
      drawn := s.drawn + 1
      hostTurn := s.hostTurn + 1 }
  | a :: rest => { s with toEngine := s.toEngine.settle a rest, hostTurn := s.hostTurn + 1 }

/-- The idle wait for a host command, the engine's entry point (R340). -/
def idleStep (s : State) : Host.Outcome State Fault Refusal :=
  hostMoves (Config.hostMove s.hostTurn) (idleSettle s)

/-- The instruction in the slot, or why the engine refuses the word (R124 (g), R341). -/
def fetch (c : Slot) (s : State) : Except Refusal Instr :=
  if s.attached then
    match decodeAs c.fmt c.bytes with
    | .ok i => .ok i
    | .error r => .error (.badWord r)
  else .error .detached

/-- The transport a word of a format needs, TRANSPORT being the mode that changes the encoding
(30_encoding.md R125); the procedure codes of one transport need it too. -/
def neededTransport (i : Instr) : Option Transport :=
  match i.format with
  | .i2cAddr => some .i2c
  | .spiHdr => some .spi
  | .hcmd => none
  | .stsWr => none
  | .accessWr => none
  | .uop =>
    if i = .i2cRead ∨ i = .i2cWrite ∨ i = .readyWait then some .i2c
    else if i = .spiRead ∨ i = .spiWrite ∨ i = .spiXfer then some .spi
    else none

/-- The engine of a handle on the other bus; R340 enables the ready path on I2C only. -/
def Engine.onTransport (e : Engine) (t : Transport) : Engine :=
  if e.cfg.transport = t then e
  else { e with cfg := { e.cfg with transport := t }, readyPath := t == .i2c, ready := false }

/-- The engine on the transport a decoded word needs. -/
def Engine.forInstr (e : Engine) (i : Option Instr) : Engine :=
  match i with
  | none => e
  | some i =>
    match neededTransport i with
    | none => e
    | some t => e.onTransport t

/-- The slot for a table word: the format the decoder finds, or a host command word. -/
def slotOf (bs : List Byte) : Slot :=
  { fmt := (classify bs).getD .hcmd, bytes := bs }

end Sys2Proof.Machine
end

