-- ==== Sys2Proof/Machine/Step.lean ====
section
/-! DEFINITION. One step of the machine, and the placing of a table word where it is fetched. -/

namespace Sys2Proof.Machine

/-- One step. An instruction in progress has one more answer and goes on; a word issued meanwhile is
refused (10_state.md R35). Else the word in the slot is executed, or the engine waits for the host. -/
def step (s : State) : Host.Outcome State Fault Refusal :=
  match s.running, s.slot with
  | some r, none => exec r.instr (resumeState r s)
  | some _, some _ => .refused .hostBusy
  | none, some c =>
    match fetch c s with
    | .ok i => exec i { s with slot := none }
    | .error r => .refused r
  | none, none => idleStep s

/-- `s` with a table word as the next instruction (log 4): the word in the slot, in the format the
decoder finds, no instruction in progress, and the handle on the bus the word's encoding needs. -/
def State.withFetchWord (s : State) (nbits w : Nat) : State :=
  match tableBytes nbits w with
  | none => { s with slot := some { fmt := .hcmd, bytes := [] }, running := none }
  | some bs =>
    { s with
      toEngine := s.toEngine.forInstr (decodeTableWord nbits w)
      slot := some (slotOf bs)
      running := none }

end Sys2Proof.Machine
end

