-- ==== Sys2Proof/Safety.lean ====
section
/-! DEFINITION. The terms statements use: the invariant, how an environment answers a register
transaction at once, the port traffic of one, what a finished instruction has done, and what can be read
off the recorded port events. -/

namespace Sys2Proof.Machine

/-! ### The invariant -/

/-- What holds of the engine at every moment, an instruction in progress or not: the configuration meets
R10, the host buffers are canonical, an attached handle has its scratch buffer (R44), the ready path is
enabled on I2C and only there (R307, R50), SPI never sees the ready flag set (R36), and I2C never touches
the SPI lock (R45). -/
structure Engine.Inv (e : Engine) : Prop where
  cfg_ok : e.cfg.ok = true
  cmdbuf_wf : Memory.wf e.cmdbuf = true
  rspbuf_wf : Memory.wf e.rspbuf = true
  scratch_length : e.attached = true → e.scratch.length = e.cfg.scratchCap
  path_i2c : e.attached = true → e.cfg.transport = .i2c → e.readyPath = true
  path_spi : e.cfg.transport = .spi → e.readyPath = false
  ready_spi : e.cfg.transport = .spi → e.ready = false
  lock_i2c : e.cfg.transport = .i2c → e.lock = .free

/-- The session state is one of the two that persist between host commands (R33, R267 (a)). -/
def Sess.resting (s : Sess) : Bool :=
  s == .idle || s == .started

/-- The engine between instructions: no host command runs, no abort, no frame (R35, R45, R267 (a)). -/
structure Engine.Quiet (e : Engine) : Prop where
  not_busy : e.busy = false
  resting : e.sess.resting = true
  no_pending : e.pending = none
  no_lock : e.lock ≠ .engine

/-- The invariant of the machine: the engine's, with the engine quiet whenever no instruction is in
progress, and the same of the engine an instruction in progress started from. -/
structure State.Inv (s : State) : Prop where
  engine : s.toEngine.Inv
  quiet : s.running = none → s.toEngine.Quiet
  started : ∀ r, s.running = some r → r.start.Inv ∧ r.start.Quiet ∧ r.start.cfg = s.cfg

/-! ### The environment answering a register transaction without delay

On I2C the address write and the data read succeed and the edge has come when the flag is first looked
at; on SPI the controller is free and the first stall byte is 0x01. Ticks are arbitrary. -/

/-- The answers of one register read that gives the bytes `bs`. -/
def AnswersRead (t : Transport) (bs : List Byte) (as : List Answer) : Prop :=
  match t with
  | .i2c => ∃ w n f d, as = [w, n, f, d] ∧ w.err = none ∧ f.edge = true ∧ d.err = none ∧ d.bytes = bs
  | .spi => ∃ l h n p d, as = [l, h, n, p, d] ∧ l.lockFree = true ∧ h.err = none ∧
      p.err = none ∧ p.bytes = [0x01] ∧ d.err = none ∧ d.bytes = bs

/-- The answers of one register write. -/
def AnswersWrite (t : Transport) (as : List Answer) : Prop :=
  match t with
  | .i2c => ∃ w n f, as = [w, n, f] ∧ w.err = none ∧ f.edge = true
  | .spi => ∃ l h n p d, as = [l, h, n, p, d] ∧ l.lockFree = true ∧ h.err = none ∧
      p.err = none ∧ p.bytes = [0x01] ∧ d.err = none

/-- The answers of one register read or write whose first bus operation fails with `er`: the address
write on I2C, the header write on SPI. -/
def AnswersFail (t : Transport) (er : Nat) (as : List Answer) : Prop :=
  match t with
  | .i2c => ∃ w, as = [w] ∧ w.err = some er
  | .spi => ∃ l h, as = [l, h] ∧ l.lockFree = true ∧ h.err = some er

/-- The configuration meets R10, its transactions are wide enough for an STS snapshot (R90), and on I2C the
engine can see an edge (R307). -/
structure Engine.Serves (e : Engine) : Prop where
  cfg_ok : e.cfg.ok = true
  wide : 4 ≤ e.cfg.maxXfer
  live : e.cfg.transport = .i2c → e.readyPath = true

/-- The ticks that pass while a list of answers is taken. -/
def ticksOf (as : List Answer) : Nat :=
  (as.map Answer.ticks).sum

/-- The first `len` bytes of the source of a FIFO write (R221, `srcbyte`). -/
def Engine.source (e : Engine) (src : Src) (len : Nat) : List Byte :=
  match src with
  | .cmdbuf => memBytes e.cmdbuf 0 len
  | .shutdownCmd => shutdownCmd.take len

/-- How many bytes a source has (R48, R122). -/
def sourceSize : Src → Nat
  | .cmdbuf => bufSize
  | .shutdownCmd => 12

/-! ### Port traffic -/

/-- The events on the bus and the SPI lock; the ready flag, the clock and the host buffers left out. -/
def Event.onBus : Event → Bool
  | .busWrite _ => true
  | .busWriteErr _ _ => true
  | .busRead _ => true
  | .busReadErr _ _ => true
  | .lock => true
  | .unlock => true
  | .readyClear => false
  | .readyFlag _ => false
  | .now _ => false
  | .sleep _ => false
  | .memRead _ _ _ => false
  | .memWrite _ _ => false

/-- The bus and lock events of a trace. -/
def busTrace (evs : List Event) : List Event :=
  evs.filter Event.onBus

/-- The traffic of a register read of `bs` from locality `loc`, answered as `AnswersRead` says (R112,
R153). -/
def readTrafficAt (c : Cfg) (loc : Nat) (kind : Kind) (bs : List Byte) : List Event :=
  match c.transport with
  | .i2c => [.busWrite [i2cAddr c.map loc kind], .busRead bs]
  | .spi => [.lock, .busWrite (spiHeader c.map .read loc kind bs.length), .busRead [0x01],
      .busRead bs, .unlock]

/-- The traffic of a register write of `p` (R113, R153). -/
def writeTrafficAt (c : Cfg) (loc : Nat) (kind : Kind) (p : List Byte) : List Event :=
  match c.transport with
  | .i2c => [.busWrite (i2cAddr c.map loc kind :: p)]
  | .spi => [.lock, .busWrite (spiHeader c.map .write loc kind p.length), .busRead [0x01],
      .busWrite p, .unlock]

/-- A register read at the engine's locality. -/
def readTraffic (c : Cfg) (kind : Kind) (bs : List Byte) : List Event :=
  readTrafficAt c c.loc kind bs

/-- A register write at the engine's locality. -/
def writeTraffic (c : Cfg) (kind : Kind) (p : List Byte) : List Event :=
  writeTrafficAt c c.loc kind p

/-! ### Accesses to the TPM registers, whatever becomes of them -/

/-- A register access: a read of `n` bytes, or a write of `p` (R17). -/
inductive Access where
  | read (kind : Kind) (n : Nat)
  | write (kind : Kind) (p : List Byte)
deriving DecidableEq, Repr

/-- The first bytes an access at the engine's locality puts on the bus: on I2C the address byte, with the
payload of a write; on SPI the frame header (R111 to R115). -/
def Access.opening (c : Cfg) (a : Access) : List Byte :=
  match c.transport, a with
  | .i2c, .read kind _ => [i2cAddr c.map c.loc kind]
  | .i2c, .write kind p => i2cAddr c.map c.loc kind :: p
  | .spi, .read kind n => spiHeader c.map .read c.loc kind n
  | .spi, .write kind p => spiHeader c.map .write c.loc kind p.length

/-- The bus operation that carries an access's data, done or failed. -/
def Access.Carries (a : Access) (ev : Event) : Prop :=
  match a with
  | .read _ n => (∃ bs : List Byte, bs.length = n ∧ ev = .busRead bs) ∨ ∃ er, ev = .busReadErr n er
  | .write _ p => ev = .busWrite p ∨ ∃ er, ev = .busWriteErr p er

/-- The bus traffic of an access, whatever ends it (R112, R113, R153, R158). -/
def Access.Traffic (c : Cfg) (a : Access) (tr : List Event) : Prop :=
  (∃ er, tr = match c.transport with
    | .i2c => [.busWriteErr (a.opening c) er]
    | .spi => [.lock, .busWriteErr (a.opening c) er, .unlock]) ∨
  match c.transport with
  | .i2c => tr = [.busWrite (a.opening c)] ∨
      ∃ kind n ev, a = .read kind n ∧ a.Carries ev ∧ tr = [.busWrite (a.opening c), ev]
  | .spi => ∃ (stalls : List Byte) (last : List Event), (∀ b ∈ stalls, notStalled b = false) ∧
      tr = .lock :: .busWrite (a.opening c) :: stalls.map (fun b => .busRead [b]) ++ last ++ [.unlock] ∧
      (last = [] ∨ (∃ er, last = [.busReadErr 1 er]) ∨
        ∃ go ev, notStalled go = true ∧ a.Carries ev ∧ last = [.busRead [go], ev])

/-- The accesses a host command may make, their widths and their values (R43, R90). -/
def Access.Listed (c : Cfg) (a : Access) : Prop :=
  match a with
  | .read .access n => n = 1
  | .read .sts n => n = 4
  | .read .dataFifo n => 1 ≤ n ∧ n ≤ c.maxXfer
  | .read .didVid n => n = 4
  | .write .access p => p = accessReqBytes c.map ∨ p = accessRelBytes c.map
  | .write .sts p => p = stsGoBytes c.map ∨ p = stsReadyBytes c.map
  | .write .dataFifo p => p.length ≤ c.maxXfer
  | .write .didVid _ => False

/-- The answers of an access that ends in an error: its first bus operation fails, or its wait runs out, on
I2C with no edge at all, on SPI with one stalled byte. -/
def AnswersErr (c : Cfg) (er : Err) (as : List Answer) : Prop :=
  match er with
  | .io v => AnswersFail c.transport v as
  | .timeout .ready => c.transport = .i2c ∧ ∃ w n f l, as = [w, n, f, l] ∧ w.err = none ∧
      (w.edge || n.edge || f.edge || l.edge) = false ∧ c.tIrq * c.clkPerMs ≤ f.ticks + l.ticks
  | .timeout .spiStall => c.transport = .spi ∧ ∃ l h n q z, as = [l, h, n, q, z] ∧
      l.lockFree = true ∧ h.err = none ∧ q.err = none ∧ q.bytes = [0x00] ∧
      c.tSpi * c.clkPerMs ≤ q.ticks + z.ticks
  | _ => False

/-- The traffic of an access answered as `AnswersErr` says. -/
def errTraffic (c : Cfg) (a : Access) (er : Err) : List Event :=
  match c.transport, er with
  | .i2c, .io v => [.busWriteErr (a.opening c) v]
  | .i2c, _ => [.busWrite (a.opening c)]
  | .spi, .io v => [.lock, .busWriteErr (a.opening c) v, .unlock]
  | .spi, _ => [.lock, .busWrite (a.opening c), .busRead [0x00], .unlock]

/-- A register read of `n` bytes with the outcome `o`: its answers and its traffic. -/
def ReadDone (c : Cfg) (kind : Kind) (n : Nat) (o : Except Err (List Byte)) (as : List Answer)
    (tr : List Event) : Prop :=
  match o with
  | .ok bs => bs.length = n ∧ AnswersRead c.transport bs as ∧ tr = readTraffic c kind bs
  | .error er => AnswersErr c er as ∧ tr = errTraffic c (.read kind n) er

/-- A register write of `p` with the outcome `o`: its answers and its traffic. -/
def WriteDone (c : Cfg) (kind : Kind) (p : List Byte) (o : Except Err Unit) (as : List Answer)
    (tr : List Event) : Prop :=
  match o with
  | .ok _ => AnswersWrite c.transport as ∧ tr = writeTraffic c kind p
  | .error er => AnswersErr c er as ∧ tr = errTraffic c (.write kind p) er

/-- A poll for an accepted snapshot `b` (R200): it is read at the first attempt, or at the second, after an
attempt that failed or gave a snapshot which the mask or the burst range refuses. -/
def PollDone (c : Cfg) (mask : Byte) (b : List Byte) (as : List Answer) (tr : List Event) : Prop :=
  ∃ (n : Answer) (pa : List Answer), b.length = 4 ∧ AnswersRead c.transport b pa ∧
    accept c.burstCap mask (snapStatus b) (snapBurst b) = true ∧
    ((as = n :: pa ∧ tr = readTraffic c .sts b) ∨
      ∃ (o : Except Err (List Byte)) (ra : List Answer) (rt : List Event) (q l : Answer),
        ReadDone c .sts 4 o ra rt ∧
        (∀ b0, o = .ok b0 → accept c.burstCap mask (snapStatus b0) (snapBurst b0) = false) ∧
        ticksOf ra + q.ticks + c.tShort * c.clkPerMs + l.ticks < c.tLong * c.clkPerMs ∧
        as = n :: ra ++ q :: l :: pa ∧ tr = rt ++ readTraffic c .sts b)

/-- Whether a locality check with this outcome passes (R180). -/
def checkPasses (c : Cfg) (o : Except Err (List Byte)) : Bool :=
  match o with
  | .ok bs => localityOk c.map (byteAt bs 0)
  | .error _ => false

/-- The ACCESS byte in `x[access]` after a check: a read that failed leaves it (R180). -/
def checkedByte (a : Byte) (o : Except Err (List Byte)) : Byte :=
  match o with
  | .ok bs => byteAt bs 0
  | .error _ => a

/-- Locality checks with the outcomes of a list, with one answer to the sleep between two checks (R181):
their answers and their traffic. -/
def ChecksDone (c : Cfg) : List (Except Err (List Byte)) → List Answer → List Event → Prop
  | [], as, tr => as = [] ∧ tr = []
  | [o], as, tr => ReadDone c .access 1 o as tr
  | o :: os, as, tr => ∃ (ra : List Answer) (rt : List Event) (q : Answer) (as' : List Answer)
      (tr' : List Event),
      ReadDone c .access 1 o ra rt ∧ ChecksDone c os as' tr' ∧ as = ra ++ q :: as' ∧ tr = rt ++ tr'

/-- A release (R182): its answers and its traffic, whatever becomes of its read and its write. -/
def ReleaseDone (c : Cfg) (force : Bool) (as : List Answer) (tr : List Event) : Prop :=
  ∃ (o : Except Err (List Byte)) (w : Except Err Unit) (ra wa : List Answer) (rt wt : List Event),
    ReadDone c .access 1 o ra rt ∧ as = ra ++ wa ∧ tr = rt ++ wt ∧
    if (match o with
      | .ok bs => force || releaseWanted c.map (byteAt bs 0)
      | .error _ => c.releaseWriteOnReadFail && force) = true
    then WriteDone c .access (accessRelBytes c.map) w wa wt
    else wa = [] ∧ wt = []

/-- A CLEANUP (R225): its answers and its traffic, whatever becomes of its accesses. -/
def CleanupDone (c : Cfg) (as : List Answer) (tr : List Event) : Prop :=
  ∃ (o : Except Err (List Byte)) (w : Except Err Unit) (ra wa fa : List Answer)
    (rt wt ft : List Event),
    ReadDone c .sts 4 o ra rt ∧ ReleaseDone c true fa ft ∧ as = ra ++ wa ++ fa ∧ tr = rt ++ wt ++ ft ∧
    if cmdReady c.map (statusOf o) = true
    then WriteDone c .sts (stsReadyBytes c.map) w wa wt
    else wa = [] ∧ wt = []

/-- From `s` an instruction has run to its end in `t`: it has left the answers `rest`, and its bus traffic
was `evs`. -/
structure Finished (s t : State) (rest : List Answer) (evs : List Event) : Prop where
  ended : t.running = none
  inbox : t.inbox = rest
  traffic : busTrace t.trace = busTrace s.trace ++ evs

/-! ### What the recorded events say -/

/-- The clock values read. -/
def clockReads (evs : List Event) : List Nat :=
  evs.filterMap fun ev => match ev with
    | .now t => some t
    | _ => none

/-- The sleeps. -/
def sleeps (evs : List Event) : List Nat :=
  evs.filterMap fun ev => match ev with
    | .sleep ms => some ms
    | _ => none

/-- The indices and bytes read from CMDBUF. -/
def cmdReads (evs : List Event) : List (Nat × Byte) :=
  evs.filterMap fun ev => match ev with
    | .memRead .cmdbuf i v => some (i, v)
    | _ => none

/-- The indices and bytes read from RSPBUF. -/
def rspReads (evs : List Event) : List (Nat × Byte) :=
  evs.filterMap fun ev => match ev with
    | .memRead .rspbuf i v => some (i, v)
    | _ => none

/-- The indices and bytes written to RSPBUF. -/
def rspWrites (evs : List Event) : List (Nat × Byte) :=
  evs.filterMap fun ev => match ev with
    | .memWrite i v => some (i, v)
    | _ => none

/-- The bytes with their indices from `i` on. -/
def indexed : Nat → List Byte → List (Nat × Byte)
  | _, [] => []
  | i, v :: vs => (i, v) :: indexed (i + 1) vs

/-- Whether a bus write opens a transaction with DATA_FIFO: the address byte on I2C, the address bytes of
the frame header on SPI. -/
def opensFifo (c : Cfg) (bs : List Byte) : Bool :=
  match c.transport with
  | .i2c => bs.take 1 == [i2cAddr c.map c.loc .dataFifo]
  | .spi => bs.drop 2 == (spiHeader c.map .read c.loc .dataFifo 1).drop 2

/-- The bytes written to DATA_FIFO. On I2C they follow the address byte in the same bus write; on SPI they
are the second bus write of a frame. `hdr` is the header of the frame the trace stands in. -/
def fifoSent (c : Cfg) : Option (List Byte) → List Event → List Byte
  | _, [] => []
  | hdr, .busWrite bs :: rest =>
    match c.transport, hdr with
    | .i2c, _ => (if opensFifo c bs then bs.drop 1 else []) ++ fifoSent c hdr rest
    | .spi, none => fifoSent c (some bs) rest
    | .spi, some h => (if opensFifo c h then bs else []) ++ fifoSent c hdr rest
  | _, .unlock :: rest => fifoSent c none rest
  | hdr, _ :: rest => fifoSent c hdr rest

/-- The byte strings read from DATA_FIFO, one for each read. On I2C they are the bus read after the address
write; on SPI the second kind of read of a frame, after the stall byte with bit 0 set. `inFifo` says whether
the trace stands in a DATA_FIFO transaction, `go` whether that transaction's payload comes next. -/
def fifoReceived (c : Cfg) : Bool → Bool → List Event → List (List Byte)
  | _, _, [] => []
  | _, _, .busWrite bs :: rest => fifoReceived c (opensFifo c bs) (c.transport == .i2c) rest
  | inFifo, go, .busRead bs :: rest =>
    match inFifo, go with
    | true, true => bs :: fifoReceived c false false rest
    | true, false => fifoReceived c true (notStalled (byteAt bs 0)) rest
    | false, _ => fifoReceived c false false rest
  | _, _, .unlock :: rest => fifoReceived c false false rest
  | inFifo, go, _ :: rest => fifoReceived c inFifo go rest

/-- How far an SPI register transaction has come: outside one, the lock just taken, its header out and the
stall poll running, its stall poll ended, or over with the lock still held (R153). -/
inductive FramePhase where
  | free
  | locked
  | polling
  | paying
  | over
deriving DecidableEq, Repr

/-- One port event of an SPI transaction: the phase after it, or none where no transaction has such an event
(R153, R344). A bus operation is possible only under the lock, and the lock spans exactly one transaction:
LOCK, header, stall polls, payload, UNLOCK, or LOCK, the operations up to the one that failed or the last
stall poll in time, UNLOCK. -/
def FramePhase.after : FramePhase → Event → Option FramePhase
  | .free, .lock => some .locked
  | .locked, .busWrite h => if h.length = 4 then some .polling else none
  | .locked, .busWriteErr h _ => if h.length = 4 then some .over else none
  | .polling, .busRead [b] => some (if notStalled b then .paying else .polling)
  | .polling, .busReadErr n _ => if n = 1 then some .over else none
  | .polling, .unlock => some .free
  | .paying, .busRead _ => some .over
  | .paying, .busReadErr _ _ => some .over
  | .paying, .busWrite _ => some .over
  | .paying, .busWriteErr _ _ => some .over
  | .over, .unlock => some .free
  | p, .now _ => some p
  | .free, .sleep _ => some .free
  | .free, .memRead _ _ _ => some .free
  | .free, .memWrite _ _ => some .free
  | _, _ => none

/-- The phase after a trace, from the phase before it; none where the trace breaks the shape. -/
def spiFrames : FramePhase → List Event → Option FramePhase
  | p, [] => some p
  | p, ev :: rest =>
    match p.after ev with
    | some q => spiFrames q rest
    | none => none

/-- How far an I2C register transaction has come: outside one, the flag just cleared, its bus write done,
its wait running since a clock value, a look at the flag that gave 0, the budget of the wait seen as gone, the
flag seen, or an operation failed with the flag still to be cleared (R151, R152, R157). -/
inductive WirePhase where
  | rest
  | armed
  | sent
  | waiting (t1 : Nat)
  | missed (t1 : Nat)
  | late
  | seen
  | failed
deriving DecidableEq, Repr

/-- One port event of an I2C transaction: the phase after it, or none where no transaction has such an event
(R151, R152, R343). A bus write comes directly after a ReadyClear; between it and the look that sees the flag
there is no ReadyClear, but for the one that ends a transaction whose bus operation failed or whose wait of
`budget` ticks has run out; a flag set at that moment is seen (log 35); a bus read comes directly after the
flag is seen. -/
def WirePhase.after (budget : Nat) : WirePhase → Event → Option WirePhase
  | .armed, .busWrite _ => some .sent
  | .armed, .busWriteErr _ _ => some .failed
  | .sent, .now t => some (.waiting t)
  | .waiting t1, .readyFlag set => some (if set then .seen else .missed t1)
  | .missed t1, .now t => some (if budget ≤ t - t1 then .late else .waiting t1)
  | .late, .readyFlag true => some .seen
  | .late, .readyClear => some .rest
  | .seen, .busRead _ => some .rest
  | .seen, .busReadErr _ _ => some .failed
  | .failed, .readyClear => some .rest
  | .rest, .readyClear | .armed, .readyClear | .seen, .readyClear => some .armed
  | .rest, .now _ | .armed, .now _ | .seen, .now _ => some .rest
  | .rest, .sleep _ | .armed, .sleep _ | .seen, .sleep _ => some .rest
  | .rest, .memRead _ _ _ | .armed, .memRead _ _ _ | .seen, .memRead _ _ _ => some .rest
  | .rest, .memWrite _ _ | .armed, .memWrite _ _ | .seen, .memWrite _ _ => some .rest
  | _, _ => none

/-- Between transactions: no bus operation waits for its edge, no failure for its ReadyClear. `armed` is
the ReadyClear of a length error (log 14). -/
def WirePhase.settled : WirePhase → Bool
  | .rest | .armed | .seen => true
  | .sent | .waiting _ | .missed _ | .late | .failed => false

/-- The phase after a trace, from the phase before it; none where the trace breaks the shape. -/
def i2cPhases (budget : Nat) : WirePhase → List Event → Option WirePhase
  | p, [] => some p
  | p, ev :: rest =>
    match p.after budget ev with
    | some q => i2cPhases budget q rest
    | none => none

/-- The working registers an instruction may write (R31): `y` differs from `x` in those only. -/
def writesOnly (i : Instr) (x y : Regs) : Prop :=
  match i with
  | .probe => y = { x with id := y.id, access := y.access, tries := y.tries, t1 := y.t1 }
  | .send _ =>
    y = { x with
      status := y.status, burst := y.burst, access := y.access, sent := y.sent, limit := y.limit
      t0 := y.t0, t1 := y.t1, tries := y.tries }
  | .recv _ =>
    y = { x with
      status := y.status, burst := y.burst, access := y.access, cur := y.cur
      expected := y.expected, n := y.n, t0 := y.t0, t1 := y.t1 }
  | .release _ => y = { x with access := y.access, t1 := y.t1 }
  | .shutdown =>
    y = { y with id := x.id }
  | .checkLocality => y = { x with access := y.access, t1 := y.t1 }
  | .requestLocality => y = { x with access := y.access, tries := y.tries, t1 := y.t1 }
  | .releaseLocality => y = { x with access := y.access, t1 := y.t1 }
  | .getBurstAndStatus => y = { x with status := y.status, burst := y.burst, t0 := y.t0, t1 := y.t1 }
  | .readStatus => y = { x with status := y.status, t1 := y.t1 }
  | .waitCommandReady => y = { x with status := y.status, t0 := y.t0, t1 := y.t1 }
  | .fifoWriteBody =>
    y = { x with
      status := y.status, burst := y.burst, sent := y.sent, limit := y.limit, t0 := y.t0, t1 := y.t1 }
  | .fifoReadBody =>
    y = { x with
      status := y.status, burst := y.burst, cur := y.cur, expected := y.expected, n := y.n
      t0 := y.t0, t1 := y.t1 }
  | .cleanup => y = { x with status := y.status, access := y.access, t1 := y.t1 }
  | .i2cRead | .i2cWrite | .spiRead | .spiWrite | .readyWait | .spiXfer
  | .setReady | .writeGo
  | .i2cAddrAccess _ | .i2cAddrSts _ | .i2cAddrDataFifo _ | .i2cAddrDidVid _
  | .spiHdrReadAccess _ _ | .spiHdrWriteAccess _ _ | .spiHdrReadSts _ _ | .spiHdrWriteSts _ _
  | .spiHdrReadDataFifo _ _ | .spiHdrWriteDataFifo _ _ | .spiHdrReadDidVid _ _
  | .stsGoVal | .stsReadyVal | .accessReqVal | .accessRelVal => y = { x with t1 := y.t1 }

/-- The most RSPBUF bytes an instruction may write from index 0 on: the capacity of a RECV, of SHUTDOWN's
receive part or of a FIFO_READ_BODY, and none for every other instruction (R48, R80, R224, R265). -/
def rspCap (i : Instr) (a : Args) : Nat :=
  match i with
  | .recv cap => cap
  | .shutdown => 10
  | .fifoReadBody => a.cap
  | .probe | .send _ | .release _
  | .i2cRead | .i2cWrite | .spiRead | .spiWrite | .readyWait | .spiXfer
  | .checkLocality | .requestLocality | .releaseLocality
  | .getBurstAndStatus | .readStatus | .setReady
  | .waitCommandReady | .fifoWriteBody | .writeGo | .cleanup
  | .i2cAddrAccess _ | .i2cAddrSts _ | .i2cAddrDataFifo _ | .i2cAddrDidVid _
  | .spiHdrReadAccess _ _ | .spiHdrWriteAccess _ _ | .spiHdrReadSts _ _ | .spiHdrWriteSts _ _
  | .spiHdrReadDataFifo _ _ | .spiHdrWriteDataFifo _ _ | .spiHdrReadDidVid _ _
  | .stsGoVal | .stsReadyVal | .accessReqVal | .accessRelVal => 0

/-- The instructions that write no TPM register, and so leave the scratch buffer as it is (R44, R152). -/
def readsOnly (i : Instr) : Bool :=
  match i with
  | .i2cRead | .spiRead | .readyWait | .checkLocality | .getBurstAndStatus | .readStatus | .fifoReadBody
  | .i2cAddrAccess _ | .i2cAddrSts _ | .i2cAddrDataFifo _ | .i2cAddrDidVid _
  | .spiHdrReadAccess _ _ | .spiHdrReadSts _ _ | .spiHdrReadDataFifo _ _ | .spiHdrReadDidVid _ _ => true
  | .probe | .send _ | .recv _ | .release _ | .shutdown
  | .i2cWrite | .spiWrite | .spiXfer | .requestLocality | .releaseLocality | .setReady
  | .waitCommandReady | .fifoWriteBody | .writeGo | .cleanup
  | .spiHdrWriteAccess _ _ | .spiHdrWriteSts _ _ | .spiHdrWriteDataFifo _ _
  | .stsGoVal | .stsReadyVal | .accessReqVal | .accessRelVal => false

/-- The locality operand of an instruction that has one: a procedure code's `loc`, or a wire row's field
(R81). -/
def localityOf (i : Instr) (a : Args) : Option Nat :=
  match i with
  | .i2cRead | .i2cWrite | .spiRead | .spiWrite | .spiXfer => some a.loc
  | .i2cAddrAccess loc | .i2cAddrSts loc | .i2cAddrDataFifo loc | .i2cAddrDidVid loc
  | .spiHdrReadAccess _ loc | .spiHdrWriteAccess _ loc | .spiHdrReadSts _ loc | .spiHdrWriteSts _ loc
  | .spiHdrReadDataFifo _ loc | .spiHdrWriteDataFifo _ loc | .spiHdrReadDidVid _ loc => some loc
  | .probe | .send _ | .recv _ | .release _ | .shutdown
  | .readyWait | .checkLocality | .requestLocality | .releaseLocality
  | .getBurstAndStatus | .readStatus | .setReady
  | .waitCommandReady | .fifoWriteBody | .writeGo | .fifoReadBody | .cleanup
  | .stsGoVal | .stsReadyVal | .accessReqVal | .accessRelVal => none

/-- The host commands. -/
def isHostCommand (i : Instr) : Bool :=
  i.format == .hcmd

end Sys2Proof.Machine
end

