-- ==== Sys2Proof/Certificates/Slice0/Obligations.lean ====
section
/-! DEFINITION. The statements for the provers. Each docstring names the rule of spec/ it formalises, and
the log entry of every choice of the model's that it rests on. `R<n>` is a rule, `log <n>` a row of
notes/assumptions. -/

open Sys2Proof Sys2Proof.Machine

/-! ### Encodings -/

/-- Every well-formed instruction's word decodes, in its format, to the instruction (30_encoding.md R111,
R114, R117, R118, R126 to R128; the byte order of a host word is log 21). -/
def Obligations.DecodeOfEncodeIsTheInstruction : Prop :=
  ∀ i : Instr, i.WellFormed → decodeAs i.format (encode i) = .ok i

/-- Every byte string that decodes in a format is the word of a well-formed instruction of that format: no
two words of one format mean the same, and no bit is dropped (R111, R114, R124, R127). -/
def Obligations.DecodedWordsAreEncodings : Prop :=
  ∀ (f : Format) (bs : List Byte) (i : Instr), decodeAs f bs = .ok i →
    i.WellFormed ∧ i.format = f ∧ encode i = bs

/-- Words written out from the spec's tables decode to what they stand for (R111, R115, R117, R118, R127,
R128). -/
def Obligations.HandWrittenWordsDecode : Prop :=
  decodeAs .hcmd [0x02, 0x00, 0x00, 0x0C] = .ok (.send 12) ∧
  decodeAs .hcmd [0x03, 0x00, 0x10, 0x00] = .ok (.recv 4096) ∧
  decodeAs .hcmd [0x04, 0x00, 0x00, 0x01] = .ok (.release true) ∧
  decodeAs .uop [0x43] = .ok .fifoReadBody ∧
  decodeAs .i2cAddr [0x11] = .ok (.i2cAddrSts 1) ∧
  decodeAs .spiHdr [0xC3, 0xD4, 0x0F, 0x00] = .ok (.spiHdrReadDidVid 3 0) ∧
  decodeAs .spiHdr [0x4B, 0xD4, 0x00, 0x24] = .ok (.spiHdrWriteDataFifo 11 0) ∧
  decodeAs .stsWr [0x20, 0x00, 0x00, 0x00] = .ok .stsGoVal ∧
  decodeAs .accessWr [0x20] = .ok .accessRelVal

/-- The host opcode map: `op` in bits 31:24 selects the command, `arg` in bits 23:0 is its operand, and a
reserved opcode or operand bit is refused (R127, with its examples): a step with such a word in the slot has
no next state (R124 (g), R311). That the word stands in a slot, highest byte first, is the model's choice
(log 3, log 21). -/
def Obligations.HostOpcodeMap : Prop :=
  (∀ op arg : Nat, op < 256 → arg < 2 ^ 24 →
    (op = 0x01 → decodeHcmd (op * 2 ^ 24 + arg) =
      if arg = 0 then .ok .probe else .error .reservedOperandBits) ∧
    (op = 0x02 → decodeHcmd (op * 2 ^ 24 + arg) = .ok (.send arg)) ∧
    (op = 0x03 → decodeHcmd (op * 2 ^ 24 + arg) = .ok (.recv arg)) ∧
    (op = 0x04 → decodeHcmd (op * 2 ^ 24 + arg) =
      if arg / 2 = 0 then .ok (.release (arg % 2 == 1)) else .error .reservedOperandBits) ∧
    (op = 0x05 → decodeHcmd (op * 2 ^ 24 + arg) =
      if arg = 0 then .ok .shutdown else .error .reservedOperandBits) ∧
    (op = 0x00 ∨ 0x06 ≤ op → decodeHcmd (op * 2 ^ 24 + arg) = .error .reservedOpcode)) ∧
  decodeHcmd 0x0200000C = .ok (.send 12) ∧
  decodeHcmd 0x03001000 = .ok (.recv 4096) ∧
  decodeHcmd 0x04000001 = .ok (.release true) ∧
  (∀ (s : State) (w : Nat) (r : Reject), s.attached = true → s.running = none →
    s.slot = some { fmt := .hcmd, bytes := beBytes4 w } → w < 2 ^ 32 →
    decodeHcmd w = .error r → step s = .refused (.badWord r))

/-- The SPI frame header: the fields of its four bytes and of the word H, for every direction, register,
locality that fits and length (R114). That bit 7 is 1 for a read and that the marker is 1 are the spec's own
values, from general knowledge and decision D12 (log 24). -/
def Obligations.SpiHeaderLayout : Prop :=
  ∀ (dir : Dir) (loc : Nat) (kind : Kind) (n : Nat), loc ≤ 3 → 1 ≤ n → n ≤ 64 →
    ∃ b0 b1 b2 b3 : Byte, spiHeader .standard dir loc kind n = [b0, b1, b2, b3] ∧
      b0.getLsbD 7 = (dir == .read) ∧ b0.getLsbD 6 = true ∧ b0.toNat % 64 = n - 1 ∧
      b1 = 0xD4 ∧ b2.toNat / 64 = 0 ∧
      b2.toNat % 64 = (spiAddr .standard loc kind).toNat / 256 ∧
      b3.toNat = (spiAddr .standard loc kind).toNat % 256 ∧
      natBits (beNat [b0, b1, b2, b3]) 31 31 = (dir == .read).toNat ∧
      natBits (beNat [b0, b1, b2, b3]) 30 30 = 1 ∧
      natBits (beNat [b0, b1, b2, b3]) 29 24 = n - 1 ∧
      natBits (beNat [b0, b1, b2, b3]) 23 16 = 0xD4 ∧
      natBits (beNat [b0, b1, b2, b3]) 15 14 = 0 ∧
      natBits (beNat [b0, b1, b2, b3]) 13 0 = (spiAddr .standard loc kind).toNat

/-- The wire addresses are base plus locality, and the address byte or header a procedure puts on the bus is
the word the opcode table's row has (R81, R82, R111, R115). The base values are the spec's own, from general
knowledge (log 24). -/
def Obligations.WireAddressesAreTableWords : Prop :=
  (∀ loc, loc ≤ 15 →
    [i2cAddr .standard loc .access] = encode (.i2cAddrAccess loc) ∧
    [i2cAddr .standard loc .sts] = encode (.i2cAddrSts loc) ∧
    [i2cAddr .standard loc .dataFifo] = encode (.i2cAddrDataFifo loc) ∧
    [i2cAddr .standard loc .didVid] = encode (.i2cAddrDidVid loc) ∧
    (i2cAddr .standard loc .access).toNat = 0x0 + 16 * loc ∧
    (i2cAddr .standard loc .sts).toNat = 0x1 + 16 * loc ∧
    (i2cAddr .standard loc .dataFifo).toNat = 0x5 + 16 * loc ∧
    (i2cAddr .standard loc .didVid).toNat = 0x6 + 16 * loc) ∧
  (∀ loc m, loc ≤ 3 → m ≤ 63 →
    spiHeader .standard .read loc .access (m + 1) = encode (.spiHdrReadAccess m loc) ∧
    spiHeader .standard .write loc .access (m + 1) = encode (.spiHdrWriteAccess m loc) ∧
    spiHeader .standard .read loc .sts (m + 1) = encode (.spiHdrReadSts m loc) ∧
    spiHeader .standard .write loc .sts (m + 1) = encode (.spiHdrWriteSts m loc) ∧
    spiHeader .standard .read loc .dataFifo (m + 1) = encode (.spiHdrReadDataFifo m loc) ∧
    spiHeader .standard .write loc .dataFifo (m + 1) = encode (.spiHdrWriteDataFifo m loc) ∧
    spiHeader .standard .read loc .didVid (m + 1) = encode (.spiHdrReadDidVid m loc))

/-- The burst count is little-endian in snapshot bytes 1 and 2, the declared length big-endian in response
bytes 2 to 5, each read as a number, and the SPI register address big-endian in header bytes 2 and 3 (R84,
R85, R86). -/
def Obligations.FieldByteOrders : Prop :=
  ∀ (a b c d : Byte) (tail : List Byte) (h0 h1 : Byte) (m : TpmMap) (dir : Dir) (loc : Nat) (kind : Kind)
    (n : Nat),
    (snapBurst [h0, a, b, c]).toNat = a.toNat + 256 * b.toNat ∧
    (declaredLength (h0 :: h1 :: a :: b :: c :: d :: tail)).toNat =
      ((a.toNat * 256 + b.toNat) * 256 + c.toNat) * 256 + d.toNat ∧
    ∃ b0 b1 b2 b3 : Byte, spiHeader m dir loc kind n = [b0, b1, b2, b3] ∧
      b2.toNat = (spiAddr m loc kind).toNat / 256 ∧ b3.toNat = (spiAddr m loc kind).toNat % 256

/-- The flag tests of a status byte and of an ACCESS byte, bit by bit, the mask test, and the fields of a
snapshot, its byte 3 ignored (R119, R120). The bit positions are the spec's own, from general knowledge
(log 24). -/
def Obligations.FlagTestsBitByBit : Prop :=
  ∀ s m b1 b2 b3 : Byte,
    snapStatus [s, b1, b2, b3] = s ∧ (snapBurst [s, b1, b2, b3]).toNat = b1.toNat + 256 * b2.toNat ∧
    (hasAll s m = true ↔ ∀ k, m.getLsbD k = true → s.getLsbD k = true) ∧
    hasAll s (maskValid .standard) = s.getLsbD 7 ∧
    hasAll s (maskValidAvail .standard) = (s.getLsbD 7 && s.getLsbD 4) ∧
    hasAll s (maskValidExpect .standard) = (s.getLsbD 7 && s.getLsbD 3) ∧
    cmdReady .standard s = s.getLsbD 6 ∧
    dataAvail .standard s = s.getLsbD 4 ∧
    dataExpect .standard s = s.getLsbD 3 ∧
    localityOk .standard s = (s.getLsbD 7 && s.getLsbD 5) ∧
    releaseWanted .standard s = (s.getLsbD 7 && s.getLsbD 2) ∧
    notStalled s = s.getLsbD 0

/-! ### The step, the host's side and reset -/

/-- A step with a word in the slot and no instruction in progress empties the slot and is `exec` of the
decoded instruction (log 2, log 3); while an instruction is in progress a new word is refused. The rules say
that of host commands (R35, R311); that it holds whatever the word's format is the model's (log 20). -/
def Obligations.StepRunsTheDecodedWord : Prop :=
  (∀ (s : State) (c : Slot) (i : Instr), s.attached = true → s.running = none → s.slot = some c →
    decodeAs c.fmt c.bytes = .ok i → step s = exec i { s with slot := none }) ∧
  (∀ s : State, s.running ≠ none → s.slot ≠ none → step s = .refused .hostBusy)

/-- An instruction that waits for the environment goes on as if it had had the answers from the start
(20_memory.md R94, R97; the device of running it again is log 2): what it does is fixed by the engine at its
start and the answers. -/
def Obligations.CarryingOnIsRunningWithMoreAnswers : Prop :=
  ∀ (i : Instr) (s t : State) (r : Running) (a : Answer) (as : List Answer),
    exec i s = .next t → t.running = some r → s.slot = none →
    step { t with toEngine := { t.toEngine with inbox := a :: as } } =
      exec i { s with toEngine := { s.toEngine with inbox := s.inbox ++ a :: as }, running := none }

/-- What an instruction has done before it waits, it has done for good: with more answers its port events
only go on from there (R94; log 2). -/
def Obligations.MoreAnswersOnlyExtendTheTrace : Prop :=
  ∀ (i : Instr) (s t t' : State) (as : List Answer),
    exec i s = .next t →
    exec i { s with toEngine := { s.toEngine with inbox := s.inbox ++ as } } = .next t' →
    t.trace <+: t'.trace ∧ (t.running = none → t'.running = none ∧ t'.ret = t.ret ∧
      t'.result = t.result ∧ t'.sess = t.sess ∧ t'.inbox = t.inbox ++ as)

/-- Attach accepts exactly the configurations that meet the constraints, and refuses the others (R10). -/
def Obligations.AttachAcceptsExactlyR10 : Prop :=
  ∀ (c : Cfg) (s : State),
    ((∃ t, attachHandle c s = .next t) ↔
      c.maxXfer + 1 ≤ c.scratchCap ∧ (c.transport = .spi → c.maxXfer ≤ 64) ∧
      c.burstCap ≤ c.maxXfer + 1 ∧ c.hdrSize + 1 ≤ c.burstCap ∧
      (c.transport = .i2c → c.loc ≤ 15) ∧ (c.transport = .spi → c.loc ≤ 3)) ∧
    ((¬ ∃ t, attachHandle c s = .next t) → attachHandle c s = .refused .badConfig)

/-- The engine state at attach (R50), and the same values in the state after reset; and detach disables the
ready path and releases the scratch buffer without a bus operation, and no command runs after it (R341).
That a word is refused then, and that a detached handle keeps `cfg`, `sess` and `result`, is the model's
choice (log 23). -/
def Obligations.AttachAndDetach : Prop :=
  (∀ (c : Cfg) (s t : State), attachHandle c s = .next t →
    t.cfg = c ∧ t.sess = .idle ∧ t.busy = false ∧ t.ready = false ∧
    t.scratch.length = c.scratchCap ∧ t.lock ≠ .engine ∧
    (t.readyPath = true ↔ c.transport = .i2c) ∧ t.trace = s.trace) ∧
  State.reset.cfg.ok = true ∧ State.reset.sess = .idle ∧ State.reset.busy = false ∧
  State.reset.ready = false ∧ State.reset.scratch.length = State.reset.cfg.scratchCap ∧
  State.reset.lock ≠ .engine ∧ (State.reset.readyPath = true ↔ State.reset.cfg.transport = .i2c) ∧
  (∀ s : State, ∃ t, hostMoves .detach s = .next t ∧ t.attached = false ∧ t.readyPath = false ∧
    t.scratch = [] ∧ t.trace = s.trace ∧ t.cfg = s.cfg ∧ t.sess = s.sess ∧ t.result = s.result) ∧
  (∀ s : State, s.attached = false → s.running = none → s.slot ≠ none → step s = .refused .detached)

/-- Command gating (R260): while busy every host command is refused; otherwise PROBE, SEND and SHUTDOWN are
refused exactly outside IDLE, RECV exactly outside STARTED, and RELEASE never. A refusal has no next state. -/
def Obligations.HostCommandGating : Prop :=
  (∀ (i : Instr) (s : State), isHostCommand i = true → s.busy = true →
    exec i s = .refused .hostBusy) ∧
  (∀ s : State, s.busy = false →
    (s.sess ≠ .idle ↔ exec .probe s = .refused .hostOrder) ∧
    (∀ len, s.sess ≠ .idle ↔ exec (.send len) s = .refused .hostOrder) ∧
    (∀ cap, s.sess ≠ .started ↔ exec (.recv cap) s = .refused .hostOrder) ∧
    (s.sess ≠ .idle ↔ exec .shutdown s = .refused .hostOrder)) ∧
  (∀ (s : State) (force : Bool) (r : Refusal), s.busy = false → exec (.release force) s ≠ .refused r) ∧
  (∀ (i : Instr) (s : State) (r : Refusal), isHostCommand i = true → exec i s = .refused r →
    r = .hostBusy ∨ r = .hostOrder)

/-- Nothing but the listed host duty violations, absent transports and localities beyond the encoding refuses
an instruction (R311, R3, R81; that the last two are refusals of the row is log 15 and log 16). Nothing but
a length or capacity beyond the bytes the source or the buffer has faults, at the first index beyond them or
a later one (log 13); so a host command whose operand fits its encoding never faults (R80, R48). -/
def Obligations.StopsAreTheListedOnes : Prop :=
  (∀ (i : Instr) (s : State) (r : Refusal), exec i s = .refused r →
    (isHostCommand i = true ∧ (r = .hostBusy ∨ r = .hostOrder)) ∨
    (r = .otherTransport ∧ neededTransport i = some .i2c ∧ s.cfg.transport = .spi) ∨
    (r = .otherTransport ∧ neededTransport i = some .spi ∧ s.cfg.transport = .i2c) ∨
    (r = .localityRange ∧ neededTransport i = some s.cfg.transport ∧
      ∃ loc, localityOf i s.args = some loc ∧ s.cfg.transport.maxLoc < loc)) ∧
  (∀ (i : Instr) (s : State) (f : Fault), exec i s = .fault f →
    ∃ k, f = .bufferRange k ∧
      ((i = .fifoWriteBody ∧ sourceSize s.args.src ≤ k ∧ k < s.args.len) ∨
        (i = .fifoReadBody ∧ bufSize ≤ k ∧ k < s.args.cap) ∨
        (∃ len, i = .send len ∧ bufSize ≤ k ∧ k < len) ∨
        (∃ cap, i = .recv cap ∧ bufSize ≤ k ∧ k < cap))) ∧
  (∀ (i : Instr) (s : State) (f : Fault), isHostCommand i = true → i.WellFormed →
    exec i s ≠ .fault f)

/-! ### Invariants -/

/-- The machine right after reset meets the invariant. -/
def Obligations.ResetMeetsTheInvariant : Prop :=
  State.reset.Inv

/-- Every step keeps the invariant: the configuration stays legal, the host buffers canonical, the scratch
buffer whole, the ready flag and its path an I2C matter, and the SPI lock and the session at rest whenever
no instruction is in progress (R10, R30, R36, R44, R45, R267 (a); the canonical form is log 13). -/
def Obligations.StepKeepsTheInvariant : Prop :=
  ∀ s t : State, s.Inv → step s = .next t → t.Inv

/-- The clock never falls: not over an instruction, not over a step that carries on a waiting one, with
whatever answers, and not over any other step; and the values Now() returns within an instruction never fall
either (R47). -/
def Obligations.ClockNeverFalls : Prop :=
  (∀ (i : Instr) (s t : State) (evs : List Event), exec i s = .next t → t.trace = s.trace ++ evs →
    s.clock ≤ t.clock ∧ (clockReads evs).Pairwise (· ≤ ·) ∧
    ∀ v ∈ clockReads evs, s.clock ≤ v ∧ v ≤ t.clock) ∧
  (∀ (i : Instr) (s t u : State) (as : List Answer), exec i s = .next t → t.running ≠ none →
    step { t with toEngine := { t.toEngine with inbox := as } } = .next u → t.clock ≤ u.clock) ∧
  (∀ s t : State, s.running = none → step s = .next t → s.clock ≤ t.clock)

/-! ### Frames -/

/-- What no instruction changes: the configuration, the handle, the ready path, CMDBUF, the operands, the
slot and the model's counters; the port events only grow, and answers are only taken from the front (R3, R30,
R48, R97). -/
def Obligations.FrameOfEveryInstruction : Prop :=
  ∀ (i : Instr) (s t : State), exec i s = .next t →
    t.cfg = s.cfg ∧ t.attached = s.attached ∧ t.readyPath = s.readyPath ∧ t.cmdbuf = s.cmdbuf ∧
    t.args = s.args ∧ t.slot = s.slot ∧ t.drawn = s.drawn ∧ t.hostTurn = s.hostTurn ∧
    s.trace <+: t.trace ∧ t.inbox <:+ s.inbox ∧
    (s.cfg.transport = .i2c → t.lock = s.lock) ∧
    (s.cfg.transport = .spi → t.scratch = s.scratch) ∧
    (readsOnly i = true → t.scratch = s.scratch)

/-- A procedure code or wire encoding leaves the session state, `busy`, `result` and the saved error as they
are, and a host command leaves the procedures' outcome (R30, R37; log 5). -/
def Obligations.FrameOfTheSession : Prop :=
  ∀ (i : Instr) (s t : State), exec i s = .next t →
    (isHostCommand i = false →
      t.sess = s.sess ∧ t.busy = s.busy ∧ t.result = s.result ∧ t.pending = s.pending) ∧
    (isHostCommand i = true → t.ret = s.ret) ∧
    (i = .probe ∨ (∃ f, i = .release f) → t.sess = s.sess)

/-- Each instruction writes only the working registers of the procedures it runs (R31). -/
def Obligations.FrameOfTheWorkingRegisters : Prop :=
  ∀ (i : Instr) (s t : State), exec i s = .next t → writesOnly i s.x t.x

/-- RSPBUF: no instruction reads it; the bytes written are at indices 0, 1, 2, ... in order, each once, no more
than the capacity (R48, R98, R224); every other byte, and all of RSPBUF for an instruction that receives
nothing, holds what it held, which is the model's choice where R48 leaves a byte unspecified (log 37). The
canonical form is log 13. -/
def Obligations.FrameOfTheResponseBuffer : Prop :=
  ∀ (i : Instr) (s t : State) (evs : List Event), exec i s = .next t → t.trace = s.trace ++ evs →
    Memory.wf s.rspbuf = true →
    rspReads evs = [] ∧
    ∃ written : List Byte, rspWrites evs = indexed 0 written ∧ written.length ≤ rspCap i s.args ∧
      t.rspbuf = memSetAll s.rspbuf 0 written ∧
      (∀ k, k < written.length → memGet t.rspbuf k = byteAt written k) ∧
      (∀ a, written.length ≤ a → memGet t.rspbuf a = memGet s.rspbuf a)

/-! ### Register transport -/

/-- I2C_READ (R151, R112): clear the flag, write the address byte, wait, read. The flag may rise during any
of the three primitives before it is looked at; the read leaves it set. A flag that rises no later than the
clock read which shows the budget gone counts as seen (R157, D3; its event: log 35). A read of 0 bytes runs as
well, which is the model's choice (log 27): R151 gives n as 1 to MAX_XFER and lets a model refuse 0. -/
def Obligations.I2cReadResult : Prop :=
  (∀ (s : State) (w n f d : Answer) (rest : List Answer),
    s.cfg.transport = .i2c → s.readyPath = true → s.args.loc ≤ 15 → s.args.n ≤ s.cfg.maxXfer →
    s.inbox = w :: n :: f :: d :: rest → w.err = none → d.err = none →
    (w.edge || n.edge || f.edge) = true → d.bytes.length = s.args.n →
    exec .i2cRead s = .next { s with
      ready := true
      clock := s.clock + w.ticks + n.ticks + f.ticks + d.ticks
      x := { s.x with t1 := s.clock + w.ticks + n.ticks }
      inbox := rest
      trace := s.trace ++
        [.readyClear, .busWrite [i2cAddr s.cfg.map s.args.loc s.args.kind],
          .now (s.clock + w.ticks + n.ticks), .readyFlag true, .busRead d.bytes]
      ret := .ok (.bytes d.bytes)
      running := none }) ∧
  (∀ (s : State) (w n f l d : Answer) (rest : List Answer),
    s.cfg.transport = .i2c → s.readyPath = true → s.args.loc ≤ 15 → s.args.n ≤ s.cfg.maxXfer →
    s.inbox = w :: n :: f :: l :: d :: rest → w.err = none → d.err = none →
    (w.edge || n.edge || f.edge) = false → l.edge = true → d.bytes.length = s.args.n →
    s.cfg.tIrq * s.cfg.clkPerMs ≤ f.ticks + l.ticks →
    exec .i2cRead s = .next { s with
      ready := true
      clock := s.clock + w.ticks + n.ticks + f.ticks + l.ticks + d.ticks
      x := { s.x with t1 := s.clock + w.ticks + n.ticks }
      inbox := rest
      trace := s.trace ++
        [.readyClear, .busWrite [i2cAddr s.cfg.map s.args.loc s.args.kind],
          .now (s.clock + w.ticks + n.ticks), .readyFlag false,
          .now (s.clock + w.ticks + n.ticks + f.ticks + l.ticks), .readyFlag true, .busRead d.bytes]
      ret := .ok (.bytes d.bytes)
      running := none })

/-- I2C_WRITE (R152, R113): address and payload go through the scratch buffer in one bus write; the bytes of
the scratch buffer beyond them stay. A payload of no byte is accepted. -/
def Obligations.I2cWriteResult : Prop :=
  ∀ (s : State) (w n f : Answer) (rest : List Answer),
    s.cfg.transport = .i2c → s.readyPath = true → s.args.loc ≤ 15 → s.cfg.ok = true →
    s.args.payload.length ≤ s.cfg.maxXfer →
    s.inbox = w :: n :: f :: rest → w.err = none → (w.edge || n.edge || f.edge) = true →
    exec .i2cWrite s = .next { s with
      ready := true
      scratch := (i2cAddr s.cfg.map s.args.loc s.args.kind :: s.args.payload) ++
        s.scratch.drop (s.args.payload.length + 1)
      clock := s.clock + w.ticks + n.ticks + f.ticks
      x := { s.x with t1 := s.clock + w.ticks + n.ticks }
      inbox := rest
      trace := s.trace ++
        [.readyClear,
          .busWrite (i2cAddr s.cfg.map s.args.loc s.args.kind :: s.args.payload),
          .now (s.clock + w.ticks + n.ticks), .readyFlag true]
      ret := .ok .unit
      running := none }

/-- The error exits of I2C_READ (R151, R158): a failed address write ends it with no wait, a failed data read
after the wait, each with the bus's own error value; a wait that runs out ends it with Timeout(ready); the
flag is cleared on each. A wait that runs out has no edge up to its last clock read (R157, D3). As in
`I2cReadResult`, that n may be 0 is the model's choice (log 27). -/
def Obligations.I2cReadErrorExits : Prop :=
  ∀ (s : State) (er : Nat),
    s.cfg.transport = .i2c → s.readyPath = true → s.args.loc ≤ 15 → s.args.n ≤ s.cfg.maxXfer →
    (∀ (w : Answer) (rest : List Answer), s.inbox = w :: rest → w.err = some er →
      exec .i2cRead s = .next { s with
        ready := false, clock := s.clock + w.ticks, inbox := rest
        trace := s.trace ++ [.readyClear,
          .busWriteErr [i2cAddr s.cfg.map s.args.loc s.args.kind] er, .readyClear]
        ret := .err (.io er), running := none }) ∧
    (∀ (w n f d : Answer) (rest : List Answer), s.inbox = w :: n :: f :: d :: rest → w.err = none →
      (w.edge || n.edge || f.edge) = true → d.err = some er →
      exec .i2cRead s = .next { s with
        ready := false, clock := s.clock + w.ticks + n.ticks + f.ticks + d.ticks
        x := { s.x with t1 := s.clock + w.ticks + n.ticks }, inbox := rest
        trace := s.trace ++ [.readyClear, .busWrite [i2cAddr s.cfg.map s.args.loc s.args.kind],
          .now (s.clock + w.ticks + n.ticks), .readyFlag true, .busReadErr s.args.n er, .readyClear]
        ret := .err (.io er), running := none }) ∧
    (∀ (w n f l : Answer) (rest : List Answer), s.inbox = w :: n :: f :: l :: rest → w.err = none →
      (w.edge || n.edge || f.edge || l.edge) = false →
      s.cfg.tIrq * s.cfg.clkPerMs ≤ f.ticks + l.ticks →
      exec .i2cRead s = .next { s with
        ready := false, clock := s.clock + w.ticks + n.ticks + f.ticks + l.ticks
        x := { s.x with t1 := s.clock + w.ticks + n.ticks }, inbox := rest
        trace := s.trace ++ [.readyClear, .busWrite [i2cAddr s.cfg.map s.args.loc s.args.kind],
          .now (s.clock + w.ticks + n.ticks), .readyFlag false,
          .now (s.clock + w.ticks + n.ticks + f.ticks + l.ticks), .readyClear]
        ret := .err (.timeout .ready), running := none })

/-- A transfer whose length does not fit ends with InsufficientResources, and no bus operation and no lock
(R90, R124 (a), R124 (b), R151 to R155, R303 (a); log 14, log 33). -/
def Obligations.LengthIsCheckedBeforeTheBus : Prop :=
  ∀ s : State,
    (s.cfg.transport = .i2c → s.args.loc ≤ 15 → s.cfg.maxXfer < s.args.n →
      ∃ t, exec .i2cRead s = .next t ∧ Finished s t s.inbox [] ∧
        t.ret = .err (.insufficientResources s.args.n)) ∧
    (s.cfg.transport = .i2c → s.args.loc ≤ 15 → s.cfg.maxXfer < s.args.payload.length →
      ∃ t, exec .i2cWrite s = .next t ∧ Finished s t s.inbox [] ∧
        t.ret = .err (.insufficientResources s.args.payload.length) ∧ t.scratch = s.scratch) ∧
    (s.cfg.transport = .spi → s.args.loc ≤ 3 → s.args.n = 0 ∨ s.cfg.maxXfer < s.args.n →
      exec .spiRead s =
        .next { s with ret := .err (.insufficientResources s.args.n), running := none } ∧
      exec .spiXfer s =
        .next { s with ret := .err (.insufficientResources s.args.n), running := none }) ∧
    (s.cfg.transport = .spi → s.args.loc ≤ 3 →
      s.args.payload.length = 0 ∨ s.cfg.maxXfer < s.args.payload.length →
      exec .spiWrite s =
        .next { s with
          ret := .err (.insufficientResources s.args.payload.length), running := none })

/-- READY_WAIT (R157, R303 (b)): the flag is tested before the deadline, so a flag seen ends the wait even
when the budget has run out; a flag set by the time the deadline is first seen as expired counts as seen (D3);
with no edge until then the wait ends in Timeout(ready), the flag 0. How the flag that counts as seen is
recorded is log 35. -/
def Obligations.ReadyWaitResult : Prop :=
  ∀ s : State, s.cfg.transport = .i2c → s.readyPath = true →
    (∀ (n f : Answer) (rest : List Answer), s.inbox = n :: f :: rest →
      (s.ready || n.edge || f.edge) = true →
      exec .readyWait s = .next { s with
        ready := true, clock := s.clock + n.ticks + f.ticks
        x := { s.x with t1 := s.clock + n.ticks }, inbox := rest
        trace := s.trace ++ [.now (s.clock + n.ticks), .readyFlag true]
        ret := .ok .unit, running := none }) ∧
    (∀ (n f l g : Answer) (rest : List Answer), s.inbox = n :: f :: l :: g :: rest →
      (s.ready || n.edge || f.edge) = false →
      f.ticks + l.ticks < s.cfg.tIrq * s.cfg.clkPerMs → (l.edge || g.edge) = true →
      ∃ t, exec .readyWait s = .next t ∧ Finished s t rest [] ∧ t.ret = .ok .unit) ∧
    (∀ (n f l : Answer) (rest : List Answer), s.inbox = n :: f :: l :: rest →
      (s.ready || n.edge || f.edge) = false → s.cfg.tIrq * s.cfg.clkPerMs ≤ f.ticks + l.ticks →
      (l.edge = true → exec .readyWait s = .next { s with
        ready := true, clock := s.clock + n.ticks + f.ticks + l.ticks
        x := { s.x with t1 := s.clock + n.ticks }, inbox := rest
        trace := s.trace ++ [.now (s.clock + n.ticks), .readyFlag false,
          .now (s.clock + n.ticks + f.ticks + l.ticks), .readyFlag true]
        ret := .ok .unit, running := none }) ∧
      (l.edge = false → exec .readyWait s = .next { s with
        ready := false, clock := s.clock + n.ticks + f.ticks + l.ticks
        x := { s.x with t1 := s.clock + n.ticks }, inbox := rest
        trace := s.trace ++ [.now (s.clock + n.ticks), .readyFlag false,
          .now (s.clock + n.ticks + f.ticks + l.ticks)]
        ret := .err (.timeout .ready), running := none }))

/-- SPI_READ, SPI_WRITE and SPI_XFER (R153 to R155): lock, header, a stall byte with bit 0 set, payload, and
the lock freed. -/
def Obligations.SpiTransactionResults : Prop :=
  ∀ (s : State) (l h n q d : Answer) (rest : List Answer) (stall : Byte),
    s.cfg.transport = .spi → s.readyPath = false → s.args.loc ≤ 3 →
    s.inbox = l :: h :: n :: q :: d :: rest → l.lockFree = true → h.err = none →
    q.err = none → q.bytes = [stall] → stall.getLsbD 0 = true → d.err = none →
    (∀ i, i = .spiRead ∨ (i = .spiXfer ∧ s.args.dir = .read) →
      1 ≤ s.args.n → s.args.n ≤ s.cfg.maxXfer → d.bytes.length = s.args.n →
      exec i s = .next { s with
        lock := .free, clock := s.clock + l.ticks + h.ticks + n.ticks + q.ticks + d.ticks
        x := { s.x with t1 := s.clock + l.ticks + h.ticks + n.ticks }, inbox := rest
        trace := s.trace ++
          [.lock, .busWrite (spiHeader s.cfg.map .read s.args.loc s.args.kind s.args.n),
            .now (s.clock + l.ticks + h.ticks + n.ticks), .busRead [stall], .busRead d.bytes, .unlock]
        ret := .ok (.bytes d.bytes), running := none }) ∧
    (∀ i p, p = s.args.payload → i = .spiWrite ∨ (i = .spiXfer ∧ s.args.dir = .write ∧ s.args.n = p.length) →
      1 ≤ p.length → p.length ≤ s.cfg.maxXfer →
      exec i s = .next { s with
        lock := .free, clock := s.clock + l.ticks + h.ticks + n.ticks + q.ticks + d.ticks
        x := { s.x with t1 := s.clock + l.ticks + h.ticks + n.ticks }, inbox := rest
        trace := s.trace ++
          [.lock, .busWrite (spiHeader s.cfg.map .write s.args.loc s.args.kind p.length),
            .now (s.clock + l.ticks + h.ticks + n.ticks), .busRead [stall], .busWrite p, .unlock]
        ret := .ok .unit, running := none })

/-- The SPI stall poll (R116, R153, R303 (b)): a stalled byte within the budget is polled again; a stalled
byte with the budget gone ends the transaction with Timeout(spi_stall), the lock freed; a byte with bit 0
set ends the poll whatever its other bits. -/
def Obligations.SpiStallPoll : Prop :=
  ∀ (s : State) (l h n q c : Answer) (rest : List Answer) (stall : Byte),
    s.cfg.transport = .spi → s.args.loc ≤ 3 → 1 ≤ s.args.n → s.args.n ≤ s.cfg.maxXfer →
    l.lockFree = true → h.err = none → q.err = none → q.bytes = [stall] → stall.getLsbD 0 = false →
    (∀ (q2 d : Answer) (go : Byte), s.inbox = l :: h :: n :: q :: c :: q2 :: d :: rest →
      q.ticks + c.ticks < s.cfg.tSpi * s.cfg.clkPerMs →
      q2.err = none → q2.bytes = [go] → go.getLsbD 0 = true → d.err = none →
      d.bytes.length = s.args.n →
      ∃ t, exec .spiRead s = .next t ∧
        Finished s t rest [.lock, .busWrite (spiHeader s.cfg.map .read s.args.loc s.args.kind s.args.n),
          .busRead [stall], .busRead [go], .busRead d.bytes, .unlock] ∧
        t.ret = .ok (.bytes d.bytes) ∧ t.lock = .free) ∧
    (s.inbox = l :: h :: n :: q :: c :: rest → s.cfg.tSpi * s.cfg.clkPerMs ≤ q.ticks + c.ticks →
      ∃ t, exec .spiRead s = .next t ∧
        Finished s t rest [.lock, .busWrite (spiHeader s.cfg.map .read s.args.loc s.args.kind s.args.n),
          .busRead [stall], .unlock] ∧
        t.ret = .err (.timeout .spiStall) ∧ t.lock = .free)

/-- No partial state on error (R156): where any of the six transport procedures, run by its own code, ends in
an error, the SPI lock is not held, the ready flag is 0 and no working register but the wait's start time has
changed; and the error is one of the transport's (R150). That a length error clears the flag is log 14; that
READY_WAIT raises only with the flag 0 rests on its corner cases (R157, D3; log 35). -/
def Obligations.TransportErrorLeavesNoPartialState : Prop :=
  ∀ (i : Instr) (s t : State) (er : Err),
    i = .i2cRead ∨ i = .i2cWrite ∨ i = .spiRead ∨ i = .spiWrite ∨ i = .spiXfer ∨ i = .readyWait →
    s.toEngine.Inv → s.lock ≠ .engine → exec i s = .next t → t.running = none → t.ret = .err er →
    t.lock ≠ .engine ∧ t.ready = false ∧ t.x = { s.x with t1 := t.x.t1 } ∧
    ((∃ n, er = .insufficientResources n) ∨ (∃ v, er = .io v) ∨
      (er = .timeout .ready ∧ s.cfg.transport = .i2c) ∨
      (er = .timeout .spiStall ∧ s.cfg.transport = .spi))

/-- The re-arm order of the ready flag on I2C (R343, R307): the flag is cleared directly before every bus
write and never between a bus write and the look that sees the flag; the only other clears are those that end
a transaction, after a bus operation that failed or a wait whose budget has run out (R151, R152), and that of
a length error (log 14). A flag set when the budget is first seen as gone is recorded as seen (log 35). A bus
read comes directly after the flag is seen. READY_WAIT by its own code begins where a bus write has just been
done, and where it times out it leaves the clear to a caller (R157). -/
def Obligations.ReadyClearedBeforeEveryBusWrite : Prop :=
  ∀ (i : Instr) (s t : State) (evs : List Event), s.cfg.transport = .i2c → exec i s = .next t →
    t.trace = s.trace ++ evs →
    ∃ p, i2cPhases (s.cfg.tIrq * s.cfg.clkPerMs) (if i = .readyWait then .sent else .rest) evs = some p ∧
      (t.running = none →
        p.settled = true ∨ (i = .readyWait ∧ t.ret = .err (.timeout .ready) ∧ p = .late))

/-- On SPI the port events of every instruction are whole transactions under the lock: it is held from before
the header write until after the payload, across the stall poll, and it is released on every exit path, a
failed operation and a timeout among them; it is not held when an instruction ends (R344). -/
def Obligations.SpiBusOperationsAreLocked : Prop :=
  ∀ (i : Instr) (s t : State) (evs : List Event), s.cfg.transport = .spi → s.lock ≠ .engine →
    exec i s = .next t → t.trace = s.trace ++ evs →
    ∃ p, spiFrames .free evs = some p ∧ (t.lock = .engine ↔ p ≠ .free) ∧
      (t.running = none → p = .free)

/-- The bus traffic of a host command, on either bus, is that of a sequence of listed accesses at the engine's
own locality, one after the other and no others: their registers, their directions, the widths of their reads,
the values of their writes (R43, R90, R93); DID_VID is read once by a PROBE at most, and by no other command.
While the command waits, its traffic is the beginning of such a sequence's. -/
def Obligations.HostCommandsWriteListedAccessesOnly : Prop :=
  ∀ (i : Instr) (s t : State) (evs : List Event), isHostCommand i = true → exec i s = .next t →
    t.trace = s.trace ++ evs →
    ∃ (accesses : List Access) (traffics : List (List Event)),
      List.Forall₂ (fun a tr => a.Listed s.cfg ∧ a.Traffic s.cfg tr) accesses traffics ∧
      busTrace evs <+: traffics.flatten ∧
      (t.running = none → busTrace evs = traffics.flatten) ∧
      accesses.count (.read .didVid 4) ≤ (if i = .probe then 1 else 0)

/-! ### Wire encodings -/

/-- The four I2C address rows: the address phase of a transaction, the row's own byte on the bus (R111, R112
steps 1 and 2). That executing the row is that phase is the model's choice (log 6). -/
def Obligations.I2cAddressRowsComplete : Prop :=
  ∀ (i : Instr) (loc : Nat) (s : State) (w n f : Answer) (rest : List Answer),
    i = .i2cAddrAccess loc ∨ i = .i2cAddrSts loc ∨ i = .i2cAddrDataFifo loc ∨ i = .i2cAddrDidVid loc →
    loc ≤ 15 → s.cfg.transport = .i2c → s.cfg.map = .standard → s.readyPath = true →
    s.inbox = w :: n :: f :: rest → w.err = none → f.edge = true →
    ∃ t, exec i s = .next t ∧ Finished s t rest [.busWrite (encode i)] ∧ t.ret = .ok .unit ∧
      t.ready = true ∧ t.x = { s.x with t1 := s.clock + w.ticks + n.ticks }

/-- The seven SPI header rows: the whole frame the header opens, the row's own four bytes as the header
(R114, R115, R153). That executing the row is the whole frame is the model's choice (log 7). -/
def Obligations.SpiHeaderRowsComplete : Prop :=
  ∀ (i : Instr) (m loc : Nat) (s : State) (as rest : List Answer),
    m ≤ 63 → loc ≤ 3 → s.cfg.transport = .spi → s.cfg.map = .standard → m + 1 ≤ s.cfg.maxXfer →
    s.inbox = as ++ rest →
    (i = .spiHdrReadAccess m loc ∨ i = .spiHdrReadSts m loc ∨ i = .spiHdrReadDataFifo m loc ∨
        i = .spiHdrReadDidVid m loc →
      ∀ bs, bs.length = m + 1 → AnswersRead .spi bs as →
      ∃ t, exec i s = .next t ∧
        Finished s t rest [.lock, .busWrite (encode i), .busRead [0x01], .busRead bs, .unlock] ∧
        t.ret = .ok (.bytes bs) ∧ t.lock = .free ∧ t.x = { s.x with t1 := t.x.t1 }) ∧
    (i = .spiHdrWriteAccess m loc ∨ i = .spiHdrWriteSts m loc ∨ i = .spiHdrWriteDataFifo m loc →
      ∀ p, p = payloadOf s.args (m + 1) → AnswersWrite .spi as →
      ∃ t, exec i s = .next t ∧
        Finished s t rest [.lock, .busWrite (encode i), .busRead [0x01], .busWrite p, .unlock] ∧
        t.ret = .ok .unit ∧ t.lock = .free ∧ t.x = { s.x with t1 := t.x.t1 })

/-- The register values and the procedures that write them: STS_GO_VAL and WRITE_GO (R117, R223),
STS_READY_VAL and SET_READY (R117, R203), ACCESS_REQ_VAL and ACCESS_REL_VAL (R118). Each writes its fixed
bytes to its register. A failed write ends WRITE_GO and the value rows with the bus's own error value (R158,
R223); SET_READY swallows it (R203). What executing a value row is is the model's choice (log 8). -/
def Obligations.RegisterValueWrites : Prop :=
  ∀ (i : Instr) (kind : Kind) (p : List Byte) (s : State) (as rest : List Answer),
    (i, kind, p) ∈
      [(Instr.stsGoVal, Kind.sts, ([0x20, 0, 0, 0] : List Byte)), (.writeGo, .sts, [0x20, 0, 0, 0]),
        (.stsReadyVal, .sts, [0x40, 0, 0, 0]), (.setReady, .sts, [0x40, 0, 0, 0]),
        (.accessReqVal, .access, [0x02]), (.accessRelVal, .access, [0x20])] →
    s.toEngine.Serves → s.cfg.map = .standard → s.inbox = as ++ rest →
    (AnswersWrite s.cfg.transport as →
      ∃ t, exec i s = .next t ∧ Finished s t rest (writeTraffic s.cfg kind p) ∧ t.ret = .ok .unit ∧
        t.x = { s.x with t1 := t.x.t1 }) ∧
    (∀ er, AnswersFail s.cfg.transport er as →
      ∃ t, exec i s = .next t ∧ t.running = none ∧ t.inbox = rest ∧
        t.ret = if i = .setReady then .ok .unit else .err (.io er))

/-! ### Locality Manager -/

/-- CHECK_LOCALITY (R180): one ACCESS read; both bits set give Ok, else InvalidDeviceState with the byte; a
read that fails, whatever the error, gives the transport's own error. -/
def Obligations.CheckLocalityResult : Prop :=
  ∀ (s : State) (as rest : List Answer), s.toEngine.Serves → s.inbox = as ++ rest →
    (∀ b : Byte, AnswersRead s.cfg.transport [b] as →
      ∃ t, exec .checkLocality s = .next t ∧ Finished s t rest (readTraffic s.cfg .access [b]) ∧
        t.x = { s.x with access := b, t1 := t.x.t1 } ∧
        t.ret = if localityOk s.cfg.map b then .ok .unit else .err (.invalidDeviceState b)) ∧
    (∀ er : Nat, AnswersFail s.cfg.transport er as →
      ∃ t, exec .checkLocality s = .next t ∧ t.running = none ∧ t.inbox = rest ∧
        t.ret = .err (.io er) ∧ t.x.access = s.x.access) ∧
    (∀ (er : Err) (e1 : Engine), regRead .access 1 s.toEngine = .error (.raised er) e1 →
      ∃ t, exec .checkLocality s = .next t ∧ t.running = none ∧ t.trace = e1.trace ∧
        t.inbox = e1.inbox ∧ t.ret = .err er ∧ t.x.access = s.x.access)

/-- REQUEST_LOCALITY where the first check fails, on the byte it reads or on a transport error (R181, R302
(b)): one REQUEST_USE write, whose own error ends it; then checks with a sleep between two of them and none
after the last; the first that passes ends it with Ok, and LOC_TRIES failures of either kind end it with
Timeout(locality). `o` is the first check's outcome, `os` are those of the checks after the write. -/
def Obligations.RequestLocalityResult : Prop :=
  ∀ (s : State) (o : Except Err (List Byte)) (a0 : List Answer) (tr0 : List Event),
    s.toEngine.Serves → 1 ≤ s.cfg.locTries → s.cfg.locTries ≤ 255 →
    ReadDone s.cfg .access 1 o a0 tr0 → checkPasses s.cfg o = false →
    (∀ (er : Err) (w rest : List Answer) (trw : List Event), s.inbox = a0 ++ w ++ rest →
      WriteDone s.cfg .access (accessReqBytes s.cfg.map) (.error er) w trw →
      ∃ t, exec .requestLocality s = .next t ∧ Finished s t rest (tr0 ++ trw) ∧ t.ret = .err er ∧
        t.x = { s.x with access := checkedByte s.x.access o, t1 := t.x.t1 }) ∧
    (∀ (os : List (Except Err (List Byte))) (last : Except Err (List Byte)) (w ac rest : List Answer)
      (trw trc : List Event), s.inbox = a0 ++ w ++ ac ++ rest →
      WriteDone s.cfg .access (accessReqBytes s.cfg.map) (.ok ()) w trw →
      ChecksDone s.cfg (os ++ [last]) ac trc → os.length + 1 ≤ s.cfg.locTries →
      (∀ o' ∈ os, checkPasses s.cfg o' = false) →
      checkPasses s.cfg last = true ∨ os.length + 1 = s.cfg.locTries →
      ∃ t, exec .requestLocality s = .next t ∧ Finished s t rest (tr0 ++ trw ++ trc) ∧
        (∃ evs, t.trace = s.trace ++ evs ∧
          sleeps evs = List.replicate os.length s.cfg.locDelay) ∧
        t.x = { s.x with
          access := (o :: os ++ [last]).foldl checkedByte s.x.access
          tries := BitVec.ofNat 8 (os.length + 1), t1 := t.x.t1 } ∧
        t.ret = if checkPasses s.cfg last then .ok .unit else .err (.timeout .locality))

/-- The properties of the Locality Manager (R183): (a) where ACCESS reads active, REQUEST_LOCALITY is one read
and no write; (b) a forced release attempts the write after every successful read, whether the write then
succeeds or fails, and an unforced one writes exactly when VALID and REQUEST_PENDING are set; (c)
RELEASE_LOCALITY never fails. With them, a release whose ACCESS read fails: it writes only with the parameter
set and `force`, and returns Ok either way (R182). -/
def Obligations.LocalityManagerProperties : Prop :=
  (∀ (s : State) (b : Byte) (as rest : List Answer), s.toEngine.Serves → s.inbox = as ++ rest →
    AnswersRead s.cfg.transport [b] as → localityOk s.cfg.map b = true →
    ∃ t, exec .requestLocality s = .next t ∧ Finished s t rest (readTraffic s.cfg .access [b]) ∧
      t.ret = .ok .unit ∧ t.x = { s.x with access := b, t1 := t.x.t1 }) ∧
  (∀ (s : State) (b : Byte) (as w rest : List Answer), s.toEngine.Serves →
    s.inbox = as ++ w ++ rest → AnswersRead s.cfg.transport [b] as →
    ((s.args.force = true ∨ releaseWanted s.cfg.map b = true) →
      (AnswersWrite s.cfg.transport w →
        ∃ t, exec .releaseLocality s = .next t ∧
          Finished s t rest (readTraffic s.cfg .access [b] ++
            writeTraffic s.cfg .access (accessRelBytes s.cfg.map)) ∧
          t.ret = .ok .unit ∧ t.x = { s.x with access := b, t1 := t.x.t1 }) ∧
      (∀ er, AnswersFail s.cfg.transport er w →
        ∃ t, exec .releaseLocality s = .next t ∧ t.running = none ∧ t.inbox = rest ∧
          t.ret = .ok .unit)) ∧
    (s.args.force = false → releaseWanted s.cfg.map b = false →
      ∃ t, exec .releaseLocality s = .next t ∧
        Finished s t (w ++ rest) (readTraffic s.cfg .access [b]) ∧ t.ret = .ok .unit)) ∧
  (∀ s t : State, exec .releaseLocality s = .next t → t.running = none → t.ret = .ok .unit) ∧
  (∀ (s : State) (er : Nat) (as w rest : List Answer), s.toEngine.Serves →
    s.inbox = as ++ w ++ rest → AnswersFail s.cfg.transport er as →
    ((s.cfg.releaseWriteOnReadFail && s.args.force) = false →
      ∃ t, exec .releaseLocality s = .next t ∧ t.running = none ∧ t.inbox = w ++ rest ∧
        t.ret = .ok .unit ∧ t.x.access = s.x.access) ∧
    ((s.cfg.releaseWriteOnReadFail && s.args.force) = true → AnswersWrite s.cfg.transport w →
      ∃ t, exec .releaseLocality s = .next t ∧ t.running = none ∧ t.inbox = rest ∧
        t.ret = .ok .unit ∧ t.x.access = s.x.access))

/-! ### Status/Burst Reader -/

/-- GET_BURST_AND_STATUS (R200, R302 (a), R303 (c)): an accepted snapshot is returned; after a mismatch or a
failed read the engine sleeps T_SHORT and then tests the deadline, counted from entry: with time left it
reads again, with none it ends with Timeout(status). -/
def Obligations.GetBurstAndStatusResult : Prop :=
  ∀ (s : State) (n : Answer) (as : List Answer), s.toEngine.Serves →
    (∀ (b : List Byte) (rest : List Answer), s.inbox = n :: as ++ rest → b.length = 4 →
      AnswersRead s.cfg.transport b as →
      accept s.cfg.burstCap s.args.mask (snapStatus b) (snapBurst b) = true →
      ∃ t, exec .getBurstAndStatus s = .next t ∧ Finished s t rest (readTraffic s.cfg .sts b) ∧
        t.ret = .ok (.burstStatus (snapBurst b) (snapStatus b)) ∧
        t.x = { s.x with
          status := snapStatus b, burst := snapBurst b, t0 := s.clock + n.ticks, t1 := t.x.t1 }) ∧
    (∀ (q l : Answer) (rest : List Answer), s.inbox = n :: as ++ q :: l :: rest →
      (∃ er, AnswersFail s.cfg.transport er as) ∨
        (∃ b, b.length = 4 ∧ AnswersRead s.cfg.transport b as ∧
          accept s.cfg.burstCap s.args.mask (snapStatus b) (snapBurst b) = false) →
      (s.cfg.tLong * s.cfg.clkPerMs ≤
          ticksOf as + q.ticks + s.cfg.tShort * s.cfg.clkPerMs + l.ticks →
        ∃ t, exec .getBurstAndStatus s = .next t ∧ t.running = none ∧ t.inbox = rest ∧
          t.ret = .err (.timeout .status)) ∧
      (ticksOf as + q.ticks + s.cfg.tShort * s.cfg.clkPerMs + l.ticks <
          s.cfg.tLong * s.cfg.clkPerMs →
        ∀ (b' : List Byte) (as' rest' : List Answer), rest = as' ++ rest' → b'.length = 4 →
        AnswersRead s.cfg.transport b' as' →
        accept s.cfg.burstCap s.args.mask (snapStatus b') (snapBurst b') = true →
        ∃ t, exec .getBurstAndStatus s = .next t ∧ t.running = none ∧ t.inbox = rest' ∧
          t.ret = .ok (.burstStatus (snapBurst b') (snapStatus b')) ∧
          (∃ evs, t.trace = s.trace ++ evs ∧ sleeps evs = [s.cfg.tShort])))

/-- The acceptance test (R201), and that a successful return of the poll passes it, whatever the TPM answers:
the masked flags are set and the burst is 1 to BURST_CAP - 1. With R9's BURST_CAP that is 1 to 63. A poll
ends in success or Timeout(status). The final checks of the FIFO bodies need a burst in that range too. -/
def Obligations.AcceptedBurstsAreInRange : Prop :=
  (∀ (cap : Nat) (mask status : Byte) (burst : Half),
    accept cap mask status burst = true ↔
      status &&& mask = mask ∧ 1 ≤ burst.toNat ∧ burst.toNat ≤ cap - 1) ∧
  (∀ s t : State, exec .getBurstAndStatus s = .next t → t.running = none →
    t.ret = .err (.timeout .status) ∨
    ∃ (burst : Half) (status : Byte), t.ret = .ok (.burstStatus burst status) ∧
      status &&& s.args.mask = s.args.mask ∧ 1 ≤ burst.toNat ∧ burst.toNat ≤ s.cfg.burstCap - 1 ∧
      (s.cfg.burstCap = 64 → burst.toNat ≤ 63) ∧ t.x.burst = burst ∧ t.x.status = status) ∧
  (∀ (i : Instr) (s t : State) (v : RetVal), i = .fifoWriteBody ∨ i = .fifoReadBody →
    exec i s = .next t → t.running = none → t.ret = .ok v →
    1 ≤ t.x.burst.toNat ∧ t.x.burst.toNat ≤ s.cfg.burstCap - 1)

/-- READ_STATUS (R202): the flag byte of one snapshot, or 0x00 where the read fails; it never fails. -/
def Obligations.ReadStatusResult : Prop :=
  (∀ (s : State) (as rest : List Answer), s.toEngine.Serves → s.inbox = as ++ rest →
    (∀ b : List Byte, b.length = 4 → AnswersRead s.cfg.transport b as →
      ∃ t, exec .readStatus s = .next t ∧ Finished s t rest (readTraffic s.cfg .sts b) ∧
        t.ret = .ok (.status (snapStatus b)) ∧
        t.x = { s.x with status := snapStatus b, t1 := t.x.t1 }) ∧
    (∀ er : Nat, AnswersFail s.cfg.transport er as →
      ∃ t, exec .readStatus s = .next t ∧ t.running = none ∧ t.inbox = rest ∧
        t.ret = .ok (.status 0x00) ∧ t.x.status = 0x00) ∧
    (∀ (er : Err) (e1 : Engine), regRead .sts 4 s.toEngine = .error (.raised er) e1 →
      ∃ t, exec .readStatus s = .next t ∧ t.running = none ∧ t.trace = e1.trace ∧
        t.inbox = e1.inbox ∧ t.ret = .ok (.status 0x00) ∧ t.x.status = 0x00)) ∧
  (∀ s t : State, exec .readStatus s = .next t → t.running = none → ∃ v, t.ret = .ok (.status v))

/-- A timeout is raised only after its budget: clock time since the wait began has reached it (R16, R301,
R353, R310). -/
def Obligations.TimeoutsComeAfterTheirBudget : Prop :=
  ∀ (i : Instr) (s t : State), isHostCommand i = false → exec i s = .next t → t.running = none →
    (t.ret = .err (.timeout .status) →
      t.x.t0 + s.cfg.tLong * s.cfg.clkPerMs ≤ t.clock) ∧
    (t.ret = .err (.timeout .commandReady) →
      t.x.t0 + s.cfg.tLong * s.cfg.clkPerMs ≤ t.clock) ∧
    (t.ret = .err (.timeout .ready) → t.x.t1 + s.cfg.tIrq * s.cfg.clkPerMs ≤ t.clock) ∧
    (t.ret = .err (.timeout .spiStall) → t.x.t1 + s.cfg.tSpi * s.cfg.clkPerMs ≤ t.clock)

/-! ### FIFO Transfer Engine -/

/-- WAIT_COMMAND_READY (R220, R303 (e)): COMMAND_READY at the first read ends it with no write; without it the
deadline is tested before the SET_READY write: with time left the engine writes and reads again, with none
it ends with Timeout(command_ready), the status read its last transaction. -/
def Obligations.WaitCommandReadyResult : Prop :=
  ∀ (s : State) (n : Answer) (b : List Byte) (as : List Answer), s.toEngine.Serves → b.length = 4 →
    AnswersRead s.cfg.transport b as →
    (∀ rest, s.inbox = n :: as ++ rest → cmdReady s.cfg.map (snapStatus b) = true →
      ∃ t, exec .waitCommandReady s = .next t ∧ Finished s t rest (readTraffic s.cfg .sts b) ∧
        t.ret = .ok .unit ∧
        t.x = { s.x with status := snapStatus b, t0 := s.clock + n.ticks, t1 := t.x.t1 }) ∧
    (∀ (l : Answer) (rest : List Answer), s.inbox = n :: as ++ l :: rest →
      cmdReady s.cfg.map (snapStatus b) = false →
      (s.cfg.tLong * s.cfg.clkPerMs ≤ ticksOf as + l.ticks →
        ∃ t, exec .waitCommandReady s = .next t ∧ Finished s t rest (readTraffic s.cfg .sts b) ∧
          t.ret = .err (.timeout .commandReady)) ∧
      (ticksOf as + l.ticks < s.cfg.tLong * s.cfg.clkPerMs →
        ∀ (w as' rest' : List Answer) (b' : List Byte), rest = w ++ as' ++ rest' → b'.length = 4 →
        AnswersWrite s.cfg.transport w → AnswersRead s.cfg.transport b' as' →
        cmdReady s.cfg.map (snapStatus b') = true →
        ∃ t, exec .waitCommandReady s = .next t ∧
          Finished s t rest' (readTraffic s.cfg .sts b ++
            writeTraffic s.cfg .sts (stsReadyBytes s.cfg.map) ++ readTraffic s.cfg .sts b') ∧
          t.ret = .ok .unit))

/-- FIFO_WRITE_BODY of no chunk, one or two (R221): before the first chunk a poll with mask VALID, before a later
one with mask VALID|DATA_EXPECT, so that a snapshot with VALID alone is not taken there but polled again
(`PollDone`); a chunk is what the burst leaves room for beside one byte; then the final poll with mask VALID,
whose DATA_EXPECT decides between Ok and ProtocolViolation(data_still_expected). -/
def Obligations.FifoWriteBodyResult : Prop :=
  ∀ (s : State) (f : List Byte) (fa rest : List Answer) (ftr : List Event), s.toEngine.Serves →
    PollDone s.cfg (maskValid s.cfg.map) f fa ftr → s.args.len ≤ sourceSize s.args.src →
    (s.args.len = 0 → s.inbox = fa ++ rest →
      ∃ t, exec .fifoWriteBody s = .next t ∧ Finished s t rest ftr ∧ t.x.sent = 0 ∧
        t.ret = if dataExpect s.cfg.map (snapStatus f) then
          .err (.protocolViolation .dataStillExpected) else .ok .unit) ∧
    (∀ (p : List Byte) (pa w : List Answer) (ptr : List Event),
      PollDone s.cfg (maskValid s.cfg.map) p pa ptr → AnswersWrite s.cfg.transport w →
      0 < s.args.len →
      (s.args.len + 1 ≤ (snapBurst p).toNat → s.inbox = pa ++ w ++ fa ++ rest →
        ∃ t, exec .fifoWriteBody s = .next t ∧
          Finished s t rest (ptr ++
            writeTraffic s.cfg .dataFifo (s.toEngine.source s.args.src s.args.len) ++ ftr) ∧
          t.x.sent = BitVec.ofNat 32 s.args.len ∧ t.x.limit = BitVec.ofNat 32 s.args.len ∧
          t.ret = if dataExpect s.cfg.map (snapStatus f) then
            .err (.protocolViolation .dataStillExpected) else .ok .unit) ∧
      (∀ (k : Nat) (p2 : List Byte) (pa2 w2 : List Answer) (ptr2 : List Event),
        (snapBurst p).toNat = k + 1 → 1 ≤ k → k < s.args.len →
        PollDone s.cfg (maskValidExpect s.cfg.map) p2 pa2 ptr2 → AnswersWrite s.cfg.transport w2 →
        s.args.len - k + 1 ≤ (snapBurst p2).toNat →
        s.inbox = pa ++ w ++ pa2 ++ w2 ++ fa ++ rest →
        ∃ t, exec .fifoWriteBody s = .next t ∧
          Finished s t rest (ptr ++
            writeTraffic s.cfg .dataFifo ((s.toEngine.source s.args.src s.args.len).take k) ++ ptr2 ++
            writeTraffic s.cfg .dataFifo ((s.toEngine.source s.args.src s.args.len).drop k) ++ ftr) ∧
          t.x.sent = BitVec.ofNat 32 s.args.len ∧ t.x.limit = BitVec.ofNat 32 (s.args.len - k) ∧
          t.ret = if dataExpect s.cfg.map (snapStatus f) then
            .err (.protocolViolation .dataStillExpected) else .ok .unit))

/-- Whatever the chunk sizes, a FIFO_WRITE_BODY that succeeds has written exactly the source's `len` bytes to
DATA_FIFO, in order, and has read each CMDBUF byte once, in order; one that fails or waits has read a prefix
(R222 (c) and (d), R98). -/
def Obligations.FifoPayloadsAreTheCommand : Prop :=
  ∀ (s t : State) (evs : List Event), s.cfg.map = .standard → s.cfg.ok = true →
    s.args.len ≤ sourceSize s.args.src →
    exec .fifoWriteBody s = .next t → t.trace = s.trace ++ evs →
    (∃ k, k ≤ s.args.len ∧ cmdReads evs =
      match s.args.src with
      | .cmdbuf => indexed 0 (memBytes s.cmdbuf 0 k)
      | .shutdownCmd => []) ∧
    (t.running = none → t.ret = .ok .unit →
      fifoSent s.cfg none evs = s.toEngine.source s.args.src s.args.len ∧
      t.x.sent = BitVec.ofNat 32 s.args.len ∧
      (s.args.src = .cmdbuf → cmdReads evs = indexed 0 (memBytes s.cmdbuf 0 s.args.len)))

/-- A TPM that keeps reporting burst 1 (R345, R227): on I2C the engine writes the address byte alone and polls
again, for as many turns as there are answers, and never ends; on SPI the first such chunk ends with
InsufficientResources. -/
def Obligations.BurstOneNeverEndsOnI2c : Prop :=
  ∀ (s : State) (b : List Byte) (n : Answer) (pa w : List Answer), s.toEngine.Serves →
    0 < s.args.len → s.args.len ≤ sourceSize s.args.src →
    b.length = 4 → snapBurst b = 1 →
    accept s.cfg.burstCap (maskValid s.cfg.map) (snapStatus b) (snapBurst b) = true →
    AnswersRead s.cfg.transport b pa →
    (s.cfg.transport = .i2c → AnswersWrite .i2c w →
      ∀ turns, s.inbox = (List.replicate turns (n :: pa ++ w)).flatten →
      ∃ t, exec .fifoWriteBody s = .next t ∧ t.running ≠ none ∧ t.x.sent = 0 ∧
        busTrace t.trace = busTrace s.trace ++
          (List.replicate turns (readTraffic s.cfg .sts b ++ writeTraffic s.cfg .dataFifo [])).flatten) ∧
    (s.cfg.transport = .spi → ∀ rest, s.inbox = n :: pa ++ rest →
      ∃ t, exec .fifoWriteBody s = .next t ∧ Finished s t rest (readTraffic s.cfg .sts b) ∧
        t.ret = .err (.insufficientResources 0))

/-- FIFO_READ_BODY of one or two chunks (R224): every chunk's poll has mask VALID|DATA_AVAIL, so that a snapshot
with VALID alone is not taken but polled again (`PollDone`); the first chunk is the whole burst, the second
what is left of the declared length; RSPBUF gets the bytes in order; the final poll with mask VALID decides,
by DATA_AVAIL, between Ok of the count and ProtocolViolation(data_still_available). A first burst above the
declared length is returned as it is. That RSPBUF's other bytes stay is log 37. -/
def Obligations.FifoReadBodyResult : Prop :=
  ∀ (s : State) (p d f : List Byte) (pa da fa rest : List Answer) (ptr ftr : List Event),
    s.toEngine.Serves → PollDone s.cfg (maskValidAvail s.cfg.map) p pa ptr →
    s.cfg.hdrSize ≤ (snapBurst p).toNat → (snapBurst p).toNat ≤ s.args.cap → s.args.cap ≤ bufSize →
    d.length = (snapBurst p).toNat → AnswersRead s.cfg.transport d da →
    (declaredLength d).toNat ≤ s.args.cap → PollDone s.cfg (maskValid s.cfg.map) f fa ftr →
    ((declaredLength d).toNat ≤ d.length → s.inbox = pa ++ da ++ fa ++ rest →
      ∃ t, exec .fifoReadBody s = .next t ∧
        Finished s t rest (ptr ++ readTraffic s.cfg .dataFifo d ++ ftr) ∧
        t.rspbuf = memSetAll s.rspbuf 0 d ∧ t.x.expected = declaredLength d ∧
        t.ret = if dataAvail s.cfg.map (snapStatus f) then
          .err (.protocolViolation .dataStillAvailable) else .ok (.count (BitVec.ofNat 32 d.length))) ∧
    (∀ (p2 d2 : List Byte) (pa2 da2 : List Answer) (ptr2 : List Event),
      d.length < (declaredLength d).toNat →
      s.inbox = pa ++ da ++ pa2 ++ da2 ++ fa ++ rest →
      PollDone s.cfg (maskValidAvail s.cfg.map) p2 pa2 ptr2 →
      (declaredLength d).toNat - d.length ≤ (snapBurst p2).toNat →
      d2.length = (declaredLength d).toNat - d.length → AnswersRead s.cfg.transport d2 da2 →
      ∃ t, exec .fifoReadBody s = .next t ∧
        Finished s t rest (ptr ++ readTraffic s.cfg .dataFifo d ++ ptr2 ++
          readTraffic s.cfg .dataFifo d2 ++ ftr) ∧
        t.rspbuf = memSetAll s.rspbuf 0 (d ++ d2) ∧ t.x.cur = declaredLength d ∧
        t.ret = if dataAvail s.cfg.map (snapStatus f) then
          .err (.protocolViolation .dataStillAvailable) else .ok (.count (declaredLength d)))

/-- FIFO_READ_BODY's two checks on the first chunk (R224, R303 (d)): a first burst below the header size or
above the capacity ends it before any DATA_FIFO read; a declared length above the capacity ends it after
the chunk has gone to RSPBUF. That RSPBUF's other bytes stay is log 37. -/
def Obligations.FifoReadBodyFirstChunkChecks : Prop :=
  ∀ (s : State) (p : List Byte) (pa : List Answer) (ptr : List Event),
    s.toEngine.Serves → PollDone s.cfg (maskValidAvail s.cfg.map) p pa ptr →
    ((snapBurst p).toNat < s.cfg.hdrSize ∨ s.args.cap < (snapBurst p).toNat →
      ∀ rest, s.inbox = pa ++ rest →
      ∃ t, exec .fifoReadBody s = .next t ∧ Finished s t rest ptr ∧
        t.ret = .err (.protocolViolation .badFirstBurst) ∧ t.rspbuf = s.rspbuf) ∧
    (s.cfg.hdrSize ≤ (snapBurst p).toNat → (snapBurst p).toNat ≤ s.args.cap →
      s.args.cap ≤ bufSize →
      ∀ (d : List Byte) (da rest : List Answer), s.inbox = pa ++ da ++ rest →
      d.length = (snapBurst p).toNat → AnswersRead s.cfg.transport d da →
      s.args.cap < (declaredLength d).toNat →
      ∃ t, exec .fifoReadBody s = .next t ∧
        Finished s t rest (ptr ++ readTraffic s.cfg .dataFifo d) ∧
        t.ret = .err (.bufferTooSmall (declaredLength d) s.args.cap) ∧
        t.rspbuf = memSetAll s.rspbuf 0 d)

/-- Reconstruction of the response (R226): on Ok of a count, RSPBUF from 0 to the count holds the DATA_FIFO
bytes the TPM delivered, in order, whatever the chunks. Where the first chunk is not longer than the declared
length in RSPBUF bytes 2 to 5, the count is the declared length; where it is longer, it is the only chunk and
the count is its length. -/
def Obligations.ResponseIsReconstructed : Prop :=
  ∀ (s t : State) (evs : List Event) (c : Word), s.cfg.map = .standard → s.cfg.ok = true →
    6 ≤ s.cfg.hdrSize → Memory.wf s.rspbuf = true →
    exec .fifoReadBody s = .next t → t.running = none → t.trace = s.trace ++ evs →
    t.ret = .ok (.count c) →
    ∃ (first : List Byte) (others : List (List Byte)),
      fifoReceived s.cfg false false evs = first :: others ∧
      (first :: others).flatten = memBytes t.rspbuf 0 c.toNat ∧ c = t.x.cur ∧
      c.toNat ≤ s.args.cap ∧ s.cfg.hdrSize ≤ first.length ∧
      (first.length ≤ (declaredLength (memBytes t.rspbuf 0 6)).toNat →
        c = declaredLength (memBytes t.rspbuf 0 6)) ∧
      ((declaredLength (memBytes t.rspbuf 0 6)).toNat < first.length →
        others = [] ∧ c.toNat = first.length)

/-- CLEANUP (R225): a status read, a SET_READY write only if COMMAND_READY was seen, then the ACCESS read and
write of a force release; it never fails. -/
def Obligations.CleanupResult : Prop :=
  (∀ (s : State) (b : List Byte) (a : Byte) (as w as2 w2 rest : List Answer),
    s.toEngine.Serves → b.length = 4 → AnswersRead s.cfg.transport b as →
    AnswersRead s.cfg.transport [a] as2 → AnswersWrite s.cfg.transport w2 →
    (cmdReady s.cfg.map (snapStatus b) = true → AnswersWrite s.cfg.transport w →
      s.inbox = as ++ w ++ as2 ++ w2 ++ rest →
      ∃ t, exec .cleanup s = .next t ∧
        Finished s t rest (readTraffic s.cfg .sts b ++
          writeTraffic s.cfg .sts (stsReadyBytes s.cfg.map) ++ readTraffic s.cfg .access [a] ++
          writeTraffic s.cfg .access (accessRelBytes s.cfg.map)) ∧
        t.ret = .ok .unit ∧ t.x = { s.x with status := snapStatus b, access := a, t1 := t.x.t1 }) ∧
    (cmdReady s.cfg.map (snapStatus b) = false → s.inbox = as ++ as2 ++ w2 ++ rest →
      ∃ t, exec .cleanup s = .next t ∧
        Finished s t rest (readTraffic s.cfg .sts b ++ readTraffic s.cfg .access [a] ++
          writeTraffic s.cfg .access (accessRelBytes s.cfg.map)) ∧
        t.ret = .ok .unit ∧ t.x = { s.x with status := snapStatus b, access := a, t1 := t.x.t1 })) ∧
  (∀ s t : State, exec .cleanup s = .next t → t.running = none → t.ret = .ok .unit)

/-! ### TIS Session and Device Probe -/

/-- SEND of a command of one chunk, where the locality is active and the TPM ready (R261): the source's bytes
and GO go out, the session is STARTED and the result Ok. -/
def Obligations.SendResult : Prop :=
  ∀ (s : State) (len : Nat) (a : Byte) (st p f : List Byte) (n0 n1 n2 : Answer)
    (aa sa pa wa fa ga rest : List Answer),
    s.toEngine.Serves → s.busy = false → s.sess = .idle → 0 < len → len < 2 ^ 24 →
    s.inbox = aa ++ n0 :: sa ++ n1 :: pa ++ wa ++ n2 :: fa ++ ga ++ rest →
    AnswersRead s.cfg.transport [a] aa → localityOk s.cfg.map a = true →
    st.length = 4 → AnswersRead s.cfg.transport st sa → cmdReady s.cfg.map (snapStatus st) = true →
    p.length = 4 → AnswersRead s.cfg.transport p pa →
    accept s.cfg.burstCap (maskValid s.cfg.map) (snapStatus p) (snapBurst p) = true →
    len + 1 ≤ (snapBurst p).toNat → AnswersWrite s.cfg.transport wa →
    f.length = 4 → AnswersRead s.cfg.transport f fa →
    accept s.cfg.burstCap (maskValid s.cfg.map) (snapStatus f) (snapBurst f) = true →
    dataExpect s.cfg.map (snapStatus f) = false → AnswersWrite s.cfg.transport ga →
    ∃ t, exec (.send len) s = .next t ∧
      Finished s t rest (readTraffic s.cfg .access [a] ++ readTraffic s.cfg .sts st ++
        readTraffic s.cfg .sts p ++ writeTraffic s.cfg .dataFifo (memBytes s.cmdbuf 0 len) ++
        readTraffic s.cfg .sts f ++ writeTraffic s.cfg .sts (stsGoBytes s.cfg.map)) ∧
      t.sess = .started ∧ t.busy = false ∧ t.result = .ok .unit ∧ t.pending = s.pending

/-- RECV of a response of one chunk (R262): the bytes are in RSPBUF, the release is unforced, the session is
IDLE and the result is the count. That RSPBUF's bytes beyond the count stay is log 37. -/
def Obligations.RecvResult : Prop :=
  ∀ (s : State) (cap : Nat) (n1 n2 : Answer) (p d f : List Byte) (a : Byte)
    (pa da fa aa wa rest : List Answer),
    s.toEngine.Serves → s.busy = false → s.sess = .started → cap < 2 ^ 24 →
    p.length = 4 → AnswersRead s.cfg.transport p pa →
    accept s.cfg.burstCap (maskValidAvail s.cfg.map) (snapStatus p) (snapBurst p) = true →
    s.cfg.hdrSize ≤ (snapBurst p).toNat → (snapBurst p).toNat ≤ cap →
    d.length = (snapBurst p).toNat → AnswersRead s.cfg.transport d da →
    (declaredLength d).toNat ≤ d.length →
    f.length = 4 → AnswersRead s.cfg.transport f fa →
    accept s.cfg.burstCap (maskValid s.cfg.map) (snapStatus f) (snapBurst f) = true →
    dataAvail s.cfg.map (snapStatus f) = false → AnswersRead s.cfg.transport [a] aa →
    ((releaseWanted s.cfg.map a = false → s.inbox = n1 :: pa ++ da ++ n2 :: fa ++ aa ++ rest →
      ∃ t, exec (.recv cap) s = .next t ∧
        Finished s t rest (readTraffic s.cfg .sts p ++ readTraffic s.cfg .dataFifo d ++
          readTraffic s.cfg .sts f ++ readTraffic s.cfg .access [a]) ∧
        t.sess = .idle ∧ t.busy = false ∧ t.result = .ok (.count (BitVec.ofNat 32 d.length)) ∧
        t.rspbuf = memSetAll s.rspbuf 0 d) ∧
     (releaseWanted s.cfg.map a = true → AnswersWrite s.cfg.transport wa →
      s.inbox = n1 :: pa ++ da ++ n2 :: fa ++ aa ++ wa ++ rest →
      ∃ t, exec (.recv cap) s = .next t ∧
        Finished s t rest (readTraffic s.cfg .sts p ++ readTraffic s.cfg .dataFifo d ++
          readTraffic s.cfg .sts f ++ readTraffic s.cfg .access [a] ++
          writeTraffic s.cfg .access (accessRelBytes s.cfg.map)) ∧
        t.sess = .idle ∧ t.busy = false ∧ t.result = .ok (.count (BitVec.ofNat 32 d.length)) ∧
        t.rspbuf = memSetAll s.rspbuf 0 d))

/-- PROBE where the locality is active (R263): all 32 bits of DID_VID, little-endian (R87), select the family
and the locality is kept; any other value ends it, after a force release, with UnsupportedDevice of that
value. -/
def Obligations.ProbeResult : Prop :=
  ∀ (s : State) (a : Byte) (d : List Byte) (aa da : List Answer),
    s.toEngine.Serves → s.busy = false → s.sess = .idle →
    AnswersRead s.cfg.transport [a] aa → localityOk s.cfg.map a = true →
    d.length = 4 → AnswersRead s.cfg.transport d da →
    (∀ (fam : Family) (rest : List Answer), s.inbox = aa ++ da ++ rest →
      (didVidValue d = s.cfg.map.didVidCr50 ∧ fam = .cr50) ∨
        (didVidValue d ≠ s.cfg.map.didVidCr50 ∧ didVidValue d = s.cfg.map.didVidTi50 ∧ fam = .ti50) →
      ∃ t, exec .probe s = .next t ∧
        Finished s t rest (readTraffic s.cfg .access [a] ++ readTraffic s.cfg .didVid d) ∧
        t.result = .ok (.family fam) ∧ t.x.id = didVidValue d ∧
        t.x.id.toNat = (byteAt d 0).toNat + 256 * ((byteAt d 1).toNat + 256 * ((byteAt d 2).toNat +
          256 * (byteAt d 3).toNat)) ∧ t.sess = .idle ∧ t.busy = false) ∧
    (∀ (b : Byte) (ba wa rest : List Answer), s.inbox = aa ++ da ++ ba ++ wa ++ rest →
      didVidValue d ≠ s.cfg.map.didVidCr50 → didVidValue d ≠ s.cfg.map.didVidTi50 →
      AnswersRead s.cfg.transport [b] ba → AnswersWrite s.cfg.transport wa →
      ∃ t, exec .probe s = .next t ∧
        Finished s t rest (readTraffic s.cfg .access [a] ++ readTraffic s.cfg .didVid d ++
          readTraffic s.cfg .access [b] ++
          writeTraffic s.cfg .access (accessRelBytes s.cfg.map)) ∧
        t.result = .err (.unsupportedDevice (didVidValue d)) ∧ t.sess = .idle ∧ t.busy = false)

/-- RELEASE (R264): the ACCESS read, the write of ACTIVE_LOCALITY if forced or wanted, Ok, and the session
state as it was. -/
def Obligations.ReleaseResult : Prop :=
  ∀ (s : State) (force : Bool) (a : Byte) (aa wa rest : List Answer),
    s.toEngine.Serves → s.busy = false → AnswersRead s.cfg.transport [a] aa →
    ((force || releaseWanted s.cfg.map a) = true → AnswersWrite s.cfg.transport wa →
      s.inbox = aa ++ wa ++ rest →
      ∃ t, exec (.release force) s = .next t ∧
        Finished s t rest (readTraffic s.cfg .access [a] ++
          writeTraffic s.cfg .access (accessRelBytes s.cfg.map)) ∧
        t.result = .ok .unit ∧ t.sess = s.sess ∧ t.busy = false ∧
        t.x = { s.x with access := a, t1 := t.x.t1 }) ∧
    ((force || releaseWanted s.cfg.map a) = false → s.inbox = aa ++ rest →
      ∃ t, exec (.release force) s = .next t ∧
        Finished s t rest (readTraffic s.cfg .access [a]) ∧
        t.result = .ok .unit ∧ t.sess = s.sess ∧ t.busy = false ∧
        t.x = { s.x with access := a, t1 := t.x.t1 })

/-- SHUTDOWN where every exchange goes through at once (R265, R122, R130): the 12 fixed bytes and GO go out, a
response of 10 bytes comes in, an unforced release, then a forced one; the result is Ok exactly where the
ten bytes are the fixed response, else ProtocolViolation(shutdown_mismatch). And however the exchange went,
with headers of 6 bytes at least: Ok means that RSPBUF[0 .. 10) is the fixed response, shutdown_mismatch that
it is not. That the engine compares the bytes it wrote, and does not read RSPBUF back, is log 22; that
RSPBUF's other bytes stay is log 37. -/
def Obligations.ShutdownResult : Prop :=
  (∀ (s : State) (a a2 a3 : Byte) (st p f p2 d f2 : List Byte) (n0 n1 n2 n3 n4 : Answer)
      (aa sa pa wa fa ga pa2 da fa2 aa2 aa3 wa3 rest : List Answer),
      s.toEngine.Serves → s.busy = false → s.sess = .idle → s.cfg.hdrSize = 10 →
      s.inbox = aa ++ n0 :: sa ++ n1 :: pa ++ wa ++ n2 :: fa ++ ga ++
        n3 :: pa2 ++ da ++ n4 :: fa2 ++ aa2 ++ aa3 ++ wa3 ++ rest →
      AnswersRead s.cfg.transport [a] aa → localityOk s.cfg.map a = true →
      st.length = 4 → AnswersRead s.cfg.transport st sa → cmdReady s.cfg.map (snapStatus st) = true →
      p.length = 4 → AnswersRead s.cfg.transport p pa →
      accept s.cfg.burstCap (maskValid s.cfg.map) (snapStatus p) (snapBurst p) = true →
      13 ≤ (snapBurst p).toNat → AnswersWrite s.cfg.transport wa →
      f.length = 4 → AnswersRead s.cfg.transport f fa →
      accept s.cfg.burstCap (maskValid s.cfg.map) (snapStatus f) (snapBurst f) = true →
      dataExpect s.cfg.map (snapStatus f) = false → AnswersWrite s.cfg.transport ga →
      p2.length = 4 → AnswersRead s.cfg.transport p2 pa2 →
      accept s.cfg.burstCap (maskValidAvail s.cfg.map) (snapStatus p2) (snapBurst p2) = true →
      (snapBurst p2).toNat = 10 → d.length = 10 → AnswersRead s.cfg.transport d da →
      (declaredLength d).toNat ≤ 10 →
      f2.length = 4 → AnswersRead s.cfg.transport f2 fa2 →
      accept s.cfg.burstCap (maskValid s.cfg.map) (snapStatus f2) (snapBurst f2) = true →
      dataAvail s.cfg.map (snapStatus f2) = false →
      AnswersRead s.cfg.transport [a2] aa2 → releaseWanted s.cfg.map a2 = false →
      AnswersRead s.cfg.transport [a3] aa3 → AnswersWrite s.cfg.transport wa3 →
      Memory.wf s.rspbuf = true →
      ∃ t, exec .shutdown s = .next t ∧
        Finished s t rest (readTraffic s.cfg .access [a] ++ readTraffic s.cfg .sts st ++
          readTraffic s.cfg .sts p ++ writeTraffic s.cfg .dataFifo shutdownCmd ++
          readTraffic s.cfg .sts f ++ writeTraffic s.cfg .sts (stsGoBytes s.cfg.map) ++
          readTraffic s.cfg .sts p2 ++ readTraffic s.cfg .dataFifo d ++ readTraffic s.cfg .sts f2 ++
          readTraffic s.cfg .access [a2] ++ readTraffic s.cfg .access [a3] ++
          writeTraffic s.cfg .access (accessRelBytes s.cfg.map)) ∧
        t.sess = .idle ∧ t.busy = false ∧ t.rspbuf = memSetAll s.rspbuf 0 d ∧
        (∃ evs, t.trace = s.trace ++ evs ∧ rspWrites evs = indexed 0 d ∧ rspReads evs = []) ∧
        t.result = if d = shutdownRsp then .ok .unit else .err (.protocolViolation .shutdownMismatch)) ∧
  (∀ s t : State, 6 ≤ s.cfg.hdrSize → Memory.wf s.rspbuf = true → exec .shutdown s = .next t →
    t.running = none →
    (t.result = .ok .unit → memBytes t.rspbuf 0 10 = shutdownRsp) ∧
    (t.result = .err (.protocolViolation .shutdownMismatch) → memBytes t.rspbuf 0 10 ≠ shutdownRsp))

/-- After every host command the session state is IDLE or STARTED and `busy` false; `busy` is true as long as
the command runs (R35, R267 (a)); after SEND it is STARTED exactly if the command succeeded (R267 (b)); a
command that fails leaves IDLE, RELEASE never fails (R305, R264); and no error stays saved. -/
def Obligations.HostCommandsEndAtRest : Prop :=
  ∀ (i : Instr) (s t : State), isHostCommand i = true → s.toEngine.Quiet → exec i s = .next t →
    (t.running ≠ none → t.busy = true) ∧
    (t.running = none →
      t.busy = false ∧ t.sess.resting = true ∧ t.pending = none ∧
      (∀ er, t.result = .err er → t.sess = .idle ∧ ∀ f, i ≠ .release f) ∧
      (∀ len, i = .send len → ((t.sess = .started ↔ t.result = .ok .unit) ∧
        (t.sess = .idle ↔ ∃ er, t.result = .err er))) ∧
      ((∃ cap, i = .recv cap) ∨ i = .shutdown ∨ i = .probe → t.sess = .idle))

/-- The first error wins, and the abort does not replace it (R266, R304, R305): whatever the TPM answers while
the abort path runs, a PROBE, SEND, RECV or SHUTDOWN whose exchange raised an error ends with that error, the
session IDLE. SHUTDOWN's exchange is its send part and, after that, its receive part. -/
def Obligations.FirstErrorWins : Prop :=
  ∀ (s t : State) (er : Err) (e0 e1 : Engine), s.busy = false → t.running = none →
    ((∃ len, s.sess = .idle ∧ sendCore .cmdbuf len (s.toEngine.setBusy true) = .error (.raised er) e1 ∧
        exec (.send len) s = .next t) ∨
      (∃ cap, s.sess = .started ∧ recvCore cap (s.toEngine.setBusy true) = .error (.raised er) e1 ∧
        exec (.recv cap) s = .next t) ∨
      (s.sess = .idle ∧ sendCore .shutdownCmd 12 (s.toEngine.setBusy true) = .error (.raised er) e1 ∧
        exec .shutdown s = .next t) ∨
      (s.sess = .idle ∧ sendCore .shutdownCmd 12 (s.toEngine.setBusy true) = .ok () e0 ∧
        recvCore 10 (e0.setSess .started) = .error (.raised er) e1 ∧ exec .shutdown s = .next t) ∨
      (s.sess = .idle ∧ probeCore (s.toEngine.setBusy true) = .error (.raised er) e1 ∧
        exec .probe s = .next t)) →
    t.result = .err er ∧ t.sess = .idle ∧ t.busy = false ∧ t.pending = none ∧ e1.trace <+: t.trace

/-- The abort path runs (R261, R262, R263, R265, R267 (c), R304): after the error of its exchange a SEND or a
RECV does a CLEANUP, a SHUTDOWN a CLEANUP and then a force release, in its send part and in its receive part,
and a PROBE a force release, and nothing else, on the answers that come after those of the exchange; each
access of the path may itself fail, and the command ends with its first error all the same. -/
def Obligations.AbortPathRuns : Prop :=
  ∀ (s : State) (er : Err) (e0 e1 : Engine) (ca ra rest : List Answer) (ctr rtr : List Event),
    s.toEngine.Serves → s.busy = false → CleanupDone s.cfg ca ctr → ReleaseDone s.cfg true ra rtr →
    (∀ len, s.sess = .idle → sendCore .cmdbuf len (s.toEngine.setBusy true) = .error (.raised er) e1 →
      e1.inbox = ca ++ rest →
      ∃ t, exec (.send len) s = .next t ∧ t.running = none ∧ t.inbox = rest ∧
        busTrace t.trace = busTrace e1.trace ++ ctr ∧ t.result = .err er ∧ t.sess = .idle) ∧
    (∀ cap, s.sess = .started → recvCore cap (s.toEngine.setBusy true) = .error (.raised er) e1 →
      e1.inbox = ca ++ rest →
      ∃ t, exec (.recv cap) s = .next t ∧ t.running = none ∧ t.inbox = rest ∧
        busTrace t.trace = busTrace e1.trace ++ ctr ∧ t.result = .err er ∧ t.sess = .idle) ∧
    (s.sess = .idle → e1.inbox = ca ++ ra ++ rest →
      sendCore .shutdownCmd 12 (s.toEngine.setBusy true) = .error (.raised er) e1 ∨
        (sendCore .shutdownCmd 12 (s.toEngine.setBusy true) = .ok () e0 ∧
          recvCore 10 (e0.setSess .started) = .error (.raised er) e1) →
      ∃ t, exec .shutdown s = .next t ∧ t.running = none ∧ t.inbox = rest ∧
        busTrace t.trace = busTrace e1.trace ++ ctr ++ rtr ∧ t.result = .err er ∧ t.sess = .idle) ∧
    (s.sess = .idle → probeCore (s.toEngine.setBusy true) = .error (.raised er) e1 →
      e1.inbox = ra ++ rest →
      ∃ t, exec .probe s = .next t ∧ t.running = none ∧ t.inbox = rest ∧
        busTrace t.trace = busTrace e1.trace ++ rtr ∧ t.result = .err er ∧ t.sess = .idle)

/-- Which errors a host command can end with (R301): InvalidDeviceState never reaches the host, and each other
error comes only from the commands whose procedures raise it. -/
def Obligations.ErrorsReachTheHostAsListed : Prop :=
  ∀ (i : Instr) (s t : State) (er : Err), isHostCommand i = true → exec i s = .next t →
    t.running = none → t.result = .err er →
    (∀ a, er ≠ .invalidDeviceState a) ∧
    (er = .timeout .locality → i = .probe ∨ (∃ len, i = .send len) ∨ i = .shutdown) ∧
    (er = .timeout .status → (∃ len, i = .send len) ∨ (∃ cap, i = .recv cap) ∨ i = .shutdown) ∧
    (er = .timeout .commandReady → (∃ len, i = .send len) ∨ i = .shutdown) ∧
    (er = .timeout .ready → s.cfg.transport = .i2c) ∧
    (er = .timeout .spiStall → s.cfg.transport = .spi) ∧
    (er = .protocolViolation .dataStillExpected → (∃ len, i = .send len) ∨ i = .shutdown) ∧
    (er = .protocolViolation .badFirstBurst → (∃ cap, i = .recv cap) ∨ i = .shutdown) ∧
    (er = .protocolViolation .dataStillAvailable → (∃ cap, i = .recv cap) ∨ i = .shutdown) ∧
    (er = .protocolViolation .shutdownMismatch → i = .shutdown) ∧
    (∀ w cap, er = .bufferTooSmall w cap → i = .recv cap ∨ (i = .shutdown ∧ cap = 10)) ∧
    (∀ w, er = .unsupportedDevice w → i = .probe)
end

