-- ==== Sys2Proof/Laws/State.lean ====
section
/-! SUPPORT. One lemma per field per update of the engine, so that no proof unfolds a record update. -/

namespace Sys2Proof.Machine

@[simp] theorem Engine.settle_cfg (e : Engine) (a : Answer) (r : List Answer) : (e.settle a r).cfg = e.cfg := rfl
@[simp] theorem Engine.settle_attached (e : Engine) (a : Answer) (r : List Answer) : (e.settle a r).attached = e.attached := rfl
@[simp] theorem Engine.settle_sess (e : Engine) (a : Answer) (r : List Answer) : (e.settle a r).sess = e.sess := rfl
@[simp] theorem Engine.settle_busy (e : Engine) (a : Answer) (r : List Answer) : (e.settle a r).busy = e.busy := rfl
@[simp] theorem Engine.settle_ready (e : Engine) (a : Answer) (r : List Answer) : (e.settle a r).ready = (e.ready || (a.edge && e.readyPath)) := rfl
@[simp] theorem Engine.settle_readyPath (e : Engine) (a : Answer) (r : List Answer) : (e.settle a r).readyPath = e.readyPath := rfl
@[simp] theorem Engine.settle_scratch (e : Engine) (a : Answer) (r : List Answer) : (e.settle a r).scratch = e.scratch := rfl
@[simp] theorem Engine.settle_x (e : Engine) (a : Answer) (r : List Answer) : (e.settle a r).x = e.x := rfl
@[simp] theorem Engine.settle_result (e : Engine) (a : Answer) (r : List Answer) : (e.settle a r).result = e.result := rfl
@[simp] theorem Engine.settle_pending (e : Engine) (a : Answer) (r : List Answer) : (e.settle a r).pending = e.pending := rfl
@[simp] theorem Engine.settle_lock (e : Engine) (a : Answer) (r : List Answer) : (e.settle a r).lock = (if e.lock = .engine ∨ e.cfg.transport = .i2c then e.lock else if a.lockFree then .free else .other) := rfl
@[simp] theorem Engine.settle_clock (e : Engine) (a : Answer) (r : List Answer) : (e.settle a r).clock = e.clock + a.ticks := rfl
@[simp] theorem Engine.settle_cmdbuf (e : Engine) (a : Answer) (r : List Answer) : (e.settle a r).cmdbuf = e.cmdbuf := rfl
@[simp] theorem Engine.settle_rspbuf (e : Engine) (a : Answer) (r : List Answer) : (e.settle a r).rspbuf = e.rspbuf := rfl
@[simp] theorem Engine.settle_args (e : Engine) (a : Answer) (r : List Answer) : (e.settle a r).args = e.args := rfl
@[simp] theorem Engine.settle_ret (e : Engine) (a : Answer) (r : List Answer) : (e.settle a r).ret = e.ret := rfl
@[simp] theorem Engine.settle_inbox (e : Engine) (a : Answer) (r : List Answer) : (e.settle a r).inbox = r := rfl
@[simp] theorem Engine.settle_trace (e : Engine) (a : Answer) (r : List Answer) : (e.settle a r).trace = e.trace := rfl

@[simp] theorem Engine.log_cfg (e : Engine) (v : Event) : (e.log v).cfg = e.cfg := rfl
@[simp] theorem Engine.log_attached (e : Engine) (v : Event) : (e.log v).attached = e.attached := rfl
@[simp] theorem Engine.log_sess (e : Engine) (v : Event) : (e.log v).sess = e.sess := rfl
@[simp] theorem Engine.log_busy (e : Engine) (v : Event) : (e.log v).busy = e.busy := rfl
@[simp] theorem Engine.log_ready (e : Engine) (v : Event) : (e.log v).ready = e.ready := rfl
@[simp] theorem Engine.log_readyPath (e : Engine) (v : Event) : (e.log v).readyPath = e.readyPath := rfl
@[simp] theorem Engine.log_scratch (e : Engine) (v : Event) : (e.log v).scratch = e.scratch := rfl
@[simp] theorem Engine.log_x (e : Engine) (v : Event) : (e.log v).x = e.x := rfl
@[simp] theorem Engine.log_result (e : Engine) (v : Event) : (e.log v).result = e.result := rfl
@[simp] theorem Engine.log_pending (e : Engine) (v : Event) : (e.log v).pending = e.pending := rfl
@[simp] theorem Engine.log_lock (e : Engine) (v : Event) : (e.log v).lock = e.lock := rfl
@[simp] theorem Engine.log_clock (e : Engine) (v : Event) : (e.log v).clock = e.clock := rfl
@[simp] theorem Engine.log_cmdbuf (e : Engine) (v : Event) : (e.log v).cmdbuf = e.cmdbuf := rfl
@[simp] theorem Engine.log_rspbuf (e : Engine) (v : Event) : (e.log v).rspbuf = e.rspbuf := rfl
@[simp] theorem Engine.log_args (e : Engine) (v : Event) : (e.log v).args = e.args := rfl
@[simp] theorem Engine.log_ret (e : Engine) (v : Event) : (e.log v).ret = e.ret := rfl
@[simp] theorem Engine.log_inbox (e : Engine) (v : Event) : (e.log v).inbox = e.inbox := rfl
@[simp] theorem Engine.log_trace (e : Engine) (v : Event) : (e.log v).trace = e.trace ++ [v] := rfl

@[simp] theorem Engine.addTicks_cfg (e : Engine) (t : Nat) : (e.addTicks t).cfg = e.cfg := rfl
@[simp] theorem Engine.addTicks_attached (e : Engine) (t : Nat) : (e.addTicks t).attached = e.attached := rfl
@[simp] theorem Engine.addTicks_sess (e : Engine) (t : Nat) : (e.addTicks t).sess = e.sess := rfl
@[simp] theorem Engine.addTicks_busy (e : Engine) (t : Nat) : (e.addTicks t).busy = e.busy := rfl
@[simp] theorem Engine.addTicks_ready (e : Engine) (t : Nat) : (e.addTicks t).ready = e.ready := rfl
@[simp] theorem Engine.addTicks_readyPath (e : Engine) (t : Nat) : (e.addTicks t).readyPath = e.readyPath := rfl
@[simp] theorem Engine.addTicks_scratch (e : Engine) (t : Nat) : (e.addTicks t).scratch = e.scratch := rfl
@[simp] theorem Engine.addTicks_x (e : Engine) (t : Nat) : (e.addTicks t).x = e.x := rfl
@[simp] theorem Engine.addTicks_result (e : Engine) (t : Nat) : (e.addTicks t).result = e.result := rfl
@[simp] theorem Engine.addTicks_pending (e : Engine) (t : Nat) : (e.addTicks t).pending = e.pending := rfl
@[simp] theorem Engine.addTicks_lock (e : Engine) (t : Nat) : (e.addTicks t).lock = e.lock := rfl
@[simp] theorem Engine.addTicks_clock (e : Engine) (t : Nat) : (e.addTicks t).clock = e.clock + t := rfl
@[simp] theorem Engine.addTicks_cmdbuf (e : Engine) (t : Nat) : (e.addTicks t).cmdbuf = e.cmdbuf := rfl
@[simp] theorem Engine.addTicks_rspbuf (e : Engine) (t : Nat) : (e.addTicks t).rspbuf = e.rspbuf := rfl
@[simp] theorem Engine.addTicks_args (e : Engine) (t : Nat) : (e.addTicks t).args = e.args := rfl
@[simp] theorem Engine.addTicks_ret (e : Engine) (t : Nat) : (e.addTicks t).ret = e.ret := rfl
@[simp] theorem Engine.addTicks_inbox (e : Engine) (t : Nat) : (e.addTicks t).inbox = e.inbox := rfl
@[simp] theorem Engine.addTicks_trace (e : Engine) (t : Nat) : (e.addTicks t).trace = e.trace := rfl

@[simp] theorem Engine.setReady_cfg (e : Engine) (b : Bool) : (e.setReady b).cfg = e.cfg := rfl
@[simp] theorem Engine.setReady_attached (e : Engine) (b : Bool) : (e.setReady b).attached = e.attached := rfl
@[simp] theorem Engine.setReady_sess (e : Engine) (b : Bool) : (e.setReady b).sess = e.sess := rfl
@[simp] theorem Engine.setReady_busy (e : Engine) (b : Bool) : (e.setReady b).busy = e.busy := rfl
@[simp] theorem Engine.setReady_ready (e : Engine) (b : Bool) : (e.setReady b).ready = b := rfl
@[simp] theorem Engine.setReady_readyPath (e : Engine) (b : Bool) : (e.setReady b).readyPath = e.readyPath := rfl
@[simp] theorem Engine.setReady_scratch (e : Engine) (b : Bool) : (e.setReady b).scratch = e.scratch := rfl
@[simp] theorem Engine.setReady_x (e : Engine) (b : Bool) : (e.setReady b).x = e.x := rfl
@[simp] theorem Engine.setReady_result (e : Engine) (b : Bool) : (e.setReady b).result = e.result := rfl
@[simp] theorem Engine.setReady_pending (e : Engine) (b : Bool) : (e.setReady b).pending = e.pending := rfl
@[simp] theorem Engine.setReady_lock (e : Engine) (b : Bool) : (e.setReady b).lock = e.lock := rfl
@[simp] theorem Engine.setReady_clock (e : Engine) (b : Bool) : (e.setReady b).clock = e.clock := rfl
@[simp] theorem Engine.setReady_cmdbuf (e : Engine) (b : Bool) : (e.setReady b).cmdbuf = e.cmdbuf := rfl
@[simp] theorem Engine.setReady_rspbuf (e : Engine) (b : Bool) : (e.setReady b).rspbuf = e.rspbuf := rfl
@[simp] theorem Engine.setReady_args (e : Engine) (b : Bool) : (e.setReady b).args = e.args := rfl
@[simp] theorem Engine.setReady_ret (e : Engine) (b : Bool) : (e.setReady b).ret = e.ret := rfl
@[simp] theorem Engine.setReady_inbox (e : Engine) (b : Bool) : (e.setReady b).inbox = e.inbox := rfl
@[simp] theorem Engine.setReady_trace (e : Engine) (b : Bool) : (e.setReady b).trace = e.trace := rfl

@[simp] theorem Engine.setLock_cfg (e : Engine) (l : Lock) : (e.setLock l).cfg = e.cfg := rfl
@[simp] theorem Engine.setLock_attached (e : Engine) (l : Lock) : (e.setLock l).attached = e.attached := rfl
@[simp] theorem Engine.setLock_sess (e : Engine) (l : Lock) : (e.setLock l).sess = e.sess := rfl
@[simp] theorem Engine.setLock_busy (e : Engine) (l : Lock) : (e.setLock l).busy = e.busy := rfl
@[simp] theorem Engine.setLock_ready (e : Engine) (l : Lock) : (e.setLock l).ready = e.ready := rfl
@[simp] theorem Engine.setLock_readyPath (e : Engine) (l : Lock) : (e.setLock l).readyPath = e.readyPath := rfl
@[simp] theorem Engine.setLock_scratch (e : Engine) (l : Lock) : (e.setLock l).scratch = e.scratch := rfl
@[simp] theorem Engine.setLock_x (e : Engine) (l : Lock) : (e.setLock l).x = e.x := rfl
@[simp] theorem Engine.setLock_result (e : Engine) (l : Lock) : (e.setLock l).result = e.result := rfl
@[simp] theorem Engine.setLock_pending (e : Engine) (l : Lock) : (e.setLock l).pending = e.pending := rfl
@[simp] theorem Engine.setLock_lock (e : Engine) (l : Lock) : (e.setLock l).lock = l := rfl
@[simp] theorem Engine.setLock_clock (e : Engine) (l : Lock) : (e.setLock l).clock = e.clock := rfl
@[simp] theorem Engine.setLock_cmdbuf (e : Engine) (l : Lock) : (e.setLock l).cmdbuf = e.cmdbuf := rfl
@[simp] theorem Engine.setLock_rspbuf (e : Engine) (l : Lock) : (e.setLock l).rspbuf = e.rspbuf := rfl
@[simp] theorem Engine.setLock_args (e : Engine) (l : Lock) : (e.setLock l).args = e.args := rfl
@[simp] theorem Engine.setLock_ret (e : Engine) (l : Lock) : (e.setLock l).ret = e.ret := rfl
@[simp] theorem Engine.setLock_inbox (e : Engine) (l : Lock) : (e.setLock l).inbox = e.inbox := rfl
@[simp] theorem Engine.setLock_trace (e : Engine) (l : Lock) : (e.setLock l).trace = e.trace := rfl

@[simp] theorem Engine.setSess_cfg (e : Engine) (s : Sess) : (e.setSess s).cfg = e.cfg := rfl
@[simp] theorem Engine.setSess_attached (e : Engine) (s : Sess) : (e.setSess s).attached = e.attached := rfl
@[simp] theorem Engine.setSess_sess (e : Engine) (s : Sess) : (e.setSess s).sess = s := rfl
@[simp] theorem Engine.setSess_busy (e : Engine) (s : Sess) : (e.setSess s).busy = e.busy := rfl
@[simp] theorem Engine.setSess_ready (e : Engine) (s : Sess) : (e.setSess s).ready = e.ready := rfl
@[simp] theorem Engine.setSess_readyPath (e : Engine) (s : Sess) : (e.setSess s).readyPath = e.readyPath := rfl
@[simp] theorem Engine.setSess_scratch (e : Engine) (s : Sess) : (e.setSess s).scratch = e.scratch := rfl
@[simp] theorem Engine.setSess_x (e : Engine) (s : Sess) : (e.setSess s).x = e.x := rfl
@[simp] theorem Engine.setSess_result (e : Engine) (s : Sess) : (e.setSess s).result = e.result := rfl
@[simp] theorem Engine.setSess_pending (e : Engine) (s : Sess) : (e.setSess s).pending = e.pending := rfl
@[simp] theorem Engine.setSess_lock (e : Engine) (s : Sess) : (e.setSess s).lock = e.lock := rfl
@[simp] theorem Engine.setSess_clock (e : Engine) (s : Sess) : (e.setSess s).clock = e.clock := rfl
@[simp] theorem Engine.setSess_cmdbuf (e : Engine) (s : Sess) : (e.setSess s).cmdbuf = e.cmdbuf := rfl
@[simp] theorem Engine.setSess_rspbuf (e : Engine) (s : Sess) : (e.setSess s).rspbuf = e.rspbuf := rfl
@[simp] theorem Engine.setSess_args (e : Engine) (s : Sess) : (e.setSess s).args = e.args := rfl
@[simp] theorem Engine.setSess_ret (e : Engine) (s : Sess) : (e.setSess s).ret = e.ret := rfl
@[simp] theorem Engine.setSess_inbox (e : Engine) (s : Sess) : (e.setSess s).inbox = e.inbox := rfl
@[simp] theorem Engine.setSess_trace (e : Engine) (s : Sess) : (e.setSess s).trace = e.trace := rfl

@[simp] theorem Engine.setBusy_cfg (e : Engine) (b : Bool) : (e.setBusy b).cfg = e.cfg := rfl
@[simp] theorem Engine.setBusy_attached (e : Engine) (b : Bool) : (e.setBusy b).attached = e.attached := rfl
@[simp] theorem Engine.setBusy_sess (e : Engine) (b : Bool) : (e.setBusy b).sess = e.sess := rfl
@[simp] theorem Engine.setBusy_busy (e : Engine) (b : Bool) : (e.setBusy b).busy = b := rfl
@[simp] theorem Engine.setBusy_ready (e : Engine) (b : Bool) : (e.setBusy b).ready = e.ready := rfl
@[simp] theorem Engine.setBusy_readyPath (e : Engine) (b : Bool) : (e.setBusy b).readyPath = e.readyPath := rfl
@[simp] theorem Engine.setBusy_scratch (e : Engine) (b : Bool) : (e.setBusy b).scratch = e.scratch := rfl
@[simp] theorem Engine.setBusy_x (e : Engine) (b : Bool) : (e.setBusy b).x = e.x := rfl
@[simp] theorem Engine.setBusy_result (e : Engine) (b : Bool) : (e.setBusy b).result = e.result := rfl
@[simp] theorem Engine.setBusy_pending (e : Engine) (b : Bool) : (e.setBusy b).pending = e.pending := rfl
@[simp] theorem Engine.setBusy_lock (e : Engine) (b : Bool) : (e.setBusy b).lock = e.lock := rfl
@[simp] theorem Engine.setBusy_clock (e : Engine) (b : Bool) : (e.setBusy b).clock = e.clock := rfl
@[simp] theorem Engine.setBusy_cmdbuf (e : Engine) (b : Bool) : (e.setBusy b).cmdbuf = e.cmdbuf := rfl
@[simp] theorem Engine.setBusy_rspbuf (e : Engine) (b : Bool) : (e.setBusy b).rspbuf = e.rspbuf := rfl
@[simp] theorem Engine.setBusy_args (e : Engine) (b : Bool) : (e.setBusy b).args = e.args := rfl
@[simp] theorem Engine.setBusy_ret (e : Engine) (b : Bool) : (e.setBusy b).ret = e.ret := rfl
@[simp] theorem Engine.setBusy_inbox (e : Engine) (b : Bool) : (e.setBusy b).inbox = e.inbox := rfl
@[simp] theorem Engine.setBusy_trace (e : Engine) (b : Bool) : (e.setBusy b).trace = e.trace := rfl

@[simp] theorem Engine.setResult_cfg (e : Engine) (r : HostResult) : (e.setResult r).cfg = e.cfg := rfl
@[simp] theorem Engine.setResult_attached (e : Engine) (r : HostResult) : (e.setResult r).attached = e.attached := rfl
@[simp] theorem Engine.setResult_sess (e : Engine) (r : HostResult) : (e.setResult r).sess = e.sess := rfl
@[simp] theorem Engine.setResult_busy (e : Engine) (r : HostResult) : (e.setResult r).busy = e.busy := rfl
@[simp] theorem Engine.setResult_ready (e : Engine) (r : HostResult) : (e.setResult r).ready = e.ready := rfl
@[simp] theorem Engine.setResult_readyPath (e : Engine) (r : HostResult) : (e.setResult r).readyPath = e.readyPath := rfl
@[simp] theorem Engine.setResult_scratch (e : Engine) (r : HostResult) : (e.setResult r).scratch = e.scratch := rfl
@[simp] theorem Engine.setResult_x (e : Engine) (r : HostResult) : (e.setResult r).x = e.x := rfl
@[simp] theorem Engine.setResult_result (e : Engine) (r : HostResult) : (e.setResult r).result = r := rfl
@[simp] theorem Engine.setResult_pending (e : Engine) (r : HostResult) : (e.setResult r).pending = e.pending := rfl
@[simp] theorem Engine.setResult_lock (e : Engine) (r : HostResult) : (e.setResult r).lock = e.lock := rfl
@[simp] theorem Engine.setResult_clock (e : Engine) (r : HostResult) : (e.setResult r).clock = e.clock := rfl
@[simp] theorem Engine.setResult_cmdbuf (e : Engine) (r : HostResult) : (e.setResult r).cmdbuf = e.cmdbuf := rfl
@[simp] theorem Engine.setResult_rspbuf (e : Engine) (r : HostResult) : (e.setResult r).rspbuf = e.rspbuf := rfl
@[simp] theorem Engine.setResult_args (e : Engine) (r : HostResult) : (e.setResult r).args = e.args := rfl
@[simp] theorem Engine.setResult_ret (e : Engine) (r : HostResult) : (e.setResult r).ret = e.ret := rfl
@[simp] theorem Engine.setResult_inbox (e : Engine) (r : HostResult) : (e.setResult r).inbox = e.inbox := rfl
@[simp] theorem Engine.setResult_trace (e : Engine) (r : HostResult) : (e.setResult r).trace = e.trace := rfl

@[simp] theorem Engine.setPending_cfg (e : Engine) (p : Option Err) : (e.setPending p).cfg = e.cfg := rfl
@[simp] theorem Engine.setPending_attached (e : Engine) (p : Option Err) : (e.setPending p).attached = e.attached := rfl
@[simp] theorem Engine.setPending_sess (e : Engine) (p : Option Err) : (e.setPending p).sess = e.sess := rfl
@[simp] theorem Engine.setPending_busy (e : Engine) (p : Option Err) : (e.setPending p).busy = e.busy := rfl
@[simp] theorem Engine.setPending_ready (e : Engine) (p : Option Err) : (e.setPending p).ready = e.ready := rfl
@[simp] theorem Engine.setPending_readyPath (e : Engine) (p : Option Err) : (e.setPending p).readyPath = e.readyPath := rfl
@[simp] theorem Engine.setPending_scratch (e : Engine) (p : Option Err) : (e.setPending p).scratch = e.scratch := rfl
@[simp] theorem Engine.setPending_x (e : Engine) (p : Option Err) : (e.setPending p).x = e.x := rfl
@[simp] theorem Engine.setPending_result (e : Engine) (p : Option Err) : (e.setPending p).result = e.result := rfl
@[simp] theorem Engine.setPending_pending (e : Engine) (p : Option Err) : (e.setPending p).pending = p := rfl
@[simp] theorem Engine.setPending_lock (e : Engine) (p : Option Err) : (e.setPending p).lock = e.lock := rfl
@[simp] theorem Engine.setPending_clock (e : Engine) (p : Option Err) : (e.setPending p).clock = e.clock := rfl
@[simp] theorem Engine.setPending_cmdbuf (e : Engine) (p : Option Err) : (e.setPending p).cmdbuf = e.cmdbuf := rfl
@[simp] theorem Engine.setPending_rspbuf (e : Engine) (p : Option Err) : (e.setPending p).rspbuf = e.rspbuf := rfl
@[simp] theorem Engine.setPending_args (e : Engine) (p : Option Err) : (e.setPending p).args = e.args := rfl
@[simp] theorem Engine.setPending_ret (e : Engine) (p : Option Err) : (e.setPending p).ret = e.ret := rfl
@[simp] theorem Engine.setPending_inbox (e : Engine) (p : Option Err) : (e.setPending p).inbox = e.inbox := rfl
@[simp] theorem Engine.setPending_trace (e : Engine) (p : Option Err) : (e.setPending p).trace = e.trace := rfl

@[simp] theorem Engine.setX_cfg (e : Engine) (x : Regs) : (e.setX x).cfg = e.cfg := rfl
@[simp] theorem Engine.setX_attached (e : Engine) (x : Regs) : (e.setX x).attached = e.attached := rfl
@[simp] theorem Engine.setX_sess (e : Engine) (x : Regs) : (e.setX x).sess = e.sess := rfl
@[simp] theorem Engine.setX_busy (e : Engine) (x : Regs) : (e.setX x).busy = e.busy := rfl
@[simp] theorem Engine.setX_ready (e : Engine) (x : Regs) : (e.setX x).ready = e.ready := rfl
@[simp] theorem Engine.setX_readyPath (e : Engine) (x : Regs) : (e.setX x).readyPath = e.readyPath := rfl
@[simp] theorem Engine.setX_scratch (e : Engine) (x : Regs) : (e.setX x).scratch = e.scratch := rfl
@[simp] theorem Engine.setX_x (e : Engine) (x : Regs) : (e.setX x).x = x := rfl
@[simp] theorem Engine.setX_result (e : Engine) (x : Regs) : (e.setX x).result = e.result := rfl
@[simp] theorem Engine.setX_pending (e : Engine) (x : Regs) : (e.setX x).pending = e.pending := rfl
@[simp] theorem Engine.setX_lock (e : Engine) (x : Regs) : (e.setX x).lock = e.lock := rfl
@[simp] theorem Engine.setX_clock (e : Engine) (x : Regs) : (e.setX x).clock = e.clock := rfl
@[simp] theorem Engine.setX_cmdbuf (e : Engine) (x : Regs) : (e.setX x).cmdbuf = e.cmdbuf := rfl
@[simp] theorem Engine.setX_rspbuf (e : Engine) (x : Regs) : (e.setX x).rspbuf = e.rspbuf := rfl
@[simp] theorem Engine.setX_args (e : Engine) (x : Regs) : (e.setX x).args = e.args := rfl
@[simp] theorem Engine.setX_ret (e : Engine) (x : Regs) : (e.setX x).ret = e.ret := rfl
@[simp] theorem Engine.setX_inbox (e : Engine) (x : Regs) : (e.setX x).inbox = e.inbox := rfl
@[simp] theorem Engine.setX_trace (e : Engine) (x : Regs) : (e.setX x).trace = e.trace := rfl

@[simp] theorem Engine.setScratch_cfg (e : Engine) (bs : List Byte) : (e.setScratch bs).cfg = e.cfg := rfl
@[simp] theorem Engine.setScratch_attached (e : Engine) (bs : List Byte) : (e.setScratch bs).attached = e.attached := rfl
@[simp] theorem Engine.setScratch_sess (e : Engine) (bs : List Byte) : (e.setScratch bs).sess = e.sess := rfl
@[simp] theorem Engine.setScratch_busy (e : Engine) (bs : List Byte) : (e.setScratch bs).busy = e.busy := rfl
@[simp] theorem Engine.setScratch_ready (e : Engine) (bs : List Byte) : (e.setScratch bs).ready = e.ready := rfl
@[simp] theorem Engine.setScratch_readyPath (e : Engine) (bs : List Byte) : (e.setScratch bs).readyPath = e.readyPath := rfl
@[simp] theorem Engine.setScratch_scratch (e : Engine) (bs : List Byte) : (e.setScratch bs).scratch = bs ++ e.scratch.drop bs.length := rfl
@[simp] theorem Engine.setScratch_x (e : Engine) (bs : List Byte) : (e.setScratch bs).x = e.x := rfl
@[simp] theorem Engine.setScratch_result (e : Engine) (bs : List Byte) : (e.setScratch bs).result = e.result := rfl
@[simp] theorem Engine.setScratch_pending (e : Engine) (bs : List Byte) : (e.setScratch bs).pending = e.pending := rfl
@[simp] theorem Engine.setScratch_lock (e : Engine) (bs : List Byte) : (e.setScratch bs).lock = e.lock := rfl
@[simp] theorem Engine.setScratch_clock (e : Engine) (bs : List Byte) : (e.setScratch bs).clock = e.clock := rfl
@[simp] theorem Engine.setScratch_cmdbuf (e : Engine) (bs : List Byte) : (e.setScratch bs).cmdbuf = e.cmdbuf := rfl
@[simp] theorem Engine.setScratch_rspbuf (e : Engine) (bs : List Byte) : (e.setScratch bs).rspbuf = e.rspbuf := rfl
@[simp] theorem Engine.setScratch_args (e : Engine) (bs : List Byte) : (e.setScratch bs).args = e.args := rfl
@[simp] theorem Engine.setScratch_ret (e : Engine) (bs : List Byte) : (e.setScratch bs).ret = e.ret := rfl
@[simp] theorem Engine.setScratch_inbox (e : Engine) (bs : List Byte) : (e.setScratch bs).inbox = e.inbox := rfl
@[simp] theorem Engine.setScratch_trace (e : Engine) (bs : List Byte) : (e.setScratch bs).trace = e.trace := rfl

@[simp] theorem Engine.setRet_cfg (e : Engine) (r : Ret) : (e.setRet r).cfg = e.cfg := rfl
@[simp] theorem Engine.setRet_attached (e : Engine) (r : Ret) : (e.setRet r).attached = e.attached := rfl
@[simp] theorem Engine.setRet_sess (e : Engine) (r : Ret) : (e.setRet r).sess = e.sess := rfl
@[simp] theorem Engine.setRet_busy (e : Engine) (r : Ret) : (e.setRet r).busy = e.busy := rfl
@[simp] theorem Engine.setRet_ready (e : Engine) (r : Ret) : (e.setRet r).ready = e.ready := rfl
@[simp] theorem Engine.setRet_readyPath (e : Engine) (r : Ret) : (e.setRet r).readyPath = e.readyPath := rfl
@[simp] theorem Engine.setRet_scratch (e : Engine) (r : Ret) : (e.setRet r).scratch = e.scratch := rfl
@[simp] theorem Engine.setRet_x (e : Engine) (r : Ret) : (e.setRet r).x = e.x := rfl
@[simp] theorem Engine.setRet_result (e : Engine) (r : Ret) : (e.setRet r).result = e.result := rfl
@[simp] theorem Engine.setRet_pending (e : Engine) (r : Ret) : (e.setRet r).pending = e.pending := rfl
@[simp] theorem Engine.setRet_lock (e : Engine) (r : Ret) : (e.setRet r).lock = e.lock := rfl
@[simp] theorem Engine.setRet_clock (e : Engine) (r : Ret) : (e.setRet r).clock = e.clock := rfl
@[simp] theorem Engine.setRet_cmdbuf (e : Engine) (r : Ret) : (e.setRet r).cmdbuf = e.cmdbuf := rfl
@[simp] theorem Engine.setRet_rspbuf (e : Engine) (r : Ret) : (e.setRet r).rspbuf = e.rspbuf := rfl
@[simp] theorem Engine.setRet_args (e : Engine) (r : Ret) : (e.setRet r).args = e.args := rfl
@[simp] theorem Engine.setRet_ret (e : Engine) (r : Ret) : (e.setRet r).ret = r := rfl
@[simp] theorem Engine.setRet_inbox (e : Engine) (r : Ret) : (e.setRet r).inbox = e.inbox := rfl
@[simp] theorem Engine.setRet_trace (e : Engine) (r : Ret) : (e.setRet r).trace = e.trace := rfl

@[simp] theorem Engine.setRsp_cfg (e : Engine) (i : Nat) (v : Byte) : (e.setRsp i v).cfg = e.cfg := rfl
@[simp] theorem Engine.setRsp_attached (e : Engine) (i : Nat) (v : Byte) : (e.setRsp i v).attached = e.attached := rfl
@[simp] theorem Engine.setRsp_sess (e : Engine) (i : Nat) (v : Byte) : (e.setRsp i v).sess = e.sess := rfl
@[simp] theorem Engine.setRsp_busy (e : Engine) (i : Nat) (v : Byte) : (e.setRsp i v).busy = e.busy := rfl
@[simp] theorem Engine.setRsp_ready (e : Engine) (i : Nat) (v : Byte) : (e.setRsp i v).ready = e.ready := rfl
@[simp] theorem Engine.setRsp_readyPath (e : Engine) (i : Nat) (v : Byte) : (e.setRsp i v).readyPath = e.readyPath := rfl
@[simp] theorem Engine.setRsp_scratch (e : Engine) (i : Nat) (v : Byte) : (e.setRsp i v).scratch = e.scratch := rfl
@[simp] theorem Engine.setRsp_x (e : Engine) (i : Nat) (v : Byte) : (e.setRsp i v).x = e.x := rfl
@[simp] theorem Engine.setRsp_result (e : Engine) (i : Nat) (v : Byte) : (e.setRsp i v).result = e.result := rfl
@[simp] theorem Engine.setRsp_pending (e : Engine) (i : Nat) (v : Byte) : (e.setRsp i v).pending = e.pending := rfl
@[simp] theorem Engine.setRsp_lock (e : Engine) (i : Nat) (v : Byte) : (e.setRsp i v).lock = e.lock := rfl
@[simp] theorem Engine.setRsp_clock (e : Engine) (i : Nat) (v : Byte) : (e.setRsp i v).clock = e.clock := rfl
@[simp] theorem Engine.setRsp_cmdbuf (e : Engine) (i : Nat) (v : Byte) : (e.setRsp i v).cmdbuf = e.cmdbuf := rfl
@[simp] theorem Engine.setRsp_rspbuf (e : Engine) (i : Nat) (v : Byte) : (e.setRsp i v).rspbuf = memSet e.rspbuf i v := rfl
@[simp] theorem Engine.setRsp_args (e : Engine) (i : Nat) (v : Byte) : (e.setRsp i v).args = e.args := rfl
@[simp] theorem Engine.setRsp_ret (e : Engine) (i : Nat) (v : Byte) : (e.setRsp i v).ret = e.ret := rfl
@[simp] theorem Engine.setRsp_inbox (e : Engine) (i : Nat) (v : Byte) : (e.setRsp i v).inbox = e.inbox := rfl
@[simp] theorem Engine.setRsp_trace (e : Engine) (i : Nat) (v : Byte) : (e.setRsp i v).trace = e.trace := rfl

end Sys2Proof.Machine
end

