-- ==== Sys2Proof/Laws/Proc.lean ====
section
/-! SUPPORT. What each control form and each port primitive does, once: the lemmas that proofs about
procedures cite instead of unfolding them. -/

namespace Sys2Proof.Machine

variable {α β : Type}

/-! ### Control forms -/

theorem bind_apply (p : P α) (k : α → P β) (e : Engine) :
    (p >>= k) e = match p e with
      | .ok a t => k a t
      | .error x t => .error x t := by
  simp only [bind, EStateM.bind]
  cases p e <;> rfl

theorem map_apply (f : α → β) (p : P α) (e : Engine) :
    (f <$> p) e = match p e with
      | .ok a t => .ok (f a) t
      | .error x t => .error x t := by
  simp only [Functor.map, EStateM.map]
  cases p e <;> rfl

@[simp] theorem pure_apply (a : α) (e : Engine) : (pure a : P α) e = .ok a e := rfl

/-- After a step that returned, the rest runs from where it left. -/
theorem bind_of_ok {p : P α} {k : α → P β} {e t : Engine} {a : α} (h : p e = .ok a t) :
    (p >>= k) e = k a t := by
  rw [bind_apply, h]

/-- After a step that stopped, nothing more runs. -/
theorem bind_of_error {p : P α} {k : α → P β} {e t : Engine} {x : Stop} (h : p e = .error x t) :
    (p >>= k) e = .error x t := by
  rw [bind_apply, h]

/-- What a sequence that returned has done. -/
theorem bind_eq_ok {p : P α} {k : α → P β} {e t : Engine} {b : β} :
    (p >>= k) e = .ok b t ↔ ∃ a m, p e = .ok a m ∧ k a m = .ok b t := by
  rw [bind_apply]
  cases h : p e with
  | ok a m => simp
  | error x m => simp

/-- What a sequence that stopped has done. -/
theorem bind_eq_error {p : P α} {k : α → P β} {e t : Engine} {x : Stop} :
    (p >>= k) e = .error x t ↔
      p e = .error x t ∨ ∃ a m, p e = .ok a m ∧ k a m = .error x t := by
  rw [bind_apply]
  cases h : p e with
  | ok a m => simp
  | error y m => simp

@[simp] theorem look_apply (e : Engine) : look e = .ok e e := rfl
@[simp] theorem change_apply (f : Engine → Engine) (e : Engine) : change f e = .ok () (f e) := rfl
@[simp] theorem onX_apply (f : Regs → Regs) (e : Engine) : onX f e = .ok () (e.setX (f e.x)) := rfl
@[simp] theorem record_apply (v : Event) (e : Engine) : record v e = .ok () (e.log v) := rfl
@[simp] theorem raise_apply (er : Err) (e : Engine) : (raise er : P α) e = .error (.raised er) e := rfl
@[simp] theorem block_apply (p : Prim) (e : Engine) : (block p : P α) e = .error (.blocked p) e := rfl
@[simp] theorem stopFault_apply (f : Fault) (e : Engine) :
    (stopFault f : P α) e = .error (.faulted f) e := rfl
@[simp] theorem setSess_apply (s : Sess) (e : Engine) : setSess s e = .ok () (e.setSess s) := rfl

theorem attempt_of_ok {p : P α} {e t : Engine} {a : α} (h : p e = .ok a t) :
    attempt p e = .ok (.ok a) t := by
  simp [attempt, h]

theorem attempt_of_raised {p : P α} {e t : Engine} {er : Err} (h : p e = .error (.raised er) t) :
    attempt p e = .ok (.error er) t := by
  simp [attempt, h]

theorem attempt_of_blocked {p : P α} {e t : Engine} {w : Prim} (h : p e = .error (.blocked w) t) :
    attempt p e = .error (.blocked w) t := by
  simp [attempt, h]

/-- A result caught is a value returned or an error raised, at the same state. -/
theorem attempt_eq_ok {p : P α} {e t : Engine} {r : Except Err α} :
    attempt p e = .ok r t ↔
      (∃ a, r = .ok a ∧ p e = .ok a t) ∨ (∃ er, r = .error er ∧ p e = .error (.raised er) t) := by
  simp only [attempt]
  split <;> rename_i h <;> simp_all [eq_comm]

/-- `try` raises nothing. -/
theorem attempt_never_raises {p : P α} {e t : Engine} {er : Err} :
    attempt p e ≠ .error (.raised er) t := by
  simp only [attempt]
  split <;> simp

@[simp] theorem ofExcept_ok (a : α) : (ofExcept (.ok a) : P α) = pure a := rfl
@[simp] theorem ofExcept_error (er : Err) : (ofExcept (.error er) : P α) = raise er := rfl
@[simp] theorem onlyIf_true (p : P Unit) : onlyIf true p = p := rfl
@[simp] theorem onlyIf_false (p : P Unit) : onlyIf false p = pure () := rfl

/-! ### Answers and primitives -/

theorem take_nil {p : Prim} {e : Engine} (h : e.inbox = []) : take p e = .error (.blocked p) e := by
  simp [take, h]

theorem take_cons {p : Prim} {e : Engine} {a : Answer} {rest : List Answer} (h : e.inbox = a :: rest) :
    take p e = .ok a (e.settle a rest) := by
  simp [take, h]

/-- Waiting for an answer: it is there, or the engine is blocked as it was. -/
theorem take_cases (p : Prim) (e : Engine) :
    (e.inbox = [] ∧ take p e = .error (.blocked p) e) ∨
      ∃ a rest, e.inbox = a :: rest ∧ take p e = .ok a (e.settle a rest) := by
  cases h : e.inbox with
  | nil => exact .inl ⟨rfl, take_nil h⟩
  | cons a rest => exact .inr ⟨a, rest, rfl, take_cons h⟩

theorem busWrite_ok {bs : List Byte} {e : Engine} {a : Answer} {rest : List Answer}
    (h : e.inbox = a :: rest) (ha : a.err = none) :
    busWrite bs e = .ok () ((e.settle a rest).log (.busWrite bs)) := by
  simp [busWrite, bind_apply, take_cons h, ha]

theorem busWrite_err {bs : List Byte} {e : Engine} {a : Answer} {rest : List Answer} {er : Nat}
    (h : e.inbox = a :: rest) (ha : a.err = some er) :
    busWrite bs e = .error (.raised (.io er)) ((e.settle a rest).log (.busWriteErr bs er)) := by
  simp [busWrite, bind_apply, take_cons h, ha]

theorem busRead_ok {n : Nat} {e : Engine} {a : Answer} {rest : List Answer}
    (h : e.inbox = a :: rest) (ha : a.err = none) :
    busRead n e =
      .ok (answerBytes n a.bytes) ((e.settle a rest).log (.busRead (answerBytes n a.bytes))) := by
  simp [busRead, bind_apply, map_apply, take_cons h, ha]

theorem busRead_err {n : Nat} {e : Engine} {a : Answer} {rest : List Answer} {er : Nat}
    (h : e.inbox = a :: rest) (ha : a.err = some er) :
    busRead n e = .error (.raised (.io er)) ((e.settle a rest).log (.busReadErr n er)) := by
  simp [busRead, bind_apply, take_cons h, ha]

@[simp] theorem answerBytes_length (n : Nat) (bs : List Byte) : (answerBytes n bs).length = n := by
  simp [answerBytes]

/-- An answer of the right length is the bytes read. -/
theorem answerBytes_exact (bs : List Byte) : answerBytes bs.length bs = bs := by
  simp [answerBytes]

theorem now_ok {e : Engine} {a : Answer} {rest : List Answer} (h : e.inbox = a :: rest) :
    now e = .ok (e.clock + a.ticks) ((e.settle a rest).log (.now (e.clock + a.ticks))) := by
  simp [now, bind_apply, map_apply, take_cons h]

theorem sleep_ok {ms : Nat} {e : Engine} {a : Answer} {rest : List Answer} (h : e.inbox = a :: rest) :
    sleep ms e = .ok () (((e.settle a rest).addTicks (ms * e.cfg.clkPerMs)).log (.sleep ms)) := by
  simp [sleep, bind_apply, take_cons h]

theorem expired_ok {t0 budget : Nat} {e : Engine} {a : Answer} {rest : List Answer}
    (h : e.inbox = a :: rest) :
    expired t0 budget e =
      .ok (decide (budget * e.cfg.clkPerMs ≤ e.clock + a.ticks - t0))
        ((e.settle a rest).log (.now (e.clock + a.ticks))) := by
  simp [expired, bind_apply, map_apply, now_ok h]
  rfl

@[simp] theorem readyClear_apply (e : Engine) :
    readyClear e = .ok () ((e.setReady false).log .readyClear) := rfl

theorem readyFlag_ok {e : Engine} {a : Answer} {rest : List Answer} (h : e.inbox = a :: rest) :
    readyFlag e =
      .ok (e.ready || (a.edge && e.readyPath))
        ((e.settle a rest).log (.readyFlag (e.ready || (a.edge && e.readyPath)))) := by
  simp [readyFlag, bind_apply, map_apply, take_cons h]

/-- The flag at the deadline: the flag itself, one event more where it is set. -/
theorem readyAtDeadline_apply (e : Engine) :
    readyAtDeadline e = .ok e.ready (if e.ready then e.log (.readyFlag true) else e) := by
  cases h : e.ready <;> simp [readyAtDeadline, bind_apply, map_apply, h, onlyIf]

@[simp] theorem spiUnlock_apply (e : Engine) : spiUnlock e = .ok () ((e.setLock .free).log .unlock) := rfl

/-! ### Host buffers -/

@[simp] theorem Engine.buffer_cmdbuf (e : Engine) : e.buffer .cmdbuf = e.cmdbuf := rfl
@[simp] theorem Engine.buffer_rspbuf (e : Engine) : e.buffer .rspbuf = e.rspbuf := rfl
@[simp] theorem Engine.log_buffer (e : Engine) (v : Event) (buf : HostBuf) :
    (e.log v).buffer buf = e.buffer buf := by
  cases buf <;> rfl

theorem memRead_ok {buf : HostBuf} {i : Nat} (h : i < bufSize) (e : Engine) :
    memRead buf i e =
      .ok (memGet (e.buffer buf) i) (e.log (.memRead buf i (memGet (e.buffer buf) i))) := by
  simp [memRead, h, bind_apply, map_apply]

theorem memRead_out {buf : HostBuf} {i : Nat} (h : ¬ i < bufSize) (e : Engine) :
    memRead buf i e = .error (.faulted (.bufferRange i)) e := by
  simp [memRead, h]

theorem memWrite_ok {i : Nat} (h : i < bufSize) (v : Byte) (e : Engine) :
    memWrite i v e = .ok () ((e.setRsp i v).log (.memWrite i v)) := by
  simp [memWrite, h, bind_apply]

theorem memWrite_out {i : Nat} (h : ¬ i < bufSize) (v : Byte) (e : Engine) :
    memWrite i v e = .error (.faulted (.bufferRange i)) e := by
  simp [memWrite, h]

/-- An instruction that runs to its end. -/
theorem launch_of_ok {i : Instr} {body : P Unit} {s : State} {e : Engine}
    (h : body s.toEngine = .ok () e) :
    launch i body s = .next { s with toEngine := e, running := none } := by
  simp [launch, h]

/-- An instruction that waits for the environment. -/
theorem launch_of_blocked {i : Instr} {body : P Unit} {s : State} {e : Engine} {w : Prim}
    (h : body s.toEngine = .error (.blocked w) e) :
    launch i body s = .next { s with
      toEngine := e
      running := some { instr := i, start := s.toEngine, waits := w } } := by
  simp [launch, h]

/-- A procedure code's body ends with its outcome in `ret`. -/
theorem procedure_of_attempt {p : P RetVal} {e t : Engine} {r : Except Err RetVal}
    (h : attempt p e = .ok r t) : procedure p e = .ok () (t.setRet (retOf r)) := by
  simp [procedure, bind_apply, h]

/-- A host command's body ends with its outcome in `result` and `busy` false. -/
theorem hostCommand_of_attempt {p : P HostVal} {e t : Engine} {r : Except Err HostVal}
    (h : attempt p (e.setBusy true) = .ok r t) :
    hostCommand p e = .ok () ((t.setResult (hostResultOf r)).setBusy false) := by
  simp [hostCommand, bind_apply, h]

/-- Everything starting an instruction can answer. -/
theorem launch_cases {i : Instr} {body : P Unit} {s : State} {o : Host.Outcome State Fault Refusal}
    (h : launch i body s = o) :
    (∃ e, o = .next { s with toEngine := e, running := none } ∧
      (body s.toEngine = .ok () e ∨ ∃ er, body s.toEngine = .error (.raised er) e)) ∨
    (∃ e w, body s.toEngine = .error (.blocked w) e ∧ o = .next { s with
      toEngine := e
      running := some { instr := i, start := s.toEngine, waits := w } }) ∨
    (∃ f e, body s.toEngine = .error (.faulted f) e ∧ o = .fault f) := by
  subst h
  simp only [launch]
  split <;> rename_i hb <;> simp_all

end Sys2Proof.Machine
end

