-- ==== Sys2Proof/Laws/Along.lean ====
section
/-! SUPPORT. What every procedure of the engine does to its state, whatever the environment answers: for a
reflexive and transitive relation that every update of the engine satisfies, every procedure goes from a
state to a related one, whether it returns, raises, waits or faults. Frames, monotonicity and invariants
are instances. -/

namespace Sys2Proof.Machine

variable {α β : Type} {R : Engine → Engine → Prop}

/-- The state in which a procedure returned or stopped. -/
def after : EStateM.Result Stop Engine α → Engine
  | .ok _ t => t
  | .error _ t => t

@[simp] theorem after_ok (a : α) (t : Engine) :
    after (EStateM.Result.ok a t : EStateM.Result Stop Engine α) = t := rfl
@[simp] theorem after_error (x : Stop) (t : Engine) :
    after (EStateM.Result.error x t : EStateM.Result Stop Engine α) = t := rfl

/-- The procedure goes along the relation. -/
def Along (R : Engine → Engine → Prop) (p : P α) : Prop :=
  ∀ e, R e (after (p e))

/-- A relation that holds along every update the transport, locality, status and FIFO procedures make. -/
structure Closed (R : Engine → Engine → Prop) : Prop where
  refl : ∀ e, R e e
  trans : ∀ {a b c}, R a b → R b c → R a c
  settle : ∀ e a rest, e.inbox = a :: rest → R e (e.settle a rest)
  log : ∀ e v, R e (e.log v)
  addTicks : ∀ e t, R e (e.addTicks t)
  setReady : ∀ e, R e (e.setReady false)
  setLock : ∀ e l, R e (e.setLock l)
  setX : ∀ e x, R e (e.setX x)
  setScratch : ∀ e bs, bs.length ≤ e.cfg.scratchCap → R e (e.setScratch bs)
  setRsp : ∀ e i v, R e (e.setRsp i v)

/-- A relation that also holds along what the session's procedures write. -/
structure ClosedSession (R : Engine → Engine → Prop) : Prop extends Closed R where
  setSess : ∀ e s, R e (e.setSess s)
  setPending : ∀ e p, R e (e.setPending p)

theorem along_bind (hR : Closed R) {p : P α} {k : α → P β} (hp : Along R p) (hk : ∀ a, Along R (k a)) :
    Along R (p >>= k) := by
  intro e
  rw [bind_apply]
  have h1 := hp e
  cases h : p e with
  | ok a t =>
    rw [h] at h1
    exact hR.trans h1 (hk a t)
  | error x t =>
    rw [h] at h1
    exact h1

/-- A step that does not change the state but reads it: the rest knows what it read. -/
theorem along_look {k : Engine → P β} (hk : ∀ e, R e (after (k e e))) : Along R (look >>= k) := by
  intro e
  rw [bind_of_ok (look_apply e)]
  exact hk e

theorem along_pure (hR : Closed R) (a : α) : Along R (pure a : P α) := fun e => hR.refl e
theorem along_raise (hR : Closed R) (er : Err) : Along R (raise er : P α) := fun e => hR.refl e
theorem along_block (hR : Closed R) (p : Prim) : Along R (block p : P α) := fun e => hR.refl e
theorem along_stopFault (hR : Closed R) (f : Fault) : Along R (stopFault f : P α) := fun e => hR.refl e
theorem along_record (hR : Closed R) (v : Event) : Along R (record v) := fun e => hR.log e v
theorem along_onX (hR : Closed R) (f : Regs → Regs) : Along R (onX f) := fun e => hR.setX e _

theorem along_attempt {p : P α} (hp : Along R p) : Along R (attempt p) := by
  intro e
  have h := hp e
  simp only [attempt]
  split <;> rename_i hpe <;> rw [hpe] at h <;> exact h

theorem along_ignore (hR : Closed R) {p : P α} (hp : Along R p) : Along R (ignore p) :=
  along_bind hR (along_attempt hp) fun _ => along_pure hR ()

theorem along_onlyIf (hR : Closed R) (c : Bool) {p : P Unit} (hp : Along R p) : Along R (onlyIf c p) := by
  cases c
  · exact along_pure hR ()
  · exact hp

theorem along_ofExcept (hR : Closed R) (r : Except Err α) : Along R (ofExcept r) := by
  cases r
  · exact along_raise hR _
  · exact along_pure hR _

theorem along_take (hR : Closed R) (p : Prim) : Along R (take p) := by
  intro e
  rcases take_cases p e with ⟨_, h⟩ | ⟨a, rest, hi, h⟩ <;> rw [h]
  · exact hR.refl e
  · exact hR.settle e a rest hi

theorem along_until (hR : Closed R) {body : P (Option α)} (hb : Along R body) :
    ∀ k, Along R (untilDone body k)
  | 0 => along_block hR _
  | k + 1 => along_bind hR hb fun o => by
    cases o
    · exact along_until hR hb k
    · exact along_pure hR _

theorem along_repeatP (hR : Closed R) {body : P (Option α)} (hb : Along R body) : Along R (repeatP body) :=
  fun e => along_until hR hb _ e

theorem along_untilFrom {σ : Type} (hR : Closed R) {body : σ → P (σ ⊕ α)} (hb : ∀ v, Along R (body v)) :
    ∀ k v, Along R (untilDoneFrom body k v)
  | 0, _ => along_block hR _
  | k + 1, v => along_bind hR (hb v) fun o => by
    cases o
    · exact along_untilFrom hR hb k _
    · exact along_pure hR _

theorem along_repeatFrom {σ : Type} (hR : Closed R) {body : σ → P (σ ⊕ α)} (hb : ∀ v, Along R (body v))
    (v : σ) : Along R (repeatFrom body v) :=
  fun e => along_untilFrom hR hb _ v e

/-! ### Primitives -/

theorem along_busWrite (hR : Closed R) (bs : List Byte) : Along R (busWrite bs) :=
  along_bind hR (along_take hR _) fun a => by
    cases a.err with
    | none => exact along_record hR _
    | some er => exact along_bind hR (along_record hR _) fun _ => along_raise hR _

theorem along_busRead (hR : Closed R) (n : Nat) : Along R (busRead n) :=
  along_bind hR (along_take hR _) fun a => by
    cases a.err with
    | none => exact along_bind hR (along_record hR _) fun _ => along_pure hR _
    | some er => exact along_bind hR (along_record hR _) fun _ => along_raise hR _

theorem along_now (hR : Closed R) : Along R now :=
  along_bind hR (along_take hR _) fun _ => along_look fun e => hR.log e _

theorem along_sleep (hR : Closed R) (ms : Nat) : Along R (sleep ms) :=
  along_bind hR (along_take hR _) fun _ =>
    along_bind hR (fun e => hR.addTicks e _) fun _ => along_record hR _

theorem along_expired (hR : Closed R) (t0 b : Nat) : Along R (expired t0 b) :=
  along_bind hR (along_now hR) fun _ => along_look fun e => hR.refl e

theorem along_readyClear (hR : Closed R) : Along R readyClear :=
  along_bind hR (fun e => hR.setReady e) fun _ => along_record hR _

theorem along_readyFlag (hR : Closed R) : Along R readyFlag :=
  along_bind hR (along_take hR _) fun _ => along_look fun e => hR.log e _

theorem along_spiLock (hR : Closed R) : Along R spiLock :=
  along_repeatP hR <| along_bind hR (along_take hR _) fun a => by
    cases a.lockFree
    · exact along_pure hR _
    · exact along_bind hR (fun e => hR.setLock e _) fun _ =>
        along_bind hR (along_record hR _) fun _ => along_pure hR _

theorem along_spiUnlock (hR : Closed R) : Along R spiUnlock :=
  along_bind hR (fun e => hR.setLock e _) fun _ => along_record hR _

theorem along_memRead (hR : Closed R) (buf : HostBuf) (i : Nat) : Along R (memRead buf i) := by
  unfold memRead
  split
  · exact along_look fun e => hR.log e _
  · exact along_stopFault hR _

theorem along_memWrite (hR : Closed R) (i : Nat) (v : Byte) : Along R (memWrite i v) := by
  unfold memWrite
  split
  · exact along_bind hR (fun e => hR.setRsp e i v) fun _ => along_record hR _
  · exact along_stopFault hR _

theorem along_memWriteAll (hR : Closed R) : ∀ (bs : List Byte) (i : Nat), Along R (memWriteAll i bs)
  | [], _ => along_pure hR ()
  | v :: vs, i => along_bind hR (along_memWrite hR i v) fun _ => along_memWriteAll hR vs (i + 1)

theorem along_srcByte (hR : Closed R) (src : Src) (i : Nat) : Along R (srcByte src i) := by
  cases src
  · exact along_memRead hR _ i
  · unfold srcByte
    dsimp only
    split
    · exact along_pure hR _
    · exact along_stopFault hR _

theorem along_srcBytes (hR : Closed R) (src : Src) : ∀ (k i : Nat), Along R (srcBytes src i k)
  | 0, _ => along_pure hR _
  | k + 1, i => along_bind hR (along_srcByte hR src i) fun _ =>
      along_bind hR (along_srcBytes hR src k (i + 1)) fun _ => along_pure hR _

/-! ### Register transport -/

theorem along_readyAtDeadline (hR : Closed R) : Along R readyAtDeadline :=
  along_look fun e => along_bind hR (along_onlyIf hR _ (along_record hR _)) (fun _ => along_pure hR _) e

/-- What READY_WAIT does after a clock read: goes on, ends, or times out. -/
theorem along_deadline (hR : Closed R) (late : Bool) :
    Along R (match late with
      | false => pure none
      | true => do
        let set ← readyAtDeadline
        match set with
        | true => pure (some ())
        | false => raise (.timeout .ready) : P (Option Unit)) := by
  cases late
  · exact along_pure hR _
  · exact along_bind hR (along_readyAtDeadline hR) fun set => by
      cases set
      · exact along_raise hR _
      · exact along_pure hR _

theorem along_readyWait (hR : Closed R) : Along R readyWait :=
  along_bind hR (along_now hR) fun _ => along_bind hR (along_onX hR _) fun _ =>
    along_repeatP hR <| along_bind hR (along_readyFlag hR) fun seen => by
      cases seen
      · exact along_look fun e => along_bind hR (along_expired hR _ _) (along_deadline hR) e
      · exact along_pure hR _

theorem along_clearOnErr (hR : Closed R) {p : P α} (hp : Along R p) : Along R (clearOnErr p) :=
  along_bind hR (along_attempt hp) fun r => by
    cases r
    · exact along_bind hR (along_readyClear hR) fun _ => along_raise hR _
    · exact along_pure hR _

theorem along_i2cSend (hR : Closed R) (bs : List Byte) : Along R (i2cSend bs) :=
  along_bind hR (along_readyClear hR) fun _ =>
    along_bind hR (along_clearOnErr hR (along_busWrite hR bs)) fun _ =>
      along_clearOnErr hR (along_readyWait hR)

theorem along_i2cRead (hR : Closed R) (loc : Nat) (kind : Kind) (n : Nat) :
    Along R (i2cRead loc kind n) :=
  along_look fun e => by
    split
    · exact along_clearOnErr hR (along_raise hR _) e
    · exact along_bind hR (along_i2cSend hR _) (fun _ => along_clearOnErr hR (along_busRead hR n)) e

theorem along_i2cWrite (hR : Closed R) (loc : Nat) (kind : Kind) (p : List Byte) :
    Along R (i2cWrite loc kind p) :=
  along_look fun e => by
    split
    · exact along_clearOnErr hR (along_raise hR _) e
    · rename_i hcap
      rw [bind_of_ok (change_apply _ e), bind_of_ok (look_apply _)]
      refine hR.trans (hR.setScratch e _ ?_) (along_i2cSend hR _ _)
      simp only [List.length_cons]
      omega

theorem along_spiBody (hR : Closed R) (dir : Dir) (hdr : List Byte) (n : Nat) (p : List Byte) :
    Along R (spiBody dir hdr n p) :=
  along_bind hR (along_busWrite hR _) fun _ => along_bind hR (along_now hR) fun _ =>
    along_bind hR (along_onX hR _) fun _ =>
      along_bind hR
        (along_repeatP hR <| along_bind hR (along_busRead hR 1) fun s => by
          cases notStalled (byteAt s 0)
          · exact along_look fun e => along_bind hR (along_expired hR _ _) (fun late => by
              cases late
              · exact along_pure hR _
              · exact along_raise hR _) e
          · exact along_pure hR _)
        fun _ => by
          cases dir
          · exact along_busRead hR n
          · exact along_bind hR (along_busWrite hR p) fun _ => along_pure hR _

theorem along_spiXfer (hR : Closed R) (dir : Dir) (loc : Nat) (kind : Kind) (n : Nat) (p : List Byte) :
    Along R (spiXfer dir loc kind n p) :=
  along_look fun e => by
    split
    · exact hR.refl e
    · exact along_bind hR (along_spiLock hR) (fun _ =>
        along_bind hR (along_attempt (along_spiBody hR _ _ _ _)) fun _ =>
          along_bind hR (along_spiUnlock hR) fun _ => along_ofExcept hR _) e

theorem along_regRead (hR : Closed R) (kind : Kind) (n : Nat) : Along R (regRead kind n) :=
  along_look fun e => by
    cases e.cfg.transport
    · exact along_i2cRead hR _ _ _ e
    · exact along_spiXfer hR _ _ _ _ _ e

theorem along_spiWrite (hR : Closed R) (loc : Nat) (kind : Kind) (p : List Byte) :
    Along R (spiWrite loc kind p) :=
  along_bind hR (along_spiXfer hR _ _ _ _ _) fun _ => along_pure hR ()

theorem along_regWrite (hR : Closed R) (kind : Kind) (p : List Byte) : Along R (regWrite kind p) :=
  along_look fun e => by
    cases e.cfg.transport
    · exact along_i2cWrite hR _ _ _ e
    · exact along_spiWrite hR _ _ _ e

/-! ### Locality Manager -/

theorem along_checkLocality (hR : Closed R) : Along R checkLocality :=
  along_bind hR (along_regRead hR _ _) fun b => along_bind hR (along_onX hR _) fun _ =>
    along_look fun e => by
      cases localityOk e.cfg.map (byteAt b 0)
      · exact hR.refl e
      · exact hR.refl e

theorem along_requestChecks (hR : Closed R) : ∀ k, Along R (requestChecks k)
  | 0 => along_raise hR _
  | k + 1 => along_look fun e =>
      along_bind hR (along_onX hR _) (fun _ =>
        along_bind hR (along_attempt (along_checkLocality hR)) fun c => by
          cases c
          · exact along_bind hR (along_onlyIf hR _ (along_sleep hR _)) fun _ => along_requestChecks hR k
          · exact along_pure hR _) e

theorem along_requestLocality (hR : Closed R) : Along R requestLocality :=
  along_bind hR (along_attempt (along_checkLocality hR)) fun c => by
    cases c
    · exact along_look fun e =>
        along_bind hR (along_regWrite hR _ _) (fun _ => along_requestChecks hR _) e
    · exact along_pure hR _

theorem along_relinquish (hR : Closed R) : Along R relinquish :=
  along_look fun e => along_ignore hR (along_regWrite hR _ _) e

theorem along_releaseLocality (hR : Closed R) (force : Bool) : Along R (releaseLocality force) :=
  along_bind hR (along_attempt (along_regRead hR _ _)) fun r => along_look fun e => by
    cases r
    · exact along_onlyIf hR _ (along_relinquish hR) e
    · exact along_bind hR (along_onX hR _) (fun _ => along_onlyIf hR _ (along_relinquish hR)) e

/-! ### Status/Burst Reader -/

theorem along_noteSnapshot (hR : Closed R) (mask : Byte) (r : Except Err (List Byte)) :
    Along R (noteSnapshot mask r) := by
  cases r with
  | error er => exact along_pure hR _
  | ok b =>
    exact along_bind hR (along_onX hR _) fun _ => along_look fun e => by
      cases accept e.cfg.burstCap mask (snapStatus b) (snapBurst b)
      · exact hR.refl e
      · exact hR.refl e

theorem along_getBurstAndStatus (hR : Closed R) (mask : Byte) : Along R (getBurstAndStatus mask) :=
  along_bind hR (along_now hR) fun _ => along_bind hR (along_onX hR _) fun _ =>
    along_repeatP hR <| along_bind hR (along_attempt (along_regRead hR _ _)) fun r =>
      along_bind hR (along_noteSnapshot hR mask r) fun v => by
        cases v
        · exact along_look fun e => along_bind hR (along_sleep hR _) (fun _ =>
            along_bind hR (along_expired hR _ _) fun late => by
              cases late
              · exact along_pure hR _
              · exact along_raise hR _) e
        · exact along_pure hR _

theorem along_readStatus (hR : Closed R) : Along R readStatus :=
  along_bind hR (along_attempt (along_regRead hR _ _)) fun _ =>
    along_bind hR (along_onX hR _) fun _ => along_pure hR _

theorem along_setReady (hR : Closed R) : Along R setReady :=
  along_look fun e => along_ignore hR (along_regWrite hR _ _) e

/-! ### FIFO Transfer Engine -/

theorem along_waitCommandReady (hR : Closed R) : Along R waitCommandReady :=
  along_bind hR (along_now hR) fun _ => along_bind hR (along_onX hR _) fun _ =>
    along_repeatP hR <| along_bind hR (along_readStatus hR) fun st => along_look fun e => by
      cases cmdReady e.cfg.map st
      · exact along_bind hR (along_expired hR _ _) (fun late => by
          cases late
          · exact along_bind hR (along_setReady hR) fun _ => along_pure hR _
          · exact along_raise hR _) e
      · exact hR.refl e

theorem along_sendTurn (hR : Closed R) (src : Src) (len : Nat) : Along R (sendTurn src len) :=
  along_look fun e => by
    split
    · exact along_bind hR (along_getBurstAndStatus hR _) (fun v =>
        along_bind hR (along_onX hR _) fun _ => along_bind hR (along_srcBytes hR _ _ _) fun _ =>
          along_bind hR (along_regWrite hR _ _) fun _ => along_bind hR (along_onX hR _) fun _ =>
            along_pure hR _) e
    · exact hR.refl e

theorem along_fifoWriteBody (hR : Closed R) (src : Src) (len : Nat) : Along R (fifoWriteBody src len) :=
  along_bind hR (along_onX hR _) fun _ =>
    along_bind hR (along_repeatP hR (along_sendTurn hR src len)) fun _ => along_look fun e =>
      along_bind hR (along_getBurstAndStatus hR _) (fun v => by
        cases dataExpect e.cfg.map v.2
        · exact along_pure hR _
        · exact along_raise hR _) e

theorem along_writeGo (hR : Closed R) : Along R writeGo :=
  along_look fun e => along_regWrite hR _ _ e

theorem along_recvTurn (hR : Closed R) (got : List Byte) : Along R (recvTurn got) :=
  along_look fun e => by
    split
    · exact along_bind hR (along_getBurstAndStatus hR _) (fun v =>
        along_bind hR (along_onX hR _) fun _ => along_bind hR (along_regRead hR _ _) fun d =>
          along_bind hR (along_memWriteAll hR d _) fun _ => along_bind hR (along_onX hR _) fun _ =>
            along_pure hR _) e
    · exact hR.refl e

theorem along_recvRest (hR : Closed R) (first : List Byte) : Along R (recvRest first) :=
  along_bind hR (along_repeatFrom hR (along_recvTurn hR) first) fun _ => along_look fun e =>
    along_bind hR (along_getBurstAndStatus hR _) (fun v => by
      cases dataAvail e.cfg.map v.2
      · exact along_pure hR _
      · exact along_raise hR _) e

theorem along_fifoReadBody (hR : Closed R) (cap : Nat) : Along R (fifoReadBody cap) :=
  along_look fun e => along_bind hR (along_getBurstAndStatus hR _) (fun v => by
    cases badFirstBurst e.cfg.hdrSize cap v.1
    · exact along_bind hR (along_regRead hR _ _) fun d =>
        along_bind hR (along_memWriteAll hR d _) fun _ => along_bind hR (along_onX hR _) fun _ => by
          split
          · exact along_raise hR _
          · exact along_bind hR (along_onX hR _) fun _ => along_recvRest hR _
    · exact along_raise hR _) e

theorem along_cleanup (hR : Closed R) : Along R cleanup :=
  along_bind hR (along_readStatus hR) fun _ => along_look fun e =>
    along_bind hR (along_onlyIf hR _ (along_setReady hR)) (fun _ => along_releaseLocality hR true) e

/-! ### TIS Session -/

theorem along_setSess (hR : ClosedSession R) (s : Sess) : Along R (setSess s) := fun e => hR.setSess e s

theorem along_sendCore (hR : ClosedSession R) (src : Src) (len : Nat) : Along R (sendCore src len) :=
  have h := hR.toClosed
  along_bind h (along_setSess hR _) fun _ => along_bind h (along_requestLocality h) fun _ =>
    along_bind h (along_setSess hR _) fun _ => along_bind h (along_waitCommandReady h) fun _ =>
      along_bind h (along_setSess hR _) fun _ => along_bind h (along_fifoWriteBody h _ _) fun _ =>
        along_writeGo h

theorem along_sessionAbort (hR : ClosedSession R) : Along R sessionAbort :=
  along_bind hR.toClosed (along_cleanup hR.toClosed) fun _ => along_setSess hR _

theorem along_shutdownAbort (hR : ClosedSession R) : Along R shutdownAbort :=
  along_bind hR.toClosed (along_sessionAbort hR) fun _ => along_releaseLocality hR.toClosed true

theorem along_abort (hR : ClosedSession R) (er : Err) {path : P Unit} (hp : Along R path) :
    Along R (abort er path : P α) :=
  have h := hR.toClosed
  along_bind h (fun e => hR.setPending e _) fun _ => along_bind h hp fun _ =>
    along_bind h (fun e => hR.setPending e _) fun _ => along_raise h _

theorem along_sendCommand (hR : ClosedSession R) (len : Nat) : Along R (sendCommand len) :=
  have h := hR.toClosed
  along_bind h (along_attempt (along_sendCore hR _ _)) fun r => by
    cases r
    · exact along_abort hR _ (along_sessionAbort hR)
    · exact along_bind h (along_setSess hR _) fun _ => along_pure h _

theorem along_recvCore (hR : ClosedSession R) (cap : Nat) : Along R (recvCore cap) :=
  have h := hR.toClosed
  along_bind h (along_setSess hR _) fun _ => along_bind h (along_fifoReadBody h cap) fun _ =>
    along_bind h (along_setSess hR _) fun _ => along_bind h (along_releaseLocality h _) fun _ =>
      along_bind h (along_setSess hR _) fun _ => along_pure h _

theorem along_recvCommand (hR : ClosedSession R) (cap : Nat) : Along R (recvCommand cap) :=
  along_bind hR.toClosed (along_attempt (along_recvCore hR cap)) fun r => by
    cases r
    · exact along_abort hR _ (along_sessionAbort hR)
    · exact along_pure hR.toClosed _

theorem along_probeIdentify (hR : Closed R) : Along R probeIdentify :=
  along_bind hR (along_regRead hR _ _) fun d => along_bind hR (along_onX hR _) fun _ =>
    along_look fun e => by
      cases familyOf e.cfg.map (didVidValue d)
      · exact hR.refl e
      · exact hR.refl e

theorem along_probeCore (hR : Closed R) : Along R probeCore :=
  along_bind hR (along_requestLocality hR) fun _ => along_probeIdentify hR

theorem along_probeCommand (hR : ClosedSession R) : Along R probeCommand :=
  have h := hR.toClosed
  along_bind h (along_attempt (along_probeCore h)) fun r => by
    cases r
    · exact along_abort hR _ (along_releaseLocality h true)
    · exact along_pure h _

theorem along_releaseCommand (hR : Closed R) (force : Bool) : Along R (releaseCommand force) :=
  along_bind hR (along_releaseLocality hR force) fun _ => along_pure hR _

theorem along_shutdownFinish (hR : Closed R) (got : Received) : Along R (shutdownFinish got) :=
  along_bind hR (along_releaseLocality hR true) fun _ => by
    cases shutdownMatches got
    · exact along_raise hR _
    · exact along_pure hR _

theorem along_shutdownCommand (hR : ClosedSession R) : Along R shutdownCommand :=
  have h := hR.toClosed
  along_bind h (along_attempt (along_sendCore hR _ _)) fun r => by
    cases r
    · exact along_abort hR _ (along_shutdownAbort hR)
    · exact along_bind h (along_setSess hR _) fun _ =>
        along_bind h (along_attempt (along_recvCore hR 10)) fun r2 => by
          cases r2
          · exact along_abort hR _ (along_shutdownAbort hR)
          · exact along_shutdownFinish h _

/-! ### The values of procedure codes and wire encodings -/

theorem along_asUnit (hR : Closed R) {p : P Unit} (hp : Along R p) : Along R (asUnit p) :=
  along_bind hR hp fun _ => along_pure hR _

theorem along_asBytes (hR : Closed R) {p : P (List Byte)} (hp : Along R p) : Along R (asBytes p) :=
  along_bind hR hp fun _ => along_pure hR _

theorem along_asFrame (hR : Closed R) (dir : Dir) {p : P (List Byte)} (hp : Along R p) :
    Along R (asFrame dir p) := by
  cases dir
  · exact along_asBytes hR hp
  · exact along_bind hR hp fun _ => along_pure hR _

theorem along_asBurstStatus (hR : Closed R) {p : P (Half × Byte)} (hp : Along R p) :
    Along R (asBurstStatus p) :=
  along_bind hR hp fun _ => along_pure hR _

theorem along_asStatus (hR : Closed R) {p : P Byte} (hp : Along R p) : Along R (asStatus p) :=
  along_bind hR hp fun _ => along_pure hR _

theorem along_asCount (hR : Closed R) {p : P Received} (hp : Along R p) : Along R (asCount p) :=
  along_bind hR hp fun _ => along_pure hR _

theorem along_i2cAddressPhase (hR : Closed R) (loc : Nat) (kind : Kind) :
    Along R (i2cAddressPhase loc kind) :=
  along_look fun e => along_asUnit hR (along_i2cSend hR _) e

theorem along_spiFrame (hR : Closed R) (dir : Dir) (kind : Kind) (lenM1 loc : Nat) (a : Args) :
    Along R (spiFrame dir kind lenM1 loc a) :=
  along_asFrame hR _ (along_spiXfer hR _ _ _ _ _)

theorem along_writeValue (hR : Closed R) (kind : Kind) (value : TpmMap → List Byte) :
    Along R (writeValue kind value) :=
  along_look fun e => along_asUnit hR (along_regWrite hR _ _) e

end Sys2Proof.Machine
end

