-- ==== Sys2Proof/Laws/Loops.lean ====
section
/-! SUPPORT. The loops: their turns, and why their fuel is no cap. A turn that does not end its loop takes
at least one answer, so a loop with more fuel than answers never uses it up (43_fifo_transfer.md R227). -/

namespace Sys2Proof.Machine

variable {α β : Type}

theorem untilDone_succ (body : P (Option α)) (k : Nat) (e : Engine) :
    untilDone body (k + 1) e = match body e with
      | .ok (some a) t => .ok a t
      | .ok none t => untilDone body k t
      | .error x t => .error x t := by
  simp only [untilDone, bind_apply]
  cases h : body e with
  | ok o t => cases o <;> rfl
  | error x t => rfl

/-- The last turn of a loop. -/
theorem repeatP_done {body : P (Option α)} {e t : Engine} {a : α} (h : body e = .ok (some a) t) :
    repeatP body e = .ok a t := by
  simp [repeatP, untilDone_succ, h]

/-- A turn that stops stops the loop. -/
theorem repeatP_error {body : P (Option α)} {e t : Engine} {x : Stop} (h : body e = .error x t) :
    repeatP body e = .error x t := by
  simp [repeatP, untilDone_succ, h]

/-- A turn that goes on takes an answer. -/
def Consumes (body : P (Option α)) : Prop :=
  ∀ e t, body e = .ok none t → t.inbox.length < e.inbox.length

/-- More fuel than answers is as good as any more. -/
theorem untilDone_enough {body : P (Option α)} (hc : Consumes body) :
    ∀ (k m : Nat) (e : Engine), e.inbox.length < k → e.inbox.length < m →
      untilDone body k e = untilDone body m e
  | 0, _, _, h, _ => by omega
  | _ + 1, 0, _, _, h => by omega
  | k + 1, m + 1, e, hk, hm => by
    rw [untilDone_succ, untilDone_succ]
    cases h : body e with
    | error x t => rfl
    | ok o t =>
      cases o with
      | some a => rfl
      | none =>
        have := hc e t h
        exact untilDone_enough hc k m t (by omega) (by omega)

/-- A turn that goes on, and then the loop again: no cap on the turns. -/
theorem repeatP_again {body : P (Option α)} (hc : Consumes body) {e t : Engine}
    (h : body e = .ok none t) : repeatP body e = repeatP body t := by
  have ht := hc e t h
  change untilDone body (e.inbox.length + 1) e = untilDone body (t.inbox.length + 1) t
  rw [untilDone_succ body _ e, h]
  exact untilDone_enough hc _ _ t ht (by omega)

/-- Everything a loop can do: its first turn ends it, stops it, or goes on. -/
theorem repeatP_cases {body : P (Option α)} (hc : Consumes body) (e : Engine) :
    repeatP body e = match body e with
      | .ok (some a) t => .ok a t
      | .ok none t => repeatP body t
      | .error x t => .error x t := by
  cases h : body e with
  | error x t => exact repeatP_error h
  | ok o t =>
    cases o with
    | some a => exact repeatP_done h
    | none => exact repeatP_again hc h

/-- What is true of every turn that goes on, and then of the one that ends or stops the loop, is true of
the loop: induction over its turns. -/
theorem repeatP_induction {body : P (Option α)} {I : Engine → Prop}
    {Q : EStateM.Result Stop Engine α → Prop} (hc : Consumes body)
    (hgo : ∀ e t, I e → body e = .ok none t → I t)
    (hdone : ∀ e t a, I e → body e = .ok (some a) t → Q (.ok a t))
    (hstop : ∀ e t x, I e → body e = .error x t → Q (.error x t)) :
    ∀ e, I e → Q (repeatP body e) := by
  suffices h : ∀ (n : Nat) (e : Engine), e.inbox.length < n → I e → Q (repeatP body e) from
    fun e he => h (e.inbox.length + 1) e (by omega) he
  intro n
  induction n with
  | zero => intro e h; omega
  | succ n ih =>
    intro e hn he
    rw [repeatP_cases hc]
    cases h : body e with
    | error x t => exact hstop e t x he h
    | ok o t =>
      cases o with
      | some a => exact hdone e t a he h
      | none =>
        have := hc e t h
        exact ih t (by omega) (hgo e t he h)

/-! ### Loops that carry a value -/

section From

variable {σ : Type}

theorem untilDoneFrom_succ (body : σ → P (σ ⊕ α)) (k : Nat) (v : σ) (e : Engine) :
    untilDoneFrom body (k + 1) v e = match body v e with
      | .ok (.inr a) t => .ok a t
      | .ok (.inl w) t => untilDoneFrom body k w t
      | .error x t => .error x t := by
  simp only [untilDoneFrom, bind_apply]
  cases h : body v e with
  | ok o t => cases o <;> rfl
  | error x t => rfl

/-- A turn that goes on takes an answer. -/
def ConsumesFrom (body : σ → P (σ ⊕ α)) : Prop :=
  ∀ v w e t, body v e = .ok (.inl w) t → t.inbox.length < e.inbox.length

/-- More fuel than answers is as good as any more. -/
theorem untilDoneFrom_enough {body : σ → P (σ ⊕ α)} (hc : ConsumesFrom body) :
    ∀ (k m : Nat) (v : σ) (e : Engine), e.inbox.length < k → e.inbox.length < m →
      untilDoneFrom body k v e = untilDoneFrom body m v e
  | 0, _, _, _, h, _ => by omega
  | _ + 1, 0, _, _, _, h => by omega
  | k + 1, m + 1, v, e, hk, hm => by
    rw [untilDoneFrom_succ, untilDoneFrom_succ]
    cases h : body v e with
    | error x t => rfl
    | ok o t =>
      cases o with
      | inr a => rfl
      | inl w =>
        have := hc v w e t h
        exact untilDoneFrom_enough hc k m w t (by omega) (by omega)

/-- Everything such a loop can do: its first turn ends it, stops it, or goes on from what it gave. -/
theorem repeatFrom_cases {body : σ → P (σ ⊕ α)} (hc : ConsumesFrom body) (v : σ) (e : Engine) :
    repeatFrom body v e = match body v e with
      | .ok (.inr a) t => .ok a t
      | .ok (.inl w) t => repeatFrom body w t
      | .error x t => .error x t := by
  rw [repeatFrom, untilDoneFrom_succ]
  cases h : body v e with
  | error x t => rfl
  | ok o t =>
    cases o with
    | inr a => rfl
    | inl w =>
      have := hc v w e t h
      exact untilDoneFrom_enough hc _ _ w t (by omega) (by omega)

/-- Induction over the turns: an invariant of the value carried and the state that every turn keeps. -/
theorem repeatFrom_induction {body : σ → P (σ ⊕ α)} {I : σ → Engine → Prop}
    {Q : EStateM.Result Stop Engine α → Prop} (hc : ConsumesFrom body)
    (hgo : ∀ v w e t, I v e → body v e = .ok (.inl w) t → I w t)
    (hdone : ∀ v e t a, I v e → body v e = .ok (.inr a) t → Q (.ok a t))
    (hstop : ∀ v e t x, I v e → body v e = .error x t → Q (.error x t)) :
    ∀ v e, I v e → Q (repeatFrom body v e) := by
  suffices h : ∀ (n : Nat) (v : σ) (e : Engine), e.inbox.length < n → I v e → Q (repeatFrom body v e) from
    fun v e he => h (e.inbox.length + 1) v e (by omega) he
  intro n
  induction n with
  | zero => intro v e h; omega
  | succ n ih =>
    intro v e hn he
    rw [repeatFrom_cases hc]
    cases h : body v e with
    | error x t => exact hstop v e t x he h
    | ok o t =>
      cases o with
      | inr a => exact hdone v e t a he h
      | inl w =>
        have := hc v w e t h
        exact ih w t (by omega) (hgo v w e t he h)

end From

/-! ### No procedure gives answers back, and each turn of a loop takes one -/

/-- A procedure leaves at most as many answers as it found. -/
abbrev Shrinks (p : P α) : Prop :=
  Along (fun e t => t.inbox.length ≤ e.inbox.length) p

theorem shrinks_closed : Closed (fun e t => t.inbox.length ≤ e.inbox.length) where
  refl _ := le_refl _
  trans h1 h2 := h2.trans h1
  settle e a rest h := by simp [h]
  log _ _ := le_refl _
  addTicks _ _ := le_refl _
  setReady _ := le_refl _
  setLock _ _ := le_refl _
  setX _ _ := le_refl _
  setScratch _ _ _ := le_refl _
  setRsp _ _ _ := le_refl _

theorem shrinks_of_ok {p : P α} (hp : Shrinks p) {e t : Engine} {a : α} (h : p e = .ok a t) :
    t.inbox.length ≤ e.inbox.length := by
  have := hp e
  rwa [h] at this

/-- A procedure that returns has taken an answer. -/
def Takes (p : P α) : Prop :=
  ∀ e a t, p e = .ok a t → t.inbox.length < e.inbox.length

theorem takes_bind_left {p : P α} {k : α → P β} (hp : Takes p) (hk : ∀ a, Shrinks (k a)) :
    Takes (p >>= k) := by
  intro e b t h
  obtain ⟨a, m, h1, h2⟩ := bind_eq_ok.mp h
  exact lt_of_le_of_lt (shrinks_of_ok (hk a) h2) (hp e a m h1)

theorem takes_bind_right {p : P α} {k : α → P β} (hp : Shrinks p) (hk : ∀ a, Takes (k a)) :
    Takes (p >>= k) := by
  intro e b t h
  obtain ⟨a, m, h1, h2⟩ := bind_eq_ok.mp h
  exact lt_of_lt_of_le (hk a m b t h2) (shrinks_of_ok hp h1)

theorem takes_take (p : Prim) : Takes (take p) := by
  intro e a t h
  rcases take_cases p e with ⟨_, h'⟩ | ⟨b, rest, hb, h'⟩
  · simp [h'] at h
  · rw [h'] at h
    simp only [EStateM.Result.ok.injEq] at h
    rw [← h.2, hb]
    simp

theorem consumes_of_takes {body : P (Option α)} (h : Takes body) : Consumes body :=
  fun e t he => h e none t he

theorem takes_now : Takes now :=
  takes_bind_left (takes_take _) fun _ => along_look fun _ => le_refl _

theorem takes_expired (t0 b : Nat) : Takes (expired t0 b) :=
  takes_bind_left takes_now fun _ => along_look fun _ => le_refl _

theorem takes_readyFlag : Takes readyFlag :=
  takes_bind_left (takes_take _) fun _ => along_look fun _ => le_refl _

theorem takes_sleep (ms : Nat) : Takes (sleep ms) :=
  takes_bind_left (takes_take _) fun _ =>
    along_bind shrinks_closed (fun _ => le_refl _) fun _ => along_record shrinks_closed _

theorem takes_busRead (n : Nat) : Takes (busRead n) :=
  takes_bind_left (takes_take _) fun a => by
    cases a.err
    · exact along_bind shrinks_closed (along_record shrinks_closed _) fun _ => along_pure shrinks_closed _
    · exact along_bind shrinks_closed (along_record shrinks_closed _) fun _ => along_raise shrinks_closed _

theorem takes_getBurstAndStatus (mask : Byte) : Takes (getBurstAndStatus mask) := by
  have h := along_getBurstAndStatus shrinks_closed mask
  refine takes_bind_left takes_now fun t => ?_
  intro e
  have hc := shrinks_closed
  exact along_bind hc (along_onX hc _) (fun _ =>
    along_repeatP hc <| along_bind hc (along_attempt (along_regRead hc _ _)) fun r =>
      along_bind hc (along_noteSnapshot hc mask r) fun v => by
        cases v
        · exact along_look fun e => along_bind hc (along_sleep hc _) (fun _ =>
            along_bind hc (along_expired hc _ _) fun late => by
              cases late
              · exact along_pure hc _
              · exact along_raise hc _) e
        · exact along_pure hc _) e

theorem consumes_spiLockTurn : Consumes spiLockTurn :=
  consumes_of_takes <| takes_bind_left (takes_take _) fun a => by
    cases a.lockFree
    · exact along_pure shrinks_closed _
    · exact along_bind shrinks_closed (fun _ => le_refl _) fun _ =>
        along_bind shrinks_closed (along_record shrinks_closed _) fun _ => along_pure shrinks_closed _

theorem consumes_readyWaitTurn : Consumes readyWaitTurn :=
  consumes_of_takes <| takes_bind_left takes_readyFlag fun seen => by
    cases seen
    · exact along_look fun e =>
        along_bind shrinks_closed (along_expired shrinks_closed _ _) (along_deadline shrinks_closed) e
    · exact along_pure shrinks_closed _

theorem consumes_spiStallTurn : Consumes spiStallTurn :=
  consumes_of_takes <| takes_bind_left (takes_busRead 1) fun s => by
    cases notStalled (byteAt s 0)
    · exact along_look fun e => along_bind shrinks_closed (along_expired shrinks_closed _ _) (fun late => by
        cases late
        · exact along_pure shrinks_closed _
        · exact along_raise shrinks_closed _) e
    · exact along_pure shrinks_closed _

theorem consumes_burstTurn (mask : Byte) : Consumes (burstTurn mask) := by
  intro e t h
  obtain ⟨r, m, h1, h⟩ := bind_eq_ok.mp h
  obtain ⟨v, m', h2, h⟩ := bind_eq_ok.mp h
  have l1 := shrinks_of_ok (along_attempt (along_regRead shrinks_closed _ _)) h1
  have l2 := shrinks_of_ok (along_noteSnapshot shrinks_closed _ _) h2
  cases v with
  | some v => simp at h
  | none =>
    have hlast : Takes (look >>= fun e => sleep e.cfg.tShort >>= fun _ =>
        expired e.x.t0 e.cfg.tLong >>= fun late =>
          (match late with
            | true => raise (.timeout .status)
            | false => pure none : P (Option (Half × Byte)))) := by
      refine takes_bind_right (along_look fun _ => le_refl _) fun e => ?_
      refine takes_bind_left (takes_sleep _) fun _ => ?_
      refine along_bind shrinks_closed (along_expired shrinks_closed _ _) fun late => ?_
      cases late
      · exact along_pure shrinks_closed _
      · exact along_raise shrinks_closed _
    have := hlast m' none t h
    omega

theorem consumes_commandReadyTurn : Consumes commandReadyTurn := by
  intro e t h
  obtain ⟨st, m, h1, h⟩ := bind_eq_ok.mp h
  have l1 := shrinks_of_ok (along_readStatus shrinks_closed) h1
  rw [bind_of_ok (look_apply m)] at h
  cases hr : cmdReady m.cfg.map st with
  | true => simp [hr] at h
  | false =>
    simp only [hr] at h
    obtain ⟨late, m', h2, h⟩ := bind_eq_ok.mp h
    have l2 := takes_expired _ _ m late m' h2
    cases late with
    | true => simp at h
    | false =>
      obtain ⟨_, m'', h3, h⟩ := bind_eq_ok.mp h
      have l3 := shrinks_of_ok (along_setReady shrinks_closed) h3
      simp only [pure_apply, EStateM.Result.ok.injEq] at h
      rw [← h.2]
      omega

theorem consumes_sendTurn (src : Src) (len : Nat) : Consumes (sendTurn src len) := by
  intro e t h
  rw [sendTurn, bind_of_ok (look_apply e)] at h
  split at h
  · obtain ⟨v, m, h1, h⟩ := bind_eq_ok.mp h
    have l1 := takes_getBurstAndStatus _ e v m h1
    have l2 := shrinks_of_ok (p := (onX _ >>= fun _ => srcBytes _ _ _ >>= fun p => regWrite _ p >>= fun _ =>
      onX _ >>= fun _ => pure none)) (along_bind shrinks_closed (along_onX shrinks_closed _) fun _ =>
        along_bind shrinks_closed (along_srcBytes shrinks_closed _ _ _) fun _ =>
          along_bind shrinks_closed (along_regWrite shrinks_closed _ _) fun _ =>
            along_bind shrinks_closed (along_onX shrinks_closed _) fun _ => along_pure shrinks_closed _) h
    omega
  · simp at h

theorem consumes_recvTurn : ConsumesFrom recvTurn := by
  intro got got' e t h
  rw [recvTurn, bind_of_ok (look_apply e)] at h
  split at h
  · obtain ⟨v, m, h1, h⟩ := bind_eq_ok.mp h
    have l1 := takes_getBurstAndStatus _ e v m h1
    have l2 := shrinks_of_ok (p := (onX _ >>= fun _ => regRead _ _ >>= fun d => memWriteAll _ d >>= fun _ =>
      onX _ >>= fun _ => pure (Sum.inl (got ++ d)))) (along_bind shrinks_closed (along_onX shrinks_closed _) fun _ =>
        along_bind shrinks_closed (along_regRead shrinks_closed _ _) fun d =>
          along_bind shrinks_closed (along_memWriteAll shrinks_closed d _) fun _ =>
            along_bind shrinks_closed (along_onX shrinks_closed _) fun _ => along_pure shrinks_closed _) h
    omega
  · simp at h

end Sys2Proof.Machine
end

