-- ==== Sys2Proof/Laws/Memory.lean ====
section
/-! SUPPORT. The host buffers: reading after writing, and the canonical form. -/

namespace Sys2Proof.Machine

theorem memGet_memCons (a : Nat) (v : Byte) (rest : Memory) (b : Nat)
    (h : memGet rest a = bufFill) :
    memGet (memCons a v rest) b = if b = a then v else memGet rest b := by
  unfold memCons
  split <;> rename_i hv
  · by_cases hb : b = a
    · simp [hb, h, hv]
    · simp [hb]
  · by_cases hb : b = a <;> simp [memGet, hb]

/-- Nothing at or below the bound of a sorted rest is listed. -/
theorem memGet_of_sortedFrom : ∀ (m : Memory) (lo a : Nat), memSortedFrom (some lo) m = true → a ≤ lo →
    memGet m a = bufFill
  | [], _, _, _, _ => rfl
  | (b, w) :: rest, lo, a, h, ha => by
    simp only [memSortedFrom, Bool.and_eq_true, decide_eq_true_eq] at h
    have hne : a ≠ b := by omega
    simp only [memGet, hne, if_false]
    exact memGet_of_sortedFrom rest b a h.2 (by omega)

/-- Reading a byte after writing one, in a canonical buffer. -/
theorem memGet_memSet : ∀ (m : Memory) (lo : Option Nat) (a : Nat) (v : Byte) (b : Nat),
    memSortedFrom lo m = true → memGet (memSet m a v) b = if b = a then v else memGet m b
  | [], _, a, v, b, _ => by
    simp only [memSet]
    exact memGet_memCons a v [] b rfl
  | (c, w) :: rest, lo, a, v, b, h => by
    have hr : memSortedFrom (some c) rest = true := by
      simp only [memSortedFrom, Bool.and_eq_true] at h
      exact h.2
    simp only [memSet]
    split
    · rename_i hac
      apply memGet_memCons
      have hne : a ≠ c := by omega
      simp only [memGet, hne, if_false]
      exact memGet_of_sortedFrom rest c a hr (by omega)
    · split
      · rename_i hac
        subst hac
        rw [memGet_memCons a v rest b (memGet_of_sortedFrom rest a a hr (le_refl a))]
        by_cases hb : b = a <;> simp [memGet, hb]
      · rename_i hac
        simp only [memGet]
        by_cases hbc : b = c
        · have hba : b ≠ a := by omega
          simp [hbc]
          omega
        · simp only [hbc, if_false]
          exact memGet_memSet rest (some c) a v b hr

theorem memSortedFrom_memCons (lo : Option Nat) (a : Nat) (v : Byte) (rest : Memory)
    (hlo : ∀ b, lo = some b → b < a) (h : memSortedFrom (some a) rest = true)
    (hrest : memSortedFrom lo rest = true) : memSortedFrom lo (memCons a v rest) = true := by
  unfold memCons
  split
  · exact hrest
  · rename_i hv
    cases lo with
    | none => simp [memSortedFrom, hv, h]
    | some b => simp [memSortedFrom, hv, h, hlo b rfl]

theorem memSortedFrom_mono (lo lo' : Option Nat) (m : Memory)
    (hle : ∀ b, lo' = some b → ∃ c, lo = some c ∧ b ≤ c) (h : memSortedFrom lo m = true) :
    memSortedFrom lo' m = true := by
  cases m with
  | nil => cases lo' <;> rfl
  | cons p rest =>
    obtain ⟨a, v⟩ := p
    cases lo' with
    | none =>
      cases lo <;> simp_all [memSortedFrom]
    | some b =>
      obtain ⟨c, rfl, hbc⟩ := hle b rfl
      simp only [memSortedFrom, Bool.and_eq_true, decide_eq_true_eq] at h ⊢
      exact ⟨⟨by omega, h.1.2⟩, h.2⟩

/-- A write keeps the canonical form. -/
theorem memSortedFrom_memSet : ∀ (m : Memory) (lo : Option Nat) (a : Nat) (v : Byte),
    (∀ b, lo = some b → b < a) → memSortedFrom lo m = true → memSortedFrom lo (memSet m a v) = true
  | [], lo, a, v, hlo, h => by
    simp only [memSet]
    exact memSortedFrom_memCons lo a v [] hlo rfl h
  | (c, w) :: rest, lo, a, v, hlo, h => by
    have h' := h
    simp only [memSortedFrom, Bool.and_eq_true, decide_eq_true_eq] at h'
    simp only [memSet]
    split
    · rename_i hac
      refine memSortedFrom_memCons lo a v _ hlo ?_ h
      simp only [memSortedFrom, Bool.and_eq_true, decide_eq_true_eq]
      exact ⟨⟨hac, h'.1.2⟩, h'.2⟩
    · split
      · rename_i hac
        subst hac
        refine memSortedFrom_memCons lo a v rest hlo h'.2 ?_
        refine memSortedFrom_mono (some a) lo rest ?_ h'.2
        intro b hb
        exact ⟨a, rfl, Nat.le_of_lt (hlo b hb)⟩
      · simp only [memSortedFrom, Bool.and_eq_true, decide_eq_true_eq]
        refine ⟨h'.1, memSortedFrom_memSet rest (some c) a v ?_ h'.2⟩
        intro b hb
        cases hb
        omega

/-- A write keeps a buffer canonical. -/
theorem memSet_wf (m : Memory) (a : Nat) (v : Byte) (h : Memory.wf m = true) :
    Memory.wf (memSet m a v) = true :=
  memSortedFrom_memSet m none a v (by simp) h

/-- Writing a byte string keeps a buffer canonical. -/
theorem memSetAll_wf : ∀ (bs : List Byte) (m : Memory) (a : Nat), Memory.wf m = true →
    Memory.wf (memSetAll m a bs) = true
  | [], _, _, h => h
  | v :: vs, m, a, h => memSetAll_wf vs (memSet m a v) (a + 1) (memSet_wf m a v h)

/-- Reading back a byte just written, and any other byte, in a canonical buffer. -/
theorem memGet_after_memSet (m : Memory) (a : Nat) (v : Byte) (b : Nat) (h : Memory.wf m = true) :
    memGet (memSet m a v) b = if b = a then v else memGet m b :=
  memGet_memSet m none a v b h

/-- The buffers are canonical right after attach. -/
theorem reset_buffers_wf :
    Memory.wf State.reset.cmdbuf = true ∧ Memory.wf State.reset.rspbuf = true := by decide

end Sys2Proof.Machine
end

