-- ==== Sys2Proof/Laws/Answered.lean ====
section
/-! SUPPORT. What one register transaction does when the environment answers it at once (Safety.lean,
`AnswersRead` and `AnswersWrite`), on either transport: the lemmas a proof about a procedure chains. -/

namespace Sys2Proof.Machine

/-- What a transport procedure leaves as it found it, and what it has used up and put on the bus. -/
structure Moved (e t : Engine) (rest : List Answer) (evs : List Event) : Prop where
  cfg : t.cfg = e.cfg
  attached : t.attached = e.attached
  sess : t.sess = e.sess
  busy : t.busy = e.busy
  readyPath : t.readyPath = e.readyPath
  result : t.result = e.result
  pending : t.pending = e.pending
  cmdbuf : t.cmdbuf = e.cmdbuf
  rspbuf : t.rspbuf = e.rspbuf
  args : t.args = e.args
  ret : t.ret = e.ret
  x : t.x = { e.x with t1 := t.x.t1 }
  inbox : t.inbox = rest
  traffic : busTrace t.trace = busTrace e.trace ++ evs
  reads : cmdReads t.trace = cmdReads e.trace
  sleeps : sleeps t.trace = sleeps e.trace

theorem Moved.serves {e t : Engine} {rest : List Answer} {evs : List Event} (h : Moved e t rest evs)
    (hs : e.Serves) : t.Serves where
  cfg_ok := h.cfg ▸ hs.cfg_ok
  wide := h.cfg ▸ hs.wide
  live := by rw [h.cfg, h.readyPath]; exact hs.live

theorem Moved.refl (e : Engine) : Moved e e e.inbox [] := by
  constructor <;> simp

theorem Moved.trans {a b c : Engine} {r1 r2 : List Answer} {ev1 ev2 : List Event}
    (h1 : Moved a b r1 ev1) (h2 : Moved b c r2 ev2) : Moved a c r2 (ev1 ++ ev2) where
  cfg := h2.cfg.trans h1.cfg
  attached := h2.attached.trans h1.attached
  sess := h2.sess.trans h1.sess
  busy := h2.busy.trans h1.busy
  readyPath := h2.readyPath.trans h1.readyPath
  result := h2.result.trans h1.result
  pending := h2.pending.trans h1.pending
  cmdbuf := h2.cmdbuf.trans h1.cmdbuf
  rspbuf := h2.rspbuf.trans h1.rspbuf
  args := h2.args.trans h1.args
  ret := h2.ret.trans h1.ret
  x := by rw [h2.x, h1.x]
  inbox := h2.inbox
  traffic := by rw [h2.traffic, h1.traffic, List.append_assoc]
  reads := h2.reads.trans h1.reads
  sleeps := h2.sleeps.trans h1.sleeps

@[simp] theorem busTrace_append (a b : List Event) : busTrace (a ++ b) = busTrace a ++ busTrace b := by
  simp [busTrace]
@[simp] theorem cmdReads_append (a b : List Event) : cmdReads (a ++ b) = cmdReads a ++ cmdReads b := by
  simp [cmdReads]
@[simp] theorem sleeps_append (a b : List Event) : sleeps (a ++ b) = sleeps a ++ sleeps b := by
  simp [sleeps]

/-- An event that is neither a buffer read nor a sleep. -/
def Event.plain : Event → Bool
  | .memRead _ _ _ => false
  | .sleep _ => false
  | _ => true

theorem Moved.log (e : Engine) (ev : Event) (h : ev.plain = true) :
    Moved e (e.log ev) e.inbox (busTrace [ev]) := by
  constructor <;> cases ev <;> simp_all [Event.plain, busTrace, List.filter, Event.onBus, cmdReads, Machine.sleeps]

theorem Moved.settle (e : Engine) (a : Answer) (rest : List Answer) :
    Moved e (e.settle a rest) rest [] := by
  constructor <;> simp

theorem Moved.setReady (e : Engine) (b : Bool) : Moved e (e.setReady b) e.inbox [] := by
  constructor <;> simp

theorem Moved.setLock (e : Engine) (l : Lock) : Moved e (e.setLock l) e.inbox [] := by
  constructor <;> simp

theorem Moved.setScratch (e : Engine) (bs : List Byte) : Moved e (e.setScratch bs) e.inbox [] := by
  constructor <;> simp

theorem Moved.setT1 (e : Engine) (t : Nat) : Moved e (e.setX { e.x with t1 := t }) e.inbox [] := by
  constructor <;> simp

/-- An answered primitive and its event. -/
theorem Moved.event (e : Engine) (a : Answer) (rest : List Answer) (ev : Event) (h : ev.plain = true) :
    Moved e ((e.settle a rest).log ev) rest (busTrace [ev]) :=
  (Moved.settle e a rest).trans (Moved.log _ ev h)

/-- `ReadyClear`. -/
theorem Moved.clear (e : Engine) : Moved e ((e.setReady false).log .readyClear) e.inbox [] :=
  (Moved.setReady e false).trans (Moved.log _ _ rfl)

/-- The end of an I2C wait whose flag is set at the first look. -/
theorem readyWait_of_edge {e : Engine} {n f : Answer} {rest : List Answer}
    (h : e.inbox = n :: f :: rest) (hp : e.readyPath = true) (hf : f.edge = true) :
    readyWait e = .ok ()
      (((((e.settle n (f :: rest)).log (.now (e.clock + n.ticks))).setX
        { e.x with t1 := e.clock + n.ticks }).settle f rest).log (.readyFlag true)) := by
  rw [readyWait, bind_of_ok (now_ok h), bind_of_ok (onX_apply _ _)]
  apply repeatP_done
  rw [readyWaitTurn, bind_of_ok (readyFlag_ok (a := f) (rest := rest) (by simp))]
  simp [hf, hp]

theorem clearOnErr_of_ok {α : Type} {p : P α} {e t : Engine} {a : α} (h : p e = .ok a t) :
    clearOnErr p e = .ok a t := by
  rw [clearOnErr, bind_of_ok (attempt_of_ok h)]
  rfl

theorem clearOnErr_of_raised {α : Type} {p : P α} {e t : Engine} {er : Err}
    (h : p e = .error (.raised er) t) :
    clearOnErr p e = .error (.raised er) ((t.setReady false).log .readyClear) := by
  rw [clearOnErr, bind_of_ok (attempt_of_raised h)]
  rfl

/-- The stall poll whose first byte says not stalled. -/
theorem spiStall_of_go {e : Engine} {p : Answer} {rest : List Answer}
    (h : e.inbox = p :: rest) (hp : p.err = none) (hb : p.bytes = [0x01]) :
    repeatP spiStallTurn e = .ok () ((e.settle p rest).log (.busRead [0x01])) := by
  apply repeatP_done
  rw [spiStallTurn, bind_of_ok (busRead_ok h hp), hb]
  rfl

theorem spiLock_of_free {e : Engine} {l : Answer} {rest : List Answer}
    (h : e.inbox = l :: rest) (hl : l.lockFree = true) :
    spiLock e = .ok () (((e.settle l rest).setLock .engine).log .lock) := by
  apply repeatP_done
  rw [spiLockTurn, bind_of_ok (take_cons h), hl]
  rfl

/-- The wait after a bus write: what it moves. -/
theorem Moved.readyWait (e : Engine) (n f : Answer) (rest : List Answer) :
    Moved e (((((e.settle n (f :: rest)).log (.now (e.clock + n.ticks))).setX
        { e.x with t1 := e.clock + n.ticks }).settle f rest).log (.readyFlag true)) rest [] :=
  (Moved.event e n (f :: rest) (.now (e.clock + n.ticks)) rfl).trans <|
    (Moved.setT1 _ _).trans <| Moved.event _ f rest (.readyFlag true) rfl

/-- An I2C bus write and the wait after it, answered at once. -/
theorem i2cSend_of_answers {e : Engine} {bs : List Byte} {w n f : Answer} {rest : List Answer}
    (hi : e.inbox = w :: n :: f :: rest) (h1 : w.err = none) (h2 : f.edge = true)
    (ht : e.cfg.transport = .i2c) (hl : e.readyPath = true) :
    ∃ t, i2cSend bs e = .ok () t ∧ Moved e t rest [.busWrite bs] ∧
      t.ready = true ∧ t.scratch = e.scratch ∧ t.lock = e.lock ∧
      t.clock = e.clock + w.ticks + n.ticks + f.ticks ∧ t.x.t1 = e.clock + w.ticks + n.ticks := by
  rw [i2cSend, bind_of_ok (readyClear_apply e),
    bind_of_ok (clearOnErr_of_ok (busWrite_ok (a := w) (rest := n :: f :: rest) (by simpa using hi) h1))]
  refine ⟨_, clearOnErr_of_ok (readyWait_of_edge (n := n) (f := f) (rest := rest) (by simp)
    (by simpa using hl) h2), ?_, ?_, ?_, ?_, ?_, ?_⟩
  · exact (Moved.clear e).trans <| (Moved.event _ w _ (.busWrite bs) rfl).trans <|
      Moved.readyWait _ n f rest
  · simp [h2, hl]
  · simp
  · simp [ht]
  · simp
  · simp

/-- An I2C read, answered at once. -/
theorem i2cRead_of_answers {e : Engine} {loc : Nat} {kind : Kind} {n : Nat} {bs : List Byte}
    {as rest : List Answer} (hi : e.inbox = as ++ rest) (ha : AnswersRead .i2c bs as)
    (ht : e.cfg.transport = .i2c) (hl : e.readyPath = true) (hw : n ≤ e.cfg.maxXfer)
    (hn : bs.length = n) :
    ∃ t, i2cRead loc kind n e = .ok bs t ∧ Moved e t rest (readTrafficAt e.cfg loc kind bs) ∧
      t.clock = e.clock + ticksOf as := by
  obtain ⟨w, m, f, d, rfl, h1, h2, h3, h4⟩ := ha
  obtain ⟨t, hs, hm, hr, _, hlk, hc, _⟩ := i2cSend_of_answers (bs := [i2cAddr e.cfg.map loc kind])
    (e := e) (w := w) (n := m) (f := f) (rest := d :: rest) (by simpa using hi) h1 h2 ht hl
  have hb := busRead_ok (n := n) (e := t) (a := d) (rest := rest) hm.inbox h3
  have hd : answerBytes n d.bytes = bs := by rw [h4, ← hn, answerBytes_exact]
  rw [hd] at hb
  refine ⟨_, by rw [i2cRead, bind_of_ok (look_apply e), if_neg (by omega), bind_of_ok hs,
    clearOnErr_of_ok hb], ?_, ?_⟩
  · have h := hm.trans (Moved.event t d rest (.busRead bs) rfl)
    simpa [readTrafficAt, ht, busTrace, List.filter, Event.onBus] using h
  · simp [hc, ticksOf]
    omega

/-- An I2C write, answered at once. -/
theorem i2cWrite_of_answers {e : Engine} {loc : Nat} {kind : Kind} {p : List Byte}
    {as rest : List Answer} (hi : e.inbox = as ++ rest) (ha : AnswersWrite .i2c as)
    (ht : e.cfg.transport = .i2c) (hl : e.readyPath = true) (hw : p.length ≤ e.cfg.maxXfer)
    (hc : p.length + 1 ≤ e.cfg.scratchCap) :
    ∃ t, i2cWrite loc kind p e = .ok () t ∧ Moved e t rest (writeTrafficAt e.cfg loc kind p) ∧
      t.clock = e.clock + ticksOf as := by
  obtain ⟨w, m, f, rfl, h1, h2⟩ := ha
  obtain ⟨t, hs, hm, hr, _, hlk, hck, _⟩ := i2cSend_of_answers
    (bs := i2cAddr e.cfg.map loc kind :: p)
    (e := e.setScratch (i2cAddr e.cfg.map loc kind :: p)) (w := w) (n := m) (f := f) (rest := rest)
    (by simpa using hi) h1 h2 (by simpa using ht) (by simpa using hl)
  refine ⟨t, ?_, ?_, ?_⟩
  · rw [i2cWrite, bind_of_ok (look_apply e), if_neg (by omega), bind_of_ok (change_apply _ e),
      bind_of_ok (look_apply _)]
    have : ((e.setScratch (i2cAddr e.cfg.map loc kind :: p)).scratch.take (p.length + 1)) =
        i2cAddr e.cfg.map loc kind :: p := by simp [Engine.setScratch]
    rw [this, hs]
  · have h := (Moved.setScratch e (i2cAddr e.cfg.map loc kind :: p)).trans hm
    simpa [writeTrafficAt, ht] using h
  · simp [hck, ticksOf]
    omega

/-- A SPI frame, answered at once. -/
theorem spiXfer_of_answers {e : Engine} {dir : Dir} {loc : Nat} {kind : Kind} {n : Nat} {p bs : List Byte}
    {as rest : List Answer} (hi : e.inbox = as ++ rest)
    (ha : match dir with
      | .read => AnswersRead .spi bs as ∧ bs.length = n
      | .write => AnswersWrite .spi as ∧ bs = [])
    (h1 : 1 ≤ n) (hw : n ≤ e.cfg.maxXfer) :
    ∃ t, spiXfer dir loc kind n p e = .ok bs t ∧
      Moved e t rest
        [.lock, .busWrite (spiHeader e.cfg.map dir loc kind n), .busRead [0x01],
          (match dir with
            | .read => .busRead bs
            | .write => .busWrite p), .unlock] ∧
      t.clock = e.clock + ticksOf as ∧ t.lock = .free ∧ t.scratch = e.scratch := by
  have key : ∃ l h m q d, as = [l, h, m, q, d] ∧ l.lockFree = true ∧ h.err = none ∧ q.err = none ∧
      q.bytes = [0x01] ∧ d.err = none ∧ (dir = .read → answerBytes n d.bytes = bs) ∧
      (dir = .write → bs = []) := by
    cases dir with
    | read =>
      obtain ⟨⟨l, h, m, q, d, rfl, a1, a2, a3, a4, a5, a6⟩, hn⟩ := ha
      exact ⟨l, h, m, q, d, rfl, a1, a2, a3, a4, a5, fun _ => by rw [a6, ← hn, answerBytes_exact], by simp⟩
    | write =>
      obtain ⟨⟨l, h, m, q, d, rfl, a1, a2, a3, a4, a5⟩, hn⟩ := ha
      exact ⟨l, h, m, q, d, rfl, a1, a2, a3, a4, a5, by simp, fun _ => hn⟩
  obtain ⟨l, h, m, q, d, rfl, a1, a2, a3, a4, a5, a6, a7⟩ := key
  have hl := spiLock_of_free (e := e) (l := l) (rest := h :: m :: q :: d :: rest) (by simpa using hi) a1
  set e1 := ((e.settle l (h :: m :: q :: d :: rest)).setLock .engine).log .lock with he1
  have m1 : Moved e e1 (h :: m :: q :: d :: rest) [.lock] :=
    (Moved.settle e l _).trans <| (Moved.setLock _ _).trans <| Moved.log _ .lock rfl
  have c1 : e1.clock = e.clock + l.ticks ∧ e1.lock = .engine ∧ e1.scratch = e.scratch := by simp [he1]
  have hh := busWrite_ok (bs := spiHeader e.cfg.map dir loc kind n) (e := e1) (a := h)
    (rest := m :: q :: d :: rest) m1.inbox a2
  set e2 := (e1.settle h (m :: q :: d :: rest)).log (.busWrite (spiHeader e.cfg.map dir loc kind n))
    with he2
  have m2 : Moved e1 e2 (m :: q :: d :: rest) [.busWrite (spiHeader e.cfg.map dir loc kind n)] :=
    Moved.event e1 h _ _ rfl
  have c2 : e2.clock = e.clock + l.ticks + h.ticks ∧ e2.lock = .engine ∧ e2.scratch = e.scratch := by
    simp [he2, c1]
  have hn := now_ok (e := e2) (a := m) (rest := q :: d :: rest) m2.inbox
  set e3 := ((e2.settle m (q :: d :: rest)).log (.now (e2.clock + m.ticks))).setX
    { e2.x with t1 := e2.clock + m.ticks } with he3
  have m3 : Moved e2 e3 (q :: d :: rest) [] :=
    (Moved.event e2 m _ (.now (e2.clock + m.ticks)) rfl).trans (Moved.setT1 _ _)
  have c3 : e3.clock = e.clock + l.ticks + h.ticks + m.ticks ∧ e3.lock = .engine ∧
      e3.scratch = e.scratch := by simp [he3, c2]
  have hq := spiStall_of_go (e := e3) (p := q) (rest := d :: rest) m3.inbox a3 a4
  set e4 := (e3.settle q (d :: rest)).log (.busRead [0x01]) with he4
  have m4 : Moved e3 e4 (d :: rest) [.busRead [0x01]] := Moved.event e3 q _ _ rfl
  have c4 : e4.clock = e.clock + l.ticks + h.ticks + m.ticks + q.ticks ∧ e4.lock = .engine ∧
      e4.scratch = e.scratch := by simp [he4, c3]
  have hp : ∃ ev, ev = (match dir with
      | .read => Event.busRead bs
      | .write => Event.busWrite p) ∧ ev.plain = true ∧
      spiPayload dir n p e4 = .ok bs ((e4.settle d rest).log ev) := by
    cases dir with
    | read =>
      refine ⟨_, rfl, rfl, ?_⟩
      have := busRead_ok (n := n) (e := e4) (a := d) (rest := rest) m4.inbox a5
      rwa [a6 rfl] at this
    | write =>
      refine ⟨_, rfl, rfl, ?_⟩
      simp only [spiPayload]
      rw [bind_of_ok (busWrite_ok (e := e4) (a := d) (rest := rest) m4.inbox a5), a7 rfl]
      rfl
  obtain ⟨ev, hev, hpl, hp⟩ := hp
  set e5 := (e4.settle d rest).log ev with he5
  have m5 : Moved e4 e5 rest (busTrace [ev]) := Moved.event e4 d _ _ hpl
  have hbody : spiBody dir (spiHeader e.cfg.map dir loc kind n) n p e1 = .ok bs e5 := by
    rw [spiBody, bind_of_ok hh, bind_of_ok hn, bind_of_ok (onX_apply _ _)]
    exact (bind_of_ok hq).trans hp
  refine ⟨(e5.setLock .free).log .unlock, ?_, ?_, ?_, ?_, ?_⟩
  · rw [spiXfer, bind_of_ok (look_apply e), if_neg (by omega), bind_of_ok hl,
      bind_of_ok (attempt_of_ok hbody), bind_of_ok (spiUnlock_apply _)]
    rfl
  · have hm := m1.trans <| m2.trans <| m3.trans <| m4.trans <| m5.trans <|
      (Moved.setLock e5 .free).trans <| Moved.log _ .unlock rfl
    have hr := m5.inbox
    rw [show (e5.setLock .free).inbox = rest from hr] at hm
    subst hev
    cases dir <;> simpa [busTrace, List.filter, Event.onBus] using hm
  · simp [he5, c4, ticksOf]
    omega
  · simp
  · simp [he5, c4]

/-- A register read, answered at once. -/
theorem regRead_of_answers {e : Engine} {kind : Kind} {n : Nat} {bs : List Byte} {as rest : List Answer}
    (hs : e.Serves) (hi : e.inbox = as ++ rest) (ha : AnswersRead e.cfg.transport bs as)
    (h1 : 1 ≤ n) (hw : n ≤ e.cfg.maxXfer) (hn : bs.length = n) :
    ∃ t, regRead kind n e = .ok bs t ∧ Moved e t rest (readTraffic e.cfg kind bs) ∧
      t.clock = e.clock + ticksOf as := by
  rw [regRead, bind_of_ok (look_apply e)]
  cases ht : e.cfg.transport with
  | i2c => exact i2cRead_of_answers hi (ht ▸ ha) ht (hs.live ht) hw hn
  | spi =>
    obtain ⟨t, h, hm, hc, _⟩ := spiXfer_of_answers (dir := .read) (loc := e.cfg.loc) (kind := kind)
      (n := n) (p := []) (bs := bs) hi ⟨ht ▸ ha, hn⟩ h1 hw
    exact ⟨t, h, by simpa [readTraffic, readTrafficAt, ht, hn] using hm, hc⟩

/-- A register write, answered at once. -/
theorem regWrite_of_answers {e : Engine} {kind : Kind} {p : List Byte} {as rest : List Answer}
    (hs : e.Serves) (hi : e.inbox = as ++ rest) (ha : AnswersWrite e.cfg.transport as)
    (h1 : 1 ≤ p.length ∨ e.cfg.transport = .i2c) (hw : p.length ≤ e.cfg.maxXfer) :
    ∃ t, regWrite kind p e = .ok () t ∧ Moved e t rest (writeTraffic e.cfg kind p) ∧
      t.clock = e.clock + ticksOf as := by
  rw [regWrite, bind_of_ok (look_apply e)]
  cases ht : e.cfg.transport with
  | i2c =>
    have hok := hs.cfg_ok
    simp only [Cfg.ok, Bool.and_eq_true, decide_eq_true_eq] at hok
    exact i2cWrite_of_answers hi (ht ▸ ha) ht (hs.live ht) hw (by omega)
  | spi =>
    obtain ⟨t, h, hm, hc, _⟩ := spiXfer_of_answers (dir := .write) (loc := e.cfg.loc) (kind := kind)
      (n := p.length) (p := p) (bs := []) hi ⟨ht ▸ ha, rfl⟩ (by simpa [ht] using h1) hw
    refine ⟨t, ?_, by simpa [writeTraffic, writeTrafficAt, ht] using hm, hc⟩
    simp only [spiWrite]
    rw [bind_of_ok h]
    rfl

end Sys2Proof.Machine
end

