-- ==== Sys2Proof/Laws/PerInstr.lean ====
section
/-! SUPPORT. Per instruction: its word has the length of its format (30_encoding.md R110). -/

namespace Sys2Proof.Laws.EncodedLength

/-- The encoder writes a word of the format's length. -/
def Statement (i : Instr) : Prop :=
  (encode i).length = formatBytes i.format

theorem probe : Statement .probe := rfl
theorem send (len : Nat) : Statement (.send len) := rfl
theorem recv (cap : Nat) : Statement (.recv cap) := rfl
theorem release (force : Bool) : Statement (.release force) := rfl
theorem shutdown : Statement .shutdown := rfl
theorem i2cRead : Statement .i2cRead := rfl
theorem i2cWrite : Statement .i2cWrite := rfl
theorem spiRead : Statement .spiRead := rfl
theorem spiWrite : Statement .spiWrite := rfl
theorem readyWait : Statement .readyWait := rfl
theorem spiXfer : Statement .spiXfer := rfl
theorem checkLocality : Statement .checkLocality := rfl
theorem requestLocality : Statement .requestLocality := rfl
theorem releaseLocality : Statement .releaseLocality := rfl
theorem getBurstAndStatus : Statement .getBurstAndStatus := rfl
theorem readStatus : Statement .readStatus := rfl
theorem setReady : Statement .setReady := rfl
theorem waitCommandReady : Statement .waitCommandReady := rfl
theorem fifoWriteBody : Statement .fifoWriteBody := rfl
theorem writeGo : Statement .writeGo := rfl
theorem fifoReadBody : Statement .fifoReadBody := rfl
theorem cleanup : Statement .cleanup := rfl
theorem i2cAddrAccess (loc : Nat) : Statement (.i2cAddrAccess loc) := rfl
theorem i2cAddrSts (loc : Nat) : Statement (.i2cAddrSts loc) := rfl
theorem i2cAddrDataFifo (loc : Nat) : Statement (.i2cAddrDataFifo loc) := rfl
theorem i2cAddrDidVid (loc : Nat) : Statement (.i2cAddrDidVid loc) := rfl
theorem spiHdrReadAccess (lenM1 loc : Nat) : Statement (.spiHdrReadAccess lenM1 loc) := rfl
theorem spiHdrWriteAccess (lenM1 loc : Nat) : Statement (.spiHdrWriteAccess lenM1 loc) := rfl
theorem spiHdrReadSts (lenM1 loc : Nat) : Statement (.spiHdrReadSts lenM1 loc) := rfl
theorem spiHdrWriteSts (lenM1 loc : Nat) : Statement (.spiHdrWriteSts lenM1 loc) := rfl
theorem spiHdrReadDataFifo (lenM1 loc : Nat) : Statement (.spiHdrReadDataFifo lenM1 loc) := rfl
theorem spiHdrWriteDataFifo (lenM1 loc : Nat) : Statement (.spiHdrWriteDataFifo lenM1 loc) := rfl
theorem spiHdrReadDidVid (lenM1 loc : Nat) : Statement (.spiHdrReadDidVid lenM1 loc) := rfl
theorem stsGoVal : Statement .stsGoVal := rfl
theorem stsReadyVal : Statement .stsReadyVal := rfl
theorem accessReqVal : Statement .accessReqVal := rfl
theorem accessRelVal : Statement .accessRelVal := rfl

end Sys2Proof.Laws.EncodedLength
end

