-- ==== Sys2Proof/Tests/Slice0.lean ====
section
/-! SUPPORT. Tests: the checks of WellFormed, a hand-written word for every row, one-step runs of the spec's
vectors (spec/95_test_vectors.md), and for every statement with hypotheses a witness that meets them. The
expected values of words and runs are the spec's. -/

namespace Sys2Proof.Tests

open Sys2Proof.Machine

set_option Elab.async false

/-! ### WellFormed refuses what does not fit -/

theorem test_wellFormed_host_length : ¬ (Instr.send 0x1000000).WellFormed := by decide
theorem test_wellFormed_host_capacity : ¬ (Instr.recv 0x1000000).WellFormed := by decide
theorem test_wellFormed_i2c_locality : ¬ (Instr.i2cAddrSts 16).WellFormed := by decide
theorem test_wellFormed_spi_locality : ¬ (Instr.spiHdrReadSts 3 4).WellFormed := by decide
theorem test_wellFormed_spi_length : ¬ (Instr.spiHdrReadSts 64 0).WellFormed := by decide

/-! ### Words written from the spec's encodings (30_encoding.md, 95_test_vectors.md section 2.1) -/

/-- The bytes decode to the instruction. -/
def decodesTo (f : Format) (bs : List Byte) (i : Instr) : Bool :=
  match decodeAs f bs with
  | .ok j => j == i
  | .error _ => false

/-- The bytes are rejected for the reason. -/
def rejectedAs (f : Format) (bs : List Byte) (r : Reject) : Bool :=
  match decodeAs f bs with
  | .ok _ => false
  | .error q => q == r

theorem test_decode_probe : decodesTo .hcmd [0x01, 0x00, 0x00, 0x00] (.probe) = true := by decide +kernel
theorem test_decode_send : decodesTo .hcmd [0x02, 0xFF, 0xFF, 0xFF] (.send 16777215) = true := by decide +kernel
theorem test_decode_recv : decodesTo .hcmd [0x03, 0x00, 0x10, 0x00] (.recv 4096) = true := by decide +kernel
theorem test_decode_release : decodesTo .hcmd [0x04, 0x00, 0x00, 0x01] (.release true) = true := by decide +kernel
theorem test_decode_shutdown : decodesTo .hcmd [0x05, 0x00, 0x00, 0x00] (.shutdown) = true := by decide +kernel
theorem test_decode_i2cRead : decodesTo .uop [0x10] (.i2cRead) = true := by decide +kernel
theorem test_decode_i2cWrite : decodesTo .uop [0x11] (.i2cWrite) = true := by decide +kernel
theorem test_decode_spiRead : decodesTo .uop [0x12] (.spiRead) = true := by decide +kernel
theorem test_decode_spiWrite : decodesTo .uop [0x13] (.spiWrite) = true := by decide +kernel
theorem test_decode_readyWait : decodesTo .uop [0x14] (.readyWait) = true := by decide +kernel
theorem test_decode_spiXfer : decodesTo .uop [0x15] (.spiXfer) = true := by decide +kernel
theorem test_decode_checkLocality : decodesTo .uop [0x20] (.checkLocality) = true := by decide +kernel
theorem test_decode_requestLocality : decodesTo .uop [0x21] (.requestLocality) = true := by decide +kernel
theorem test_decode_releaseLocality : decodesTo .uop [0x22] (.releaseLocality) = true := by decide +kernel
theorem test_decode_getBurstAndStatus : decodesTo .uop [0x30] (.getBurstAndStatus) = true := by decide +kernel
theorem test_decode_readStatus : decodesTo .uop [0x31] (.readStatus) = true := by decide +kernel
theorem test_decode_setReady : decodesTo .uop [0x32] (.setReady) = true := by decide +kernel
theorem test_decode_waitCommandReady : decodesTo .uop [0x40] (.waitCommandReady) = true := by decide +kernel
theorem test_decode_fifoWriteBody : decodesTo .uop [0x41] (.fifoWriteBody) = true := by decide +kernel
theorem test_decode_writeGo : decodesTo .uop [0x42] (.writeGo) = true := by decide +kernel
theorem test_decode_fifoReadBody : decodesTo .uop [0x43] (.fifoReadBody) = true := by decide +kernel
theorem test_decode_cleanup : decodesTo .uop [0x44] (.cleanup) = true := by decide +kernel
theorem test_decode_i2cAddrAccess : decodesTo .i2cAddr [0x00] (.i2cAddrAccess 0) = true := by decide +kernel
theorem test_decode_i2cAddrSts : decodesTo .i2cAddr [0x11] (.i2cAddrSts 1) = true := by decide +kernel
theorem test_decode_i2cAddrDataFifo : decodesTo .i2cAddr [0x05] (.i2cAddrDataFifo 0) = true := by decide +kernel
theorem test_decode_i2cAddrDidVid : decodesTo .i2cAddr [0xF6] (.i2cAddrDidVid 15) = true := by decide +kernel
theorem test_decode_spiHdrReadAccess : decodesTo .spiHdr [0xC0, 0xD4, 0x00, 0x00] (.spiHdrReadAccess 0 0) = true := by decide +kernel
theorem test_decode_spiHdrWriteAccess : decodesTo .spiHdr [0x40, 0xD4, 0x20, 0x00] (.spiHdrWriteAccess 0 2) = true := by decide +kernel
theorem test_decode_spiHdrReadSts : decodesTo .spiHdr [0xC3, 0xD4, 0x10, 0x18] (.spiHdrReadSts 3 1) = true := by decide +kernel
theorem test_decode_spiHdrWriteSts : decodesTo .spiHdr [0x43, 0xD4, 0x00, 0x18] (.spiHdrWriteSts 3 0) = true := by decide +kernel
theorem test_decode_spiHdrReadDataFifo : decodesTo .spiHdr [0xFF, 0xD4, 0x00, 0x24] (.spiHdrReadDataFifo 63 0) = true := by decide +kernel
theorem test_decode_spiHdrWriteDataFifo : decodesTo .spiHdr [0x7D, 0xD4, 0x00, 0x24] (.spiHdrWriteDataFifo 61 0) = true := by decide +kernel
theorem test_decode_spiHdrReadDidVid : decodesTo .spiHdr [0xC3, 0xD4, 0x3F, 0x00] (.spiHdrReadDidVid 3 3) = true := by decide +kernel
theorem test_decode_stsGoVal : decodesTo .stsWr [0x20, 0x00, 0x00, 0x00] (.stsGoVal) = true := by decide +kernel
theorem test_decode_stsReadyVal : decodesTo .stsWr [0x40, 0x00, 0x00, 0x00] (.stsReadyVal) = true := by decide +kernel
theorem test_decode_accessReqVal : decodesTo .accessWr [0x02] (.accessReqVal) = true := by decide +kernel
theorem test_decode_accessRelVal : decodesTo .accessWr [0x20] (.accessRelVal) = true := by decide +kernel

theorem test_decode_release_reserved_bit :
    rejectedAs .hcmd [0x04, 0x00, 0x00, 0x02] .reservedOperandBits = true := by decide +kernel
theorem test_decode_probe_argument :
    rejectedAs .hcmd [0x01, 0x00, 0x00, 0x01] .reservedOperandBits = true := by decide +kernel
theorem test_decode_reserved_opcode : rejectedAs .hcmd [0xFF, 0x12, 0x34, 0x56] .reservedOpcode = true := by decide +kernel
theorem test_decode_marker_clear : rejectedAs .spiHdr [0x83, 0xD4, 0x00, 0x18] .spiMarkerClear = true := by decide +kernel
theorem test_decode_high_address_bits :
    rejectedAs .spiHdr [0xC3, 0xD4, 0x40, 0x18] .spiAddressHighBits = true := by decide +kernel
theorem test_tableWord_host : decodeTableWord 32 0x0200000C = some (.send 12) := by decide +kernel
theorem test_tableWord_header : decodeTableWord 32 0xC3D40018 = some (.spiHdrReadSts 3 0) := by decide +kernel
theorem test_tableWord_address : decodeTableWord 8 0x05 = some (.i2cAddrDataFifo 0) := by decide +kernel

/-! ### Field decoders (95_test_vectors.md section 2.1) -/

theorem test_burst_wide : snapBurst [0x80, 0xFF, 0xFF, 0x7E] = 65535 := by decide
theorem test_declared_length : declaredLength [0x80, 0x01, 0x00, 0x00, 0x01, 0x00] = 256 := by decide
theorem test_didVid : didVidValue [0x66, 0x66, 0x4A, 0x50] = 0x504A6666 := by decide

/-! ### Small environments -/

/-- An answer that succeeds, raises no edge and takes `n` ticks. -/
def wait (n : Nat) : Answer := { ticks := n, edge := false, lockFree := true, err := none, bytes := [] }

/-- An answer that succeeds. -/
def fine : Answer := wait 0

/-- An answer with an edge. -/
def irq : Answer := { fine with edge := true }

/-- An answer with bytes. -/
def data (bs : List Byte) : Answer := { fine with bytes := bs }

/-- An answer that fails. -/
def bad : Answer := { fine with err := some 5 }

/-- A register read of `bs`. -/
def rd (t : Transport) (bs : List Byte) : List Answer :=
  match t with
  | .i2c => [fine, fine, irq, data bs]
  | .spi => [fine, fine, fine, data [0x01], data bs]

/-- A register write. -/
def wr (t : Transport) : List Answer :=
  match t with
  | .i2c => [fine, fine, irq]
  | .spi => [fine, fine, fine, data [0x01], fine]

/-- A register transaction whose first bus operation fails. -/
def fail (t : Transport) : List Answer :=
  match t with
  | .i2c => [bad]
  | .spi => [fine, bad]

theorem rd_answers (t : Transport) (bs : List Byte) : AnswersRead t bs (rd t bs) := by
  cases t
  · exact ⟨_, _, _, _, rfl, rfl, rfl, rfl, rfl⟩
  · exact ⟨_, _, _, _, _, rfl, rfl, rfl, rfl, rfl, rfl, rfl⟩

theorem wr_answers (t : Transport) : AnswersWrite t (wr t) := by
  cases t
  · exact ⟨_, _, _, rfl, rfl, rfl⟩
  · exact ⟨_, _, _, _, _, rfl, rfl, rfl, rfl, rfl, rfl⟩

theorem fail_answers (t : Transport) : AnswersFail t 5 (fail t) := by
  cases t
  · exact ⟨_, rfl, rfl⟩
  · exact ⟨_, _, rfl, rfl, rfl⟩

/-- A register transaction whose wait runs out. -/
def late (t : Transport) : List Answer :=
  match t with
  | .i2c => [fine, fine, fine, wait 750]
  | .spi => [fine, fine, fine, data [0], wait 100]

/-- The error of a wait that runs out. -/
def lateErr (t : Transport) : Err :=
  match t with
  | .i2c => .timeout .ready
  | .spi => .timeout .spiStall

/-- A handle on `t`, one tick a millisecond, with the environment's answers. -/
def bench (t : Transport) (inbox : List Answer) : State :=
  { State.reset with
    cfg := { Cfg.standard t with clkPerMs := 1 }
    readyPath := t == .i2c
    inbox := inbox }

/-- The same, a command started. -/
def started (t : Transport) (inbox : List Answer) : State :=
  { bench t inbox with sess := .started }

/-- The same, with operands. -/
def given (t : Transport) (a : Args) (inbox : List Answer) : State :=
  { bench t inbox with args := a }

theorem bench_serves (t : Transport) (l : List Answer) : (bench t l).toEngine.Serves := by
  cases t
  · exact ⟨rfl, Nat.le_of_ble_eq_true rfl, fun _ => rfl⟩
  · exact ⟨rfl, Nat.le_of_ble_eq_true rfl, fun h => nomatch h⟩

theorem started_serves (t : Transport) (l : List Answer) : (started t l).toEngine.Serves := by
  cases t
  · exact ⟨rfl, Nat.le_of_ble_eq_true rfl, fun _ => rfl⟩
  · exact ⟨rfl, Nat.le_of_ble_eq_true rfl, fun h => nomatch h⟩

theorem given_serves (t : Transport) (a : Args) (l : List Answer) : (given t a l).toEngine.Serves := by
  cases t
  · exact ⟨rfl, Nat.le_of_ble_eq_true rfl, fun _ => rfl⟩
  · exact ⟨rfl, Nat.le_of_ble_eq_true rfl, fun h => nomatch h⟩

/-- The configuration of every bench. -/
def setup (t : Transport) : Cfg :=
  (bench t []).cfg

theorem fail_ends (t : Transport) : AnswersErr (setup t) (.io 5) (fail t) := by
  cases t
  · exact ⟨_, rfl, rfl⟩
  · exact ⟨_, _, rfl, rfl, rfl⟩

theorem late_answers (t : Transport) : AnswersErr (setup t) (lateErr t) (late t) := by
  cases t
  · exact ⟨rfl, _, _, _, _, rfl, rfl, rfl, by decide⟩
  · exact ⟨rfl, _, _, _, _, _, rfl, rfl, rfl, rfl, rfl, by decide⟩

theorem rd_done (t : Transport) (kind : Kind) (bs : List Byte) :
    ReadDone (setup t) kind bs.length (.ok bs) (rd t bs) (readTraffic (setup t) kind bs) :=
  ⟨rfl, by cases t <;> exact rd_answers _ bs, rfl⟩

theorem rd_failed (t : Transport) (kind : Kind) (n : Nat) :
    ReadDone (setup t) kind n (.error (.io 5)) (fail t)
      (errTraffic (setup t) (.read kind n) (.io 5)) :=
  ⟨fail_ends t, rfl⟩

theorem rd_late (t : Transport) (kind : Kind) (n : Nat) :
    ReadDone (setup t) kind n (.error (lateErr t)) (late t)
      (errTraffic (setup t) (.read kind n) (lateErr t)) :=
  ⟨late_answers t, rfl⟩

theorem wr_done (t : Transport) (kind : Kind) (p : List Byte) :
    WriteDone (setup t) kind p (.ok ()) (wr t) (writeTraffic (setup t) kind p) :=
  ⟨by cases t <;> exact wr_answers _, rfl⟩

theorem wr_failed (t : Transport) (kind : Kind) (p : List Byte) :
    WriteDone (setup t) kind p (.error (.io 5)) (fail t) (errTraffic (setup t) (.write kind p) (.io 5)) :=
  ⟨fail_ends t, rfl⟩

/-- The answers of a poll that takes its first snapshot. -/
def poll (t : Transport) (flags burst : Byte) : List Answer :=
  fine :: rd t [flags, burst, 0, 0]

/-- The answers of a poll that takes its second snapshot, the first one with VALID alone. -/
def pollAgain (t : Transport) (flags burst : Byte) : List Answer :=
  fine :: rd t [0x80, 5, 0, 0] ++ fine :: fine :: rd t [flags, burst, 0, 0]

theorem poll_done (t : Transport) (mask flags burst : Byte)
    (h : accept 64 mask (snapStatus [flags, burst, 0, 0]) (snapBurst [flags, burst, 0, 0]) = true) :
    PollDone (setup t) mask [flags, burst, 0, 0] (poll t flags burst)
      (readTraffic (setup t) .sts [flags, burst, 0, 0]) := by
  cases t <;> exact ⟨_, _, rfl, rd_answers _ _, h, .inl ⟨rfl, rfl⟩⟩

theorem poll_again (t : Transport) (mask flags burst : Byte)
    (h0 : accept 64 mask (snapStatus [0x80, 5, 0, 0]) (snapBurst [0x80, 5, 0, 0]) = false)
    (h : accept 64 mask (snapStatus [flags, burst, 0, 0]) (snapBurst [flags, burst, 0, 0]) = true) :
    PollDone (setup t) mask [flags, burst, 0, 0] (pollAgain t flags burst)
      (readTraffic (setup t) .sts [0x80, 5, 0, 0] ++
        readTraffic (setup t) .sts [flags, burst, 0, 0]) := by
  cases t <;>
    exact ⟨_, _, rfl, rd_answers _ _, h, .inr ⟨.ok [0x80, 5, 0, 0], _, _, _, _, rd_done _ _ _,
      fun b0 hb => by cases hb; exact h0, by decide, rfl, rfl⟩⟩

/-- The answers of a force release. -/
def releaseAnswers (t : Transport) : List Answer :=
  rd t [0xA0] ++ wr t

theorem release_done (t : Transport) :
    ReleaseDone (setup t) true (releaseAnswers t)
      (readTraffic (setup t) .access [0xA0] ++
        writeTraffic (setup t) .access (accessRelBytes (setup t).map)) :=
  ⟨.ok [0xA0], .ok (), _, _, _, _, rd_done t _ _, rfl, rfl, wr_done t _ _⟩

/-- The answers of a CLEANUP of a TPM that is not ready, its status read failed. -/
def cleanupAnswers (t : Transport) : List Answer :=
  fail t ++ [] ++ releaseAnswers t

theorem cleanup_done (t : Transport) : ∃ tr, CleanupDone (setup t) (cleanupAnswers t) tr := by
  cases t <;>
    exact ⟨_, .error (.io 5), .ok (), _, _, _, _, [], _, rd_failed _ _ _, release_done _, rfl, rfl, rfl, rfl⟩

/-- What is asked of a finished next state. -/
def ends (o : Host.Outcome State Fault Refusal) (p : State → Bool) : Bool :=
  match o with
  | .next t => t.running.isNone && p t
  | .fault _ => false
  | .refused _ => false

/-! ### One instruction on the spec's vectors -/

/-- TR1 -/
theorem test_i2cRead :
    ends (exec .i2cRead (given .i2c { Args.zero with kind := .sts, n := 4 } (rd .i2c [0xC0, 0x3F, 0, 0]))) (fun t => t.ret == .ok (.bytes [0xC0, 0x3F, 0, 0]) &&
      busTrace t.trace == [.busWrite [0x01], .busRead [0xC0, 0x3F, 0, 0]]) = true := by
  decide +kernel

/-- TR4: the deadline test that reads the budget times out -/
theorem test_i2cRead_late :
    ends (exec .i2cRead (given .i2c { Args.zero with n := 1 } [fine, fine, fine, wait 749, fine, wait 1])) (fun t => t.ret == .err (.timeout .ready) && !t.ready && busTrace t.trace == [.busWrite [0x00]]) = true := by
  decide +kernel

/-- R152, its example -/
theorem test_i2cWrite :
    ends (exec .i2cWrite (given .i2c { Args.zero with kind := .sts, payload := [0x20, 0, 0, 0] } (wr .i2c))) (fun t => t.ret == .ok .unit && busTrace t.trace == [.busWrite [0x01, 0x20, 0, 0, 0]]) = true := by
  decide +kernel

/-- TR10 -/
theorem test_i2cWrite_error :
    ends (exec .i2cWrite (given .i2c { Args.zero with kind := .sts, payload := [0x40, 0, 0, 0] } [bad])) (fun t => t.ret == .err (.io 5) && !t.ready) = true := by
  decide +kernel

/-- TR13: only bit 0 of a stall byte counts -/
theorem test_spiRead :
    ends (exec .spiRead (given .spi { Args.zero with kind := .sts, n := 4 } [fine, fine, fine, data [0xFE], fine, data [0xFF], data [1, 2, 3, 4]])) (fun t => t.ret == .ok (.bytes [1, 2, 3, 4]) && t.lock == .free &&
      busTrace t.trace == [.lock, .busWrite [0xC3, 0xD4, 0x00, 0x18], .busRead [0xFE], .busRead [0xFF],
        .busRead [1, 2, 3, 4], .unlock]) = true := by
  decide +kernel

/-- TR12 -/
theorem test_spiRead_stalled :
    ends (exec .spiRead (given .spi { Args.zero with kind := .sts, n := 4 } [fine, fine, fine, data [0], wait 25, data [0], wait 25, data [0], wait 25, data [0], wait 25])) (fun t => t.ret == .err (.timeout .spiStall) && t.lock == .free) = true := by
  decide +kernel

/-- LM7, its write on SPI -/
theorem test_spiWrite :
    ends (exec .spiWrite (given .spi { Args.zero with payload := [0x02] } (wr .spi))) (fun t => busTrace t.trace == [.lock, .busWrite [0x40, 0xD4, 0x00, 0x00], .busRead [0x01], .busWrite [0x02], .unlock]) = true := by
  decide +kernel

/-- TR15 -/
theorem test_spiWrite_empty :
    ends (exec .spiWrite (given .spi { Args.zero with kind := .dataFifo } [])) (fun t => t.ret == .err (.insufficientResources 0) && t.trace == []) = true := by
  decide +kernel

/-- R153, its example -/
theorem test_spiXfer :
    ends (exec .spiXfer (given .spi { Args.zero with kind := .sts, n := 4 } [fine, fine, fine, data [0], fine, data [1], data [0x80, 0x0A, 0, 0]])) (fun t => t.ret == .ok (.bytes [0x80, 0x0A, 0, 0])) = true := by
  decide +kernel

/-- R157, its example: the flag set 3 ms after the wait began -/
theorem test_readyWait :
    ends (exec .readyWait (given .i2c Args.zero [fine, fine, { wait 3 with edge := true }, fine])) (fun t => t.ret == .ok .unit && t.x.t1 == 0 && t.clock == 3) = true := by
  decide +kernel

/-- TR5: the flag set exactly when the clock reads 750 counts as seen -/
theorem test_readyWait_deadline :
    ends (exec .readyWait (given .i2c Args.zero [fine, wait 749, { wait 1 with edge := true }])) (fun t => t.ret == .ok .unit && t.ready && t.clock == 750) = true := by
  decide +kernel

/-- LM2 -/
theorem test_checkLocality :
    ends (exec .checkLocality (bench .spi (rd .spi [0xFF]))) (fun t => t.ret == .ok .unit && t.x.access == 0xFF) = true := by
  decide +kernel

/-- LM4 -/
theorem test_checkLocality_notValid :
    ends (exec .checkLocality (bench .i2c (rd .i2c [0x20]))) (fun t => t.ret == .err (.invalidDeviceState 0x20)) = true := by
  decide +kernel

/-- LM8 -/
theorem test_requestLocality :
    ends (exec .requestLocality (bench .i2c (rd .i2c [0x80] ++ wr .i2c ++ rd .i2c [0x80] ++ fine :: rd .i2c [0xA0]))) (fun t => t.ret == .ok .unit && t.x.tries == 2 && sleeps t.trace == [2] &&
      busTrace t.trace == [.busWrite [0], .busRead [0x80], .busWrite [0, 2], .busWrite [0], .busRead [0x80],
        .busWrite [0], .busRead [0xA0]]) = true := by
  decide +kernel

/-- LM13 -/
theorem test_requestLocality_late :
    ends (exec .requestLocality (bench .i2c (rd .i2c [0x80] ++ wr .i2c ++ [bad, fine, bad, fine, bad]))) (fun t => t.ret == .err (.timeout .locality) && sleeps t.trace == [2, 2]) = true := by
  decide +kernel

/-- V9 -/
theorem test_releaseLocality :
    ends (exec .releaseLocality (bench .i2c (rd .i2c [0x84] ++ wr .i2c))) (fun t => busTrace t.trace == [.busWrite [0], .busRead [0x84], .busWrite [0, 0x20]]) = true := by
  decide +kernel

/-- V9 -/
theorem test_releaseLocality_kept :
    ends (exec .releaseLocality (bench .i2c (rd .i2c [0x24]))) (fun t => busTrace t.trace == [.busWrite [0], .busRead [0x24]]) = true := by
  decide +kernel

/-- R200, its example -/
theorem test_getBurstAndStatus :
    ends (exec .getBurstAndStatus (given .i2c { Args.zero with mask := 0x90 } (fine :: rd .i2c [0x80, 0, 0, 0] ++ fine :: fine ::
      rd .i2c [0x90, 0x14, 0, 0]))) (fun t => t.ret == .ok (.burstStatus 20 0x90) && sleeps t.trace == [2]) = true := by
  decide +kernel

/-- R202, its example -/
theorem test_readStatus :
    ends (exec .readStatus (bench .spi (rd .spi [0xC0, 0, 0, 0]))) (fun t => t.ret == .ok (.status 0xC0)) = true := by
  decide +kernel

/-- R203, its example -/
theorem test_setReady :
    ends (exec .setReady (bench .i2c (wr .i2c))) (fun t => busTrace t.trace == [.busWrite [0x01, 0x40, 0, 0, 0]]) = true := by
  decide +kernel

/-- R220, its example -/
theorem test_waitCommandReady :
    ends (exec .waitCommandReady (bench .i2c (fine :: rd .i2c [0x80, 0, 0, 0] ++ fine :: wr .i2c ++ rd .i2c [0xC0, 0, 0, 0]))) (fun t => t.ret == .ok .unit && busTrace t.trace == [.busWrite [1], .busRead [0x80, 0, 0, 0],
        .busWrite [1, 0x40, 0, 0, 0], .busWrite [1], .busRead [0xC0, 0, 0, 0]]) = true := by
  decide +kernel

/-- WB6, its first two chunks and the mask of the second: burst 2 sends one byte at a time -/
theorem test_fifoWriteBody :
    ends (exec .fifoWriteBody (given .i2c { Args.zero with len := 2, src := .shutdownCmd } (fine :: rd .i2c [0x80, 2, 0, 0] ++ wr .i2c ++
      fine :: rd .i2c [0x80, 2, 0, 0] ++ fine :: fine :: rd .i2c [0x88, 2, 0, 0] ++ wr .i2c ++
      fine :: rd .i2c [0x80, 2, 0, 0]))) (fun t => t.ret == .ok .unit && sleeps t.trace == [2] && fifoSent t.cfg none t.trace == [0x80, 0x01]) = true := by
  decide +kernel

/-- R221: DATA_EXPECT in the final snapshot -/
theorem test_fifoWriteBody_expected :
    ends (exec .fifoWriteBody (given .spi Args.zero (fine :: rd .spi [0x88, 0x3F, 0, 0]))) (fun t => t.ret == .err (.protocolViolation .dataStillExpected)) = true := by
  decide +kernel

/-- R223, its example on SPI -/
theorem test_writeGo :
    ends (exec .writeGo (bench .spi (wr .spi))) (fun t => busTrace t.trace == [.lock, .busWrite [0x43, 0xD4, 0x00, 0x18], .busRead [0x01],
        .busWrite [0x20, 0, 0, 0], .unlock]) = true := by
  decide +kernel

/-- RB9 -/
theorem test_fifoReadBody :
    ends (exec .fifoReadBody (given .i2c { Args.zero with cap := 32 } (fine :: rd .i2c [0x90, 12, 0, 0] ++
      rd .i2c [0x80, 1, 0, 0, 0, 11, 6, 7, 8, 9, 10, 11] ++ fine :: rd .i2c [0x80, 0x3F, 0, 0]))) (fun t => t.ret == .ok (.count 12) && memBytes t.rspbuf 0 12 == [0x80, 1, 0, 0, 0, 11, 6, 7, 8, 9, 10, 11]) = true := by
  decide +kernel

/-- RB3 (V3) -/
theorem test_fifoReadBody_tooSmall :
    ends (exec .fifoReadBody (given .i2c { Args.zero with cap := 19 } (fine :: rd .i2c [0x90, 12, 0, 0] ++
      rd .i2c [0x80, 1, 0, 0, 0, 20, 6, 7, 8, 9, 10, 11]))) (fun t => t.ret == .err (.bufferTooSmall 20 19) && memGet t.rspbuf 11 == 11) = true := by
  decide +kernel

/-- CL1 -/
theorem test_cleanup :
    ends (exec .cleanup (bench .i2c (rd .i2c [0xC0, 0, 0, 0] ++ wr .i2c ++ rd .i2c [0xA0] ++ wr .i2c))) (fun t => busTrace t.trace == [.busWrite [1], .busRead [0xC0, 0, 0, 0], .busWrite [1, 0x40, 0, 0, 0],
        .busWrite [0], .busRead [0xA0], .busWrite [0, 0x20]]) = true := by
  decide +kernel

/-- CL4: no release write after a failed ACCESS read -/
theorem test_cleanup_failedRead :
    ends (exec .cleanup (bench .i2c (rd .i2c [0x40, 0, 0, 0] ++ wr .i2c ++ [bad]))) (fun t => t.ret == .ok .unit) = true := by
  decide +kernel

/-- P1 -/
theorem test_probe :
    ends (exec .probe (bench .i2c (rd .i2c [0x80] ++ wr .i2c ++ rd .i2c [0xA0] ++ rd .i2c [0xE0, 0x1A, 0x28, 0]))) (fun t => t.result == .ok (.family .cr50) && t.sess == .idle && !t.busy && t.x.tries == 1 && t.x.access == 0xA0) = true := by
  decide +kernel

/-- V4 -/
theorem test_probe_unknown :
    ends (exec .probe (bench .i2c (rd .i2c [0xA0] ++ rd .i2c [0, 0, 0, 0] ++ rd .i2c [0xA0] ++ wr .i2c))) (fun t => t.result == .err (.unsupportedDevice 0)) = true := by
  decide +kernel

/-- P4: burst 1 on SPI, and the cleanup -/
theorem test_send :
    ends (exec (.send 5) (bench .spi (rd .spi [0xA0] ++ fine :: rd .spi [0xC0, 0, 0, 0] ++ fine :: rd .spi [0xC0, 1, 0, 0] ++
      rd .spi [0xC0, 1, 0, 0] ++ wr .spi ++ rd .spi [0xA0] ++ wr .spi))) (fun t => t.result == .err (.insufficientResources 0) && t.sess == .idle) = true := by
  decide +kernel

/-- SS3 -/
theorem test_recv :
    ends (exec (.recv 10) (started .i2c (fine :: rd .i2c [0x90, 10, 0, 0] ++ rd .i2c shutdownRsp ++
      fine :: rd .i2c [0x80, 0x3F, 0, 0] ++ rd .i2c [0xA0]))) (fun t => t.result == .ok (.count 10) && t.sess == .idle && memBytes t.rspbuf 0 10 == shutdownRsp) = true := by
  decide +kernel

/-- SS5 -/
theorem test_release :
    ends (exec (.release true) (started .i2c (rd .i2c [0xA0] ++ wr .i2c))) (fun t => t.result == .ok .unit && t.sess == .started) = true := by
  decide +kernel

/-- The answers of P2. -/
def shutdownAnswers : List Answer :=
  rd .i2c [0xA0] ++ fine :: rd .i2c [0xC0, 0, 0, 0] ++ fine :: rd .i2c [0xC0, 0x3F, 0, 0] ++ wr .i2c ++
    fine :: rd .i2c [0x80, 0x3F, 0, 0] ++ wr .i2c ++ fine :: rd .i2c [0x90, 10, 0, 0] ++
    rd .i2c shutdownRsp ++ fine :: rd .i2c [0x80, 0x3F, 0, 0] ++ rd .i2c [0xA0] ++ rd .i2c [0xA0] ++ wr .i2c

/-- P2 -/
theorem test_shutdown :
    ends (exec .shutdown (bench .i2c shutdownAnswers)) (fun t => t.result == .ok .unit && t.sess == .idle && !t.busy && t.inbox == [] && rspWrites t.trace == indexed 0 shutdownRsp && rspReads t.trace == []) = true := by
  decide +kernel

/-- R111 on the bus -/
theorem test_i2cAddrAccess :
    ends (exec (.i2cAddrAccess 0) (bench .i2c (wr .i2c))) (fun t => busTrace t.trace == [.busWrite [0x00]]) = true := by
  decide +kernel

/-- R111 on the bus -/
theorem test_i2cAddrSts :
    ends (exec (.i2cAddrSts 1) (bench .i2c (wr .i2c))) (fun t => busTrace t.trace == [.busWrite [0x11]]) = true := by
  decide +kernel

/-- R111 on the bus -/
theorem test_i2cAddrDataFifo :
    ends (exec (.i2cAddrDataFifo 0) (bench .i2c (wr .i2c))) (fun t => busTrace t.trace == [.busWrite [0x05]]) = true := by
  decide +kernel

/-- R111 on the bus -/
theorem test_i2cAddrDidVid :
    ends (exec (.i2cAddrDidVid 15) (bench .i2c (wr .i2c))) (fun t => busTrace t.trace == [.busWrite [0xF6]]) = true := by
  decide +kernel

/-- 95 section 2.1, its header on the bus -/
theorem test_spiHdrReadAccess :
    ends (exec (.spiHdrReadAccess 0 0) (bench .spi (rd .spi [7]))) (fun t => t.ret == .ok (.bytes [7]) &&
      (busTrace t.trace)[1]? == some (.busWrite [0xC0, 0xD4, 0x00, 0x00])) = true := by
  decide +kernel

/-- 95 section 2.1, its header on the bus -/
theorem test_spiHdrReadSts :
    ends (exec (.spiHdrReadSts 3 1) (bench .spi (rd .spi [7, 8, 9, 10]))) (fun t => t.ret == .ok (.bytes [7, 8, 9, 10]) &&
      (busTrace t.trace)[1]? == some (.busWrite [0xC3, 0xD4, 0x10, 0x18])) = true := by
  decide +kernel

/-- 95 section 2.1, its header on the bus -/
theorem test_spiHdrReadDataFifo :
    ends (exec (.spiHdrReadDataFifo 11 0) (bench .spi (rd .spi [7, 8, 9, 10, 11, 12, 13, 14, 15, 16, 17, 18]))) (fun t => t.ret == .ok (.bytes [7, 8, 9, 10, 11, 12, 13, 14, 15, 16, 17, 18]) &&
      (busTrace t.trace)[1]? == some (.busWrite [0xCB, 0xD4, 0x00, 0x24])) = true := by
  decide +kernel

/-- 95 section 2.1, its header on the bus -/
theorem test_spiHdrReadDidVid :
    ends (exec (.spiHdrReadDidVid 3 3) (bench .spi (rd .spi [7, 8, 9, 10]))) (fun t => t.ret == .ok (.bytes [7, 8, 9, 10]) &&
      (busTrace t.trace)[1]? == some (.busWrite [0xC3, 0xD4, 0x3F, 0x00])) = true := by
  decide +kernel

/-- 95 section 2.1, its header on the bus -/
theorem test_spiHdrWriteAccess :
    ends (exec (.spiHdrWriteAccess 0 2) (bench .spi (wr .spi))) (fun t => (busTrace t.trace)[1]? == some (.busWrite [0x40, 0xD4, 0x20, 0x00])) = true := by
  decide +kernel

/-- 95 section 2.1, its header on the bus -/
theorem test_spiHdrWriteSts :
    ends (exec (.spiHdrWriteSts 3 0) (bench .spi (wr .spi))) (fun t => (busTrace t.trace)[1]? == some (.busWrite [0x43, 0xD4, 0x00, 0x18])) = true := by
  decide +kernel

/-- 95 section 2.1, its header on the bus -/
theorem test_spiHdrWriteDataFifo :
    ends (exec (.spiHdrWriteDataFifo 9 0) (bench .spi (wr .spi))) (fun t => (busTrace t.trace)[1]? == some (.busWrite [0x49, 0xD4, 0x00, 0x24])) = true := by
  decide +kernel

/-- R117, R118 on the bus -/
theorem test_stsGoVal :
    ends (exec .stsGoVal (bench .i2c (wr .i2c))) (fun t => busTrace t.trace == [.busWrite [1, 0x20, 0, 0, 0]]) = true := by
  decide +kernel

/-- R117, R118 on the bus -/
theorem test_stsReadyVal :
    ends (exec .stsReadyVal (bench .i2c (wr .i2c))) (fun t => busTrace t.trace == [.busWrite [1, 0x40, 0, 0, 0]]) = true := by
  decide +kernel

/-- R117, R118 on the bus -/
theorem test_accessReqVal :
    ends (exec .accessReqVal (bench .i2c (wr .i2c))) (fun t => busTrace t.trace == [.busWrite [0, 0x02]]) = true := by
  decide +kernel

/-- R117, R118 on the bus -/
theorem test_accessRelVal :
    ends (exec .accessRelVal (bench .i2c (wr .i2c))) (fun t => busTrace t.trace == [.busWrite [0, 0x20]]) = true := by
  decide +kernel

/-- R343: a ReadyClear between a bus write and its wait is no transaction. -/
theorem test_lost_edge_order :
    i2cPhases 750 .rest [.readyClear, .busWrite [0x00], .readyClear, .now 0, .readyFlag true] = none := by
  decide

/-- R312: the host hands over another RSPBUF; nothing of the earlier one is left. -/
theorem test_giveRspbuf :
    (match hostMoves (.giveRspbuf [7]) (bench .i2c []) with
      | .next t => memBytes t.rspbuf 0 2
      | .fault _ => []
      | .refused _ => []) = [7, 0] := by
  decide

/-- P4: RECV is refused in IDLE. -/
theorem test_recv_refused : exec (.recv 10) (bench .spi []) = .refused .hostOrder := rfl

/-- A word fetched from the slot runs: RELEASE as the first instruction after reset waits at its first bus
write (log 4). -/
theorem test_step_runs_table_word :
    (match step (State.reset.withFetchWord 32 0x04000001) with
      | .next t => t.running.map Running.waits
      | .fault _ => none
      | .refused _ => none) = some (.busWrite [0x00]) := by
  decide +kernel

/-! ### Witnesses: a state and operands that meet a statement's hypotheses together

`witness_<Statement>`, one for each clause where a statement has several. -/

/-- A 10-byte response that declares `len` bytes. -/
def response (len : Byte) : List Byte :=
  [0x80, 0x01, 0, 0, 0, len, 0, 0, 0, 0]

theorem witness_DecodeOfEncodeIsTheInstruction :
    (Instr.send 0xFFFFFF).WellFormed ∧ (Instr.i2cAddrSts 15).WellFormed ∧
      (Instr.spiHdrReadSts 63 3).WellFormed := by decide

theorem witness_DecodedWordsAreEncodings :
    decodesTo .spiHdr [0xFF, 0xD4, 0x30, 0x24] (.spiHdrReadDataFifo 63 3) = true := by decide +kernel

theorem witness_HostOpcodeMap_reserved :
    ∃ (s : State) (r : Reject), s.attached = true ∧ s.running = none ∧
      s.slot = some { fmt := .hcmd, bytes := beBytes4 0xFF123456 } ∧ decodeHcmd 0xFF123456 = .error r :=
  ⟨{ State.reset with slot := some { fmt := .hcmd, bytes := beBytes4 0xFF123456 } }, .reservedOpcode,
    rfl, rfl, rfl, rfl⟩

theorem witness_HostOpcodeMap_bounds : (0xFF : Nat) < 256 ∧ 0xFFFFFF < 2 ^ 24 := by decide

theorem witness_HostOpcodeMap_opcodes :
    decodeHcmd (0x01 * 2 ^ 24 + 0) = .ok .probe ∧
      decodeHcmd (0x04 * 2 ^ 24 + 1) = .ok (.release true) ∧
      decodeHcmd (0x04 * 2 ^ 24 + 2) = .error .reservedOperandBits ∧
      decodeHcmd (0x05 * 2 ^ 24 + 0) = .ok .shutdown ∧
      decodeHcmd (0x05 * 2 ^ 24 + 1) = .error .reservedOperandBits ∧
      decodeHcmd (0x06 * 2 ^ 24 + 0) = .error .reservedOpcode := ⟨rfl, rfl, rfl, rfl, rfl, rfl⟩

theorem witness_SpiHeaderLayout : (3 : Nat) ≤ 3 ∧ 1 ≤ 1 ∧ 1 ≤ 64 ∧ 64 ≤ 64 := by decide

theorem witness_WireAddressesAreTableWords : (15 : Nat) ≤ 15 ∧ 3 ≤ 3 ∧ 63 ≤ 63 := by decide

theorem witness_StepRunsTheDecodedWord :
    ∃ s : State, s.attached = true ∧ s.running = none ∧
      s.slot = some { fmt := .uop, bytes := [0x31] } ∧ decodeAs .uop [0x31] = .ok .readStatus :=
  ⟨{ State.reset with slot := some { fmt := .uop, bytes := [0x31] } }, rfl, rfl, rfl, rfl⟩

/-- A machine with an instruction in progress. -/
def midway : State :=
  { State.reset with
    running := some { instr := .probe, start := State.reset.toEngine, waits := .now } }

theorem witness_StepRunsTheDecodedWord_busy :
    ∃ s : State, s.running ≠ none ∧ s.slot ≠ none :=
  ⟨{ midway with slot := some { fmt := .uop, bytes := [0x31] } }, by simp [midway], by simp⟩

theorem witness_CarryingOnIsRunningWithMoreAnswers :
    ∃ (s t : State) (r : Running), exec .probe s = .next t ∧ t.running = some r ∧ s.slot = none :=
  ⟨State.reset, _, _, rfl, rfl, rfl⟩

theorem witness_MoreAnswersOnlyExtendTheTrace :
    ∃ (s t t' : State) (as : List Answer), exec .probe s = .next t ∧
      exec .probe { s with toEngine := { s.toEngine with inbox := s.inbox ++ as } } = .next t' :=
  ⟨State.reset, _, _, [fine], rfl, rfl⟩

theorem witness_MoreAnswersOnlyExtendTheTrace_ended :
    ∃ (s t : State), exec .readStatus s = .next t ∧ t.running = none :=
  ⟨bench .i2c (fail .i2c), _, rfl, rfl⟩

theorem witness_AttachAcceptsExactlyR10 :
    (∃ t, attachHandle (Cfg.standard .spi) State.reset = .next t) ∧
      (∃ r, attachHandle { Cfg.standard .spi with loc := 4 } State.reset = .refused r) :=
  ⟨⟨_, rfl⟩, ⟨_, rfl⟩⟩

theorem witness_AttachAndDetach :
    (∃ t, attachHandle (Cfg.standard .i2c) State.reset = .next t) ∧
      ∃ s : State, s.attached = false ∧ s.running = none ∧ s.slot ≠ none :=
  ⟨⟨_, rfl⟩,
    { State.reset with attached := false, slot := some { fmt := .uop, bytes := [0x31] } }, rfl, rfl, by simp⟩

theorem witness_HostCommandGating :
    (isHostCommand .probe = true ∧ ({ State.reset with busy := true } : State).busy = true) ∧
      State.reset.busy = false ∧ exec (.recv 10) State.reset = .refused .hostOrder :=
  ⟨⟨rfl, rfl⟩, rfl, rfl⟩

theorem witness_StopsAreTheListedOnes :
    exec .spiRead State.reset = .refused .otherTransport ∧
      exec (.i2cAddrSts 16) (bench .i2c []) = .refused .localityRange ∧
      exec .fifoWriteBody (given .i2c { Args.zero with len := 13, src := .shutdownCmd }
        (poll .i2c 0x80 20)) = .fault (.bufferRange 12) ∧
      isHostCommand (.send 0xFFFFFF) = true ∧ (Instr.send 0xFFFFFF).WellFormed :=
  ⟨rfl, rfl, rfl, rfl, by decide⟩

/-- A handle with a word in the slot. -/
def loaded : State :=
  { bench .i2c (fail .i2c) with slot := some { fmt := .uop, bytes := [0x31] } }

theorem witness_StepKeepsTheInvariant :
    loaded.Inv ∧ ∃ t, step loaded = .next t :=
  ⟨{ engine := ⟨by decide, by decide, by decide, fun _ => by decide, fun _ _ => rfl, by decide, by decide,
        fun _ => rfl⟩
     quiet := fun _ => ⟨rfl, rfl, rfl, by decide⟩
     started := fun r h => by cases h }, _, rfl⟩

/-- A finished run with its events: the shape of the hypotheses of the frame and trace statements. -/
theorem witness_frames :
    ∃ (s t : State) (evs : List Event), exec .readStatus s = .next t ∧ t.trace = s.trace ++ evs ∧
      t.running = none ∧ s.cfg.transport = .i2c ∧ s.cfg.ok = true ∧ Memory.wf s.rspbuf = true :=
  ⟨bench .i2c (rd .i2c [0x80, 1, 0, 0]), _, _, rfl, rfl, rfl, rfl, by decide, rfl⟩

theorem witness_ClockNeverFalls :
    (∃ t, loaded.running = none ∧ step loaded = .next t) ∧
    ∃ (s t u : State) (as : List Answer), exec .readStatus s = .next t ∧ t.running ≠ none ∧
      step { t with toEngine := { t.toEngine with inbox := as } } = .next u :=
  ⟨⟨_, rfl, rfl⟩, bench .i2c [wait 7], _, _, [fine], rfl, by simp, rfl⟩

theorem witness_FrameOfTheSession :
    (∃ t, exec .readStatus State.reset = .next t ∧ isHostCommand .readStatus = false) ∧
      ∃ t, exec .probe State.reset = .next t ∧ isHostCommand .probe = true :=
  ⟨⟨_, rfl, rfl⟩, ⟨_, rfl, rfl⟩⟩

theorem witness_FrameOfEveryInstruction :
    (∃ t, exec .readStatus (bench .i2c (rd .i2c [0x80, 1, 0, 0])) = .next t ∧ t.running = none) ∧
      ∃ t, exec .readStatus (bench .spi (rd .spi [0x80, 1, 0, 0])) = .next t ∧ t.running = none :=
  ⟨⟨_, rfl, rfl⟩, ⟨_, rfl, rfl⟩⟩

theorem witness_FrameOfTheWorkingRegisters :
    ∃ t, exec .checkLocality (bench .i2c (rd .i2c [0xA0])) = .next t ∧ t.running = none := ⟨_, rfl, rfl⟩

theorem witness_ReadyClearedBeforeEveryBusWrite :
    (∃ (s t : State) (evs : List Event), s.cfg.transport = .i2c ∧ exec .writeGo s = .next t ∧
      t.trace = s.trace ++ evs ∧ t.running = none) ∧
    (∃ (s t : State) (evs : List Event), s.cfg.transport = .i2c ∧ exec .readyWait s = .next t ∧
      t.trace = s.trace ++ evs ∧ t.running = none ∧ t.ret = .err (.timeout .ready)) :=
  ⟨⟨bench .i2c (wr .i2c), _, _, rfl, rfl, rfl, rfl⟩,
    ⟨bench .i2c [fine, fine, wait 750], _, _, rfl, rfl, rfl, rfl, rfl⟩⟩

theorem witness_FrameOfTheResponseBuffer :
    ∃ (s t : State) (evs : List Event), exec .fifoReadBody s = .next t ∧ t.trace = s.trace ++ evs ∧
      Memory.wf s.rspbuf = true :=
  ⟨given .i2c { Args.zero with cap := 10 } (poll .i2c 0x90 10 ++ rd .i2c (response 10)), _, _, rfl, rfl,
    rfl⟩

theorem witness_I2cReadResult_deadline :
    ∃ (s : State) (w n f l d : Answer) (rest : List Answer), s.cfg.transport = .i2c ∧ s.readyPath = true ∧
      s.args.loc ≤ 15 ∧ s.args.n ≤ s.cfg.maxXfer ∧ s.inbox = w :: n :: f :: l :: d :: rest ∧ w.err = none ∧
      d.err = none ∧ (w.edge || n.edge || f.edge) = false ∧ l.edge = true ∧ d.bytes.length = s.args.n ∧
      s.cfg.tIrq * s.cfg.clkPerMs ≤ f.ticks + l.ticks :=
  ⟨given .i2c { Args.zero with n := 1 } [fine, fine, wait 749, { wait 1 with edge := true }, data [7]],
    _, _, _, _, _, _, rfl, rfl, by decide, by decide, rfl, rfl, rfl, rfl, rfl, rfl, by decide⟩

theorem witness_I2cReadResult :
    ∃ (s : State) (w n f d : Answer) (rest : List Answer), s.cfg.transport = .i2c ∧ s.readyPath = true ∧
      s.args.loc ≤ 15 ∧ s.args.n ≤ s.cfg.maxXfer ∧ s.inbox = w :: n :: f :: d :: rest ∧ w.err = none ∧
      d.err = none ∧ (w.edge || n.edge || f.edge) = true ∧ d.bytes.length = s.args.n :=
  ⟨given .i2c { Args.zero with loc := 15, n := 1 } [fine, fine, irq, data [7]], _, _, _, _, _, rfl, rfl,
    by decide, by decide, rfl, rfl, rfl, rfl, rfl⟩

theorem witness_I2cWriteResult :
    ∃ (s : State) (w n f : Answer) (rest : List Answer), s.cfg.transport = .i2c ∧ s.readyPath = true ∧
      s.args.loc ≤ 15 ∧ s.cfg.ok = true ∧ s.args.payload.length ≤ s.cfg.maxXfer ∧
      s.inbox = w :: n :: f :: rest ∧ w.err = none ∧ (w.edge || n.edge || f.edge) = true :=
  ⟨given .i2c { Args.zero with payload := List.replicate 64 1 } [irq, fine, fine], _, _, _, _, rfl, rfl,
    by decide, by decide, by decide, rfl, rfl, rfl⟩

theorem witness_I2cReadErrorExits :
    (∃ (s : State) (w : Answer) (rest : List Answer), s.cfg.transport = .i2c ∧ s.readyPath = true ∧
      s.inbox = w :: rest ∧ w.err = some 5) ∧
    (∃ (s : State) (w n f d : Answer) (rest : List Answer), s.cfg.transport = .i2c ∧
      s.inbox = w :: n :: f :: d :: rest ∧ w.err = none ∧ (w.edge || n.edge || f.edge) = true ∧
      d.err = some 5) ∧
    (∃ (s : State) (w n f l : Answer) (rest : List Answer), s.cfg.transport = .i2c ∧
      s.inbox = w :: n :: f :: l :: rest ∧ w.err = none ∧ (w.edge || n.edge || f.edge || l.edge) = false ∧
      s.cfg.tIrq * s.cfg.clkPerMs ≤ f.ticks + l.ticks) :=
  ⟨⟨bench .i2c [bad], _, _, rfl, rfl, rfl, rfl⟩,
    ⟨bench .i2c [fine, fine, irq, bad], _, _, _, _, _, rfl, rfl, rfl, rfl, rfl⟩,
    ⟨bench .i2c [fine, fine, wait 1, wait 749], _, _, _, _, _, rfl, rfl, rfl, rfl, by decide⟩⟩

theorem witness_LengthIsCheckedBeforeTheBus :
    (∃ s : State, s.cfg.transport = .i2c ∧ s.args.loc ≤ 15 ∧ s.cfg.maxXfer < s.args.n ∧
      s.cfg.maxXfer < s.args.payload.length) ∧
    (∃ s : State, s.cfg.transport = .spi ∧ s.args.loc ≤ 3 ∧ s.args.n = 0 ∧ s.args.payload.length = 0) :=
  ⟨⟨given .i2c { Args.zero with n := 65, payload := List.replicate 65 0 } [], rfl, by decide, by decide,
      by decide⟩,
    ⟨given .spi { Args.zero with loc := 3 } [], rfl, by decide, rfl, rfl⟩⟩

theorem witness_ReadyWaitResult :
    (∃ (s : State) (n f : Answer) (rest : List Answer), s.cfg.transport = .i2c ∧ s.readyPath = true ∧
      s.inbox = n :: f :: rest ∧ (s.ready || n.edge || f.edge) = true) ∧
    (∃ (s : State) (n f l g : Answer) (rest : List Answer), s.cfg.transport = .i2c ∧
      s.inbox = n :: f :: l :: g :: rest ∧ (s.ready || n.edge || f.edge) = false ∧
      f.ticks + l.ticks < s.cfg.tIrq * s.cfg.clkPerMs ∧ (l.edge || g.edge) = true) ∧
    (∃ (s s' : State) (n f l l' : Answer) (rest : List Answer), s.cfg.transport = .i2c ∧
      s.inbox = n :: f :: l :: rest ∧ (s.ready || n.edge || f.edge) = false ∧
      s.cfg.tIrq * s.cfg.clkPerMs ≤ f.ticks + l.ticks ∧ l.edge = false ∧
      s'.inbox = n :: f :: l' :: rest ∧ l'.edge = true ∧
      s'.cfg.tIrq * s'.cfg.clkPerMs ≤ f.ticks + l'.ticks) :=
  ⟨⟨bench .i2c [fine, irq], _, _, _, rfl, rfl, rfl, rfl⟩,
    ⟨bench .i2c [fine, fine, wait 749, irq], _, _, _, _, _, rfl, rfl, rfl, by decide, rfl⟩,
    ⟨bench .i2c [fine, fine, wait 750], bench .i2c [fine, fine, { wait 750 with edge := true }], _, _, _, _,
      _, rfl, rfl, rfl, by decide, rfl, rfl, rfl, by decide⟩⟩

theorem witness_SpiTransactionResults :
    ∃ (s : State) (l h n q d : Answer) (rest : List Answer) (stall : Byte), s.cfg.transport = .spi ∧
      s.readyPath = false ∧ s.args.loc ≤ 3 ∧ s.inbox = l :: h :: n :: q :: d :: rest ∧
      l.lockFree = true ∧ h.err = none ∧ q.err = none ∧ q.bytes = [stall] ∧ stall.getLsbD 0 = true ∧
      d.err = none ∧ 1 ≤ s.args.n ∧ s.args.n ≤ s.cfg.maxXfer ∧ d.bytes.length = s.args.n ∧
      1 ≤ s.args.payload.length ∧ s.args.payload.length ≤ s.cfg.maxXfer ∧
      s.args.n = s.args.payload.length :=
  ⟨given .spi { Args.zero with loc := 3, n := 1, payload := [9] } (rd .spi [7]), _, _, _, _, _, _, 0x01,
    rfl, rfl, by decide, rfl, rfl, rfl, rfl, rfl, by decide, rfl, by decide, by decide, rfl, by decide,
    by decide, rfl⟩

theorem witness_SpiStallPoll :
    ∃ (s s' : State) (l h n q c c' q2 d : Answer) (rest : List Answer) (stall go : Byte),
      s.cfg.transport = .spi ∧ s.args.loc ≤ 3 ∧ 1 ≤ s.args.n ∧ s.args.n ≤ s.cfg.maxXfer ∧
      l.lockFree = true ∧ h.err = none ∧ q.err = none ∧ q.bytes = [stall] ∧ stall.getLsbD 0 = false ∧
      s.inbox = l :: h :: n :: q :: c :: q2 :: d :: rest ∧
      q.ticks + c.ticks < s.cfg.tSpi * s.cfg.clkPerMs ∧ q2.err = none ∧ q2.bytes = [go] ∧
      go.getLsbD 0 = true ∧ d.err = none ∧ d.bytes.length = s.args.n ∧
      s'.inbox = l :: h :: n :: q :: c' :: rest ∧ s'.cfg.tSpi * s'.cfg.clkPerMs ≤ q.ticks + c'.ticks :=
  ⟨given .spi { Args.zero with n := 1 } [fine, fine, fine, data [0xFE], wait 99, data [0xFF], data [7]],
    given .spi { Args.zero with n := 1 } [fine, fine, fine, data [0xFE], wait 100], _, _, _, _, _, _, _, _,
    _, 0xFE, 0xFF, rfl, by decide, by decide, by decide, rfl, rfl, rfl, rfl, by decide, rfl, by decide, rfl,
    rfl, by decide, rfl, rfl, rfl, by decide⟩

theorem witness_TransportErrorLeavesNoPartialState :
    (∃ (s t : State), s.toEngine.Inv ∧ s.lock ≠ .engine ∧ exec .i2cRead s = .next t ∧ t.running = none ∧
      t.ret = .err (.io 5)) ∧
    (∃ (s t : State), s.toEngine.Inv ∧ s.lock ≠ .engine ∧ exec .readyWait s = .next t ∧ t.running = none ∧
      t.ret = .err (.timeout .ready)) :=
  ⟨⟨bench .i2c [bad], _,
      ⟨by decide, by decide, by decide, fun _ => by decide, fun _ _ => rfl, by decide, by decide,
        fun _ => rfl⟩, by decide, rfl, rfl, rfl⟩,
    ⟨bench .i2c [fine, fine, wait 750], _,
      ⟨by decide, by decide, by decide, fun _ => by decide, fun _ _ => rfl, by decide, by decide,
        fun _ => rfl⟩, by decide, rfl, rfl, rfl⟩⟩

theorem witness_SpiBusOperationsAreLocked :
    (∃ (s t : State) (evs : List Event), s.cfg.transport = .spi ∧ s.lock ≠ .engine ∧
      exec .readStatus s = .next t ∧ t.trace = s.trace ++ evs ∧ t.running = none) ∧
    (∃ (s t : State) (evs : List Event), s.cfg.transport = .spi ∧ s.lock ≠ .engine ∧
      exec .readStatus s = .next t ∧ t.trace = s.trace ++ evs ∧ t.running ≠ none) :=
  ⟨⟨bench .spi (rd .spi [0x80, 1, 0, 0]), _, _, rfl, by decide, rfl, rfl, rfl⟩,
    ⟨bench .spi [fine, fine], _, _, rfl, by decide, rfl, rfl, by simp⟩⟩

theorem witness_HostCommandsWriteListedAccessesOnly (t : Transport) :
    ∃ (s u : State) (evs : List Event), s.cfg.transport = t ∧ isHostCommand .probe = true ∧
      exec .probe s = .next u ∧ u.trace = s.trace ++ evs ∧ u.running = none ∧
      u.result = .ok (.family .cr50) := by
  cases t
  · exact ⟨bench .i2c (rd .i2c [0xA0] ++ rd .i2c [0xE0, 0x1A, 0x28, 0]), _, _, rfl, rfl, rfl, rfl, rfl, rfl⟩
  · exact ⟨bench .spi (rd .spi [0xA0] ++ rd .spi [0xE0, 0x1A, 0x28, 0]), _, _, rfl, rfl, rfl, rfl, rfl, rfl⟩

theorem witness_I2cAddressRowsComplete :
    ∃ (s : State) (w n f : Answer) (rest : List Answer), s.cfg.transport = .i2c ∧
      s.cfg.map = .standard ∧ s.readyPath = true ∧ s.inbox = w :: n :: f :: rest ∧ w.err = none ∧
      f.edge = true ∧ 15 ≤ 15 :=
  ⟨bench .i2c (wr .i2c), _, _, _, _, rfl, rfl, rfl, rfl, rfl, rfl, by decide⟩

theorem witness_SpiHeaderRowsComplete :
    (∃ (s : State) (as rest : List Answer), 63 + 1 ≤ s.cfg.maxXfer ∧ s.cfg.transport = .spi ∧
      s.cfg.map = .standard ∧ s.inbox = as ++ rest ∧ (List.replicate 64 (7 : Byte)).length = 63 + 1 ∧
      AnswersRead .spi (List.replicate 64 7) as) ∧
    (∃ (s : State) (as rest : List Answer), s.cfg.transport = .spi ∧ s.inbox = as ++ rest ∧
      AnswersWrite .spi as) :=
  ⟨⟨bench .spi (rd .spi (List.replicate 64 7) ++ []), _, [], by decide, rfl, rfl, rfl, rfl, rd_answers _ _⟩,
    ⟨bench .spi (wr .spi ++ []), _, [], rfl, rfl, wr_answers _⟩⟩

/-- A handle that serves, and a register transaction answered with a read, a write or a failure: the
hypotheses the locality, status and FIFO statements share, on either transport. -/
theorem witness_answers (t : Transport) (bs : List Byte) :
    (bench t (rd t bs)).toEngine.Serves ∧ (bench t (rd t bs)).cfg.map = .standard ∧
      (bench t (rd t bs)).inbox = rd t bs ∧ AnswersRead (bench t []).cfg.transport bs (rd t bs) ∧
      AnswersWrite (bench t []).cfg.transport (wr t) ∧
      AnswersFail (bench t []).cfg.transport 5 (fail t) :=
  ⟨bench_serves t _, rfl, rfl, rd_answers t bs, wr_answers t, fail_answers t⟩

theorem witness_RegisterValueWrites (t : Transport) :
    (Instr.accessRelVal, Kind.access, ([0x20] : List Byte)) ∈
        [(Instr.stsGoVal, Kind.sts, ([0x20, 0, 0, 0] : List Byte)), (.writeGo, .sts, [0x20, 0, 0, 0]),
          (.stsReadyVal, .sts, [0x40, 0, 0, 0]), (.setReady, .sts, [0x40, 0, 0, 0]),
          (.accessReqVal, .access, [0x02]), (.accessRelVal, .access, [0x20])] ∧
      (bench t (wr t ++ [])).toEngine.Serves ∧ (bench t (fail t ++ [])).toEngine.Serves ∧
      AnswersWrite (bench t []).cfg.transport (wr t) ∧
      AnswersFail (bench t []).cfg.transport 5 (fail t) :=
  ⟨by decide, bench_serves t _, bench_serves t _, wr_answers t, fail_answers t⟩

theorem witness_CheckLocalityResult (t : Transport) :
    (bench t (rd t [0xA0] ++ [])).toEngine.Serves ∧
      (bench t (rd t [0xA0] ++ [])).inbox = rd t [0xA0] ++ [] ∧
      AnswersRead (bench t []).cfg.transport [0xA0] (rd t [0xA0]) ∧
      (bench t (fail t ++ [])).inbox = fail t ++ [] ∧
      AnswersFail (bench t []).cfg.transport 5 (fail t) :=
  ⟨bench_serves t _, rfl, rd_answers t _, rfl, fail_answers t⟩

/-- A failed read, seen as what the transport returns. -/
theorem witness_CheckLocalityResult_fails :
    (∃ er e1, regRead .access 1 (bench .i2c (fail .i2c)).toEngine = .error (.raised er) e1) ∧
      (∃ er e1, regRead .sts 4 (bench .i2c (fail .i2c)).toEngine = .error (.raised er) e1) :=
  ⟨⟨_, _, rfl⟩, ⟨_, _, rfl⟩⟩

/-- LM11, LM12 and LM13: a first check that fails on the bus, a REQUEST_USE write that fails, and checks
after the write that fail on a byte, on the bus and by a wait that runs out; the last of three passes. -/
theorem witness_RequestLocalityResult (t : Transport) :
    (bench t []).toEngine.Serves ∧ 1 ≤ (setup t).locTries ∧ (setup t).locTries ≤ 255 ∧
    (∃ tr0, ReadDone (setup t) .access 1 (.error (.io 5)) (fail t) tr0) ∧
    (∃ tr0, ReadDone (setup t) .access 1 (.ok [0x80]) (rd t [0x80]) tr0) ∧
    checkPasses (setup t) (.error (.io 5)) = false ∧ checkPasses (setup t) (.ok [0x80]) = false ∧
    (∃ trw, WriteDone (setup t) .access (accessReqBytes (setup t).map) (.error (.io 5)) (fail t) trw) ∧
    (∃ trw, WriteDone (setup t) .access (accessReqBytes (setup t).map) (.ok ()) (wr t) trw) ∧
    (∃ trc, ChecksDone (setup t) ([.ok [0x80], .error (.io 5)] ++ [.ok [0xA0]])
      (rd t [0x80] ++ fine :: (fail t ++ fine :: rd t [0xA0])) trc) ∧
    (∃ trc, ChecksDone (setup t) ([.ok [0x80], .error (lateErr t)] ++ [.error (.io 5)])
      (rd t [0x80] ++ fine :: (late t ++ fine :: fail t)) trc) ∧
    checkPasses (setup t) (.error (lateErr t)) = false ∧ checkPasses (setup t) (.ok [0xA0]) = true ∧
    2 + 1 = (setup t).locTries :=
  ⟨bench_serves t _, by cases t <;> decide, by cases t <;> decide, ⟨_, rd_failed t _ _⟩,
    ⟨_, rd_done t _ _⟩, rfl, by cases t <;> decide, ⟨_, wr_failed t _ _⟩, ⟨_, wr_done t _ _⟩,
    ⟨_, _, _, _, _, _, rd_done t _ _, ⟨_, _, _, _, _, rd_failed t _ _, rd_done t _ _, rfl, rfl⟩, rfl, rfl⟩,
    ⟨_, _, _, _, _, _, rd_done t _ _, ⟨_, _, _, _, _, rd_late t _ _, rd_failed t _ _, rfl, rfl⟩, rfl, rfl⟩,
    rfl, by cases t <;> decide, by cases t <;> rfl⟩

theorem witness_LocalityManagerProperties (t : Transport) :
    (bench t (rd t [0xA1] ++ [])).toEngine.Serves ∧
      localityOk (bench t []).cfg.map 0xA1 = true ∧
      (given t { Args.zero with force := true } (rd t [0x00] ++ wr t ++ [])).toEngine.Serves ∧
      (given t { Args.zero with force := true } []).args.force = true ∧
      releaseWanted (bench t []).cfg.map 0x84 = true ∧
      (bench t []).args.force = false ∧ releaseWanted (bench t []).cfg.map 0x24 = false ∧
      ((bench t []).cfg.releaseWriteOnReadFail && (bench t []).args.force) = false ∧
      AnswersRead t [0x84] (rd t [0x84]) ∧ AnswersWrite t (wr t) ∧ AnswersFail t 5 (fail t) :=
  ⟨bench_serves t _, by cases t <;> decide, given_serves t _ _, rfl, by cases t <;> decide, rfl,
    by cases t <;> decide, rfl, rd_answers t _, wr_answers t, fail_answers t⟩

theorem witness_LocalityManagerProperties_ends :
    (∃ t, exec .releaseLocality (bench .i2c [bad]) = .next t ∧ t.running = none) ∧
      ({ Cfg.standard .i2c with releaseWriteOnReadFail := true } : Cfg).ok = true :=
  ⟨⟨_, rfl, rfl⟩, by decide⟩

theorem witness_GetBurstAndStatusResult (t : Transport) :
    (given t { Args.zero with mask := 0x90 } (fine :: rd t [0x90, 63, 0, 0] ++ [])).toEngine.Serves ∧
      AnswersRead t [0x90, 63, 0, 0] (rd t [0x90, 63, 0, 0]) ∧
      accept 64 0x90 (snapStatus [0x90, 63, 0, 0]) (snapBurst [0x90, 63, 0, 0]) = true ∧
      AnswersFail t 5 (fail t) ∧ AnswersRead t [0x90, 64, 0, 0] (rd t [0x90, 64, 0, 0]) ∧
      accept 64 0x90 (snapStatus [0x90, 64, 0, 0]) (snapBurst [0x90, 64, 0, 0]) = false ∧
      2000 * 1 ≤ ticksOf (rd t [0x90, 64, 0, 0]) + 0 + 2 * 1 + 1998 ∧
      ticksOf (rd t [0x90, 64, 0, 0]) + 0 + 2 * 1 + 1997 < 2000 * 1 :=
  ⟨given_serves t _ _, rd_answers t _, by decide, fail_answers t, rd_answers t _, by decide,
    by cases t <;> decide, by cases t <;> decide⟩

theorem witness_AcceptedBurstsAreInRange :
    (∃ t, exec .getBurstAndStatus (given .i2c { Args.zero with mask := 0x80 } (poll .i2c 0x80 63)) = .next t ∧
      t.running = none) ∧
    (∃ t v, exec .fifoWriteBody (bench .i2c (poll .i2c 0x80 1)) = .next t ∧ t.running = none ∧
      t.ret = .ok v) :=
  ⟨⟨_, rfl, rfl⟩, ⟨_, _, rfl, rfl, rfl⟩⟩

theorem witness_ReadStatusResult (t : Transport) :
    (bench t (rd t [0xC0, 0, 0, 0] ++ [])).toEngine.Serves ∧
      AnswersRead t [0xC0, 0, 0, 0] (rd t [0xC0, 0, 0, 0]) ∧ AnswersFail t 5 (fail t) :=
  ⟨bench_serves t _, rd_answers t _, fail_answers t⟩

theorem witness_ReadStatusResult_ends :
    ∃ t, exec .readStatus (bench .i2c [bad]) = .next t ∧ t.running = none := ⟨_, rfl, rfl⟩

theorem witness_TimeoutsComeAfterTheirBudget :
    (∃ t, exec .readyWait (bench .i2c [fine, fine, wait 750]) = .next t ∧ t.running = none ∧
      t.ret = .err (.timeout .ready)) ∧
    (∃ t, exec .i2cRead (bench .i2c [fine, fine, fine, wait 750]) = .next t ∧ t.running = none ∧
      t.ret = .err (.timeout .ready)) ∧
    (∃ t, exec .spiRead (given .spi { Args.zero with n := 1 } [fine, fine, fine, data [0], wait 100]) =
      .next t ∧ t.running = none ∧ t.ret = .err (.timeout .spiStall)) ∧
    (∃ t, exec .getBurstAndStatus (bench .i2c [fine, bad, fine, wait 1998]) = .next t ∧
      t.running = none ∧ t.ret = .err (.timeout .status)) ∧
    (∃ t, exec .waitCommandReady (bench .i2c [fine, bad, wait 2000]) = .next t ∧
      t.running = none ∧ t.ret = .err (.timeout .commandReady)) :=
  ⟨⟨_, rfl, rfl, rfl⟩, ⟨_, rfl, rfl, rfl⟩, ⟨_, rfl, rfl, rfl⟩, ⟨_, rfl, rfl, rfl⟩, ⟨_, rfl, rfl, rfl⟩⟩

theorem witness_WaitCommandReadyResult (t : Transport) :
    (bench t (fine :: rd t [0x40, 0, 0, 0] ++ [])).toEngine.Serves ∧
      AnswersRead t [0x40, 0, 0, 0] (rd t [0x40, 0, 0, 0]) ∧
      cmdReady (bench t []).cfg.map (snapStatus [0x40, 0, 0, 0]) = true ∧
      AnswersRead t [0x80, 0, 0, 0] (rd t [0x80, 0, 0, 0]) ∧
      cmdReady (bench t []).cfg.map (snapStatus [0x80, 0, 0, 0]) = false ∧ AnswersWrite t (wr t) ∧
      2000 * 1 ≤ ticksOf (rd t [0x80, 0, 0, 0]) + 2000 ∧
      ticksOf (rd t [0x80, 0, 0, 0]) + 1999 < 2000 * 1 :=
  ⟨bench_serves t _, rd_answers t _, by cases t <;> decide, rd_answers t _, by cases t <;> decide,
    wr_answers t, by cases t <;> decide, by cases t <;> decide⟩

theorem witness_FifoWriteBodyResult (t : Transport) :
    (given t { Args.zero with len := 62 } []).toEngine.Serves ∧ 62 ≤ sourceSize .cmdbuf ∧
      (0 : Nat) < 62 ∧ (bench t []).args.len = 0 ∧
      (∃ ftr, PollDone (setup t) (maskValid .standard) [0x80, 1, 0, 0] (poll t 0x80 1) ftr) ∧
      (∃ ptr, PollDone (setup t) (maskValid .standard) [0x80, 63, 0, 0] (poll t 0x80 63) ptr) ∧
      62 + 1 ≤ (snapBurst [0x80, 63, 0, 0]).toNat ∧
      (∃ ptr, PollDone (setup t) (maskValid .standard) [0x80, 62, 0, 0] (poll t 0x80 62) ptr) ∧
      (snapBurst [0x80, 62, 0, 0]).toNat = 61 + 1 ∧ 1 ≤ 61 ∧ 61 < 62 ∧
      (∃ ptr2, PollDone (setup t) (maskValidExpect .standard) [0x88, 2, 0, 0] (pollAgain t 0x88 2) ptr2) ∧
      62 - 61 + 1 ≤ (snapBurst [0x88, 2, 0, 0]).toNat ∧ AnswersWrite t (wr t) :=
  ⟨given_serves t _ _, by decide, by decide, rfl, ⟨_, poll_done t _ _ _ (by decide)⟩,
    ⟨_, poll_done t _ _ _ (by decide)⟩, by decide, ⟨_, poll_done t _ _ _ (by decide)⟩, by decide, by decide,
    by decide, ⟨_, poll_again t _ _ _ (by decide) (by decide)⟩, by decide, wr_answers t⟩

theorem witness_FifoPayloadsAreTheCommand :
    ∃ (s t : State) (evs : List Event), s.cfg.map = .standard ∧ s.cfg.ok = true ∧
      s.args.len ≤ sourceSize s.args.src ∧ exec .fifoWriteBody s = .next t ∧ t.trace = s.trace ++ evs ∧
      t.running = none ∧ t.ret = .ok .unit :=
  ⟨given .i2c { Args.zero with len := 1 } (poll .i2c 0x80 2 ++ wr .i2c ++ poll .i2c 0x80 1), _, _, rfl,
    by decide, by decide, rfl, rfl, rfl, rfl⟩

theorem witness_BurstOneNeverEndsOnI2c (t : Transport) :
    (given t { Args.zero with len := 5 } []).toEngine.Serves ∧ (0 : Nat) < 5 ∧ 5 ≤ sourceSize .cmdbuf ∧
      snapBurst [0x80, 1, 0, 0] = 1 ∧
      accept 64 (maskValid .standard) (snapStatus [0x80, 1, 0, 0]) (snapBurst [0x80, 1, 0, 0]) = true ∧
      AnswersRead t [0x80, 1, 0, 0] (rd t [0x80, 1, 0, 0]) ∧ AnswersWrite .i2c (wr .i2c) ∧
      (given .i2c { Args.zero with len := 5 }
        (List.replicate 2 (fine :: rd .i2c [0x80, 1, 0, 0] ++ wr .i2c)).flatten).inbox =
        (List.replicate 2 (fine :: rd .i2c [0x80, 1, 0, 0] ++ wr .i2c)).flatten :=
  ⟨given_serves t _ _, by decide, by decide, by decide, by decide, rd_answers t _, wr_answers _, rfl⟩

theorem witness_FifoReadBodyResult (t : Transport) :
    (given t { Args.zero with cap := 20 } []).toEngine.Serves ∧
      (∃ ptr, PollDone (setup t) (maskValidAvail .standard) [0x90, 10, 0, 0] (pollAgain t 0x90 10) ptr) ∧
      (∃ ftr, PollDone (setup t) (maskValid .standard) [0x80, 63, 0, 0] (poll t 0x80 63) ftr) ∧
      (given t Args.zero []).cfg.hdrSize ≤ (snapBurst [0x90, 10, 0, 0]).toNat ∧
      (snapBurst [0x90, 10, 0, 0]).toNat ≤ 20 ∧ 20 ≤ bufSize ∧
      (response 10).length = (snapBurst [0x90, 10, 0, 0]).toNat ∧
      AnswersRead t (response 10) (rd t (response 10)) ∧ (declaredLength (response 10)).toNat ≤ 20 ∧
      (declaredLength (response 10)).toNat ≤ (response 10).length ∧
      (response 20).length < (declaredLength (response 20)).toNat ∧
      (declaredLength (response 20)).toNat ≤ 20 ∧
      (declaredLength (response 20)).toNat - (response 20).length ≤ (snapBurst [0x90, 10, 0, 0]).toNat ∧
      (List.replicate 10 (3 : Byte)).length = (declaredLength (response 20)).toNat - (response 20).length :=
  ⟨given_serves t _ _, ⟨_, poll_again t _ _ _ (by decide) (by decide)⟩,
    ⟨_, poll_done t _ _ _ (by decide)⟩, by cases t <;> decide, by decide, by decide, by decide,
    rd_answers t _, by decide, by decide, by decide, by decide, by decide, by decide⟩

theorem witness_FifoReadBodyFirstChunkChecks (t : Transport) :
    (given t { Args.zero with cap := 19 } []).toEngine.Serves ∧
      (∃ ptr, PollDone (setup t) (maskValidAvail .standard) [0x90, 9, 0, 0] (poll t 0x90 9) ptr) ∧
      (∃ ptr, PollDone (setup t) (maskValidAvail .standard) [0x90, 10, 0, 0] (pollAgain t 0x90 10) ptr) ∧
      (snapBurst [0x90, 9, 0, 0]).toNat < (given t Args.zero []).cfg.hdrSize ∧
      19 < (snapBurst [0x90, 20, 0, 0]).toNat ∧
      (given t Args.zero []).cfg.hdrSize ≤ (snapBurst [0x90, 10, 0, 0]).toNat ∧
      (snapBurst [0x90, 10, 0, 0]).toNat ≤ 19 ∧ 19 ≤ bufSize ∧
      19 < (declaredLength (response 20)).toNat ∧ AnswersRead t (response 20) (rd t (response 20)) :=
  ⟨given_serves t _ _, ⟨_, poll_done t _ _ _ (by decide)⟩,
    ⟨_, poll_again t _ _ _ (by decide) (by decide)⟩, by cases t <;> decide, by decide,
    by cases t <;> decide, by decide, by decide, by decide, rd_answers t _⟩

theorem witness_ResponseIsReconstructed :
    ∃ (s t : State) (evs : List Event) (c : Word), s.cfg.map = .standard ∧ s.cfg.ok = true ∧
      6 ≤ s.cfg.hdrSize ∧ Memory.wf s.rspbuf = true ∧ exec .fifoReadBody s = .next t ∧ t.running = none ∧
      t.trace = s.trace ++ evs ∧ t.ret = .ok (.count c) :=
  ⟨given .i2c { Args.zero with cap := 10 }
      (poll .i2c 0x90 10 ++ rd .i2c (response 10) ++ poll .i2c 0x80 1), _, _, _, rfl, by decide, by decide,
    rfl, rfl, rfl, rfl, rfl⟩

/-- A first chunk as long as the declared length, a longer one, and a shorter one with a second chunk. -/
theorem witness_ResponseIsReconstructed_clauses :
    ends (exec .fifoReadBody (given .i2c { Args.zero with cap := 10 }
        (poll .i2c 0x90 10 ++ rd .i2c (response 10) ++ poll .i2c 0x80 1)))
      (fun t => t.ret == .ok (.count 10) && (declaredLength (memBytes t.rspbuf 0 6)).toNat == 10) = true ∧
    ends (exec .fifoReadBody (given .i2c { Args.zero with cap := 10 }
        (poll .i2c 0x90 10 ++ rd .i2c (response 9) ++ poll .i2c 0x80 1)))
      (fun t => t.ret == .ok (.count 10) && (declaredLength (memBytes t.rspbuf 0 6)).toNat == 9) = true ∧
    ends (exec .fifoReadBody (given .spi { Args.zero with cap := 11 }
        (poll .spi 0x90 10 ++ rd .spi (response 11) ++ poll .spi 0x90 1 ++ rd .spi [7] ++ poll .spi 0x80 1)))
      (fun t => t.ret == .ok (.count 11) && (declaredLength (memBytes t.rspbuf 0 6)).toNat == 11) = true := by
  decide +kernel

theorem witness_CleanupResult (t : Transport) :
    (bench t (rd t [0xC0, 0, 0, 0] ++ wr t ++ rd t [0xA0] ++ wr t ++ [])).toEngine.Serves ∧
      cmdReady (bench t []).cfg.map (snapStatus [0xC0, 0, 0, 0]) = true ∧
      cmdReady (bench t []).cfg.map (snapStatus [0x80, 0, 0, 0]) = false ∧
      AnswersRead t [0xC0, 0, 0, 0] (rd t [0xC0, 0, 0, 0]) ∧
      AnswersRead t [0x80, 0, 0, 0] (rd t [0x80, 0, 0, 0]) ∧ AnswersRead t [0xA0] (rd t [0xA0]) ∧
      AnswersWrite t (wr t) :=
  ⟨bench_serves t _, by cases t <;> decide, by cases t <;> decide, rd_answers t _, rd_answers t _,
    rd_answers t _, wr_answers t⟩

theorem witness_CleanupResult_ends :
    ∃ t, exec .cleanup (bench .i2c [bad, bad]) = .next t ∧ t.running = none := ⟨_, rfl, rfl⟩

/-- The answers of a SEND of one chunk. -/
def sendAnswers (t : Transport) : List Answer :=
  rd t [0xA0] ++ fine :: rd t [0xC0, 0, 0, 0] ++ fine :: rd t [0xC0, 63, 0, 0] ++ wr t ++
    fine :: rd t [0x80, 1, 0, 0] ++ wr t ++ []

theorem witness_SendResult (t : Transport) :
    (bench t (sendAnswers t)).toEngine.Serves ∧ (bench t (sendAnswers t)).busy = false ∧
      (bench t (sendAnswers t)).sess = .idle ∧ (0 : Nat) < 62 ∧ 62 < 2 ^ 24 ∧
      (bench t (sendAnswers t)).inbox = rd t [0xA0] ++ fine :: rd t [0xC0, 0, 0, 0] ++
        fine :: rd t [0xC0, 63, 0, 0] ++ wr t ++ fine :: rd t [0x80, 1, 0, 0] ++ wr t ++ [] ∧
      AnswersRead t [0xA0] (rd t [0xA0]) ∧ localityOk (bench t []).cfg.map 0xA0 = true ∧
      AnswersRead t [0xC0, 0, 0, 0] (rd t [0xC0, 0, 0, 0]) ∧
      cmdReady (bench t []).cfg.map (snapStatus [0xC0, 0, 0, 0]) = true ∧
      AnswersRead t [0xC0, 63, 0, 0] (rd t [0xC0, 63, 0, 0]) ∧
      accept 64 (maskValid .standard) (snapStatus [0xC0, 63, 0, 0]) (snapBurst [0xC0, 63, 0, 0]) = true ∧
      62 + 1 ≤ (snapBurst [0xC0, 63, 0, 0]).toNat ∧ AnswersWrite t (wr t) ∧
      AnswersRead t [0x80, 1, 0, 0] (rd t [0x80, 1, 0, 0]) ∧
      accept 64 (maskValid .standard) (snapStatus [0x80, 1, 0, 0]) (snapBurst [0x80, 1, 0, 0]) = true ∧
      dataExpect (bench t []).cfg.map (snapStatus [0x80, 1, 0, 0]) = false :=
  ⟨bench_serves t _, rfl, rfl, by decide, by decide, rfl, rd_answers t _, by cases t <;> decide,
    rd_answers t _, by cases t <;> decide, rd_answers t _, by decide, by decide, wr_answers t,
    rd_answers t _, by decide, by cases t <;> decide⟩

theorem witness_RecvResult (t : Transport) :
    (started t (fine :: rd t [0x90, 10, 0, 0] ++ rd t (response 10) ++ fine :: rd t [0x80, 1, 0, 0] ++
        rd t [0xA0] ++ [])).toEngine.Serves ∧
      (started t []).busy = false ∧ (started t []).sess = .started ∧ 10 < 2 ^ 24 ∧
      AnswersRead t [0x90, 10, 0, 0] (rd t [0x90, 10, 0, 0]) ∧
      accept 64 (maskValidAvail .standard) (snapStatus [0x90, 10, 0, 0]) (snapBurst [0x90, 10, 0, 0]) = true ∧
      (started t []).cfg.hdrSize ≤ (snapBurst [0x90, 10, 0, 0]).toNat ∧
      (snapBurst [0x90, 10, 0, 0]).toNat ≤ 10 ∧ (response 10).length = (snapBurst [0x90, 10, 0, 0]).toNat ∧
      AnswersRead t (response 10) (rd t (response 10)) ∧
      (declaredLength (response 10)).toNat ≤ (response 10).length ∧
      dataAvail (started t []).cfg.map (snapStatus [0x80, 1, 0, 0]) = false ∧
      releaseWanted (started t []).cfg.map 0xA0 = false ∧
      releaseWanted (started t []).cfg.map 0xA4 = true ∧ AnswersWrite t (wr t) :=
  ⟨started_serves t _, rfl, rfl, by decide, rd_answers t _, by decide, by cases t <;> decide, by decide,
    by decide, rd_answers t _, by decide, by cases t <;> decide, by cases t <;> decide,
    by cases t <;> decide, wr_answers t⟩

theorem witness_ProbeResult (t : Transport) :
    (bench t (rd t [0xA0] ++ rd t [0x66, 0x66, 0x4A, 0x50] ++ [])).toEngine.Serves ∧
      (bench t []).busy = false ∧ (bench t []).sess = .idle ∧
      AnswersRead t [0xA0] (rd t [0xA0]) ∧ localityOk (bench t []).cfg.map 0xA0 = true ∧
      didVidValue [0xE0, 0x1A, 0x28, 0x00] = (bench t []).cfg.map.didVidCr50 ∧
      didVidValue [0x66, 0x66, 0x4A, 0x50] ≠ (bench t []).cfg.map.didVidCr50 ∧
      didVidValue [0x66, 0x66, 0x4A, 0x50] = (bench t []).cfg.map.didVidTi50 ∧
      didVidValue [0, 0, 0, 0] ≠ (bench t []).cfg.map.didVidCr50 ∧
      didVidValue [0, 0, 0, 0] ≠ (bench t []).cfg.map.didVidTi50 ∧ AnswersWrite t (wr t) :=
  ⟨bench_serves t _, rfl, rfl, rd_answers t _, by cases t <;> decide, by cases t <;> decide,
    by cases t <;> decide, by cases t <;> decide, by cases t <;> decide, by cases t <;> decide, wr_answers t⟩

theorem witness_ReleaseResult (t : Transport) :
    (started t (rd t [0xA4] ++ wr t ++ [])).toEngine.Serves ∧ (started t []).busy = false ∧
      AnswersRead t [0xA4] (rd t [0xA4]) ∧ AnswersWrite t (wr t) ∧
      (false || releaseWanted (started t []).cfg.map 0xA4) = true ∧
      (false || releaseWanted (started t []).cfg.map 0xA0) = false :=
  ⟨started_serves t _, rfl, rd_answers t _, wr_answers t, by cases t <;> decide, by cases t <;> decide⟩

theorem witness_ShutdownResult :
    (bench .i2c (shutdownAnswers ++ [])).toEngine.Serves ∧ (bench .i2c []).busy = false ∧
      (bench .i2c []).sess = .idle ∧ (bench .i2c []).cfg.hdrSize = 10 ∧
      shutdownAnswers ++ [] = rd .i2c [0xA0] ++ fine :: rd .i2c [0xC0, 0, 0, 0] ++
        fine :: rd .i2c [0xC0, 0x3F, 0, 0] ++ wr .i2c ++ fine :: rd .i2c [0x80, 0x3F, 0, 0] ++ wr .i2c ++
        fine :: rd .i2c [0x90, 10, 0, 0] ++ rd .i2c shutdownRsp ++ fine :: rd .i2c [0x80, 0x3F, 0, 0] ++
        rd .i2c [0xA0] ++ rd .i2c [0xA0] ++ wr .i2c ++ [] ∧
      localityOk (bench .i2c []).cfg.map 0xA0 = true ∧
      cmdReady (bench .i2c []).cfg.map (snapStatus [0xC0, 0, 0, 0]) = true ∧
      accept 64 (maskValid .standard) (snapStatus [0xC0, 63, 0, 0]) (snapBurst [0xC0, 63, 0, 0]) = true ∧
      13 ≤ (snapBurst [0xC0, 63, 0, 0]).toNat ∧
      accept 64 (maskValid .standard) (snapStatus [0x80, 63, 0, 0]) (snapBurst [0x80, 63, 0, 0]) = true ∧
      dataExpect (bench .i2c []).cfg.map (snapStatus [0x80, 63, 0, 0]) = false ∧
      dataAvail (bench .i2c []).cfg.map (snapStatus [0x80, 63, 0, 0]) = false ∧
      accept 64 (maskValidAvail .standard) (snapStatus [0x90, 10, 0, 0]) (snapBurst [0x90, 10, 0, 0]) = true ∧
      (snapBurst [0x90, 10, 0, 0]).toNat = 10 ∧ shutdownRsp.length = 10 ∧
      (declaredLength shutdownRsp).toNat ≤ 10 ∧ releaseWanted (bench .i2c []).cfg.map 0xA0 = false ∧
      Memory.wf (bench .i2c []).rspbuf = true ∧ (∀ bs, AnswersRead .i2c bs (rd .i2c bs)) ∧
      AnswersWrite .i2c (wr .i2c) :=
  ⟨bench_serves _ _, rfl, rfl, rfl, rfl, by decide, by decide, by decide, by decide, by decide, by decide,
    by decide, by decide, by decide, by decide, by decide, by decide, rfl, rd_answers _, wr_answers _⟩

/-- A SHUTDOWN that succeeds, and one whose response has another byte 9. -/
theorem witness_ShutdownResult_ends :
    6 ≤ (bench .i2c []).cfg.hdrSize ∧
    ends (exec .shutdown (bench .i2c shutdownAnswers)) (fun t => t.result == .ok .unit) = true ∧
    ends (exec .shutdown (bench .i2c (sendAnswers .i2c ++ poll .i2c 0x90 10 ++
        rd .i2c [0x80, 0x01, 0, 0, 0, 10, 0, 0, 0, 1] ++ poll .i2c 0x80 1 ++ rd .i2c [0xA0] ++
        releaseAnswers .i2c)))
      (fun t => t.result == .err (.protocolViolation .shutdownMismatch)) = true := by
  decide +kernel

theorem witness_HostCommandsEndAtRest :
    (∃ s t : State, s.toEngine.Quiet ∧ exec (.release true) s = .next t ∧ t.running = none) ∧
      (∃ s t : State, s.toEngine.Quiet ∧ exec .probe s = .next t ∧ t.running ≠ none) :=
  ⟨⟨bench .i2c [bad], _, ⟨rfl, rfl, rfl, by decide⟩, rfl, rfl⟩,
    ⟨State.reset, _, ⟨rfl, rfl, rfl, by decide⟩, rfl, by simp⟩⟩

/-- The answers of a command whose every bus operation fails, and of its cleanup. -/
def noBus : List Answer := [bad, bad, bad, bad, bad]

/-- SHUTDOWN's send part returns from `s`, and its receive part then raises bad_first_burst with the answers
`left` still there. -/
def shutdownReceiveRaises (s : State) (left : List Answer) : Bool :=
  match sendCore .shutdownCmd 12 (s.toEngine.setBusy true) with
  | .ok _ e0 =>
    match recvCore 10 (e0.setSess .started) with
    | .error (.raised er) e1 => er == .protocolViolation .badFirstBurst && e1.inbox == left
    | _ => false
  | _ => false

theorem witness_FirstErrorWins :
    (∃ (s t : State) (e1 : Engine), s.busy = false ∧ s.sess = .idle ∧
      sendCore .cmdbuf 3 (s.toEngine.setBusy true) = .error (.raised (.io 5)) e1 ∧
      exec (.send 3) s = .next t ∧ t.running = none) ∧
    (∃ (s t : State) (e1 : Engine), s.busy = false ∧ s.sess = .started ∧
      recvCore 10 (s.toEngine.setBusy true) = .error (.raised (.protocolViolation .badFirstBurst)) e1 ∧
      exec (.recv 10) s = .next t ∧ t.running = none) ∧
    (∃ (s t : State) (e1 : Engine), s.busy = false ∧ s.sess = .idle ∧
      sendCore .shutdownCmd 12 (s.toEngine.setBusy true) = .error (.raised (.io 5)) e1 ∧
      exec .shutdown s = .next t ∧ t.running = none) ∧
    (shutdownReceiveRaises (bench .i2c (sendAnswers .i2c ++ poll .i2c 0x90 9 ++ noBus)) noBus &&
      ends (exec .shutdown (bench .i2c (sendAnswers .i2c ++ poll .i2c 0x90 9 ++ noBus)))
        (fun t => t.result == .err (.protocolViolation .badFirstBurst))) = true ∧
    (∃ (s t : State) (e1 : Engine), s.busy = false ∧ s.sess = .idle ∧
      probeCore (s.toEngine.setBusy true) = .error (.raised (.unsupportedDevice 0)) e1 ∧
      exec .probe s = .next t ∧ t.running = none) :=
  ⟨⟨bench .i2c noBus, _, _, rfl, rfl, rfl, rfl, rfl⟩,
    ⟨started .i2c (poll .i2c 0x90 9 ++ noBus), _, _, rfl, rfl, rfl, rfl, rfl⟩,
    ⟨bench .i2c noBus, _, _, rfl, rfl, rfl, rfl, rfl⟩,
    by decide +kernel,
    ⟨bench .i2c (rd .i2c [0xA0] ++ rd .i2c [0, 0, 0, 0] ++ noBus), _, _, rfl, rfl, rfl, rfl, rfl⟩⟩

/-- The five exchanges that fail, each with the answers of its abort path after it. -/
theorem witness_AbortPathRuns (t : Transport) :
    (∃ ctr, CleanupDone (setup t) (cleanupAnswers t) ctr) ∧
    (∃ rtr, ReleaseDone (setup t) true (releaseAnswers t) rtr) ∧
    (bench t []).toEngine.Serves ∧ (started t []).toEngine.Serves ∧ (bench t []).busy = false ∧
    (bench t []).sess = .idle ∧ (started t []).sess = .started ∧
    (∃ e1, sendCore .cmdbuf 3 ((bench t (fail t ++ fail t ++ cleanupAnswers t)).toEngine.setBusy true) =
      .error (.raised (.io 5)) e1 ∧ e1.inbox = cleanupAnswers t ++ []) ∧
    (∃ e1, recvCore 10 ((started t (poll t 0x90 9 ++ cleanupAnswers t)).toEngine.setBusy true) =
      .error (.raised (.protocolViolation .badFirstBurst)) e1 ∧ e1.inbox = cleanupAnswers t ++ []) ∧
    (∃ e1, sendCore .shutdownCmd 12
        ((bench t (fail t ++ fail t ++ cleanupAnswers t ++ releaseAnswers t)).toEngine.setBusy true) =
      .error (.raised (.io 5)) e1 ∧ e1.inbox = cleanupAnswers t ++ releaseAnswers t ++ []) ∧
    shutdownReceiveRaises (bench t (sendAnswers t ++ poll t 0x90 9 ++ cleanupAnswers t ++ releaseAnswers t))
      (cleanupAnswers t ++ releaseAnswers t ++ []) = true ∧
    (∃ e1, probeCore ((bench t (fail t ++ fail t ++ releaseAnswers t)).toEngine.setBusy true) =
      .error (.raised (.io 5)) e1 ∧ e1.inbox = releaseAnswers t ++ []) := by
  refine ⟨cleanup_done t, ⟨_, release_done t⟩, bench_serves t _, started_serves t _, rfl, rfl, rfl, ?_⟩
  cases t <;> exact ⟨⟨_, rfl, rfl⟩, ⟨_, rfl, rfl⟩, ⟨_, rfl, rfl⟩, by decide +kernel, ⟨_, rfl, rfl⟩⟩

theorem witness_ErrorsReachTheHostAsListed :
    ∃ s t : State, isHostCommand (.send 3) = true ∧ exec (.send 3) s = .next t ∧ t.running = none ∧
      t.result = .err (.io 5) :=
  ⟨bench .i2c noBus, _, rfl, rfl, rfl, rfl⟩

end Sys2Proof.Tests
end

section
/-! SUPPORT. What an instruction runs, and what its first step does: `exec`'s case split made once. -/

namespace Sys2Proof.Machine

/-- What an instruction runs: a host command, or a procedure whose outcome goes to `ret`. -/
inductive Work where
  | command (p : P HostVal)
  | code (p : P RetVal)

/-- The body `exec` launches for it. -/
def Work.body : Work → P Unit
  | .command p => hostCommand p
  | .code p => procedure p

/-- The work of each row of the opcode table; `exec_next` ties it to `exec`. -/
def work (a : Args) : Instr → Work
  | .probe => .command probeCommand
  | .send len => .command (sendCommand len)
  | .recv cap => .command (recvCommand cap)
  | .release force => .command (releaseCommand force)
  | .shutdown => .command shutdownCommand
  | .i2cRead => .code (asBytes (i2cRead a.loc a.kind a.n))
  | .i2cWrite => .code (asUnit (i2cWrite a.loc a.kind a.payload))
  | .spiRead => .code (asBytes (spiRead a.loc a.kind a.n))
  | .spiWrite => .code (asUnit (spiWrite a.loc a.kind a.payload))
  | .readyWait => .code (asUnit readyWait)
  | .spiXfer => .code (asFrame a.dir (spiXfer a.dir a.loc a.kind a.n (payloadOf a a.n)))
  | .checkLocality => .code (asUnit checkLocality)
  | .requestLocality => .code (asUnit requestLocality)
  | .releaseLocality => .code (asUnit (releaseLocality a.force))
  | .getBurstAndStatus => .code (asBurstStatus (getBurstAndStatus a.mask))
  | .readStatus => .code (asStatus readStatus)
  | .setReady => .code (asUnit setReady)
  | .waitCommandReady => .code (asUnit waitCommandReady)
  | .fifoWriteBody => .code (asUnit (fifoWriteBody a.src a.len))
  | .writeGo => .code (asUnit writeGo)
  | .fifoReadBody => .code (asCount (fifoReadBody a.cap))
  | .cleanup => .code (asUnit cleanup)
  | .i2cAddrAccess loc => .code (i2cAddressPhase loc .access)
  | .i2cAddrSts loc => .code (i2cAddressPhase loc .sts)
  | .i2cAddrDataFifo loc => .code (i2cAddressPhase loc .dataFifo)
  | .i2cAddrDidVid loc => .code (i2cAddressPhase loc .didVid)
  | .spiHdrReadAccess lenM1 loc => .code (spiFrame .read .access lenM1 loc a)
  | .spiHdrWriteAccess lenM1 loc => .code (spiFrame .write .access lenM1 loc a)
  | .spiHdrReadSts lenM1 loc => .code (spiFrame .read .sts lenM1 loc a)
  | .spiHdrWriteSts lenM1 loc => .code (spiFrame .write .sts lenM1 loc a)
  | .spiHdrReadDataFifo lenM1 loc => .code (spiFrame .read .dataFifo lenM1 loc a)
  | .spiHdrWriteDataFifo lenM1 loc => .code (spiFrame .write .dataFifo lenM1 loc a)
  | .spiHdrReadDidVid lenM1 loc => .code (spiFrame .read .didVid lenM1 loc a)
  | .stsGoVal => .code (writeValue .sts stsGoBytes)
  | .stsReadyVal => .code (writeValue .sts stsReadyBytes)
  | .accessReqVal => .code (writeValue .access accessReqBytes)
  | .accessRelVal => .code (writeValue .access accessRelBytes)

/-- The instruction was not refused: its work has been launched, on the transport it needs. -/
structure Launched (i : Instr) (s t : State) : Prop where
  launch : launch i (work s.args i).body s = .next t
  transport : ∀ b, neededTransport i = some b → s.cfg.transport = b

section Launch

variable {i : Instr} {s t : State}

theorem launchHost_next {allowed : Bool} {p : P HostVal} (h : launchHost i allowed p s = .next t) :
    launch i (hostCommand p) s = .next t := by
  unfold launchHost at h
  split at h
  · cases h
  · split at h
    · exact h
    · cases h

theorem launchOn_next {b : Transport} {loc : Nat} {p : P RetVal} (h : launchOn b loc i p s = .next t) :
    s.cfg.transport = b ∧ launch i (procedure p) s = .next t := by
  unfold launchOn at h
  split at h
  · cases h
  · rename_i hb
    split at h
    · exact ⟨not_not.mp hb, h⟩
    · cases h

/-- A row that needs neither transport. -/
theorem launched_anywhere (hn : neededTransport i = none)
    (h : launch i (work s.args i).body s = .next t) : Launched i s t :=
  ⟨h, fun b hb => by rw [hn] at hb; cases hb⟩

/-- A row of one transport. -/
theorem launched_on {b : Transport} {loc : Nat} {p : P RetVal} (hn : neededTransport i = some b)
    (hw : work s.args i = .code p) (h : launchOn b loc i p s = .next t) : Launched i s t := by
  obtain ⟨hb, hl⟩ := launchOn_next h
  refine ⟨by rw [hw]; exact hl, fun b' hb' => ?_⟩
  rw [hn] at hb'
  cases hb'
  exact hb

/-- `exec` launches the instruction's work, or refuses it. -/
theorem exec_next (h : exec i s = .next t) : Launched i s t := by
  cases i with
  | probe | send _ | recv _ | release _ | shutdown =>
    exact launched_anywhere rfl (launchHost_next h)
  | i2cRead | i2cWrite | readyWait | spiRead | spiWrite | spiXfer
  | i2cAddrAccess _ | i2cAddrSts _ | i2cAddrDataFifo _ | i2cAddrDidVid _
  | spiHdrReadAccess _ _ | spiHdrWriteAccess _ _ | spiHdrReadSts _ _ | spiHdrWriteSts _ _
  | spiHdrReadDataFifo _ _ | spiHdrWriteDataFifo _ _ | spiHdrReadDidVid _ _ =>
    exact launched_on rfl rfl h
  | checkLocality | requestLocality | releaseLocality | getBurstAndStatus | readStatus | setReady
  | waitCommandReady | fifoWriteBody | writeGo | fifoReadBody | cleanup
  | stsGoVal | stsReadyVal | accessReqVal | accessRelVal =>
    exact launched_anywhere rfl h

/-- A launched body has ended or waits; the rest of the machine is as it was. -/
theorem launch_next {body : P Unit} (h : launch i body s = .next t) :
    (t.slot = s.slot ∧ t.drawn = s.drawn ∧ t.hostTurn = s.hostTurn) ∧
    ((t.running = none ∧ (body s.toEngine = .ok () t.toEngine ∨
        ∃ er, body s.toEngine = .error (.raised er) t.toEngine)) ∨
      ∃ w, body s.toEngine = .error (.blocked w) t.toEngine ∧
        t.running = some { instr := i, start := s.toEngine, waits := w }) := by
  rcases launch_cases h with ⟨e, ht, he⟩ | ⟨e, w, he, ht⟩ | ⟨f, e, _, ht⟩ <;> cases ht
  · exact ⟨⟨rfl, rfl, rfl⟩, .inl ⟨rfl, he⟩⟩
  · exact ⟨⟨rfl, rfl, rfl⟩, .inr ⟨w, he, rfl⟩⟩

end Launch

end Sys2Proof.Machine
end

section
/-! SUPPORT. Contracts of procedures: from a state that meets an entry condition, what holds where the
procedure returns, where it raises, and where it waits for the environment. -/

namespace Sys2Proof.Machine

variable {α β : Type}

/-- The state a procedure left off in meets `J` if it returned, `X` if it raised, `W` if it waits. -/
def Lands (J : α → Engine → Prop) (X : Err → Engine → Prop) (W : Engine → Prop) :
    EStateM.Result Stop Engine α → Prop
  | .ok a t => J a t
  | .error (.raised er) t => X er t
  | .error (.blocked _) t => W t
  | .error (.faulted _) _ => True

/-- From every state that meets `I` the procedure lands as said. -/
def Meets (I : Engine → Prop) (p : P α) (J : α → Engine → Prop) (X : Err → Engine → Prop)
    (W : Engine → Prop) : Prop :=
  ∀ e, I e → Lands J X W (p e)

section Rules

variable {I I' W : Engine → Prop} {J J' : α → Engine → Prop} {K : β → Engine → Prop}
  {X X' : Err → Engine → Prop}

theorem Lands.imp {r : EStateM.Result Stop Engine α} (h : Lands J X W r)
    (hJ : ∀ a t, J a t → J' a t) (hX : ∀ er t, X er t → X' er t) : Lands J' X' W r := by
  rcases r with ⟨a, t⟩ | ⟨_ | _ | _, t⟩
  · exact hJ a t h
  · exact hX _ t h
  · exact h
  · trivial

theorem Meets.imp (h : Meets I p J X W) (hI : ∀ e, I' e → I e) (hJ : ∀ a t, J a t → J' a t)
    (hX : ∀ er t, X er t → X' er t) : Meets I' p J' X' W :=
  fun e he => (h e (hI e he)).imp hJ hX

theorem Meets.pre (h : Meets I p J X W) (hI : ∀ e, I' e → I e) : Meets I' p J X W :=
  fun e he => h e (hI e he)

/-- Nothing is promised of a procedure by the contract that asks for nothing. -/
theorem meets_trivial (p : P α) :
    Meets I p (fun _ _ => True) (fun _ _ => True) (fun _ => True) := by
  intro e _
  rcases p e with ⟨a, t⟩ | ⟨_ | _ | _, t⟩ <;> trivial

theorem meets_pure {a : α} (h : ∀ e, I e → J a e) : Meets I (pure a) J X W := h

theorem meets_raise {er : Err} (h : ∀ e, I e → X er e) : Meets I (raise er : P α) J X W := h

theorem meets_block {w : Prim} (h : ∀ e, I e → W e) : Meets I (block w : P α) J X W := h

theorem meets_stopFault {f : Fault} : Meets I (stopFault f : P α) J X W := fun _ _ => trivial

theorem meets_change {J : Unit → Engine → Prop} {f : Engine → Engine} (h : ∀ e, I e → J () (f e)) :
    Meets I (change f) J X W := h

theorem meets_bind {p : P α} {k : α → P β} (hp : Meets I p J X W) (hk : ∀ a, Meets (J a) (k a) K X W) :
    Meets I (p >>= k) K X W := by
  intro e he
  have h1 := hp e he
  rw [bind_apply]
  rcases h : p e with ⟨a, t⟩ | ⟨_ | _ | _, t⟩ <;> rw [h] at h1
  · exact hk a t h1
  · exact h1
  · exact h1
  · trivial

/-- After `look` the rest may rely on the state it read being the present one. -/
theorem meets_look {k : Engine → P β} (hk : ∀ e, I e → Meets (fun m => m = e) (k e) K X W) :
    Meets I (look >>= k) K X W := by
  intro e he
  rw [bind_of_ok (look_apply e)]
  exact hk e he e rfl

/-- What holds of a caught result. -/
def Caught (J : α → Engine → Prop) (X : Err → Engine → Prop) : Except Err α → Engine → Prop
  | .ok a, t => J a t
  | .error er, t => X er t

/-- `try` catches an error, and raises none. -/
theorem meets_attempt {p : P α} (hp : Meets I p J X W) : Meets I (attempt p) (Caught J X) X' W := by
  intro e he
  have h1 := hp e he
  unfold attempt
  rcases h : p e with ⟨a, t⟩ | ⟨_ | _ | _, t⟩ <;> rw [h] at h1
  · exact h1
  · exact h1
  · exact h1
  · trivial

/-- `try`, and what follows a value or an error. -/
theorem meets_attempt_bind {p : P α} {k : Except Err α → P β} (hp : Meets I p J X' W)
    (hok : ∀ a, Meets (J a) (k (.ok a)) K X W) (herr : ∀ er, Meets (X' er) (k (.error er)) K X W) :
    Meets I (attempt p >>= k) K X W :=
  meets_bind (meets_attempt hp) fun r => by
    cases r with
    | ok a => exact hok a
    | error er => exact herr er

/-- The states between the turns of a loop, and its end. -/
def Turned (I : Engine → Prop) (J : α → Engine → Prop) : Option α → Engine → Prop
  | some a, t => J a t
  | none, t => I t

theorem meets_untilDone {body : P (Option α)} (hW : ∀ e, I e → W e)
    (hb : Meets I body (Turned I J) X W) : ∀ k, Meets I (untilDone body k) J X W
  | 0 => meets_block hW
  | k + 1 => meets_bind hb fun o => by
    cases o with
    | some a => exact meets_pure fun _ h => h
    | none => exact meets_untilDone hW hb k

/-- A loop: its turns keep the invariant until one ends it. -/
theorem meets_repeatP {body : P (Option α)} (hW : ∀ e, I e → W e)
    (hb : Meets I body (Turned I J) X W) : Meets I (repeatP body) J X W :=
  fun e he => meets_untilDone hW hb _ e he

/-- A contract may be shown one entry state at a time. -/
theorem Meets.each {p : P α} (h : ∀ e, I e → Meets (fun m => m = e) p J X W) : Meets I p J X W :=
  fun e he => h e he e rfl

theorem meets_take {p : Prim} {J : Answer → Engine → Prop} (hW : ∀ e, I e → W e)
    (h : ∀ e a rest, I e → J a (e.settle a rest)) : Meets I (take p) J X W := by
  intro e he
  rcases take_cases p e with ⟨_, h'⟩ | ⟨a, rest, _, h'⟩ <;> rw [h']
  · exact hW e he
  · exact h e a rest he

/-- `Now()` gives the clock as it then stands, and touches nothing but the clock and what the environment
may do (R47). -/
theorem meets_now (e : Engine) : Meets (fun m => m = e) now
    (fun v t => v = t.clock ∧ e.clock ≤ t.clock ∧ t.x = e.x ∧ t.cfg = e.cfg) X fun _ => True := by
  rintro m rfl
  rcases take_cases .now m with ⟨_, h⟩ | ⟨a, rest, hi, _⟩
  · rw [now, bind_of_error h]
    trivial
  · rw [now_ok hi]
    exact ⟨rfl, Nat.le_add_right _ _, rfl, rfl⟩

/-- A deadline that has expired lies in the past (R16). -/
theorem meets_expired (e : Engine) (t0 budget : Nat) : Meets (fun m => m = e) (expired t0 budget)
    (fun late t => e.clock ≤ t.clock ∧ t.x = e.x ∧ t.cfg = e.cfg ∧
      (late = true → budget * e.cfg.clkPerMs ≤ t.clock - t0)) X fun _ => True := by
  refine meets_bind (meets_now e) fun v => ?_
  rintro t ⟨rfl, hle, hx, hcfg⟩
  refine ⟨hle, hx, hcfg, fun hl => ?_⟩
  rw [← hcfg]
  exact of_decide_eq_true hl

end Rules

/-! ### Invariants -/

/-- What a procedure keeps: a condition before it and wherever it returns; what holds where it raises; and
what holds where it waits. -/
structure Contract where
  inv : Engine → Prop
  raised : Err → Engine → Prop
  waiting : Engine → Prop

/-- The procedure keeps the contract. -/
def Keeps (c : Contract) (p : P α) : Prop :=
  Meets c.inv p (fun _ => c.inv) c.raised c.waiting

/-- The errors that no budget of R16 stands behind. -/
def Err.untimed : Err → Bool
  | .timeout .locality => true
  | .timeout _ => false
  | _ => true

/-- A contract that the ports keep: what an answer and a recorded event do to the engine leaves the
invariant true. -/
structure Ports (c : Contract) : Prop where
  waits : ∀ e, c.inv e → c.waiting e
  raises : ∀ er e, er.untimed = true → c.inv e → c.raised er e
  settle : ∀ e a rest, c.inv e → c.inv (e.settle a rest)
  log : ∀ e v, c.inv e → c.inv (e.log v)

/-- A contract that also holds where an error is caught, and over what register transactions write on
either bus. -/
structure Primitive (c : Contract) : Prop extends Ports c where
  caught : ∀ er e, c.raised er e → c.inv e
  clear : ∀ e, c.inv e → c.inv (e.setReady false)
  t1 : ∀ e v, c.inv e → c.inv (e.setX { e.x with t1 := v })

section Forms

variable {c : Contract}

theorem keeps_bind {p : P α} {k : α → P β} (hp : Keeps c p) (hk : ∀ a, Keeps c (k a)) :
    Keeps c (p >>= k) :=
  meets_bind hp hk

theorem keeps_look {k : Engine → P β} (hk : ∀ e, Keeps c (k e)) : Keeps c (look >>= k) :=
  meets_look fun e he => (hk e).pre fun _ hm => hm ▸ he

theorem keeps_pure (a : α) : Keeps c (pure a) := meets_pure fun _ h => h

theorem keeps_change {f : Engine → Engine} (h : ∀ e, c.inv e → c.inv (f e)) : Keeps c (change f) :=
  meets_change h

theorem keeps_raise {er : Err} (h : ∀ e, c.inv e → c.raised er e) : Keeps c (raise er : P α) :=
  meets_raise h

theorem keeps_attempt (h : Primitive c) {p : P α} (hp : Keeps c p) : Keeps c (attempt p) :=
  (meets_attempt hp).imp (fun _ he => he)
    (fun r t hr => by
      cases r with
      | ok a => exact hr
      | error er => exact h.caught er t hr)
    fun _ _ hx => hx

theorem keeps_ignore (h : Primitive c) {p : P α} (hp : Keeps c p) : Keeps c (ignore p) :=
  keeps_bind (keeps_attempt h hp) fun _ => keeps_pure ()

theorem keeps_onlyIf (b : Bool) {p : P Unit} (hp : Keeps c p) : Keeps c (onlyIf b p) := by
  cases b
  · exact keeps_pure ()
  · exact hp

theorem keeps_repeatP (h : Ports c) {body : P (Option α)} (hb : Keeps c body) :
    Keeps c (repeatP body) :=
  meets_repeatP h.waits (hb.imp (fun _ he => he) (fun o _ ht => by cases o <;> exact ht) fun _ _ hx => hx)

theorem keeps_untilDoneFrom {σ : Type} (h : Ports c) {body : σ → P (σ ⊕ α)}
    (hb : ∀ v, Keeps c (body v)) : ∀ k v, Keeps c (untilDoneFrom body k v)
  | 0, _ => meets_block h.waits
  | k + 1, v => keeps_bind (hb v) fun o => by
    cases o
    · exact keeps_untilDoneFrom h hb k _
    · exact keeps_pure _

theorem keeps_repeatFrom {σ : Type} (h : Ports c) {body : σ → P (σ ⊕ α)}
    (hb : ∀ v, Keeps c (body v)) (v : σ) : Keeps c (repeatFrom body v) :=
  fun e he => keeps_untilDoneFrom h hb _ v e he

end Forms

/-! ### Port primitives -/

section Primitives

variable {c : Contract} (h : Ports c)
include h

theorem keeps_take (p : Prim) : Keeps c (take p) :=
  meets_take h.waits fun e a rest he => h.settle e a rest he

theorem keeps_record (v : Event) : Keeps c (record v) := keeps_change fun e he => h.log e v he

theorem keeps_untimed {er : Err} (hu : er.untimed = true) : Keeps c (raise er : P α) :=
  keeps_raise fun e he => h.raises er e hu he

theorem keeps_busWrite (bs : List Byte) : Keeps c (busWrite bs) :=
  keeps_bind (keeps_take h _) fun a => by
    cases a.err with
    | none => exact keeps_record h _
    | some er => exact keeps_bind (keeps_record h _) fun _ => keeps_untimed h rfl

theorem keeps_busRead (n : Nat) : Keeps c (busRead n) :=
  keeps_bind (keeps_take h _) fun a => by
    cases a.err with
    | none => exact keeps_bind (keeps_record h _) fun _ => keeps_pure _
    | some er => exact keeps_bind (keeps_record h _) fun _ => keeps_untimed h rfl

theorem keeps_now : Keeps c now :=
  keeps_bind (keeps_take h _) fun _ => keeps_look fun _ =>
    keeps_bind (keeps_record h _) fun _ => keeps_pure _

theorem keeps_expired (t0 budget : Nat) : Keeps c (expired t0 budget) :=
  keeps_bind (keeps_now h) fun _ => keeps_look fun _ => keeps_pure _

theorem keeps_readyFlag : Keeps c readyFlag :=
  keeps_bind (keeps_take h _) fun _ => keeps_look fun _ =>
    keeps_bind (keeps_record h _) fun _ => keeps_pure _

theorem keeps_readyAtDeadline : Keeps c readyAtDeadline :=
  keeps_look fun _ => keeps_bind (keeps_onlyIf _ (keeps_record h _)) fun _ => keeps_pure _

theorem keeps_memRead (buf : HostBuf) (i : Nat) : Keeps c (memRead buf i) := by
  unfold memRead
  split
  · exact keeps_look fun _ => keeps_bind (keeps_record h _) fun _ => keeps_pure _
  · exact meets_stopFault

theorem keeps_srcByte (src : Src) (i : Nat) : Keeps c (srcByte src i) := by
  cases src with
  | cmdbuf => exact keeps_memRead h _ i
  | shutdownCmd =>
    unfold srcByte
    dsimp only
    split
    · exact keeps_pure _
    · exact meets_stopFault

theorem keeps_srcBytes (src : Src) : ∀ k i : Nat, Keeps c (srcBytes src i k)
  | 0, _ => keeps_pure _
  | k + 1, i => keeps_bind (keeps_srcByte h src i) fun _ =>
      keeps_bind (keeps_srcBytes src k (i + 1)) fun _ => keeps_pure _

end Primitives

theorem keeps_readyClear {c : Contract} (h : Primitive c) : Keeps c readyClear :=
  keeps_bind (keeps_change h.clear) fun _ => keeps_record h.toPorts _

theorem keeps_noteT1 {c : Contract} (h : Primitive c) (v : Nat) :
    Keeps c (onX fun x => { x with t1 := v }) :=
  keeps_change fun e he => h.t1 e v he

end Sys2Proof.Machine
end

section
/-! SUPPORT. The procedures under a contract: each keeps every contract that the register transactions and
the updates it makes keep. -/

namespace Sys2Proof.Machine

variable {α β : Type} {c : Contract}

/-! ### Register transport -/

/-- A contract of I2C transactions. -/
structure I2cWire (c : Contract) : Prop extends Primitive c where
  cleared : ∀ er e, c.raised er e → c.raised er ((e.setReady false).log .readyClear)
  ready : Keeps c readyWait

/-- The stall poll of a frame with the note of its start (R153), as READY_WAIT is on I2C; `spiBody_eq` ties
it to the frame. -/
def stallWait : P Unit := do
  let t ← now
  onX fun x => { x with t1 := t }
  repeatP spiStallTurn

theorem spiBody_eq (dir : Dir) (hdr : List Byte) (n : Nat) (p : List Byte) :
    spiBody dir hdr n p =
      busWrite hdr >>= fun _ => stallWait >>= fun _ => spiPayload dir n p := by
  simp only [spiBody, stallWait, bind_assoc]

/-- A contract of SPI frames. -/
structure SpiWire (c : Contract) : Prop extends Primitive c where
  lock : ∀ e l, c.inv e → c.inv (e.setLock l)
  unlocked : ∀ er e, c.raised er e → c.raised er ((e.setLock .free).log .unlock)
  stall : Keeps c stallWait

theorem keeps_clearOnErr (h : I2cWire c) {p : P α} (hp : Keeps c p) : Keeps c (clearOnErr p) :=
  meets_attempt_bind hp (fun a => keeps_pure a) fun er e he => h.cleared er e he

theorem keeps_i2cSend (h : I2cWire c) (bs : List Byte) : Keeps c (i2cSend bs) :=
  have hports := h.toPorts
  keeps_bind (keeps_readyClear h.toPrimitive) fun _ =>
    keeps_bind (keeps_clearOnErr h (keeps_busWrite hports bs)) fun _ => keeps_clearOnErr h h.ready

theorem keeps_i2cRead (h : I2cWire c) (loc : Nat) (kind : Kind) (n : Nat) : Keeps c (i2cRead loc kind n) :=
  have hports := h.toPorts
  keeps_look fun e => by
    split
    · exact keeps_clearOnErr h (keeps_untimed hports rfl)
    · exact keeps_bind (keeps_i2cSend h _) fun _ => keeps_clearOnErr h (keeps_busRead hports n)

theorem keeps_i2cWrite (h : I2cWire c) (hs : ∀ e bs, c.inv e → c.inv (e.setScratch bs)) (loc : Nat)
    (kind : Kind) (p : List Byte) : Keeps c (i2cWrite loc kind p) :=
  keeps_look fun e => by
    split
    · exact keeps_clearOnErr h (keeps_untimed h.toPorts rfl)
    · exact keeps_bind (keeps_change fun e => hs e _) fun _ => keeps_look fun _ => keeps_i2cSend h _

theorem keeps_spiLock (h : SpiWire c) : Keeps c spiLock :=
  have hports := h.toPorts
  keeps_repeatP hports <| keeps_bind (keeps_take hports _) fun a => by
    cases a.lockFree
    · exact keeps_pure _
    · exact keeps_bind (keeps_change fun e => h.lock e _) fun _ =>
        keeps_bind (keeps_record hports _) fun _ => keeps_pure _

theorem keeps_spiUnlock (h : SpiWire c) : Keeps c spiUnlock :=
  keeps_bind (keeps_change fun e => h.lock e _) fun _ => keeps_record h.toPorts _

theorem keeps_spiBody (h : SpiWire c) (dir : Dir) (hdr : List Byte) (n : Nat) (p : List Byte) :
    Keeps c (spiBody dir hdr n p) := by
  have hports := h.toPorts
  rw [spiBody_eq]
  refine keeps_bind (keeps_busWrite hports _) fun _ => keeps_bind h.stall fun _ => ?_
  cases dir
  · exact keeps_busRead hports n
  · exact keeps_bind (keeps_busWrite hports p) fun _ => keeps_pure _

theorem keeps_spiXfer (h : SpiWire c) (dir : Dir) (loc : Nat) (kind : Kind) (n : Nat) (p : List Byte) :
    Keeps c (spiXfer dir loc kind n p) :=
  keeps_look fun e => by
    split
    · exact keeps_untimed h.toPorts rfl
    · exact keeps_bind (keeps_spiLock h) fun _ => meets_attempt_bind (keeps_spiBody h _ _ _ _)
        (fun a => keeps_bind (keeps_spiUnlock h) fun _ => keeps_pure a) fun er e he => h.unlocked er e he

theorem keeps_spiWrite (hx : ∀ dir loc kind n p, Keeps c (spiXfer dir loc kind n p)) (loc : Nat)
    (kind : Kind) (p : List Byte) : Keeps c (spiWrite loc kind p) :=
  keeps_bind (hx _ _ _ _ _) fun _ => keeps_pure _

/-- A register read is the read of the engine's transport. -/
theorem keeps_regRead
    (hi : ∀ loc kind n e, c.inv e → e.cfg.transport = .i2c →
      Lands (fun _ => c.inv) c.raised c.waiting (i2cRead loc kind n e))
    (hs : ∀ loc kind n e, c.inv e → e.cfg.transport = .spi →
      Lands (fun _ => c.inv) c.raised c.waiting (spiRead loc kind n e))
    (kind : Kind) (n : Nat) : Keeps c (regRead kind n) := by
  intro e he
  rw [regRead, bind_of_ok (look_apply e)]
  cases ht : e.cfg.transport with
  | i2c => exact hi _ kind n e he ht
  | spi => exact hs _ kind n e he ht

/-- A register write is the write of the engine's transport. -/
theorem keeps_regWrite
    (hi : ∀ loc kind p e, c.inv e → e.cfg.transport = .i2c →
      Lands (fun _ => c.inv) c.raised c.waiting (i2cWrite loc kind p e))
    (hs : ∀ loc kind p e, c.inv e → e.cfg.transport = .spi →
      Lands (fun _ => c.inv) c.raised c.waiting (spiWrite loc kind p e))
    (kind : Kind) (p : List Byte) : Keeps c (regWrite kind p) := by
  intro e he
  rw [regWrite, bind_of_ok (look_apply e)]
  cases ht : e.cfg.transport with
  | i2c => exact hi _ kind p e he ht
  | spi => exact hs _ kind p e he ht

/-! ### Procedures that only read the TPM's registers -/

/-- A contract that the updates of the procedures above the transport keep. -/
structure Updates (c : Contract) : Prop extends Primitive c where
  addTicks : ∀ e t, c.inv e → c.inv (e.addTicks t)
  setX : ∀ e x, c.inv e → c.inv (e.setX x)
  setRsp : ∀ e i v, c.inv e → c.inv (e.setRsp i v)

/-- A contract that register reads keep too, and the status poll, which can time out. -/
structure Reading (c : Contract) : Prop extends Updates c where
  read : ∀ kind n, Keeps c (regRead kind n)
  poll : ∀ mask, Keeps c (getBurstAndStatus mask)

theorem keeps_onX (h : Updates c) (f : Regs → Regs) : Keeps c (onX f) :=
  keeps_change fun e => h.setX e _

theorem keeps_sleep (h : Updates c) (ms : Nat) : Keeps c (sleep ms) :=
  have hports := h.toPorts
  keeps_bind (keeps_take hports _) fun _ =>
    keeps_bind (keeps_change fun e => h.addTicks e _) fun _ => keeps_record hports _

theorem keeps_noteSnapshot (h : Updates c) (mask : Byte) (r : Except Err (List Byte)) :
    Keeps c (noteSnapshot mask r) := by
  cases r with
  | error er => exact keeps_pure _
  | ok b =>
    exact keeps_bind (keeps_onX h _) fun _ => keeps_look fun e => by
      cases accept e.cfg.burstCap mask (snapStatus b) (snapBurst b)
      · exact keeps_pure _
      · exact keeps_pure _

theorem keeps_memWriteAll (h : Updates c) : ∀ (bs : List Byte) (i : Nat), Keeps c (memWriteAll i bs)
  | [], _ => keeps_pure ()
  | v :: vs, i => by
    refine keeps_bind ?_ fun _ => keeps_memWriteAll h vs (i + 1)
    unfold memWrite
    split
    · exact keeps_bind (keeps_change fun e => h.setRsp e i v) fun _ => keeps_record h.toPorts _
    · exact meets_stopFault

section Reads

variable (h : Reading c)
include h

theorem keeps_checkLocality : Keeps c checkLocality :=
  keeps_bind (h.read _ _) fun b => keeps_bind (keeps_onX h.toUpdates _) fun _ => keeps_look fun e => by
    cases localityOk e.cfg.map (byteAt b 0)
    · exact keeps_untimed h.toPorts rfl
    · exact keeps_pure _

theorem keeps_requestChecks : ∀ k, Keeps c (requestChecks k)
  | 0 => keeps_untimed h.toPorts rfl
  | k + 1 => keeps_look fun _ => keeps_bind (keeps_onX h.toUpdates _) fun _ =>
      keeps_bind (keeps_attempt h.toPrimitive (keeps_checkLocality h)) fun r => by
        cases r
        · exact keeps_bind (keeps_onlyIf _ (keeps_sleep h.toUpdates _)) fun _ => keeps_requestChecks k
        · exact keeps_pure _

theorem keeps_readStatus : Keeps c readStatus :=
  keeps_bind (keeps_attempt h.toPrimitive (h.read _ _)) fun _ =>
    keeps_bind (keeps_onX h.toUpdates _) fun _ => keeps_pure _

theorem keeps_recvTurn (got : List Byte) : Keeps c (recvTurn got) :=
  have hu := h.toUpdates
  keeps_look fun e => by
    split
    · exact keeps_bind (h.poll _) fun v => keeps_bind (keeps_onX hu _) fun _ =>
        keeps_bind (h.read _ _) fun d => keeps_bind (keeps_memWriteAll hu d _) fun _ =>
          keeps_bind (keeps_onX hu _) fun _ => keeps_pure _
    · exact keeps_pure _

theorem keeps_recvRest (first : List Byte) : Keeps c (recvRest first) :=
  keeps_bind (keeps_repeatFrom h.toPorts (keeps_recvTurn h) first) fun _ => keeps_look fun e =>
    keeps_bind (h.poll _) fun v => by
      cases dataAvail e.cfg.map v.2
      · exact keeps_pure _
      · exact keeps_untimed h.toPorts rfl

theorem keeps_fifoReadBody (cap : Nat) : Keeps c (fifoReadBody cap) :=
  have hu := h.toUpdates
  keeps_look fun e => keeps_bind (h.poll _) fun v => by
    cases badFirstBurst e.cfg.hdrSize cap v.1
    · exact keeps_bind (h.read _ _) fun d => keeps_bind (keeps_memWriteAll hu d _) fun _ =>
        keeps_bind (keeps_onX hu _) fun _ => by
          split
          · exact keeps_untimed h.toPorts rfl
          · exact keeps_bind (keeps_onX hu _) fun _ => keeps_recvRest h _
    · exact keeps_untimed h.toPorts rfl

theorem keeps_probeIdentify : Keeps c probeIdentify :=
  keeps_bind (h.read _ _) fun d => keeps_bind (keeps_onX h.toUpdates _) fun _ => keeps_look fun e => by
    cases familyOf e.cfg.map (didVidValue d)
    · exact keeps_untimed h.toPorts rfl
    · exact keeps_pure _

end Reads

/-! ### Procedures that write them -/

/-- A contract that register writes keep too, and the command-ready wait, which can time out. -/
structure Writing (c : Contract) : Prop extends Reading c where
  write : ∀ kind p, Keeps c (regWrite kind p)
  commandReady : Keeps c waitCommandReady

theorem keeps_setReady (h : Primitive c) (hw : ∀ kind p, Keeps c (regWrite kind p)) :
    Keeps c setReady :=
  keeps_look fun _ => keeps_ignore h (hw _ _)

section Writes

variable (h : Writing c)
include h

theorem keeps_requestLocality : Keeps c requestLocality :=
  keeps_bind (keeps_attempt h.toPrimitive (keeps_checkLocality h.toReading)) fun r => by
    cases r
    · exact keeps_look fun _ => keeps_bind (h.write _ _) fun _ => keeps_requestChecks h.toReading _
    · exact keeps_pure _

theorem keeps_relinquish : Keeps c relinquish :=
  keeps_look fun _ => keeps_ignore h.toPrimitive (h.write _ _)

theorem keeps_releaseLocality (force : Bool) : Keeps c (releaseLocality force) :=
  keeps_bind (keeps_attempt h.toPrimitive (h.read _ _)) fun r => keeps_look fun _ => by
    cases r
    · exact keeps_onlyIf _ (keeps_relinquish h)
    · exact keeps_bind (keeps_onX h.toUpdates _) fun _ => keeps_onlyIf _ (keeps_relinquish h)

theorem keeps_sendTurn (src : Src) (len : Nat) : Keeps c (sendTurn src len) :=
  have hu := h.toUpdates
  keeps_look fun e => by
    split
    · exact keeps_bind (h.poll _) fun v => keeps_bind (keeps_onX hu _) fun _ =>
        keeps_bind (keeps_srcBytes h.toPorts _ _ _) fun _ => keeps_bind (h.write _ _) fun _ =>
          keeps_bind (keeps_onX hu _) fun _ => keeps_pure _
    · exact keeps_pure _

theorem keeps_fifoWriteBody (src : Src) (len : Nat) : Keeps c (fifoWriteBody src len) :=
  keeps_bind (keeps_onX h.toUpdates _) fun _ =>
    keeps_bind (keeps_repeatP h.toPorts (keeps_sendTurn h src len)) fun _ => keeps_look fun e =>
      keeps_bind (h.poll _) fun v => by
        cases dataExpect e.cfg.map v.2
        · exact keeps_pure _
        · exact keeps_untimed h.toPorts rfl

theorem keeps_writeGo : Keeps c writeGo := keeps_look fun _ => h.write _ _

theorem keeps_cleanup : Keeps c cleanup :=
  keeps_bind (keeps_readStatus h.toReading) fun _ => keeps_look fun _ =>
    keeps_bind (keeps_onlyIf _ (keeps_setReady h.toPrimitive h.write)) fun _ => keeps_releaseLocality h true

theorem keeps_probeCore : Keeps c probeCore :=
  keeps_bind (keeps_requestLocality h) fun _ => keeps_probeIdentify h.toReading

theorem keeps_sendCore (hs : ∀ e s, c.inv e → c.inv (e.setSess s)) (src : Src) (len : Nat) :
    Keeps c (sendCore src len) :=
  have hset : ∀ s, Keeps c (setSess s) := fun s => keeps_change fun e => hs e s
  keeps_bind (hset _) fun _ => keeps_bind (keeps_requestLocality h) fun _ =>
    keeps_bind (hset _) fun _ => keeps_bind h.commandReady fun _ =>
      keeps_bind (hset _) fun _ => keeps_bind (keeps_fifoWriteBody h _ _) fun _ => keeps_writeGo h

theorem keeps_recvCore (hs : ∀ e s, c.inv e → c.inv (e.setSess s)) (cap : Nat) :
    Keeps c (recvCore cap) :=
  have hset : ∀ s, Keeps c (setSess s) := fun s => keeps_change fun e => hs e s
  keeps_bind (hset _) fun _ => keeps_bind (keeps_fifoReadBody h.toReading cap) fun _ =>
    keeps_bind (hset _) fun _ => keeps_bind (keeps_releaseLocality h _) fun _ =>
      keeps_bind (hset _) fun _ => keeps_pure _

end Writes

/-! ### Host commands -/

/-- A contract that also holds whatever the session, the saved error, `busy` and `result` become, and
wherever a procedure raises. -/
structure Session (c : Contract) : Prop extends Writing c where
  raisesAny : ∀ er e, c.inv e → c.raised er e
  setSess : ∀ e s, c.inv e → c.inv (e.setSess s)
  setPending : ∀ e p, c.inv e → c.inv (e.setPending p)
  setBusy : ∀ e b, c.inv e → c.inv (e.setBusy b)
  setResult : ∀ e r, c.inv e → c.inv (e.setResult r)

section Commands

variable (h : Session c)
include h

theorem keeps_setSess (s : Sess) : Keeps c (setSess s) := keeps_change fun e => h.setSess e s

theorem keeps_abort (er : Err) {path : P Unit} (hp : Keeps c path) : Keeps c (abort er path : P α) :=
  keeps_bind (keeps_change fun e => h.setPending e _) fun _ => keeps_bind hp fun _ =>
    keeps_bind (keeps_change fun e => h.setPending e _) fun _ => keeps_raise (h.raisesAny er)

theorem keeps_sessionAbort : Keeps c sessionAbort :=
  keeps_bind (keeps_cleanup h.toWriting) fun _ => keeps_setSess h _

theorem keeps_shutdownAbort : Keeps c shutdownAbort :=
  keeps_bind (keeps_sessionAbort h) fun _ => keeps_releaseLocality h.toWriting true

theorem keeps_sendCommand (len : Nat) : Keeps c (sendCommand len) :=
  keeps_bind (keeps_attempt h.toPrimitive (keeps_sendCore h.toWriting h.setSess _ _)) fun r => by
    cases r
    · exact keeps_abort h _ (keeps_sessionAbort h)
    · exact keeps_bind (keeps_setSess h _) fun _ => keeps_pure _

theorem keeps_recvCommand (cap : Nat) : Keeps c (recvCommand cap) :=
  keeps_bind (keeps_attempt h.toPrimitive (keeps_recvCore h.toWriting h.setSess cap)) fun r => by
    cases r
    · exact keeps_abort h _ (keeps_sessionAbort h)
    · exact keeps_pure _

theorem keeps_probeCommand : Keeps c probeCommand :=
  keeps_bind (keeps_attempt h.toPrimitive (keeps_probeCore h.toWriting)) fun r => by
    cases r
    · exact keeps_abort h _ (keeps_releaseLocality h.toWriting true)
    · exact keeps_pure _

theorem keeps_releaseCommand (force : Bool) : Keeps c (releaseCommand force) :=
  keeps_bind (keeps_releaseLocality h.toWriting force) fun _ => keeps_pure _

theorem keeps_shutdownFinish (got : Received) : Keeps c (shutdownFinish got) :=
  keeps_bind (keeps_releaseLocality h.toWriting true) fun _ => by
    cases shutdownMatches got
    · exact keeps_raise (h.raisesAny _)
    · exact keeps_pure _

theorem keeps_shutdownCommand : Keeps c shutdownCommand :=
  have hw := h.toWriting
  keeps_bind (keeps_attempt h.toPrimitive (keeps_sendCore hw h.setSess _ _)) fun r => by
    cases r
    · exact keeps_abort h _ (keeps_shutdownAbort h)
    · exact keeps_bind (keeps_setSess h _) fun _ =>
        keeps_bind (keeps_attempt h.toPrimitive (keeps_recvCore hw h.setSess 10)) fun r2 => by
          cases r2
          · exact keeps_abort h _ (keeps_shutdownAbort h)
          · exact keeps_shutdownFinish h _

end Commands

end Sys2Proof.Machine
end

section
/-! SUPPORT. From procedures to instructions: relations and contracts along every instruction's work. -/

namespace Sys2Proof.Machine

/-- What is said of a host command's procedure. -/
def Work.OnCommand (q : P HostVal → Prop) : Work → Prop
  | .command p => q p
  | .code _ => True

/-- What is said of the procedure of a procedure code or wire encoding. -/
def Work.OnCode (q : P RetVal → Prop) : Work → Prop
  | .command _ => True
  | .code p => q p

/-- Only the host commands' work is a command. -/
theorem work_of_not_isHostCommand (a : Args) {i : Instr} (hi : isHostCommand i = false) :
    ∃ p, work a i = .code p := by
  cases i with
  | probe | send _ | recv _ | release _ | shutdown => cases hi
  | _ => exact ⟨_, rfl⟩

/-! ### Relations -/

section Along

variable {R : Engine → Engine → Prop} {i : Instr}

theorem along_command (hR : ClosedSession R) (a : Args) : (work a i).OnCommand (Along R) := by
  have h := hR.toClosed
  cases i with
  | probe => exact along_probeCommand hR
  | send len => exact along_sendCommand hR len
  | recv cap => exact along_recvCommand hR cap
  | release force => exact along_releaseCommand h force
  | shutdown => exact along_shutdownCommand hR
  | _ => trivial

theorem along_code (hR : Closed R) (a : Args) : (work a i).OnCode (Along R) := by
  cases i with
  | probe | send _ | recv _ | release _ | shutdown => trivial
  | i2cRead => exact along_asBytes hR (along_i2cRead hR _ _ _)
  | i2cWrite => exact along_asUnit hR (along_i2cWrite hR _ _ _)
  | spiRead => exact along_asBytes hR (along_spiXfer hR _ _ _ _ _)
  | spiWrite => exact along_asUnit hR (along_spiWrite hR _ _ _)
  | readyWait => exact along_asUnit hR (along_readyWait hR)
  | spiXfer => exact along_asFrame hR _ (along_spiXfer hR _ _ _ _ _)
  | checkLocality => exact along_asUnit hR (along_checkLocality hR)
  | requestLocality => exact along_asUnit hR (along_requestLocality hR)
  | releaseLocality => exact along_asUnit hR (along_releaseLocality hR _)
  | getBurstAndStatus => exact along_asBurstStatus hR (along_getBurstAndStatus hR _)
  | readStatus => exact along_asStatus hR (along_readStatus hR)
  | setReady => exact along_asUnit hR (along_setReady hR)
  | waitCommandReady => exact along_asUnit hR (along_waitCommandReady hR)
  | fifoWriteBody => exact along_asUnit hR (along_fifoWriteBody hR _ _)
  | writeGo => exact along_asUnit hR (along_writeGo hR)
  | fifoReadBody => exact along_asCount hR (along_fifoReadBody hR _)
  | cleanup => exact along_asUnit hR (along_cleanup hR)
  | i2cAddrAccess _ | i2cAddrSts _ | i2cAddrDataFifo _ | i2cAddrDidVid _ =>
    exact along_i2cAddressPhase hR _ _
  | spiHdrReadAccess _ _ | spiHdrWriteAccess _ _ | spiHdrReadSts _ _ | spiHdrWriteSts _ _
  | spiHdrReadDataFifo _ _ | spiHdrWriteDataFifo _ _ | spiHdrReadDidVid _ _ =>
    exact along_spiFrame hR _ _ _ _ _
  | stsGoVal | stsReadyVal | accessReqVal | accessRelVal => exact along_writeValue hR _ _

/-- A relation that holds along everything an instruction's body does. -/
structure ClosedBody (R : Engine → Engine → Prop) : Prop extends ClosedSession R where
  setBusy : ∀ e b, R e (e.setBusy b)
  setResult : ∀ e r, R e (e.setResult r)
  setRet : ∀ e r, R e (e.setRet r)

theorem along_body (hR : ClosedBody R) (a : Args) : Along R (work a i).body := by
  have h := hR.toClosed
  have hcmd := along_command (i := i) hR.toClosedSession a
  have hcode := along_code (i := i) h a
  cases hw : work a i with
  | command p =>
    rw [hw] at hcmd
    exact along_bind h (fun e => hR.setBusy e _) fun _ => along_bind h (along_attempt hcmd) fun _ e =>
      hR.trans (hR.setResult e _) (hR.setBusy _ _)
  | code p =>
    rw [hw] at hcode
    exact along_bind h (along_attempt hcode) fun _ e => hR.setRet e _

/-- From the state an instruction starts in to the one it ends or waits in. -/
theorem exec_along (hR : ClosedBody R) {s t : State} (h : exec i s = .next t) :
    R s.toEngine t.toEngine := by
  have hrun := along_body (i := i) hR s.args s.toEngine
  obtain ⟨_, ⟨_, he | ⟨er, he⟩⟩ | ⟨w, he, _⟩⟩ := launch_next (exec_next h).launch
  all_goals
    rw [he] at hrun
    exact hrun

end Along

/-! ### Contracts -/

section Keeps

variable {c : Contract} {i : Instr}

/-- The values of procedure codes and wire encodings. -/
theorem keeps_mapped {α : Type} {p : P α} (hp : Keeps c p) (v : α → RetVal) :
    Keeps c (p >>= fun a => pure (v a)) :=
  keeps_bind hp fun _ => keeps_pure _

theorem keeps_asFrame (dir : Dir) {p : P (List Byte)} (hp : Keeps c p) : Keeps c (asFrame dir p) := by
  cases dir
  · exact keeps_mapped hp _
  · exact keeps_mapped hp _

theorem keeps_i2cAddressPhase (h : I2cWire c) (loc : Nat) (kind : Kind) :
    Keeps c (i2cAddressPhase loc kind) :=
  keeps_look fun _ => keeps_mapped (keeps_i2cSend h _) _

theorem keeps_writeValue (h : Writing c) (kind : Kind) (value : TpmMap → List Byte) :
    Keeps c (writeValue kind value) :=
  keeps_look fun _ => keeps_mapped (h.write _ _) _

theorem keeps_command (h : Session c) (a : Args) : (work a i).OnCommand (Keeps c) := by
  cases i with
  | probe => exact keeps_probeCommand h
  | send len => exact keeps_sendCommand h len
  | recv cap => exact keeps_recvCommand h cap
  | release force => exact keeps_releaseCommand h force
  | shutdown => exact keeps_shutdownCommand h
  | _ => trivial

/-- A contract that the procedure codes and wire encodings of one row keep: what a row needs depends on
whether it writes to the TPM, and on its transport. -/
structure CodeContract (c : Contract) (i : Instr) : Prop extends Reading c where
  writing : readsOnly i = false → Writing c
  i2cWire : neededTransport i = some .i2c → I2cWire c
  i2cWrite : i = .i2cWrite → ∀ loc kind p, Keeps c (i2cWrite loc kind p)
  spiXfer : neededTransport i = some .spi → ∀ dir loc kind n p, Keeps c (spiXfer dir loc kind n p)

theorem keeps_code (h : CodeContract c i) (a : Args) : (work a i).OnCode (Keeps c) := by
  have hr := h.toReading
  cases i with
  | probe | send _ | recv _ | release _ | shutdown => trivial
  | i2cRead => exact keeps_mapped (keeps_i2cRead (h.i2cWire rfl) _ _ _) _
  | i2cWrite => exact keeps_mapped (h.i2cWrite rfl _ _ _) _
  | spiRead => exact keeps_mapped (h.spiXfer rfl _ _ _ _ _) _
  | spiWrite => exact keeps_mapped (keeps_spiWrite (h.spiXfer rfl) _ _ _) _
  | readyWait => exact keeps_mapped (h.i2cWire rfl).ready _
  | spiXfer => exact keeps_asFrame _ (h.spiXfer rfl _ _ _ _ _)
  | checkLocality => exact keeps_mapped (keeps_checkLocality hr) _
  | requestLocality => exact keeps_mapped (keeps_requestLocality (h.writing rfl)) _
  | releaseLocality => exact keeps_mapped (keeps_releaseLocality (h.writing rfl) _) _
  | getBurstAndStatus => exact keeps_mapped (h.poll _) _
  | readStatus => exact keeps_mapped (keeps_readStatus hr) _
  | setReady => exact keeps_mapped (keeps_setReady h.toPrimitive (h.writing rfl).write) _
  | waitCommandReady => exact keeps_mapped (h.writing rfl).commandReady _
  | fifoWriteBody => exact keeps_mapped (keeps_fifoWriteBody (h.writing rfl) _ _) _
  | writeGo => exact keeps_mapped (keeps_writeGo (h.writing rfl)) _
  | fifoReadBody => exact keeps_mapped (keeps_fifoReadBody hr _) _
  | cleanup => exact keeps_mapped (keeps_cleanup (h.writing rfl)) _
  | i2cAddrAccess _ | i2cAddrSts _ | i2cAddrDataFifo _ | i2cAddrDidVid _ =>
    exact keeps_i2cAddressPhase (h.i2cWire rfl) _ _
  | spiHdrReadAccess _ _ | spiHdrWriteAccess _ _ | spiHdrReadSts _ _ | spiHdrWriteSts _ _
  | spiHdrReadDataFifo _ _ | spiHdrWriteDataFifo _ _ | spiHdrReadDidVid _ _ =>
    exact keeps_asFrame _ (h.spiXfer rfl _ _ _ _ _)
  | stsGoVal | stsReadyVal | accessReqVal | accessRelVal => exact keeps_writeValue (h.writing rfl) _ _

/-- What a launched body lands in is what its instruction ends or waits in. -/
theorem launch_lands {I W : Engine → Prop} {J : Unit → Engine → Prop} {X : Err → Engine → Prop}
    {body : P Unit} {s t : State} (h : launch i body s = .next t) (hb : Meets I body J X W)
    (hs : I s.toEngine) :
    (t.running = none → J () t.toEngine ∨ ∃ er, X er t.toEngine) ∧
      (t.running ≠ none → W t.toEngine) := by
  have hl := hb s.toEngine hs
  obtain ⟨_, ⟨hr, he | ⟨er, he⟩⟩ | ⟨w, he, hr⟩⟩ := launch_next h <;> rw [he] at hl
  · exact ⟨fun _ => .inl hl, fun hn => absurd hr hn⟩
  · exact ⟨fun _ => .inr ⟨er, hl⟩, fun hn => absurd hr hn⟩
  · exact ⟨fun hn => by simp [hr] at hn, fun _ => hl⟩

/-- The invariant of a contract its work keeps holds where an instruction ends, and what the contract
says of waiting holds where it waits. -/
theorem exec_keeps {s t : State} (hp : Primitive c) (hret : ∀ e r, c.inv e → c.inv (e.setRet r))
    (hbusy : ∀ e b, c.inv e → c.inv (e.setBusy b)) (hresult : ∀ e r, c.inv e → c.inv (e.setResult r))
    (hcmd : (work s.args i).OnCommand (Keeps c)) (hcode : (work s.args i).OnCode (Keeps c))
    (h : exec i s = .next t) (hs : c.inv s.toEngine) :
    (t.running = none → c.inv t.toEngine) ∧ (t.running ≠ none → c.waiting t.toEngine) := by
  have hbody : Keeps c (work s.args i).body := by
    cases hw : work s.args i with
    | command p =>
      rw [hw] at hcmd
      exact keeps_bind (keeps_change fun e => hbusy e _) fun _ => keeps_bind (keeps_attempt hp hcmd) fun _ =>
        keeps_change fun e he => hbusy _ _ (hresult e _ he)
    | code p =>
      rw [hw] at hcode
      exact keeps_bind (keeps_attempt hp hcode) fun _ => keeps_change fun e => hret e _
  obtain ⟨hdone, hwait⟩ := launch_lands (exec_next h).launch hbody hs
  refine ⟨fun hn => ?_, hwait⟩
  rcases hdone hn with he | ⟨er, he⟩
  · exact he
  · exact hp.caught er _ he

end Keeps

end Sys2Proof.Machine
end

section
/-! SUPPORT. The contracts the statements need: the SPI lock, the scratch buffer, the session. -/

namespace Sys2Proof.Machine

/-- The contract of an invariant: it also holds wherever a procedure raises. -/
def invariant (I W : Engine → Prop) : Contract where
  inv := I
  raised := fun _ => I
  waiting := W

/-! ### Waits with a budget, where an error promises no more than the invariant -/

section RaisesAny

variable {c : Contract} (hany : ∀ er e, c.inv e → c.raised er e)
include hany

theorem keeps_readyWait_of_any (h : Primitive c) : Keeps c readyWait :=
  have hports := h.toPorts
  keeps_bind (keeps_now hports) fun _ => keeps_bind (keeps_noteT1 h _) fun _ =>
    keeps_repeatP hports <| keeps_bind (keeps_readyFlag hports) fun seen => by
      cases seen
      · exact keeps_look fun e => keeps_bind (keeps_expired hports _ _) fun late => by
          cases late
          · exact keeps_pure _
          · exact keeps_bind (keeps_readyAtDeadline hports) fun set => by
              cases set
              · exact keeps_raise (hany _)
              · exact keeps_pure _
      · exact keeps_pure _

theorem i2cWire_of_any (h : Primitive c) : I2cWire c where
  toPrimitive := h
  cleared er e he := hany er _ (h.log _ _ (h.clear _ (h.caught er e he)))
  ready := keeps_readyWait_of_any hany h

theorem spiWire_of_any (h : Primitive c) (hl : ∀ e l, c.inv e → c.inv (e.setLock l)) : SpiWire c where
  toPrimitive := h
  lock := hl
  unlocked er e he := hany er _ (h.log _ _ (hl _ _ (h.caught er e he)))
  stall := keeps_bind (keeps_now h.toPorts) fun _ => keeps_bind (keeps_noteT1 h _) fun _ =>
    keeps_repeatP h.toPorts <| keeps_bind (keeps_busRead h.toPorts 1) fun s => by
      cases notStalled (byteAt s 0)
      · exact keeps_look fun e => keeps_bind (keeps_expired h.toPorts _ _) fun late => by
          cases late
          · exact keeps_pure _
          · exact keeps_raise (hany _)
      · exact keeps_pure _

theorem reading_of_any (h : Updates c) (hr : ∀ kind n, Keeps c (regRead kind n)) : Reading c where
  toUpdates := h
  read := hr
  poll mask := keeps_bind (keeps_now h.toPorts) fun _ => keeps_bind (keeps_onX h _) fun _ =>
    keeps_repeatP h.toPorts <| keeps_bind (keeps_attempt h.toPrimitive (hr _ _)) fun r =>
      keeps_bind (keeps_noteSnapshot h mask r) fun v => by
        cases v
        · exact keeps_look fun e => keeps_bind (keeps_sleep h _) fun _ =>
            keeps_bind (keeps_expired h.toPorts _ _) fun late => by
              cases late
              · exact keeps_pure _
              · exact keeps_raise (hany _)
        · exact keeps_pure _

theorem writing_of_any (h : Reading c) (hw : ∀ kind p, Keeps c (regWrite kind p)) : Writing c where
  toReading := h
  write := hw
  commandReady := keeps_bind (keeps_now h.toPorts) fun _ => keeps_bind (keeps_onX h.toUpdates _) fun _ =>
    keeps_repeatP h.toPorts <| keeps_bind (keeps_readStatus h) fun st => keeps_look fun e => by
      cases cmdReady e.cfg.map st
      · exact keeps_bind (keeps_expired h.toPorts _ _) fun late => by
          cases late
          · exact keeps_bind (keeps_setReady h.toPrimitive hw) fun _ => keeps_pure _
          · exact keeps_raise (hany _)
      · exact keeps_pure _

end RaisesAny

/-- A contract that both transports' transactions keep. -/
theorem keeps_regRead_of_wires {c : Contract} (hi : I2cWire c)
    (hx : ∀ dir loc kind n p, Keeps c (spiXfer dir loc kind n p)) (kind : Kind) (n : Nat) :
    Keeps c (regRead kind n) :=
  keeps_regRead (fun _ _ _ e he _ => keeps_i2cRead hi _ _ _ e he)
    (fun _ _ _ e he _ => hx _ _ _ _ _ e he) kind n

theorem keeps_regWrite_of_wires {c : Contract} (hi : I2cWire c)
    (hs : ∀ e bs, c.inv e → c.inv (e.setScratch bs))
    (hx : ∀ dir loc kind n p, Keeps c (spiXfer dir loc kind n p)) (kind : Kind) (p : List Byte) :
    Keeps c (regWrite kind p) :=
  keeps_regWrite (fun _ _ _ e he _ => keeps_i2cWrite hi hs _ _ _ e he)
    (fun _ _ _ e he _ => keeps_spiWrite hx _ _ _ e he) kind p

/-- An invariant of the fields that no update above the transport writes: only an answer's effect on it
is left to show. -/
theorem updates_of_fields (K : Cfg → Lock → List Byte → Sess → Bool → Option Err → Prop)
    {W : Engine → Prop} (hW : ∀ e : Engine, K e.cfg e.lock e.scratch e.sess e.busy e.pending → W e)
    (hsettle : ∀ (e : Engine) a rest, K e.cfg e.lock e.scratch e.sess e.busy e.pending →
      K e.cfg (e.settle a rest).lock e.scratch e.sess e.busy e.pending) :
    Updates (invariant (fun e => K e.cfg e.lock e.scratch e.sess e.busy e.pending) W) where
  waits := hW
  raises _ _ _ h := h
  settle := hsettle
  log _ _ h := h
  caught _ _ h := h
  clear _ h := h
  t1 _ _ h := h
  addTicks _ _ h := h
  setX _ _ h := h
  setRsp _ _ _ h := h

/-- One of the fields that no host command writes. -/
theorem session_of_fields (K : Cfg → Lock → List Byte → Prop) {W : Engine → Prop}
    (h : Writing (invariant (fun e => K e.cfg e.lock e.scratch) W)) :
    Session (invariant (fun e => K e.cfg e.lock e.scratch) W) where
  toWriting := h
  raisesAny _ _ he := he
  setSess _ _ he := he
  setPending _ _ he := he
  setBusy _ _ he := he
  setResult _ _ he := he

/-! ### On I2C the SPI lock is not touched -/

/-- The handle is on I2C, and the lock is `l`. -/
def LockOnI2c (l : Lock) (e : Engine) : Prop := e.cfg.transport = .i2c ∧ e.lock = l

/-- The lock on I2C, an instruction ended or waiting. -/
def lockOnI2c (l : Lock) : Contract := invariant (LockOnI2c l) (LockOnI2c l)

theorem updates_lockOnI2c (l : Lock) : Updates (lockOnI2c l) :=
  updates_of_fields (fun c l' _ _ _ _ => c.transport = .i2c ∧ l' = l) (fun _ h => h)
    fun _ _ _ h => ⟨h.1, by simp [h.1, h.2]⟩

theorem i2cWire_lockOnI2c (l : Lock) : I2cWire (lockOnI2c l) :=
  i2cWire_of_any (fun _ _ h => h) (updates_lockOnI2c l).toPrimitive

/-- No handle is on both buses. -/
theorem not_spi_of_lockOnI2c {l : Lock} {e : Engine} {C : Prop} (h : LockOnI2c l e)
    (hs : e.cfg.transport = .spi) : C := by
  rw [h.1] at hs
  cases hs

theorem session_lockOnI2c (l : Lock) : Session (lockOnI2c l) :=
  have hwire := i2cWire_lockOnI2c l
  session_of_fields (fun c l' _ => c.transport = .i2c ∧ l' = l) <|
    writing_of_any (fun _ _ h => h)
      (reading_of_any (fun _ _ h => h) (updates_lockOnI2c l)
        (keeps_regRead (fun _ _ _ e he _ => keeps_i2cRead hwire _ _ _ e he)
          fun _ _ _ _ he hs => not_spi_of_lockOnI2c he hs))
      (keeps_regWrite (fun _ _ _ e he _ => keeps_i2cWrite hwire (fun _ _ h => h) _ _ _ e he)
        fun _ _ _ _ he hs => not_spi_of_lockOnI2c he hs)

/-! ### On SPI the scratch buffer is not touched -/

/-- The handle is on SPI, and the scratch buffer holds `bs`. -/
def ScratchOnSpi (bs : List Byte) (e : Engine) : Prop := e.cfg.transport = .spi ∧ e.scratch = bs

/-- The scratch buffer on SPI, an instruction ended or waiting. -/
def scratchOnSpi (bs : List Byte) : Contract := invariant (ScratchOnSpi bs) (ScratchOnSpi bs)

theorem updates_scratchOnSpi (bs : List Byte) : Updates (scratchOnSpi bs) :=
  updates_of_fields (fun c _ bs' _ _ _ => c.transport = .spi ∧ bs' = bs) (fun _ h => h) fun _ _ _ h => h

theorem spiWire_scratchOnSpi (bs : List Byte) : SpiWire (scratchOnSpi bs) :=
  spiWire_of_any (fun _ _ h => h) (updates_scratchOnSpi bs).toPrimitive fun _ _ h => h

theorem not_i2c_of_scratchOnSpi {bs : List Byte} {e : Engine} {C : Prop} (h : ScratchOnSpi bs e)
    (hi : e.cfg.transport = .i2c) : C := by
  rw [h.1] at hi
  cases hi

theorem session_scratchOnSpi (bs : List Byte) : Session (scratchOnSpi bs) :=
  have hx := keeps_spiXfer (spiWire_scratchOnSpi bs)
  session_of_fields (fun c _ bs' => c.transport = .spi ∧ bs' = bs) <|
    writing_of_any (fun _ _ h => h)
      (reading_of_any (fun _ _ h => h) (updates_scratchOnSpi bs)
        (keeps_regRead (fun _ _ _ _ he hi => not_i2c_of_scratchOnSpi he hi)
          fun _ _ _ e he _ => hx _ _ _ _ _ e he))
      (keeps_regWrite (fun _ _ _ _ he hi => not_i2c_of_scratchOnSpi he hi)
        fun _ _ _ e he _ => keeps_spiWrite hx _ _ _ e he)

/-! ### Register reads do not touch the scratch buffer -/

/-- The scratch buffer holds `bs`, an instruction ended or waiting. -/
def scratchIs (bs : List Byte) : Contract :=
  invariant (fun e => e.scratch = bs) fun e => e.scratch = bs

theorem updates_scratchIs (bs : List Byte) : Updates (scratchIs bs) :=
  updates_of_fields (fun _ _ bs' _ _ _ => bs' = bs) (fun _ h => h) fun _ _ _ h => h

theorem codeContract_scratchIs (bs : List Byte) {i : Instr} (hi : readsOnly i = true) :
    CodeContract (scratchIs bs) i :=
  have hwire := i2cWire_of_any (fun _ _ h => h) (updates_scratchIs bs).toPrimitive
  have hx := keeps_spiXfer
    (spiWire_of_any (fun _ _ h => h) (updates_scratchIs bs).toPrimitive fun _ _ h => h)
  { toReading := reading_of_any (fun _ _ h => h) (updates_scratchIs bs) (keeps_regRead_of_wires hwire hx)
    writing := fun hw => by simp [hi] at hw
    i2cWire := fun _ => hwire
    i2cWrite := fun hw => by simp [hw, readsOnly] at hi
    spiXfer := fun _ => hx }

/-! ### The engine does not hold the SPI controller where an instruction ends (R45, R344) -/

/-- The engine does not hold the SPI controller; while it waits it may. -/
def unlocked : Contract := invariant (fun e => e.lock ≠ .engine) fun _ => True

/-- An answer gives the controller to others or to none, never to the engine (R45). -/
theorem settle_unlocked (e : Engine) (a : Answer) (rest : List Answer) (h : e.lock ≠ .engine) :
    (e.settle a rest).lock ≠ .engine := by
  rw [Engine.settle_lock]
  split
  · exact h
  · cases a.lockFree <;> simp

theorem updates_unlocked : Updates unlocked :=
  updates_of_fields (fun _ l _ _ _ _ => l ≠ .engine) (fun _ _ => trivial) settle_unlocked

/-- Waiting for the controller ends or goes on; it raises nothing (R45). -/
theorem meets_spiLock (X : Err → Engine → Prop) :
    Meets (fun _ => True) spiLock (fun _ _ => True) X fun _ => True :=
  have hchange : ∀ f, Meets (fun _ => True) (change f) (fun _ _ => True) X fun _ => True :=
    fun _ => meets_change fun _ _ => trivial
  meets_repeatP (fun _ _ => trivial) <|
    meets_bind (J := fun _ _ => True) (meets_take (fun _ _ => trivial) fun _ _ _ _ => trivial) fun a => by
      cases a.lockFree
      · exact meets_pure fun _ _ => trivial
      · exact meets_bind (hchange _) fun _ => meets_bind (hchange _) fun _ => meets_pure fun _ _ => trivial

/-- The lock is freed on every exit from a frame (R153). -/
theorem keeps_spiXfer_unlocked (dir : Dir) (loc : Nat) (kind : Kind) (n : Nat) (p : List Byte) :
    Keeps unlocked (spiXfer dir loc kind n p) :=
  keeps_look fun e => by
    split
    · exact keeps_raise fun _ h => h
    · exact meets_bind ((meets_spiLock _).pre fun _ _ => trivial) fun _ =>
        meets_attempt_bind (meets_trivial _) (fun a e _ => Lock.noConfusion)
          fun er e _ => Lock.noConfusion

theorem i2cWire_unlocked : I2cWire unlocked :=
  i2cWire_of_any (fun _ _ h => h) updates_unlocked.toPrimitive

theorem session_unlocked : Session unlocked :=
  session_of_fields (fun _ l _ => l ≠ .engine) <|
    writing_of_any (fun _ _ h => h)
      (reading_of_any (fun _ _ h => h) updates_unlocked
        (keeps_regRead_of_wires i2cWire_unlocked keeps_spiXfer_unlocked))
      (keeps_regWrite_of_wires i2cWire_unlocked (fun _ _ h => h) keeps_spiXfer_unlocked)

/-! ### Below the host commands the session is not touched (R33, R35, R304) -/

/-- A condition on the session state, `busy` and the saved error; nothing is said of waiting. -/
def sessionIs (Q : Sess → Bool → Option Err → Prop) : Contract :=
  invariant (fun e => Q e.sess e.busy e.pending) fun _ => True

section SessionIs

variable (Q : Sess → Bool → Option Err → Prop)

theorem updates_sessionIs : Updates (sessionIs Q) :=
  updates_of_fields (fun _ _ _ s b p => Q s b p) (fun _ _ => trivial) fun _ _ _ h => h

theorem i2cWire_sessionIs : I2cWire (sessionIs Q) :=
  i2cWire_of_any (fun _ _ h => h) (updates_sessionIs Q).toPrimitive

theorem keeps_spiXfer_sessionIs (dir : Dir) (loc : Nat) (kind : Kind) (n : Nat) (p : List Byte) :
    Keeps (sessionIs Q) (spiXfer dir loc kind n p) :=
  keeps_spiXfer (spiWire_of_any (fun _ _ h => h) (updates_sessionIs Q).toPrimitive fun _ _ h => h) _ _ _ _ _

theorem writing_sessionIs : Writing (sessionIs Q) :=
  have hwire := i2cWire_sessionIs Q
  have hx := keeps_spiXfer_sessionIs Q
  writing_of_any (fun _ _ h => h)
    (reading_of_any (fun _ _ h => h) (updates_sessionIs Q) (keeps_regRead_of_wires hwire hx))
    (keeps_regWrite_of_wires hwire (fun _ _ h => h) hx)

end SessionIs

/-- A row keeps a contract of the procedures above the transport, if the transport's own rows do. -/
theorem codeContract_of_writing {c : Contract} {i : Instr} (h : Writing c)
    (hi : neededTransport i = some .i2c → I2cWire c)
    (hs : neededTransport i = some .i2c → ∀ e bs, c.inv e → c.inv (e.setScratch bs))
    (hx : neededTransport i = some .spi → ∀ dir loc kind n p, Keeps c (spiXfer dir loc kind n p)) :
    CodeContract c i where
  toReading := h.toReading
  writing _ := h
  i2cWire := hi
  i2cWrite hw := by
    subst hw
    exact keeps_i2cWrite (hi rfl) (hs rfl)
  spiXfer := hx

end Sys2Proof.Machine
end

section
/-! PROOF. The configurations attach accepts, the state after reset, and what no instruction changes. -/

namespace Sys2Proof.Machine

/-! ### Attach and reset -/

theorem Cfg.ok_iff (c : Cfg) :
    c.ok = true ↔
      c.maxXfer + 1 ≤ c.scratchCap ∧ (c.transport = .spi → c.maxXfer ≤ 64) ∧
      c.burstCap ≤ c.maxXfer + 1 ∧ c.hdrSize + 1 ≤ c.burstCap ∧
      (c.transport = .i2c → c.loc ≤ 15) ∧ (c.transport = .spi → c.loc ≤ 3) := by
  cases h : c.transport <;> simp [Cfg.ok, h, Transport.maxLoc, and_assoc]

theorem attachHandle_of_ok {c : Cfg} (h : c.ok = true) (s : State) :
    attachHandle c s = .next { s with toEngine := s.toEngine.attach c, running := none, slot := none } := by
  simp [attachHandle, h]

theorem attachHandle_of_not_ok {c : Cfg} (h : ¬ c.ok = true) (s : State) :
    attachHandle c s = .refused .badConfig := by
  simp [attachHandle, h]

/-- A handle is attached exactly where its configuration meets R10. -/
theorem attachHandle_next_iff {c : Cfg} {s : State} :
    (∃ t, attachHandle c s = .next t) ↔ c.ok = true := by
  refine ⟨fun ⟨t, ht⟩ => ?_, fun h => ⟨_, attachHandle_of_ok h s⟩⟩
  by_contra hn
  rw [attachHandle_of_not_ok hn] at ht
  cases ht

/-- Settles O12: the five constraints are the conjuncts of `Cfg.ok`. -/
theorem attachAcceptsExactlyR10 : Obligations.AttachAcceptsExactlyR10 := by
  intro c s
  rw [attachHandle_next_iff]
  exact ⟨Cfg.ok_iff c, fun hn => attachHandle_of_not_ok hn s⟩

theorem reset_engine_inv : State.reset.toEngine.Inv where
  cfg_ok := by decide
  cmdbuf_wf := reset_buffers_wf.1
  rspbuf_wf := reset_buffers_wf.2
  scratch_length _ := by decide
  path_i2c _ _ := rfl
  path_spi h := by cases h
  ready_spi _ := rfl
  lock_i2c _ := rfl

theorem reset_engine_quiet : State.reset.toEngine.Quiet where
  not_busy := rfl
  resting := rfl
  no_pending := rfl
  no_lock := by decide

/-- Settles O16. -/
theorem resetMeetsTheInvariant : Obligations.ResetMeetsTheInvariant where
  engine := reset_engine_inv
  quiet _ := reset_engine_quiet
  started _ h := by cases h

/-! ### The frame of every instruction -/

/-- What a body keeps of the engine, whatever the environment answers: the handle and what belongs to the
host stay, events are only added and answers only used up; and the parts of the invariant that the
ready flag, the scratch buffer and RSPBUF can break are not broken. -/
structure Frame (e t : Engine) : Prop where
  cfg : t.cfg = e.cfg
  attached : t.attached = e.attached
  readyPath : t.readyPath = e.readyPath
  cmdbuf : t.cmdbuf = e.cmdbuf
  args : t.args = e.args
  trace : e.trace <+: t.trace
  inbox : t.inbox <:+ e.inbox
  rspbuf : Memory.wf e.rspbuf = true → Memory.wf t.rspbuf = true
  scratch : e.scratch.length = e.cfg.scratchCap → t.scratch.length = t.cfg.scratchCap
  ready : e.readyPath = false → e.ready = false → t.ready = false

theorem Frame.refl (e : Engine) : Frame e e :=
  ⟨rfl, rfl, rfl, rfl, rfl, List.prefix_rfl, List.suffix_rfl, id, id, fun _ => id⟩

theorem Frame.trans {a b c : Engine} (h : Frame a b) (k : Frame b c) : Frame a c where
  cfg := k.cfg.trans h.cfg
  attached := k.attached.trans h.attached
  readyPath := k.readyPath.trans h.readyPath
  cmdbuf := k.cmdbuf.trans h.cmdbuf
  args := k.args.trans h.args
  trace := h.trace.trans k.trace
  inbox := k.inbox.trans h.inbox
  rspbuf := k.rspbuf ∘ h.rspbuf
  scratch := k.scratch ∘ h.scratch
  ready hp hr := k.ready (h.readyPath.trans hp) (h.ready hp hr)

theorem frame_setScratch (e : Engine) (bs : List Byte) (hb : bs.length ≤ e.cfg.scratchCap) :
    Frame e (e.setScratch bs) :=
  { Frame.refl e with
    scratch := fun hs => by
      simp only [Engine.setScratch_scratch, Engine.setScratch_cfg, List.length_append, List.length_drop]
      omega }

theorem frame_closed : ClosedBody Frame where
  refl := Frame.refl
  trans := Frame.trans
  settle e a rest h :=
    { Frame.refl e with
      inbox := by
        rw [h]
        exact List.suffix_cons a rest
      ready := fun hp hr => by simp [hp, hr] }
  log e v := { Frame.refl e with trace := List.prefix_append _ _ }
  addTicks e _ := { Frame.refl e with }
  setReady e := { Frame.refl e with ready := fun _ _ => rfl }
  setLock e _ := { Frame.refl e with }
  setX e _ := { Frame.refl e with }
  setScratch := frame_setScratch
  setRsp e i v := { Frame.refl e with rspbuf := memSet_wf _ i v }
  setSess e _ := { Frame.refl e with }
  setPending e _ := { Frame.refl e with }
  setBusy e _ := { Frame.refl e with }
  setResult e _ := { Frame.refl e with }
  setRet e _ := { Frame.refl e with }

/-- A contract that says the same of an instruction that ended and of one that waits. -/
theorem exec_invariant {I : Engine → Prop} {i : Instr} {s t : State} (hp : Primitive (invariant I I))
    (hret : ∀ e r, I e → I (e.setRet r)) (hbusy : ∀ e b, I e → I (e.setBusy b))
    (hresult : ∀ e r, I e → I (e.setResult r))
    (hcmd : (work s.args i).OnCommand (Keeps (invariant I I)))
    (hcode : (work s.args i).OnCode (Keeps (invariant I I)))
    (h : exec i s = .next t) (hs : I s.toEngine) : I t.toEngine := by
  obtain ⟨hdone, hwait⟩ := exec_keeps hp hret hbusy hresult hcmd hcode h hs
  by_cases hn : t.running = none
  · exact hdone hn
  · exact hwait hn

theorem exec_lock_of_i2c {i : Instr} {s t : State} (h : exec i s = .next t)
    (hi : s.cfg.transport = .i2c) : t.lock = s.lock := by
  have hc := session_lockOnI2c s.lock
  have hwire : neededTransport i = some .spi → ∀ dir loc kind n p,
      Keeps (lockOnI2c s.lock) (spiXfer dir loc kind n p) := fun hn => by
    have := (exec_next h).transport _ hn
    rw [hi] at this
    cases this
  have hcode := codeContract_of_writing (i := i) hc.toWriting (fun _ => i2cWire_lockOnI2c _)
    (fun _ _ _ he => he) hwire
  exact (exec_invariant (I := LockOnI2c s.lock) hc.toPrimitive (fun _ _ he => he) hc.setBusy hc.setResult
    (keeps_command hc _) (keeps_code hcode _) h ⟨hi, rfl⟩).2

theorem exec_scratch_of_spi {i : Instr} {s t : State} (h : exec i s = .next t)
    (hs : s.cfg.transport = .spi) : t.scratch = s.scratch := by
  have hc := session_scratchOnSpi s.scratch
  have hi2c {C : Prop} (hn : neededTransport i = some .i2c) : C := by
    have := (exec_next h).transport _ hn
    rw [hs] at this
    cases this
  have hcode := codeContract_of_writing (i := i) hc.toWriting (fun hn => hi2c hn) (fun hn => hi2c hn)
    fun _ => keeps_spiXfer (spiWire_scratchOnSpi _)
  exact (exec_invariant (I := ScratchOnSpi s.scratch) hc.toPrimitive (fun _ _ he => he) hc.setBusy
    hc.setResult (keeps_command hc _) (keeps_code hcode _) h ⟨hs, rfl⟩).2

theorem readsOnly_not_isHostCommand {i : Instr} (hi : readsOnly i = true) : isHostCommand i = false := by
  cases i with
  | probe | send _ | recv _ | release _ | shutdown => cases hi
  | _ => rfl

/-- The work of an instruction that is no host command is code. -/
theorem onCommand_of_code {q : P HostVal → Prop} {i : Instr} (a : Args) (hi : isHostCommand i = false) :
    (work a i).OnCommand q := by
  obtain ⟨p, hp⟩ := work_of_not_isHostCommand a hi
  rw [hp]
  trivial

theorem exec_scratch_of_readsOnly {i : Instr} {s t : State} (h : exec i s = .next t)
    (hi : readsOnly i = true) : t.scratch = s.scratch :=
  have hc := codeContract_scratchIs s.scratch hi
  exec_invariant (I := fun e => e.scratch = s.scratch) hc.toPrimitive (fun _ _ he => he) (fun _ _ he => he)
    (fun _ _ he => he) (onCommand_of_code _ (readsOnly_not_isHostCommand hi)) (keeps_code hc _) h rfl

/-- Settles O19: the frame that holds along every update, and what only the transports' own
transactions write. -/
theorem frameOfEveryInstruction : Obligations.FrameOfEveryInstruction := by
  intro i s t h
  have hf : Frame s.toEngine t.toEngine := exec_along frame_closed h
  obtain ⟨⟨hslot, hdrawn, hturn⟩, _⟩ := launch_next (exec_next h).launch
  exact ⟨hf.cfg, hf.attached, hf.readyPath, hf.cmdbuf, hf.args, hslot, hdrawn, hturn, hf.trace, hf.inbox,
    exec_lock_of_i2c h, exec_scratch_of_spi h, exec_scratch_of_readsOnly h⟩

end Sys2Proof.Machine
end

section
/-! PROOF. Every step keeps the machine's invariant. -/

namespace Sys2Proof.Machine

variable {α β : Type}

/-! ### Procedures that never fail -/

/-- The procedure raises nothing. -/
def Silent (p : P α) : Prop :=
  Meets (fun _ => True) p (fun _ _ => True) (fun _ _ => False) fun _ => True

theorem silent_bind {p : P α} {k : α → P β} (hp : Silent p) (hk : ∀ a, Silent (k a)) : Silent (p >>= k) :=
  meets_bind hp hk

theorem silent_look {k : Engine → P β} (hk : ∀ e, Silent (k e)) : Silent (look >>= k) :=
  meets_look fun e _ => (hk e).pre fun _ _ => trivial

theorem silent_pure (a : α) : Silent (pure a) := meets_pure fun _ _ => trivial

theorem silent_onX (f : Regs → Regs) : Silent (onX f) := meets_change fun _ _ => trivial

theorem silent_attempt (p : P α) : Silent (attempt p) :=
  (meets_attempt (meets_trivial p)).imp (fun _ h => h) (fun _ _ _ => trivial) fun _ _ h => h

theorem silent_ignore (p : P α) : Silent (ignore p) :=
  silent_bind (silent_attempt p) fun _ => silent_pure ()

theorem silent_onlyIf (b : Bool) {p : P Unit} (hp : Silent p) : Silent (onlyIf b p) := by
  cases b
  · exact silent_pure ()
  · exact hp

/-- RELEASE_LOCALITY never fails (R182). -/
theorem silent_releaseLocality (force : Bool) : Silent (releaseLocality force) :=
  have hrelinquish : Silent relinquish := silent_look fun _ => silent_ignore _
  silent_bind (silent_attempt _) fun r => silent_look fun _ => by
    cases r
    · exact silent_onlyIf _ hrelinquish
    · exact silent_bind (silent_onX _) fun _ => silent_onlyIf _ hrelinquish

/-- READ_STATUS never fails (R202). -/
theorem silent_readStatus : Silent readStatus :=
  silent_bind (silent_attempt _) fun _ => silent_bind (silent_onX _) fun _ => silent_pure _

/-- SET_READY never fails (R203). -/
theorem silent_setReady : Silent setReady := silent_look fun _ => silent_ignore _

/-- CLEANUP never fails (R225). -/
theorem silent_cleanup : Silent cleanup :=
  silent_bind silent_readStatus fun _ => silent_look fun _ =>
    silent_bind (silent_onlyIf _ silent_setReady) fun _ => silent_releaseLocality true

/-- A procedure that raises nothing meets what is asked of any error. -/
theorem Meets.of_silent {I W : Engine → Prop} {J : α → Engine → Prop} {X X' : Err → Engine → Prop}
    {p : P α} (h : Meets I p J X W) (hs : Silent p) : Meets I p J X' W := by
  intro e he
  have h1 := h e he
  have h2 := hs e trivial
  rcases hp : p e with ⟨a, t⟩ | ⟨_ | _ | _, t⟩ <;> rw [hp] at h1 h2
  · exact h1
  · exact h2.elim
  · exact h1
  · trivial

/-! ### The session at the end of a host command (R267 (a), R304) -/

/-- The session state persists between commands, and no error is saved. -/
def Rested (e : Engine) : Prop := e.sess.resting = true ∧ e.pending = none

/-- From a rested state a command ends rested, with a value or with an error. -/
def EndsRested (p : P HostVal) : Prop :=
  Meets Rested p (fun _ => Rested) (fun _ => Rested) fun _ => True

/-- No error is saved: true of the commands' exchanges, which an abort only follows. -/
def nonePending : Contract := sessionIs fun _ _ p => p = none

/-- The session state is one that persists. -/
def resting : Contract := sessionIs fun s _ _ => s.resting = true

/-- Both. -/
def rested : Contract := sessionIs fun s _ p => s.resting = true ∧ p = none

/-- An abort whose path raises nothing and ends in a persisting session state ends rested, with the saved
error. -/
theorem meets_abort {I : Engine → Prop} {J : α → Engine → Prop} {path : P Unit} (er : Err)
    (hI : ∀ e p, I e → I (e.setPending p))
    (hp : Meets I path (fun _ e => e.sess.resting = true) (fun _ _ => False) fun _ => True) :
    Meets I (abort er path) J (fun _ => Rested) fun _ => True :=
  meets_bind (J := fun _ => I) (meets_change fun e h => hI e _ h) fun _ =>
    meets_bind (hp.imp (fun _ h => h) (fun _ _ h => h) fun _ _ h => h.elim) fun _ =>
      meets_bind (J := fun _ => Rested) (meets_change fun _ h => ⟨h, rfl⟩) fun _ =>
        meets_raise fun _ h => h

theorem meets_sessionAbort :
    Meets (fun _ => True) sessionAbort (fun _ e => e.sess.resting = true) (fun _ _ => False)
      fun _ => True :=
  meets_bind silent_cleanup fun _ => meets_change fun _ _ => rfl

/-- RELEASE_LOCALITY keeps the session state, and fails nowhere. -/
theorem meets_releaseLocality (force : Bool) :
    Meets resting.inv (releaseLocality force) (fun _ e => e.sess.resting = true) (fun _ _ => False)
      fun _ => True :=
  Meets.of_silent (keeps_releaseLocality (writing_sessionIs _) force) (silent_releaseLocality force)

theorem meets_shutdownAbort :
    Meets (fun _ => True) shutdownAbort (fun _ e => e.sess.resting = true) (fun _ _ => False)
      fun _ => True :=
  meets_bind meets_sessionAbort fun _ => meets_releaseLocality true

theorem writing_nonePending : Writing nonePending := writing_sessionIs _

theorem writing_rested : Writing rested := writing_sessionIs _

/-- An exchange saves no error, whatever becomes of it. -/
theorem keeps_nonePending_sendCore (src : Src) (len : Nat) : Keeps nonePending (sendCore src len) :=
  keeps_sendCore writing_nonePending (fun _ _ h => h) src len

/-- RECV_CORE that returns leaves the session IDLE, and no error saved. -/
theorem meets_recvCore (cap : Nat) :
    Meets nonePending.inv (recvCore cap) (fun _ => Rested) nonePending.raised nonePending.waiting :=
  have h := writing_nonePending
  have hset : ∀ s, Keeps nonePending (setSess s) := fun _ => keeps_change fun _ he => he
  meets_bind (hset _) fun _ => meets_bind (keeps_fifoReadBody h.toReading cap) fun _ =>
    meets_bind (hset _) fun _ => meets_bind (keeps_releaseLocality h false) fun _ =>
      meets_bind (J := fun _ => Rested) (meets_change fun _ he => ⟨rfl, he⟩) fun _ =>
        meets_pure fun _ he => he

theorem probe_endsRested : EndsRested probeCommand :=
  meets_attempt_bind (keeps_probeCore writing_rested) (fun _ => meets_pure fun _ he => he)
    fun er => (meets_abort er (fun _ _ h => h) (meets_releaseLocality true)).pre fun _ he => he.1

theorem send_endsRested (len : Nat) : EndsRested (sendCommand len) :=
  meets_attempt_bind ((keeps_nonePending_sendCore _ _).pre fun _ h => h.2)
    (fun _ => meets_bind (J := fun _ => Rested) (meets_change fun _ he => ⟨rfl, he⟩) fun _ =>
      meets_pure fun _ he => he)
    fun er => (meets_abort er (fun _ _ h => h) meets_sessionAbort).pre fun _ _ => trivial

theorem recv_endsRested (cap : Nat) : EndsRested (recvCommand cap) :=
  meets_attempt_bind ((meets_recvCore cap).pre fun _ h => h.2) (fun _ => meets_pure fun _ he => he)
    fun er => (meets_abort er (fun _ _ h => h) meets_sessionAbort).pre fun _ _ => trivial

theorem release_endsRested (force : Bool) : EndsRested (releaseCommand force) :=
  keeps_bind (keeps_releaseLocality writing_rested force) fun _ => keeps_pure _

theorem shutdownFinish_endsRested (got : Received) : EndsRested (shutdownFinish got) :=
  keeps_bind (keeps_releaseLocality writing_rested true) fun _ => by
    cases shutdownMatches got
    · exact keeps_raise fun _ h => h
    · exact keeps_pure _

theorem shutdown_endsRested : EndsRested shutdownCommand :=
  have habort (er : Err) : Meets nonePending.inv (abort er shutdownAbort : P HostVal) (fun _ => Rested)
      (fun _ => Rested) fun _ => True :=
    (meets_abort er (fun _ _ h => h) meets_shutdownAbort).pre fun _ _ => trivial
  meets_attempt_bind ((keeps_nonePending_sendCore _ _).pre fun _ h => h.2)
    (fun _ => meets_bind (J := fun _ => nonePending.inv) (meets_change fun _ he => he) fun _ =>
      meets_attempt_bind (meets_recvCore 10) shutdownFinish_endsRested habort)
    habort

theorem command_endsRested (a : Args) (i : Instr) : (work a i).OnCommand EndsRested := by
  cases i with
  | probe => exact probe_endsRested
  | send len => exact send_endsRested len
  | recv cap => exact recv_endsRested cap
  | release force => exact release_endsRested force
  | shutdown => exact shutdown_endsRested
  | _ => trivial

/-! ### The engine between instructions -/

/-- No host command runs, and the session rests: what `Engine.Quiet` says beside the SPI lock. -/
def atRest : Contract := sessionIs fun s b p => b = false ∧ s.resting = true ∧ p = none

theorem codeContract_atRest (i : Instr) : CodeContract atRest i :=
  codeContract_of_writing (writing_sessionIs _) (fun _ => i2cWire_sessionIs _) (fun _ _ _ he => he)
    fun _ => keeps_spiXfer_sessionIs _

/-- An instruction that ends leaves the engine at rest: `busy` is false only once `result` is written. -/
theorem body_atRest (a : Args) (i : Instr) :
    Meets atRest.inv (work a i).body (fun _ => atRest.inv) (fun _ => atRest.inv) fun _ => True := by
  have hcmd := command_endsRested a i
  have hcode := keeps_code (codeContract_atRest i) a
  cases hw : work a i with
  | command p =>
    rw [hw] at hcmd
    have hend : ∀ r, Meets Rested (change fun e => (e.setResult (hostResultOf r)).setBusy false)
        (fun _ => atRest.inv) (fun _ => atRest.inv) fun _ => True :=
      fun r => meets_change fun _ he => ⟨rfl, he⟩
    exact meets_bind (J := fun _ => Rested) (meets_change fun _ he => he.2) fun _ =>
      meets_attempt_bind hcmd (fun _ => hend _) fun _ => hend _
  | code p =>
    rw [hw] at hcode
    exact keeps_bind (keeps_attempt (updates_sessionIs _).toPrimitive hcode) fun _ =>
      keeps_change fun _ he => he

theorem exec_unlocked {i : Instr} {s t : State} (h : exec i s = .next t) (hs : s.lock ≠ .engine)
    (ht : t.running = none) : t.lock ≠ .engine :=
  have hc := session_unlocked
  have hcode : CodeContract unlocked i := codeContract_of_writing hc.toWriting (fun _ => i2cWire_unlocked)
    (fun _ _ _ he => he) fun _ => keeps_spiXfer_unlocked
  (exec_keeps hc.toPrimitive (fun _ _ he => he) hc.setBusy hc.setResult (keeps_command hc _)
    (keeps_code hcode _) h hs).1 ht

theorem exec_quiet {i : Instr} {s t : State} (h : exec i s = .next t) (hq : s.toEngine.Quiet)
    (ht : t.running = none) : t.toEngine.Quiet := by
  have hrest := (launch_lands (exec_next h).launch (body_atRest s.args i)
    ⟨hq.not_busy, hq.resting, hq.no_pending⟩).1 ht
  obtain ⟨hbusy, hsess, hpending⟩ : atRest.inv t.toEngine := by
    rcases hrest with hr | ⟨_, hr⟩ <;> exact hr
  exact ⟨hbusy, hsess, hpending, exec_unlocked h hq.no_lock ht⟩

/-! ### The invariant -/

/-- The frame of an instruction keeps the engine's invariant. -/
theorem Engine.Inv.of_frame {e t : Engine} (h : e.Inv) (hf : Frame e t)
    (hl : e.cfg.transport = .i2c → t.lock = e.lock) : t.Inv where
  cfg_ok := by rw [hf.cfg]; exact h.cfg_ok
  cmdbuf_wf := by rw [hf.cmdbuf]; exact h.cmdbuf_wf
  rspbuf_wf := hf.rspbuf h.rspbuf_wf
  scratch_length ha := hf.scratch (h.scratch_length (hf.attached ▸ ha))
  path_i2c ha hi := by
    rw [hf.readyPath]
    exact h.path_i2c (hf.attached ▸ ha) (hf.cfg ▸ hi)
  path_spi hs := by
    rw [hf.readyPath]
    exact h.path_spi (hf.cfg ▸ hs)
  ready_spi hs := hf.ready (h.path_spi (hf.cfg ▸ hs)) (h.ready_spi (hf.cfg ▸ hs))
  lock_i2c hi := by
    have hi' : e.cfg.transport = .i2c := hf.cfg ▸ hi
    rw [hl hi']
    exact h.lock_i2c hi'

/-- An instruction that starts in a quiet engine keeps the invariant. -/
theorem exec_inv {i : Instr} {s t : State} (h : exec i s = .next t) (hs : s.toEngine.Inv)
    (hq : s.toEngine.Quiet) : t.Inv where
  engine := hs.of_frame (exec_along frame_closed h) (exec_lock_of_i2c h)
  quiet := exec_quiet h hq
  started r hr := by
    have hcfg : t.cfg = s.cfg := (exec_along frame_closed h).cfg
    obtain ⟨_, ⟨hn, _⟩ | ⟨w, _, hw⟩⟩ := launch_next (exec_next h).launch
    · rw [hn] at hr
      cases hr
    · rw [hw] at hr
      cases hr
      exact ⟨hs, hq, hcfg.symm⟩

/-- A machine with no instruction in progress. -/
theorem State.inv_of_idle {s : State} (hr : s.running = none) (h : s.toEngine.Inv)
    (hq : s.toEngine.Quiet) : s.Inv :=
  ⟨h, fun _ => hq, fun r h => by rw [hr] at h; cases h⟩

theorem Engine.Inv.settle {e : Engine} (h : e.Inv) (a : Answer) (rest : List Answer) :
    (e.settle a rest).Inv :=
  { h with
    ready_spi := fun hs => by simp [h.ready_spi hs, h.path_spi hs]
    lock_i2c := fun hi => by
      have hi' : e.cfg.transport = .i2c := hi
      simp [hi', h.lock_i2c hi'] }

theorem Engine.Quiet.settle {e : Engine} (h : e.Quiet) (a : Answer) (rest : List Answer) :
    (e.settle a rest).Quiet :=
  { h with no_lock := settle_unlocked e a rest h.no_lock }

theorem Engine.Inv.attach {e : Engine} (h : e.Inv) {c : Cfg} (hc : c.ok = true) : (e.attach c).Inv where
  cfg_ok := hc
  cmdbuf_wf := h.cmdbuf_wf
  rspbuf_wf := h.rspbuf_wf
  scratch_length _ := List.length_replicate
  path_i2c _ hi := by
    have hi' : c.transport = .i2c := hi
    simp [Engine.attach, hi']
  path_spi hs := by
    have hs' : c.transport = .spi := hs
    simp [Engine.attach, hs']
  ready_spi _ := rfl
  lock_i2c _ := rfl

theorem Engine.attach_quiet (e : Engine) (c : Cfg) : (e.attach c).Quiet := ⟨rfl, rfl, rfl, nofun⟩

theorem Engine.Inv.detach {e : Engine} (h : e.Inv) : e.detach.Inv where
  cfg_ok := h.cfg_ok
  cmdbuf_wf := h.cmdbuf_wf
  rspbuf_wf := h.rspbuf_wf
  scratch_length ha := by cases ha
  path_i2c ha := by cases ha
  path_spi _ := rfl
  ready_spi := h.ready_spi
  lock_i2c := h.lock_i2c

/-- The idle wait keeps what an idle machine meets. -/
theorem idleSettle_idle {s : State} (hr : s.running = none) (h : s.toEngine.Inv) (hq : s.toEngine.Quiet) :
    (idleSettle s).running = none ∧ (idleSettle s).toEngine.Inv ∧ (idleSettle s).toEngine.Quiet := by
  unfold idleSettle
  split
  · exact ⟨hr, h.settle _ _, hq.settle _ _⟩
  · exact ⟨hr, h.settle _ _, hq.settle _ _⟩

/-- Every move of the host keeps the invariant (R311, R340, R341). -/
theorem hostMoves_inv {m : HostMove} {s t : State} (hr : s.running = none) (h : s.toEngine.Inv)
    (hq : s.toEngine.Quiet) (ht : hostMoves m s = .next t) : t.Inv := by
  cases m with
  | wait | command _ =>
    cases ht
    exact State.inv_of_idle hr h hq
  | fillCmdbuf bs =>
    cases ht
    exact State.inv_of_idle hr { h with cmdbuf_wf := memSetAll_wf _ _ 0 h.cmdbuf_wf } { hq with }
  | giveRspbuf bs =>
    cases ht
    exact State.inv_of_idle hr { h with rspbuf_wf := memSetAll_wf _ [] 0 rfl } { hq with }
  | detach =>
    cases ht
    exact State.inv_of_idle hr h.detach { hq with }
  | attach c =>
    by_cases ha : s.attached = true
    · simp only [hostMoves, ha, if_true] at ht
      cases ht
      exact State.inv_of_idle hr h hq
    · simp only [hostMoves, ha] at ht
      have hc := attachHandle_next_iff.mp ⟨t, ht⟩
      rw [attachHandle_of_ok hc] at ht
      cases ht
      exact State.inv_of_idle rfl (h.attach hc) (Engine.attach_quiet _ c)

/-- Settles O17: an instruction carried on runs again from the quiet engine it started in; a new one starts
in a quiet engine; and the idle wait's moves are the host's. -/
theorem stepKeepsTheInvariant : Obligations.StepKeepsTheInvariant := by
  intro s t hs h
  unfold step at h
  cases hr : s.running with
  | some r =>
    obtain ⟨hinv, hquiet, _⟩ := hs.started r hr
    cases hslot : s.slot with
    | some c => simp [hr, hslot] at h
    | none =>
      simp only [hr, hslot] at h
      exact exec_inv h { hinv with } { hquiet with }
  | none =>
    have hquiet := hs.quiet hr
    cases hslot : s.slot with
    | none =>
      simp only [hr, hslot] at h
      obtain ⟨hr', hinv', hquiet'⟩ := idleSettle_idle hr hs.engine hquiet
      exact hostMoves_inv hr' hinv' hquiet' h
    | some c =>
      simp only [hr, hslot] at h
      split at h
      · exact exec_inv h hs.engine hquiet
      · cases h

end Sys2Proof.Machine
end

section
/-! PROOF. A timeout is raised only after its budget: where each wait raises it, and that no procedure above
touches the wait's start register on the way out. -/

namespace Sys2Proof.Machine

variable {α β : Type}

/-- The budget of the wait that raised this error has passed since its start register was written (R16,
R301). -/
def Late (er : Err) (e : Engine) : Prop :=
  match er with
  | .timeout .status => e.x.t0 + e.cfg.tLong * e.cfg.clkPerMs ≤ e.clock
  | .timeout .commandReady => e.x.t0 + e.cfg.tLong * e.cfg.clkPerMs ≤ e.clock
  | .timeout .ready => e.x.t1 + e.cfg.tIrq * e.cfg.clkPerMs ≤ e.clock
  | .timeout .spiStall => e.x.t1 + e.cfg.tSpi * e.cfg.clkPerMs ≤ e.clock
  | _ => True

theorem late_of_untimed {er : Err} (h : er.untimed = true) (e : Engine) : Late er e := by
  cases er with
  | timeout k =>
    cases k with
    | locality => trivial
    | ready | spiStall | status | commandReady => cases h
  | _ => trivial

/-- Only the working registers, the configuration and the clock matter. -/
theorem Late.congr {er : Err} {e t : Engine} (h : Late er e) (hx : t.x = e.x) (hcfg : t.cfg = e.cfg)
    (hclock : t.clock = e.clock) : Late er t := by
  unfold Late at h ⊢
  rw [hx, hcfg, hclock]
  exact h

/-- A procedure whose timeouts are late. -/
def punctual : Contract where
  inv _ := True
  raised := Late
  waiting _ := True

theorem updates_punctual : Updates punctual where
  waits _ _ := trivial
  raises _ e hu _ := late_of_untimed hu e
  settle _ _ _ _ := trivial
  log _ _ _ := trivial
  caught _ _ _ := trivial
  clear _ _ := trivial
  t1 _ _ _ := trivial
  addTicks _ _ _ := trivial
  setX _ _ _ := trivial
  setRsp _ _ _ _ := trivial

/-! ### Deadlines -/

section Deadlines

variable {X : Err → Engine → Prop}

/-- The value a wait starts from is not in the future. -/
theorem meets_start : Meets (fun _ => True) now (fun v t => v ≤ t.clock) X fun _ => True :=
  Meets.each fun e _ => (meets_now e).imp (fun _ h => h) (fun _ _ h => h.1.le) fun _ _ h => h

/-- A deadline counted from the register `reg`, which is not in the future. -/
theorem meets_deadline (reg : Regs → Nat) (budget : Cfg → Nat) (e : Engine) (he : reg e.x ≤ e.clock) :
    Meets (fun m => m = e) (expired (reg e.x) (budget e.cfg))
      (fun late t => reg t.x ≤ t.clock ∧
        (late = true → reg t.x + budget t.cfg * t.cfg.clkPerMs ≤ t.clock)) X fun _ => True := by
  refine (meets_expired e _ _).imp (fun _ h => h) ?_ fun _ _ h => h
  rintro late t ⟨hclock, hx, hcfg, hlate⟩
  rw [hx, hcfg]
  refine ⟨he.trans hclock, fun hl => ?_⟩
  have hpast := hlate hl
  omega

/-- A sleep moves the clock only (R47). -/
theorem meets_sleep (e : Engine) (ms : Nat) : Meets (fun m => m = e) (sleep ms)
    (fun _ t => e.clock ≤ t.clock ∧ t.x = e.x ∧ t.cfg = e.cfg) X fun _ => True := by
  rintro m rfl
  rcases take_cases (.sleep ms) m with ⟨_, h⟩ | ⟨a, rest, hi, _⟩
  · rw [sleep, bind_of_error h]
    trivial
  · rw [sleep_ok hi]
    exact ⟨(Nat.le_add_right _ _).trans (Nat.le_add_right _ _), rfl, rfl⟩

/-- The flag's last look changes nothing that lateness is about (R157). -/
theorem meets_readyAtDeadline : Meets (Late (.timeout .ready)) readyAtDeadline
    (fun _ => Late (.timeout .ready)) X fun _ => True := by
  intro e he
  rw [readyAtDeadline_apply]
  cases e.ready
  · exact he
  · exact he.congr rfl rfl rfl

end Deadlines

/-! ### Waits counted from `x[t1]`: the ready signal and the SPI stall -/

/-- The wait's start is not in the future; a timeout it raises is late. -/
def sinceT1 : Contract := { punctual with inv := fun e => e.x.t1 ≤ e.clock }

theorem ports_sinceT1 : Ports sinceT1 where
  waits _ _ := trivial
  raises _ e hu _ := late_of_untimed hu e
  settle _ _ _ h := Nat.le_add_right_of_le h
  log _ _ h := h

theorem meets_readyWaitTurn :
    Meets sinceT1.inv readyWaitTurn (Turned sinceT1.inv fun _ _ => True) Late fun _ => True :=
  meets_bind (keeps_readyFlag ports_sinceT1) fun seen => by
    cases seen
    · exact meets_look fun e he => meets_bind (meets_deadline Regs.t1 Cfg.tIrq e he) fun late => by
        cases late
        · exact meets_pure fun _ ht => ht.1
        · exact meets_bind (meets_readyAtDeadline.pre fun _ ht => ht.2 rfl) fun set => by
            cases set
            · exact meets_raise fun _ h => h
            · exact meets_pure fun _ _ => trivial
    · exact meets_pure fun _ _ => trivial

theorem meets_spiStallTurn :
    Meets sinceT1.inv spiStallTurn (Turned sinceT1.inv fun _ _ => True) Late fun _ => True :=
  meets_bind (keeps_busRead ports_sinceT1 1) fun s => by
    cases notStalled (byteAt s 0)
    · exact meets_look fun e he => meets_bind (meets_deadline Regs.t1 Cfg.tSpi e he) fun late => by
        cases late
        · exact meets_pure fun _ ht => ht.1
        · exact meets_raise fun _ ht => ht.2 rfl
    · exact meets_pure fun _ _ => trivial

/-- A loop whose turns count from a register that `note` has just set to the clock. -/
theorem punctual_wait {reg : Regs → Nat} {note : Nat → Regs → Regs} {turn : P (Option α)}
    (hnote : ∀ v x, reg (note v x) = v)
    (hturn : Meets (fun e => reg e.x ≤ e.clock) turn
      (Turned (fun e => reg e.x ≤ e.clock) fun _ _ => True) Late fun _ => True) :
    Keeps punctual (now >>= fun t => onX (note t) >>= fun _ => repeatP turn) :=
  meets_bind meets_start fun v =>
    meets_bind (J := fun _ e => reg e.x ≤ e.clock) (meets_change fun e he => (hnote v e.x).trans_le he)
      fun _ => meets_repeatP (fun _ _ => trivial) hturn

theorem i2cWire_punctual : I2cWire punctual where
  toPrimitive := updates_punctual.toPrimitive
  cleared _ _ h := h.congr rfl rfl rfl
  ready := punctual_wait (fun _ _ => rfl) meets_readyWaitTurn

theorem keeps_spiXfer_punctual (dir : Dir) (loc : Nat) (kind : Kind) (n : Nat) (p : List Byte) :
    Keeps punctual (spiXfer dir loc kind n p) :=
  keeps_spiXfer
    { toPrimitive := updates_punctual.toPrimitive
      lock := fun _ _ _ => trivial
      unlocked := fun _ _ h => h.congr rfl rfl rfl
      stall := punctual_wait (fun _ _ => rfl) meets_spiStallTurn } _ _ _ _ _

/-! ### Waits counted from `x[t0]`: the status poll and the command-ready wait -/

/-- The start of such a wait, which no register transaction moves, is not in the future. -/
def sinceT0 : Contract := invariant (fun e => e.x.t0 ≤ e.clock) fun _ => True

theorem primitive_sinceT0 : Primitive sinceT0 where
  waits _ _ := trivial
  raises _ _ _ h := h
  settle _ _ _ h := Nat.le_add_right_of_le h
  log _ _ h := h
  caught _ _ h := h
  clear _ h := h
  t1 _ _ h := h

theorem i2cWire_sinceT0 : I2cWire sinceT0 := i2cWire_of_any (fun _ _ h => h) primitive_sinceT0

theorem spiWire_sinceT0 : SpiWire sinceT0 :=
  spiWire_of_any (fun _ _ h => h) primitive_sinceT0 fun _ _ h => h

theorem keeps_regRead_sinceT0 (kind : Kind) (n : Nat) : Keeps sinceT0 (regRead kind n) :=
  keeps_regRead_of_wires i2cWire_sinceT0 (keeps_spiXfer spiWire_sinceT0) kind n

theorem keeps_regWrite_sinceT0 (kind : Kind) (p : List Byte) : Keeps sinceT0 (regWrite kind p) :=
  keeps_regWrite_of_wires i2cWire_sinceT0 (fun _ _ h => h) (keeps_spiXfer spiWire_sinceT0) kind p

section Turns

variable {X : Err → Engine → Prop}

/-- A caught status read moves no start. -/
theorem meets_attempt_regRead (kind : Kind) (n : Nat) :
    Meets sinceT0.inv (attempt (regRead kind n)) (fun _ => sinceT0.inv) X fun _ => True :=
  (meets_attempt (keeps_regRead_sinceT0 kind n)).imp (fun _ h => h) (fun r _ h => by cases r <;> exact h)
    fun _ _ h => h

theorem meets_noteSnapshot (mask : Byte) (r : Except Err (List Byte)) :
    Meets sinceT0.inv (noteSnapshot mask r) (fun _ => sinceT0.inv) X fun _ => True := by
  cases r with
  | error er => exact meets_pure fun _ h => h
  | ok b =>
    refine meets_bind (J := fun _ => sinceT0.inv) (meets_change fun _ h => h) fun _ =>
      meets_look fun e he => ?_
    cases accept e.cfg.burstCap mask (snapStatus b) (snapBurst b)
    · exact meets_pure fun _ h => h ▸ he
    · exact meets_pure fun _ h => h ▸ he

theorem meets_readStatus : Meets sinceT0.inv readStatus (fun _ => sinceT0.inv) X fun _ => True :=
  meets_bind (meets_attempt_regRead _ _) fun _ =>
    meets_bind (J := fun _ => sinceT0.inv) (meets_change fun _ h => h) fun _ => meets_pure fun _ h => h

theorem meets_setReady : Meets sinceT0.inv setReady (fun _ => sinceT0.inv) X fun _ => True :=
  Meets.of_silent (keeps_setReady primitive_sinceT0 keeps_regWrite_sinceT0) silent_setReady

end Turns

theorem meets_burstTurn (mask : Byte) :
    Meets sinceT0.inv (burstTurn mask) (Turned sinceT0.inv fun _ _ => True) Late fun _ => True :=
  meets_bind (meets_attempt_regRead _ _) fun r => meets_bind (meets_noteSnapshot mask r) fun v => by
    cases v with
    | some v => exact meets_pure fun _ _ => trivial
    | none =>
      refine meets_look fun e he => meets_bind (meets_sleep e _) fun _ => Meets.each ?_
      rintro t ⟨hclock, hx, hcfg⟩
      rw [← hx, ← hcfg]
      have hstart : t.x.t0 ≤ t.clock := hx ▸ he.trans hclock
      exact meets_bind (meets_deadline Regs.t0 Cfg.tLong t hstart) fun late => by
        cases late
        · exact meets_pure fun _ ht => ht.1
        · exact meets_raise fun _ ht => ht.2 rfl

theorem meets_commandReadyTurn :
    Meets sinceT0.inv commandReadyTurn (Turned sinceT0.inv fun _ _ => True) Late fun _ => True :=
  meets_bind meets_readStatus fun st => meets_look fun e he => by
    cases cmdReady e.cfg.map st
    · exact meets_bind (meets_deadline Regs.t0 Cfg.tLong e he) fun late => by
        cases late
        · exact meets_bind (meets_setReady.pre fun _ ht => ht.1) fun _ => meets_pure fun _ h => h
        · exact meets_raise fun _ ht => ht.2 rfl
    · exact meets_pure fun _ _ => trivial

/-! ### Every procedure code -/

theorem writing_punctual : Writing punctual where
  toUpdates := updates_punctual
  read := keeps_regRead_of_wires i2cWire_punctual keeps_spiXfer_punctual
  poll mask := punctual_wait (fun _ _ => rfl) (meets_burstTurn mask)
  write := keeps_regWrite_of_wires i2cWire_punctual (fun _ _ _ => trivial) keeps_spiXfer_punctual
  commandReady := punctual_wait (fun _ _ => rfl) meets_commandReadyTurn

theorem codeContract_punctual (i : Instr) : CodeContract punctual i :=
  codeContract_of_writing writing_punctual (fun _ => i2cWire_punctual) (fun _ _ _ _ => trivial)
    fun _ => keeps_spiXfer_punctual

/-- What a procedure code records of an error is late. -/
theorem meets_procedure {p : P RetVal} (hp : Keeps punctual p) :
    Meets (fun _ => True) (procedure p) (fun _ t => ∀ er, t.ret = .err er → Late er t)
      (fun _ _ => False) fun _ => True :=
  meets_attempt_bind hp
    (fun _ => meets_change fun _ _ er hr => by cases hr)
    fun er => meets_change fun _ he er' hr => by
      cases hr
      exact he.congr rfl rfl rfl

theorem exec_late {i : Instr} {s t : State} {er : Err} (hi : isHostCommand i = false)
    (h : exec i s = .next t) (ht : t.running = none) (hret : t.ret = .err er) : Late er t.toEngine := by
  have hrun := (exec_next h).launch
  have hcode := keeps_code (codeContract_punctual i) s.args
  obtain ⟨p, hp⟩ := work_of_not_isHostCommand s.args hi
  rw [hp] at hrun hcode
  rcases (launch_lands hrun (meets_procedure hcode) trivial).1 ht with hl | ⟨_, hf⟩
  · exact hl er hret
  · exact hf.elim

/-- Settles O43: the four timeouts are late, by the budgets of the configuration, which the instruction
keeps. -/
theorem timeoutsComeAfterTheirBudget : Obligations.TimeoutsComeAfterTheirBudget := by
  intro i s t hi h ht
  have hcfg : t.cfg = s.cfg := (exec_along frame_closed h).cfg
  rw [← hcfg]
  exact ⟨exec_late hi h ht, exec_late hi h ht, exec_late hi h ht, exec_late hi h ht⟩

end Sys2Proof.Machine
end

section
/-! PROOF. The step on a word in the slot, attach and detach, and what the session's fields hold during and
after an instruction. -/

namespace Sys2Proof.Machine

variable {α : Type} {R : Engine → Engine → Prop} {i : Instr} {s t : State}

/-! ### The step on a word, attach and detach -/

theorem step_of_fetch {c : Slot} (hr : s.running = none) (hc : s.slot = some c)
    (hf : fetch c s = .ok i) : step s = exec i { s with slot := none } := by
  simp [step, hr, hc, hf]

theorem step_of_fetch_error {c : Slot} {r : Refusal} (hr : s.running = none) (hc : s.slot = some c)
    (hf : fetch c s = .error r) : step s = .refused r := by
  simp [step, hr, hc, hf]

theorem fetch_of_attached {c : Slot} (ha : s.attached = true) (hd : decodeAs c.fmt c.bytes = .ok i) :
    fetch c s = .ok i := by
  simp [fetch, ha, hd]

theorem fetch_of_detached {c : Slot} (ha : s.attached = false) : fetch c s = .error .detached := by
  simp [fetch, ha]

/-- Settles O9. -/
theorem stepRunsTheDecodedWord : Obligations.StepRunsTheDecodedWord := by
  refine ⟨fun s c i ha hr hc hd => ?_, fun s hr hc => ?_⟩
  · exact step_of_fetch hr hc (fetch_of_attached ha hd)
  · obtain ⟨r, hr⟩ := Option.ne_none_iff_exists'.mp hr
    obtain ⟨c, hc⟩ := Option.ne_none_iff_exists'.mp hc
    simp only [step, hr, hc]

/-- What an attach that is not refused leaves. -/
theorem attachHandle_next {c : Cfg} (h : attachHandle c s = .next t) :
    t.toEngine = s.toEngine.attach c := by
  rw [attachHandle_of_ok (attachHandle_next_iff.mp ⟨t, h⟩)] at h
  cases h
  rfl

/-- Settles O13: attach sets the fields R50 names, detach those R341 names, and a detached handle fetches
nothing. -/
theorem attachAndDetach : Obligations.AttachAndDetach := by
  refine ⟨fun c s t h => ?_, by decide, rfl, rfl, rfl, by decide, by decide, by decide,
    fun s => ⟨_, rfl, rfl, rfl, rfl, rfl, rfl, rfl, rfl⟩, fun s ha hr hc => ?_⟩
  · rw [attachHandle_next h]
    exact ⟨rfl, rfl, rfl, rfl, List.length_replicate, nofun, beq_iff_eq, rfl⟩
  · obtain ⟨c, hc⟩ := Option.ne_none_iff_exists'.mp hc
    exact step_of_fetch_error hr hc (fetch_of_detached ha)

/-! ### From a procedure's relation to its instruction's -/

/-- A launched body goes from the state it starts in to the one it ends or waits in. -/
theorem launch_along {body : P Unit} (h : launch i body s = .next t) (hb : Along R body) :
    R s.toEngine t.toEngine := by
  have hrun := hb s.toEngine
  obtain ⟨_, ⟨_, he | ⟨er, he⟩⟩ | ⟨w, he, _⟩⟩ := launch_next h <;> rwa [he] at hrun

/-- A procedure code or wire encoding also writes its outcome. -/
theorem exec_along_code (hR : Closed R) (hret : ∀ e r, R e (e.setRet r)) (hi : isHostCommand i = false)
    (h : exec i s = .next t) : R s.toEngine t.toEngine := by
  have hrun := (exec_next h).launch
  have hcode := along_code (i := i) hR s.args
  obtain ⟨p, hp⟩ := work_of_not_isHostCommand s.args hi
  rw [hp] at hrun hcode
  exact launch_along hrun (along_bind hR (along_attempt hcode) fun _ e => hret e _)

/-- The work of a host command is a command. -/
theorem work_of_isHostCommand (a : Args) (hi : isHostCommand i = true) :
    ∃ p, work a i = .command p := by
  cases i with
  | probe | send _ | recv _ | release _ | shutdown => exact ⟨_, rfl⟩
  | _ => cases hi

/-- A host command also writes `busy` and `result`. -/
theorem along_hostCommand (hR : Closed R) (hbusy : ∀ e b, R e (e.setBusy b))
    (hresult : ∀ e r, R e (e.setResult r)) {p : P HostVal} (hp : Along R p) : Along R (hostCommand p) :=
  along_bind hR (fun e => hbusy e _) fun _ => along_bind hR (along_attempt hp) fun _ e =>
    hR.trans (hresult e _) (hbusy _ _)

/-! ### What procedures and host commands leave alone (R30, R37) -/

/-- The fields that are the host commands' own. -/
def SessionSame (e t : Engine) : Prop :=
  t.sess = e.sess ∧ t.busy = e.busy ∧ t.result = e.result ∧ t.pending = e.pending

theorem sessionSame_closed : Closed SessionSame where
  refl _ := ⟨rfl, rfl, rfl, rfl⟩
  trans h k := ⟨k.1.trans h.1, k.2.1.trans h.2.1, k.2.2.1.trans h.2.2.1, k.2.2.2.trans h.2.2.2⟩
  settle _ _ _ _ := ⟨rfl, rfl, rfl, rfl⟩
  log _ _ := ⟨rfl, rfl, rfl, rfl⟩
  addTicks _ _ := ⟨rfl, rfl, rfl, rfl⟩
  setReady _ := ⟨rfl, rfl, rfl, rfl⟩
  setLock _ _ := ⟨rfl, rfl, rfl, rfl⟩
  setX _ _ := ⟨rfl, rfl, rfl, rfl⟩
  setScratch _ _ _ := ⟨rfl, rfl, rfl, rfl⟩
  setRsp _ _ _ := ⟨rfl, rfl, rfl, rfl⟩

/-- A relation that only looks at fields no update of an engine at work writes. -/
theorem closed_of_field {γ : Type} (f : Engine → γ) (hf : ∀ e t, SessionSame e t → t.ret = e.ret →
    f t = f e) : Closed fun e t => f t = f e where
  refl _ := rfl
  trans h k := k.trans h
  settle e a r h := hf _ _ (sessionSame_closed.settle e a r h) rfl
  log e v := hf _ _ (sessionSame_closed.log e v) rfl
  addTicks e n := hf _ _ (sessionSame_closed.addTicks e n) rfl
  setReady e := hf _ _ (sessionSame_closed.setReady e) rfl
  setLock e l := hf _ _ (sessionSame_closed.setLock e l) rfl
  setX e x := hf _ _ (sessionSame_closed.setX e x) rfl
  setScratch e bs h := hf _ _ (sessionSame_closed.setScratch e bs h) rfl
  setRsp e i v := hf _ _ (sessionSame_closed.setRsp e i v) rfl

theorem sess_closed : Closed fun e t => t.sess = e.sess := closed_of_field _ fun _ _ h _ => h.1

theorem ret_closedSession : ClosedSession fun e t => t.ret = e.ret where
  toClosed := closed_of_field _ fun _ _ _ h => h
  setSess _ _ := rfl
  setPending _ _ := rfl

theorem busy_closedSession : ClosedSession fun e t => t.busy = e.busy where
  toClosed := closed_of_field _ fun _ _ h _ => h.2.1
  setSess _ _ := rfl
  setPending _ _ := rfl

theorem exec_ret_of_isHostCommand (hi : isHostCommand i = true) (h : exec i s = .next t) :
    t.ret = s.ret := by
  have hR := ret_closedSession
  have hrun := (exec_next h).launch
  have hcmd := along_command (i := i) hR s.args
  obtain ⟨p, hp⟩ := work_of_isHostCommand s.args hi
  rw [hp] at hrun hcmd
  exact launch_along hrun (along_hostCommand hR.toClosed (fun _ _ => rfl) (fun _ _ => rfl) hcmd)

/-- PROBE moves no session state: its abort path is a release (R263). -/
theorem along_sess_probeCommand : Along (fun e t => t.sess = e.sess) probeCommand := by
  have h := sess_closed
  refine along_bind h (along_attempt (along_probeCore h)) fun r => ?_
  cases r with
  | ok v => exact along_pure h v
  | error er =>
    exact along_bind h (fun _ => rfl) fun _ => along_bind h (along_releaseLocality h true) fun _ =>
      along_bind h (fun _ => rfl) fun _ => along_raise h er

theorem exec_sess_of_keeping (hi : i = .probe ∨ ∃ f, i = .release f) (h : exec i s = .next t) :
    t.sess = s.sess := by
  have hR := sess_closed
  have hrun := (exec_next h).launch
  obtain rfl | ⟨f, rfl⟩ := hi
  · exact launch_along hrun (along_hostCommand hR (fun _ _ => rfl) (fun _ _ => rfl) along_sess_probeCommand)
  · exact launch_along hrun
      (along_hostCommand hR (fun _ _ => rfl) (fun _ _ => rfl) (along_releaseCommand hR f))

/-- Settles O20. -/
theorem frameOfTheSession : Obligations.FrameOfTheSession := fun _ _ _ h =>
  ⟨fun hi => exec_along_code sessionSame_closed (fun _ _ => ⟨rfl, rfl, rfl, rfl⟩) hi h,
    fun hi => exec_ret_of_isHostCommand hi h, fun hi => exec_sess_of_keeping hi h⟩

/-! ### Where a host command leaves the session (R260, R267, R304) -/

/-- The session state a host command leaves, by its outcome (R261 to R265): RELEASE fails never and moves no
session state, a command that fails leaves IDLE, and SEND alone leaves STARTED. -/
def leaves (i : Instr) (r : Except Err HostVal) (s : Sess) : Prop :=
  match i, r with
  | .release _, .ok _ => True
  | .release _, .error _ => False
  | .send _, .ok v => v = .unit ∧ s = .started
  | _, _ => s = .idle

/-- The command leaves the session as `leaves` says; a PROBE from IDLE. -/
def Leaves (i : Instr) (p : P HostVal) : Prop :=
  Meets (fun e => i = .probe → e.sess = .idle) p (fun v e => leaves i (.ok v) e.sess)
    (fun er e => leaves i (.error er) e.sess) fun _ => True

/-- The session is IDLE. -/
def idle : Contract := sessionIs fun s _ _ => s = .idle

theorem writing_idle : Writing idle := writing_sessionIs _

/-- An abort whose path ends IDLE and raises nothing ends IDLE. -/
theorem abort_idle {I : Engine → Prop} {J : α → Engine → Prop} {path : P Unit} (er : Err)
    (hI : ∀ e p, I e → I (e.setPending p))
    (hp : Meets I path (fun _ => idle.inv) (fun _ _ => False) fun _ => True) :
    Meets I (abort er path) J (fun _ => idle.inv) fun _ => True :=
  meets_bind (J := fun _ => I) (meets_change fun e h => hI e _ h) fun _ =>
    meets_bind (hp.imp (fun _ h => h) (fun _ _ h => h) fun _ _ h => h.elim) fun _ =>
      meets_bind (J := fun _ => idle.inv) (meets_change fun _ h => h) fun _ => meets_raise fun _ h => h

theorem releaseLocality_idle (force : Bool) :
    Meets idle.inv (releaseLocality force) (fun _ => idle.inv) (fun _ _ => False) fun _ => True :=
  Meets.of_silent (keeps_releaseLocality writing_idle force) (silent_releaseLocality force)

theorem sessionAbort_idle :
    Meets (fun _ => True) sessionAbort (fun _ => idle.inv) (fun _ _ => False) fun _ => True :=
  meets_bind silent_cleanup fun _ => meets_change fun _ _ => rfl

theorem shutdownAbort_idle :
    Meets (fun _ => True) shutdownAbort (fun _ => idle.inv) (fun _ _ => False) fun _ => True :=
  meets_bind sessionAbort_idle fun _ => releaseLocality_idle true

/-- RECV_CORE that returns leaves IDLE; its error says nothing. -/
theorem recvCore_idle (cap : Nat) :
    Meets (fun _ => True) (recvCore cap) (fun _ => idle.inv) (fun _ _ => True) fun _ => True :=
  meets_bind (meets_trivial _) fun _ => meets_bind (meets_trivial _) fun _ =>
    meets_bind (meets_trivial _) fun _ => meets_bind (meets_trivial _) fun _ =>
      meets_bind (J := fun _ => idle.inv) (meets_change fun _ _ => rfl) fun _ => meets_pure fun _ h => h

theorem probe_leaves : Leaves .probe probeCommand :=
  meets_attempt_bind ((keeps_probeCore writing_idle).pre fun _ h => h rfl) (fun _ => meets_pure fun _ h => h)
    fun er => abort_idle er (fun _ _ h => h) (releaseLocality_idle true)

theorem send_leaves (len : Nat) : Leaves (.send len) (sendCommand len) :=
  meets_attempt_bind (meets_trivial _)
    (fun _ => meets_bind (J := fun _ e => e.sess = .started) (meets_change fun _ _ => rfl) fun _ =>
      meets_pure fun _ h => ⟨rfl, h⟩)
    fun er => abort_idle er (fun _ _ h => h) sessionAbort_idle

theorem recv_leaves (cap : Nat) : Leaves (.recv cap) (recvCommand cap) :=
  meets_attempt_bind ((recvCore_idle cap).pre fun _ _ => trivial) (fun _ => meets_pure fun _ h => h)
    fun er => abort_idle er (fun _ _ h => h) sessionAbort_idle

theorem release_leaves (force : Bool) : Leaves (.release force) (releaseCommand force) :=
  (silent_bind (silent_releaseLocality force) fun _ => silent_pure _).pre fun _ _ => trivial

theorem shutdownFinish_idle (got : Received) : Keeps idle (shutdownFinish got) :=
  keeps_bind (keeps_releaseLocality writing_idle true) fun _ => by
    cases shutdownMatches got
    · exact keeps_raise fun _ h => h
    · exact keeps_pure _

theorem shutdown_leaves : Leaves .shutdown shutdownCommand :=
  have habort (er : Err) := abort_idle (J := fun (_ : HostVal) => idle.inv) er (fun _ _ h => h)
    shutdownAbort_idle
  meets_attempt_bind (meets_trivial _)
    (fun _ => meets_bind (J := fun _ _ => True) (meets_change fun _ _ => trivial) fun _ =>
      meets_attempt_bind (recvCore_idle 10) shutdownFinish_idle habort)
    habort

theorem command_leaves (a : Args) (i : Instr) : (work a i).OnCommand (Leaves i) := by
  cases i with
  | probe => exact probe_leaves
  | send len => exact send_leaves len
  | recv cap => exact recv_leaves cap
  | release force => exact release_leaves force
  | shutdown => exact shutdown_leaves
  | _ => trivial

/-- A host command records its outcome in `result` once the session is where it leaves it. -/
theorem hostCommand_leaves {p : P HostVal} (hp : Leaves i p) :
    Meets (fun e => i = .probe → e.sess = .idle) (hostCommand p)
      (fun _ t => ∃ r, t.result = hostResultOf r ∧ leaves i r t.sess) (fun _ _ => False) fun _ => True :=
  meets_bind (J := fun _ e => i = .probe → e.sess = .idle) (meets_change fun _ h => h) fun _ =>
    meets_attempt_bind hp (fun v => meets_change fun _ h => ⟨.ok v, rfl, h⟩)
      fun er => meets_change fun _ h => ⟨.error er, rfl, h⟩

/-- A host command that runs was allowed to (R260). -/
theorem launchHost_allowed {allowed : Bool} {p : P HostVal} (h : launchHost i allowed p s = .next t) :
    allowed = true := by
  unfold launchHost at h
  split at h
  · cases h
  · split at h
    · assumption
    · cases h

theorem probe_starts_idle (h : exec i s = .next t) (hi : i = .probe) : s.sess = .idle := by
  subst hi
  exact beq_iff_eq.mp (launchHost_allowed h)

/-- Where a host command that has ended left the session. -/
theorem exec_leaves (hi : isHostCommand i = true) (h : exec i s = .next t) (ht : t.running = none) :
    ∃ r, t.result = hostResultOf r ∧ leaves i r t.sess := by
  have hrun := (exec_next h).launch
  have hcmd := command_leaves s.args i
  obtain ⟨p, hp⟩ := work_of_isHostCommand s.args hi
  rw [hp] at hrun hcmd
  rcases (launch_lands hrun (hostCommand_leaves hcmd) (probe_starts_idle h)).1 ht with hl | ⟨_, hf⟩
  · exact hl
  · exact hf.elim

/-- `busy` is written true before the command's procedure starts, and no procedure writes it (R35). -/
theorem hostCommand_busy {p : P HostVal} (hp : Along (fun e t => t.busy = e.busy) p) :
    Meets (fun _ => True) (hostCommand p) (fun _ _ => True) (fun _ _ => True) fun t => t.busy = true := by
  intro e _
  have hb := hp (e.setBusy true)
  rw [hostCommand, bind_of_ok (change_apply _ e), bind_apply, attempt]
  rcases h : p (e.setBusy true) with ⟨a, m⟩ | ⟨_ | _ | _, m⟩ <;> rw [h] at hb
  · trivial
  · trivial
  · exact hb
  · trivial

theorem exec_busy (hi : isHostCommand i = true) (h : exec i s = .next t) (ht : t.running ≠ none) :
    t.busy = true := by
  have hrun := (exec_next h).launch
  have hcmd := along_command (i := i) busy_closedSession s.args
  obtain ⟨p, hp⟩ := work_of_isHostCommand s.args hi
  rw [hp] at hrun hcmd
  exact (launch_lands hrun (hostCommand_busy hcmd) trivial).2 ht

/-- An error is the result of a command that failed, which leaves IDLE and is no RELEASE. -/
theorem idle_of_leaves_error {er : Err} {q : Sess} (h : leaves i (.error er) q) :
    q = .idle ∧ ∀ f, i ≠ .release f := by
  cases i with
  | release f => exact h.elim
  | _ => exact ⟨h, nofun⟩

/-- RECV, SHUTDOWN and PROBE leave IDLE whatever their outcome. -/
theorem idle_of_leaves {r : Except Err HostVal} {q : Sess}
    (hi : (∃ cap, i = .recv cap) ∨ i = .shutdown ∨ i = .probe) (h : leaves i r q) : q = .idle := by
  obtain ⟨cap, rfl⟩ | rfl | rfl := hi <;> exact h

/-- SEND leaves STARTED with its success, IDLE with its failure (R267 (b)). -/
theorem send_session {len : Nat} {r : Except Err HostVal} {q : Sess} (h : leaves (.send len) r q) :
    (q = .started ↔ hostResultOf r = .ok .unit) ∧ (q = .idle ↔ ∃ er, hostResultOf r = .err er) := by
  cases r with
  | ok v =>
    obtain ⟨rfl, rfl⟩ := h
    simp [hostResultOf]
  | error er =>
    obtain rfl : q = .idle := h
    simp [hostResultOf]

/-- Settles O57: `busy` and the session at rest are the invariant's, and where each command leaves the
session is read off its body. -/
theorem hostCommandsEndAtRest : Obligations.HostCommandsEndAtRest := by
  intro i s t hi hq h
  refine ⟨exec_busy hi h, fun ht => ?_⟩
  have hrest := exec_quiet h hq ht
  obtain ⟨r, hr, hl⟩ := exec_leaves hi h ht
  refine ⟨hrest.not_busy, hrest.resting, hrest.no_pending, fun er her => ?_, ?_, fun hw =>
    idle_of_leaves hw hl⟩
  · cases r with
    | ok v =>
      rw [hr] at her
      cases her
    | error er' => exact idle_of_leaves_error hl
  · rintro len rfl
    rw [hr]
    exact send_session hl

end Sys2Proof.Machine
end

section
/-! SUPPORT. What a procedure is made of. `Made` says once that a procedure is put together from given
operations by the control forms of 00_scope.md R13; what holds of every operation then holds of the
procedure, by one induction over the forms (`Made.runs`, `Made.continues`). -/

namespace Sys2Proof.Machine

variable {α β : Type} {c : Cfg}

/-- The engine with further answers behind those it has. -/
def Engine.more (e : Engine) (as : List Answer) : Engine := { e with inbox := e.inbox ++ as }

/-- The procedure can return the value, on a handle of this configuration. -/
def Gives (c : Cfg) (p : P α) (a : α) : Prop := ∃ e t, e.cfg = c ∧ p e = .ok a t

/-- The procedure is put together from the operations `A`. What follows a value may rely on its being one
that was returned; what follows a look at the state may not depend on the answers still to come; and every
turn of a loop that does not end it takes an answer. -/
inductive Made (c : Cfg) (A : ∀ α : Type, P α → Prop) : ∀ {α : Type}, P α → Prop
  | op {α : Type} {p : P α} : A α p → Made c A p
  | pure {α : Type} (a : α) : Made c A (pure a : P α)
  | raise {α : Type} (er : Err) : Made c A (raise er : P α)
  | stopFault {α : Type} (f : Fault) : Made c A (stopFault f : P α)
  | look {β : Type} {k : Engine → P β} : (∀ e as, k (e.more as) = k e) →
      (∀ e, e.cfg = c → Made c A (k e)) → Made c A (look >>= k)
  | bind {α β : Type} {p : P α} {k : α → P β} : Made c A p → (∀ a, Gives c p a → Made c A (k a)) →
      Made c A (p >>= k)
  | attempt {α : Type} {p : P α} : Made c A p → Made c A (attempt p)
  | repeatP {α : Type} {body : P (Option α)} : Consumes body → Made c A body → Made c A (repeatP body)
  | repeatFrom {σ α : Type} {body : σ → P (σ ⊕ α)} : ConsumesFrom body → (∀ v, Made c A (body v)) →
      ∀ v, Made c A (repeatFrom body v)

section Forms

variable {A B : ∀ α : Type, P α → Prop}

/-- Operations that are themselves made of others. -/
theorem Made.trans {p : P α} (hp : Made c A p) (hA : ∀ (α : Type) (p : P α), A α p → Made c B p) :
    Made c B p := by
  induction hp with
  | op h => exact hA _ _ h
  | pure a => exact .pure a
  | raise er => exact .raise er
  | stopFault f => exact .stopFault f
  | look hk _ ih => exact .look hk ih
  | bind _ _ ihp ihk => exact .bind ihp ihk
  | attempt _ ih => exact .attempt ih
  | repeatP hc _ ih => exact .repeatP hc ih
  | repeatFrom hc _ v ih => exact .repeatFrom hc ih v

theorem Made.imp {p : P α} (hp : Made c A p) (hA : ∀ (α : Type) (p : P α), A α p → B α p) : Made c B p :=
  hp.trans fun α p h => .op (hA α p h)

theorem Made.ignore {p : P α} (hp : Made c A p) : Made c A (ignore p) :=
  .bind (.attempt hp) fun _ _ => .pure ()

theorem Made.onlyIf (b : Bool) {p : P Unit} (hp : Made c A p) : Made c A (onlyIf b p) := by
  cases b
  · exact .pure ()
  · exact hp

theorem Made.ofExcept (r : Except Err α) : Made c A (ofExcept r) := by
  cases r
  · exact .raise _
  · exact .pure _

end Forms

/-! ### What every operation does -/

/-- Where the procedure returns or raises it has gone along `R`, and where it waits along `W`. -/
def Runs (c : Cfg) (R W : Engine → Engine → Prop) (p : P α) : Prop :=
  ∀ e, e.cfg = c → Lands (fun _ => R e) (fun _ => R e) (W e) (p e)

/-- What a run may go along: a preorder that keeps the configuration, and what may follow it where the
engine waits. -/
structure Progress (R W : Engine → Engine → Prop) : Prop where
  refl : ∀ e, R e e
  trans : ∀ {a b d}, R a b → R b d → R a d
  stays : ∀ e, W e e
  waits : ∀ {a b d}, R a b → W b d → W a d
  cfg : ∀ {e t}, R e t → t.cfg = e.cfg

/-- A relation that makes no difference between ending and waiting. -/
theorem Progress.of_preorder {R : Engine → Engine → Prop} (refl : ∀ e, R e e)
    (trans : ∀ {a b d}, R a b → R b d → R a d) (cfg : ∀ {e t}, R e t → t.cfg = e.cfg) : Progress R R :=
  ⟨refl, trans, refl, trans, cfg⟩

section Runs

variable {R W R₁ W₁ R₂ W₂ : Engine → Engine → Prop} {A : ∀ α : Type, P α → Prop}

theorem Runs.imp {p : P α} (hp : Runs c R₁ W₁ p) (hR : ∀ {e t}, R₁ e t → R e t)
    (hW : ∀ {e t}, W₁ e t → W e t) : Runs c R W p := by
  intro e he
  have h := hp e he
  rcases hpe : p e with ⟨a, t⟩ | ⟨_ | _ | _, t⟩ <;> rw [hpe] at h
  · exact hR h
  · exact hR h
  · exact hW h
  · trivial

/-- A sequence goes along one relation and then another. -/
theorem runs_seq {p : P α} {k : α → P β} (hp : Runs c R₁ W₁ p) (hk : ∀ a, Gives c p a → Runs c R₂ W₂ (k a))
    (hcfg : ∀ {e t}, R₁ e t → t.cfg = e.cfg) (hraise : ∀ {e t}, R₁ e t → R e t)
    (hwait : ∀ {e t}, W₁ e t → W e t) (hthen : ∀ {a b d}, R₁ a b → R₂ b d → R a d)
    (hthenWait : ∀ {a b d}, R₁ a b → W₂ b d → W a d) : Runs c R W (p >>= k) := by
  intro e he
  have h1 := hp e he
  rw [bind_apply]
  rcases hpe : p e with ⟨a, m⟩ | ⟨_ | _ | _, m⟩ <;> rw [hpe] at h1
  · have h2 := hk a ⟨e, m, he, hpe⟩ m ((hcfg h1).trans he)
    dsimp only
    rcases hke : k a m with ⟨b, t⟩ | ⟨_ | _ | _, t⟩ <;> rw [hke] at h2
    · exact hthen h1 h2
    · exact hthen h1 h2
    · exact hthenWait h1 h2
    · trivial
  · exact hraise h1
  · exact hwait h1
  · trivial

theorem runs_bind (h : Progress R W) {p : P α} {k : α → P β} (hp : Runs c R W p)
    (hk : ∀ a, Gives c p a → Runs c R W (k a)) : Runs c R W (p >>= k) :=
  runs_seq hp hk h.cfg id id h.trans h.waits

theorem runs_pure (h : Progress R W) (a : α) : Runs c R W (pure a : P α) := fun e _ => h.refl e

theorem runs_block (h : Progress R W) (w : Prim) : Runs c R W (block w : P α) := fun e _ => h.stays e

theorem runs_attempt {p : P α} (hp : Runs c R W p) : Runs c R W (attempt p) := by
  intro e he
  have h := hp e he
  unfold attempt
  rcases hpe : p e with ⟨a, t⟩ | ⟨_ | _ | _, t⟩ <;> rw [hpe] at h
  · exact h
  · exact h
  · exact h
  · trivial

theorem runs_untilDone (h : Progress R W) {body : P (Option α)} (hb : Runs c R W body) :
    ∀ k, Runs c R W (untilDone body k)
  | 0 => runs_block h _
  | k + 1 => runs_bind h hb fun o _ => by
    cases o
    · exact runs_untilDone h hb k
    · exact runs_pure h _

theorem runs_untilDoneFrom {σ : Type} (h : Progress R W) {body : σ → P (σ ⊕ α)}
    (hb : ∀ v, Runs c R W (body v)) : ∀ k v, Runs c R W (untilDoneFrom body k v)
  | 0, _ => runs_block h _
  | k + 1, v => runs_bind h (hb v) fun o _ => by
    cases o
    · exact runs_untilDoneFrom h hb k _
    · exact runs_pure h _

/-- What every operation goes along, the procedure goes along. -/
theorem Made.runs {p : P α} (h : Progress R W) (hA : ∀ (α : Type) (p : P α), A α p → Runs c R W p)
    (hp : Made c A p) : Runs c R W p := by
  induction hp with
  | op hop => exact hA _ _ hop
  | pure a => exact runs_pure h a
  | raise er => exact fun e _ => h.refl e
  | stopFault f => exact fun _ _ => trivial
  | look _ _ ih =>
    intro e he
    rw [bind_of_ok (look_apply e)]
    exact ih e he e he
  | bind _ _ ihp ihk => exact runs_bind h ihp ihk
  | attempt _ ih => exact runs_attempt ih
  | repeatP _ _ ih => exact fun e => runs_untilDone h ih _ e
  | repeatFrom _ _ v ih => exact fun e => runs_untilDoneFrom h ih _ v e

end Runs

/-! ### More answers -/

/-- What more answers change of an outcome: nothing where the procedure did not wait, and where it waited it
has gone on along `R`. -/
def Goes (R : Engine → Engine → Prop) (as : List Answer) :
    EStateM.Result Stop Engine α → EStateM.Result Stop Engine α → Prop
  | .ok a t, r => r = .ok a (t.more as)
  | .error (.blocked _) t, r => Lands (fun _ => R t) (fun _ => R t) (R t) r
  | .error x t, r => r = .error x (t.more as)

/-- With more answers the procedure does the same, and goes on where it waited (20_memory.md R94; log 2). -/
def Continues (c : Cfg) (R : Engine → Engine → Prop) (p : P α) : Prop :=
  ∀ e as, e.cfg = c → Goes R as (p e) (p (e.more as))

section Continues

variable {R : Engine → Engine → Prop} {A : ∀ α : Type, P α → Prop}

/-- Landing beyond a state along `R`, and then more of it. -/
theorem lands_bind (h : Progress R R) {p : P α} {k : α → P β} {t e : Engine} (he : e.cfg = c)
    (hp : Runs c R R p) (hk : ∀ a, Gives c p a → Runs c R R (k a))
    (hl : Lands (fun _ => R t) (fun _ => R t) (R t) (p e)) :
    Lands (fun _ => R t) (fun _ => R t) (R t) ((p >>= k) e) := by
  have hcfg := hp e he
  rw [bind_apply]
  rcases hpe : p e with ⟨a, m⟩ | ⟨_ | _ | _, m⟩ <;> rw [hpe] at hl hcfg
  · have h2 := hk a ⟨e, m, he, hpe⟩ m ((h.cfg hcfg).trans he)
    dsimp only
    rcases hke : k a m with ⟨b, n⟩ | ⟨_ | _ | _, n⟩ <;> rw [hke] at h2
    · exact h.trans hl h2
    · exact h.trans hl h2
    · exact h.trans hl h2
    · trivial
  · exact hl
  · exact hl
  · trivial

theorem continues_bind (h : Progress R R) {p : P α} {k : α → P β} (hrun : Runs c R R p)
    (hrunk : ∀ a, Gives c p a → Runs c R R (k a)) (hp : Continues c R p)
    (hk : ∀ a, Gives c p a → Continues c R (k a)) : Continues c R (p >>= k) := by
  intro e as he
  have h1 := hp e as he
  have hcfg := hrun e he
  rcases hpe : p e with ⟨a, m⟩ | ⟨er | w | f, m⟩ <;> rw [hpe] at h1 hcfg
  · rw [bind_of_ok hpe, bind_of_ok h1]
    exact hk a ⟨e, m, he, hpe⟩ m as ((h.cfg hcfg).trans he)
  · rw [bind_of_error hpe, bind_of_error h1]
    rfl
  · rw [bind_of_error hpe]
    exact lands_bind h (he : (e.more as).cfg = c) hrun hrunk h1
  · rw [bind_of_error hpe, bind_of_error h1]
    rfl

theorem continues_attempt {p : P α} (hp : Continues c R p) : Continues c R (attempt p) := by
  intro e as he
  have h1 := hp e as he
  unfold attempt
  rcases hpe : p e with ⟨a, m⟩ | ⟨er | w | f, m⟩ <;> rw [hpe] at h1
  · rw [h1]
    rfl
  · rw [h1]
    rfl
  · dsimp only
    rcases hme : p (e.more as) with ⟨b, n⟩ | ⟨_ | _ | _, n⟩ <;> rw [hme] at h1 <;> exact h1
  · rw [h1]
    rfl

/-- A turn and then the rest of the loop, where the rest goes on from whatever state the turn left. -/
theorem continues_loop {σ : Type} (h : Progress R R) {body : P σ} {rest : σ → P α}
    (hrun : Runs c R R body) (hbody : Continues c R body) (hrunk : ∀ v, Runs c R R (rest v))
    {e : Engine} {as : List Answer} (he : e.cfg = c)
    (hrest : ∀ v m, body e = .ok v m → Goes R as (rest v m) (rest v (m.more as))) :
    Goes R as ((body >>= rest) e) ((body >>= rest) (e.more as)) := by
  have h1 := hbody e as he
  rcases hpe : body e with ⟨v, m⟩ | ⟨er | w | f, m⟩ <;> rw [hpe] at h1
  · rw [bind_of_ok hpe, bind_of_ok h1]
    exact hrest v m hpe
  · rw [bind_of_error hpe, bind_of_error h1]
    rfl
  · rw [bind_of_error hpe]
    exact lands_bind h (he : (e.more as).cfg = c) hrun (fun v _ => hrunk v) h1
  · rw [bind_of_error hpe, bind_of_error h1]
    rfl

/-- What a loop does after a turn. -/
def afterTurn (body : P (Option α)) : Option α → P α
  | some a => pure a
  | none => repeatP body

theorem repeatP_eq {body : P (Option α)} (hc : Consumes body) :
    repeatP body = body >>= afterTurn body := by
  funext e
  rw [repeatP_cases hc, bind_apply]
  rcases body e with ⟨_ | a, t⟩ | ⟨x, t⟩ <;> rfl

theorem continues_repeatP (h : Progress R R) {body : P (Option α)} (hc : Consumes body)
    (hrun : Runs c R R body) (hb : Continues c R body) : Continues c R (repeatP body) := by
  have hloop : Runs c R R (repeatP body) := fun e => runs_untilDone h hrun _ e
  suffices hn : ∀ (n : Nat) (e : Engine) (as : List Answer), e.inbox.length < n → e.cfg = c →
      Goes R as (repeatP body e) (repeatP body (e.more as)) from
    fun e as => hn _ e as (Nat.lt_succ_self _)
  intro n
  induction n with
  | zero => intro e _ hlt; omega
  | succ n ih =>
    intro e as hlt he
    rw [repeatP_eq hc]
    refine continues_loop h hrun hb (fun o => ?_) he fun o m hm => ?_
    · cases o
      · exact hloop
      · exact runs_pure h _
    · cases o with
      | some a => rfl
      | none =>
        have hcfg := hrun e he
        rw [hm] at hcfg
        have := hc e m hm
        exact ih m as (by omega) ((h.cfg hcfg).trans he)

/-- What a loop that carries a value does after a turn. -/
def afterTurnFrom {σ : Type} (body : σ → P (σ ⊕ α)) : σ ⊕ α → P α
  | .inr a => pure a
  | .inl w => repeatFrom body w

theorem repeatFrom_eq {σ : Type} {body : σ → P (σ ⊕ α)} (hc : ConsumesFrom body) (v : σ) :
    repeatFrom body v = body v >>= afterTurnFrom body := by
  funext e
  rw [repeatFrom_cases hc, bind_apply]
  rcases body v e with ⟨w | a, t⟩ | ⟨x, t⟩ <;> rfl

theorem continues_repeatFrom {σ : Type} (h : Progress R R) {body : σ → P (σ ⊕ α)} (hc : ConsumesFrom body)
    (hrun : ∀ v, Runs c R R (body v)) (hb : ∀ v, Continues c R (body v)) (v : σ) :
    Continues c R (repeatFrom body v) := by
  have hloop : ∀ v, Runs c R R (repeatFrom body v) := fun v e => runs_untilDoneFrom h hrun _ v e
  suffices hn : ∀ (n : Nat) (v : σ) (e : Engine) (as : List Answer), e.inbox.length < n → e.cfg = c →
      Goes R as (repeatFrom body v e) (repeatFrom body v (e.more as)) from
    fun e as => hn _ v e as (Nat.lt_succ_self _)
  intro n
  induction n with
  | zero => intro v e _ hlt; omega
  | succ n ih =>
    intro v e as hlt he
    rw [repeatFrom_eq hc]
    refine continues_loop h (hrun v) (hb v) (fun o => ?_) he fun o m hm => ?_
    · cases o
      · exact hloop _
      · exact runs_pure h _
    · cases o with
      | inr a => rfl
      | inl w =>
        have hcfg := hrun v e he
        rw [hm] at hcfg
        have := hc v w e m hm
        exact ih w m as (by omega) ((h.cfg hcfg).trans he)

/-- Operations that go on with more answers make procedures that do. -/
theorem Made.continues {p : P α} (h : Progress R R)
    (hA : ∀ (α : Type) (p : P α), A α p → Runs c R R p ∧ Continues c R p) (hp : Made c A p) :
    Continues c R p := by
  have hrun : ∀ {β : Type} {q : P β}, Made c A q → Runs c R R q :=
    fun hq => hq.runs h fun α p hop => (hA α p hop).1
  induction hp with
  | op hop => exact (hA _ _ hop).2
  | pure a => exact fun _ _ _ => rfl
  | raise er => exact fun _ _ _ => rfl
  | stopFault f => exact fun _ _ _ => rfl
  | look hk _ ih =>
    intro e as he
    rw [bind_of_ok (look_apply e), bind_of_ok (look_apply _), hk]
    exact ih e he e as he
  | bind hp hk ihp ihk => exact continues_bind h (hrun hp) (fun a ha => hrun (hk a ha)) ihp ihk
  | attempt _ ih => exact continues_attempt ih
  | repeatP hc hb ih => exact continues_repeatP h hc (hrun hb) ih
  | repeatFrom hc hb v ih => exact continues_repeatFrom h hc (fun v => hrun (hb v)) ih v

end Continues

end Sys2Proof.Machine
end

section
/-! SUPPORT. The operations of the engine, and what each procedure is made of: the port operations of a
register transaction below, register accesses above, with the parts of the state each procedure writes. -/

namespace Sys2Proof.Machine

variable {α β : Type} {c : Cfg}

/-! ### Parts of the state, and operations -/

/-- What some procedures touch and others do not: a working register (R31), RSPBUF, the TPM's
DID_VID register. -/
inductive Part where
  | status | burst | access | sent | limit | cur | expected | n | t0 | t1 | tries | id
  | rspbuf | didVid
deriving DecidableEq

/-- Of two sets of working registers, the part has the same value in both. -/
def Part.SameIn (x y : Regs) : Part → Prop
  | .status => y.status = x.status
  | .burst => y.burst = x.burst
  | .access => y.access = x.access
  | .sent => y.sent = x.sent
  | .limit => y.limit = x.limit
  | .cur => y.cur = x.cur
  | .expected => y.expected = x.expected
  | .n => y.n = x.n
  | .t0 => y.t0 = x.t0
  | .t1 => y.t1 = x.t1
  | .tries => y.tries = x.tries
  | .id => y.id = x.id
  | .rspbuf | .didVid => True

theorem Part.sameIn_refl (x : Regs) (r : Part) : r.SameIn x x := by
  cases r <;> simp [Part.SameIn]

theorem Part.sameIn_trans {x y z : Regs} {r : Part} (h : r.SameIn x y) (k : r.SameIn y z) :
    r.SameIn x z := by
  cases r <;> simp_all [Part.SameIn]

/-- An update of the working registers writes none but the given ones. -/
def WritesIn (S : Finset Part) (f : Regs → Regs) : Prop := ∀ x, ∀ r ∉ S, r.SameIn x (f x)

/-- How much data an access moves. -/
def Access.size : Access → Nat
  | .read _ n => n
  | .write _ p => p.length

/-- An access the transport makes is a listed one; one wider than MAX_XFER it refuses (R90). -/
def Access.Proper (c : Cfg) (a : Access) : Prop := a.size ≤ c.maxXfer → a.Listed c

/-- The operations of a wait for the ready signal. -/
inductive WaitOp : ∀ α : Type, P α → Prop
  | now : WaitOp _ now
  | readyFlag : WaitOp _ readyFlag
  | readyAtDeadline : WaitOp _ readyAtDeadline
  | noteT1 (v : Nat) : WaitOp _ (onX fun x => { x with t1 := v })

/-- The operations a register transaction is made of, on either bus. -/
inductive PortOp (c : Cfg) : ∀ α : Type, P α → Prop
  | wait {α : Type} {p : P α} : WaitOp α p → PortOp c α p
  | busWrite (bs : List Byte) : PortOp c _ (busWrite bs)
  | busRead (n : Nat) : PortOp c _ (busRead n)
  | readyClear : PortOp c _ readyClear
  | lockTurn : PortOp c _ spiLockTurn
  | unlock : PortOp c _ spiUnlock
  | scratch (loc : Nat) (kind : Kind) (p : List Byte) : p.length + 1 ≤ c.scratchCap →
      PortOp c _ (change fun e => e.setScratch (i2cAddr e.cfg.map loc kind :: p))

/-- The operations of the procedures above the transport, on the parts `S`. -/
inductive Op (c : Cfg) (S : Finset Part) : ∀ α : Type, P α → Prop
  | read (kind : Kind) (n : Nat) : (Access.read kind n).Proper c → .t1 ∈ S →
      (kind = .didVid → .didVid ∈ S) → Op c S _ (regRead kind n)
  | write (kind : Kind) (p : List Byte) : (Access.write kind p).Proper c → .t1 ∈ S →
      Op c S _ (regWrite kind p)
  | now : Op c S _ now
  | sleep (ms : Nat) : Op c S _ (sleep ms)
  | load (i : Nat) : Op c S _ (memRead .cmdbuf i)
  | onX (f : Regs → Regs) : WritesIn S f → Op c S _ (onX f)
  | store (i : Nat) (v : Byte) : .rspbuf ∈ S → Op c S _ (memWrite i v)
  | setSess (s : Sess) : Op c S _ (setSess s)
  | setPending (p : Option Err) : Op c S _ (change fun e => e.setPending p)

theorem Op.mono {S T : Finset Part} (hST : S ⊆ T) {p : P α} (h : Op c S α p) : Op c T α p := by
  cases h with
  | read kind n hp ht hd => exact .read kind n hp (hST ht) fun hk => hST (hd hk)
  | write kind p hp ht => exact .write kind p hp (hST ht)
  | now => exact .now
  | sleep ms => exact .sleep ms
  | load i => exact .load i
  | onX f hf => exact .onX f fun x r hr => hf x r fun hS => hr (hST hS)
  | store i v hr => exact .store i v (hST hr)
  | setSess s => exact .setSess s
  | setPending p => exact .setPending p

/-- Made of the engine's operations on the parts `S`. -/
abbrev On (c : Cfg) (S : Finset Part) (p : P α) : Prop := Made c (Op c S) p

theorem Made.mono {S T : Finset Part} {p : P α} (hp : On c S p) (hST : S ⊆ T) : On c T p :=
  hp.imp fun _ _ => Op.mono hST

/-- What FIFO_READ_BODY writes (R224). -/
def recvParts : Finset Part := {.status, .burst, .cur, .expected, .n, .t0, .t1, .rspbuf}

/-- An update of working registers, each of them among `S`: register by register. -/
theorem on_onX {S : Finset Part} {f : Regs → Regs}
    (h : WritesIn S f := by intro x r hr; cases r <;> simp_all [Part.SameIn, recvParts]) :
    On c S (onX f) :=
  .op (.onX f h)

/-! ### Register transactions -/

theorem made_readyWait : Made c WaitOp readyWait :=
  .bind (.op .now) fun _ _ => .bind (.op (.noteT1 _)) fun _ _ =>
    .repeatP consumes_readyWaitTurn <| .bind (.op .readyFlag) fun seen _ => by
      cases seen
      · refine .look (fun _ _ => rfl) fun e _ =>
          .bind (.bind (.op .now) fun _ _ => .look (fun _ _ => rfl) fun _ _ => .pure _) fun late _ => ?_
        cases late
        · exact .pure _
        · exact .bind (.op .readyAtDeadline) fun set _ => by
            cases set
            · exact .raise _
            · exact .pure _
      · exact .pure _

theorem Made.clearOnErr {p : P α} (hp : Made c (PortOp c) p) : Made c (PortOp c) (clearOnErr p) :=
  .bind (.attempt hp) fun r _ => by
    cases r
    · exact .bind (.op .readyClear) fun _ _ => .raise _
    · exact .pure _

theorem made_i2cSend (bs : List Byte) : Made c (PortOp c) (i2cSend bs) :=
  .bind (.op .readyClear) fun _ _ => .bind (.clearOnErr (.op (.busWrite bs))) fun _ _ =>
    .clearOnErr (made_readyWait.imp fun _ _ => .wait)

theorem made_i2cRead (loc : Nat) (kind : Kind) (n : Nat) : Made c (PortOp c) (i2cRead loc kind n) :=
  .look (fun _ _ => rfl) fun e _ => by
    split
    · exact .clearOnErr (.raise _)
    · exact .bind (made_i2cSend _) fun _ _ => .clearOnErr (.op (.busRead n))

theorem made_i2cWrite (loc : Nat) (kind : Kind) (p : List Byte) :
    Made c (PortOp c) (i2cWrite loc kind p) :=
  .look (fun _ _ => rfl) fun e he => by
    split
    · exact .clearOnErr (.raise _)
    · rename_i hcap
      rw [he] at hcap
      exact .bind (.op (.scratch loc kind p (by omega))) fun _ _ =>
        .look (fun _ _ => rfl) fun _ _ => made_i2cSend _

theorem made_stallWait : Made c (PortOp c) stallWait :=
  .bind (.op (.wait .now)) fun _ _ => .bind (.op (.wait (.noteT1 _))) fun _ _ =>
    .repeatP consumes_spiStallTurn <| .bind (.op (.busRead 1)) fun s _ => by
      cases notStalled (byteAt s 0)
      · refine .look (fun _ _ => rfl) fun e _ => .bind
          (.bind (.op (.wait .now)) fun _ _ => .look (fun _ _ => rfl) fun _ _ => .pure _) fun late _ => ?_
        cases late
        · exact .pure _
        · exact .raise _
      · exact .pure _

theorem made_spiBody (dir : Dir) (hdr : List Byte) (n : Nat) (p : List Byte) :
    Made c (PortOp c) (spiBody dir hdr n p) := by
  rw [spiBody_eq]
  refine .bind (.op (.busWrite _)) fun _ _ => .bind made_stallWait fun _ _ => ?_
  cases dir
  · exact .op (.busRead n)
  · exact .bind (.op (.busWrite p)) fun _ _ => .pure _

theorem made_spiXfer (dir : Dir) (loc : Nat) (kind : Kind) (n : Nat) (p : List Byte) :
    Made c (PortOp c) (spiXfer dir loc kind n p) :=
  .look (fun _ _ => rfl) fun e _ => by
    split
    · exact .raise _
    · exact .bind (.repeatP consumes_spiLockTurn (.op .lockTurn)) fun _ _ =>
        .bind (.attempt (made_spiBody _ _ _ _)) fun r _ => .bind (.op .unlock) fun _ _ => .ofExcept r

theorem made_spiWrite (loc : Nat) (kind : Kind) (p : List Byte) :
    Made c (PortOp c) (spiWrite loc kind p) :=
  .bind (made_spiXfer _ _ _ _ _) fun _ _ => .pure ()

theorem made_regRead (kind : Kind) (n : Nat) : Made c (PortOp c) (regRead kind n) :=
  .look (fun _ _ => rfl) fun e _ => by
    cases e.cfg.transport
    · exact made_i2cRead _ _ _
    · exact made_spiXfer _ _ _ _ _

theorem made_regWrite (kind : Kind) (p : List Byte) : Made c (PortOp c) (regWrite kind p) :=
  .look (fun _ _ => rfl) fun e _ => by
    cases e.cfg.transport
    · exact made_i2cWrite _ _ _
    · exact made_spiWrite _ _ _

/-! ### Locality Manager -/

theorem on_read {S : Finset Part} {kind : Kind} {n : Nat} (hk : (Access.read kind n).Listed c)
    (ht : .t1 ∈ S) (hd : kind = .didVid → .didVid ∈ S) : On c S (regRead kind n) :=
  .op (.read kind n (fun _ => hk) ht hd)

theorem on_write {S : Finset Part} {kind : Kind} {p : List Byte} (hp : (Access.write kind p).Listed c)
    (ht : .t1 ∈ S) : On c S (regWrite kind p) :=
  .op (.write kind p (fun _ => hp) ht)

theorem on_checkLocality : On c {.access, .t1} checkLocality :=
  .bind (on_read rfl (by decide) nofun) fun b _ =>
    .bind on_onX fun _ _ =>
      .look (fun _ _ => rfl) fun e _ => by
        cases localityOk e.cfg.map (byteAt b 0)
        · exact .raise _
        · exact .pure _

theorem on_requestChecks : ∀ k, On c {.access, .tries, .t1} (requestChecks k)
  | 0 => .raise _
  | k + 1 => .look (fun _ _ => rfl) fun _ _ =>
      .bind on_onX fun _ _ =>
        .bind (.attempt (on_checkLocality.mono (by decide))) fun r _ => by
          cases r
          · exact .bind (.onlyIf _ (.op (.sleep _))) fun _ _ => on_requestChecks k
          · exact .pure _

theorem on_requestLocality : On c {.access, .tries, .t1} requestLocality :=
  .bind (.attempt (on_checkLocality.mono (by decide))) fun r _ => by
    cases r
    · exact .look (fun _ _ => rfl) fun e he =>
        .bind (on_write (.inl (he ▸ rfl)) (by decide)) fun _ _ => on_requestChecks _
    · exact .pure _

theorem on_relinquish : On c {.t1} relinquish :=
  .look (fun _ _ => rfl) fun e he => .ignore (on_write (.inr (he ▸ rfl)) (by decide))

theorem on_releaseLocality (force : Bool) : On c {.access, .t1} (releaseLocality force) :=
  .bind (.attempt (on_read rfl (by decide) nofun)) fun r _ => .look (fun _ _ => rfl) fun _ _ => by
    cases r
    · exact .onlyIf _ (on_relinquish.mono (by decide))
    · exact .bind on_onX fun _ _ =>
        .onlyIf _ (on_relinquish.mono (by decide))

/-! ### Status/Burst Reader -/

theorem on_noteSnapshot (mask : Byte) (r : Except Err (List Byte)) :
    On c {.status, .burst} (noteSnapshot mask r) := by
  cases r with
  | error er => exact .pure _
  | ok b =>
    exact .bind on_onX fun _ _ =>
      .look (fun _ _ => rfl) fun e _ => by
        cases accept e.cfg.burstCap mask (snapStatus b) (snapBurst b)
        · exact .pure _
        · exact .pure _

theorem on_expired {S : Finset Part} (t0 budget : Nat) : On c S (expired t0 budget) :=
  .bind (.op .now) fun _ _ => .look (fun _ _ => rfl) fun _ _ => .pure _

theorem on_getBurstAndStatus (mask : Byte) : On c {.status, .burst, .t0, .t1} (getBurstAndStatus mask) :=
  .bind (.op .now) fun _ _ =>
    .bind on_onX fun _ _ =>
      .repeatP (consumes_burstTurn mask) <| .bind (.attempt (on_read rfl (by decide) nofun)) fun r _ =>
        .bind ((on_noteSnapshot mask r).mono (by decide)) fun v _ => by
          cases v
          · exact .look (fun _ _ => rfl) fun e _ => .bind (.op (.sleep _)) fun _ _ =>
              .bind (on_expired _ _) fun late _ => by
                cases late
                · exact .pure _
                · exact .raise _
          · exact .pure _

theorem on_readStatus : On c {.status, .t1} readStatus :=
  .bind (.attempt (on_read rfl (by decide) nofun)) fun _ _ =>
    .bind on_onX fun _ _ => .pure _

theorem on_setReady : On c {.t1} setReady :=
  .look (fun _ _ => rfl) fun e he => .ignore (on_write (.inr (he ▸ rfl)) (by decide))

/-- Nothing is said where a procedure raises or waits. -/
def Returns (J : α → Prop) (p : P α) : Prop :=
  Meets (fun _ => True) p (fun a _ => J a) (fun _ _ => True) fun _ => True

theorem Returns.gives {J : α → Prop} {p : P α} (h : Returns J p) {a : α} (ha : Gives c p a) : J a := by
  obtain ⟨e, t, _, he⟩ := ha
  have hl := h e trivial
  rwa [he] at hl

theorem returns_noteSnapshot (mask : Byte) (r : Except Err (List Byte)) :
    Returns (fun v => ∀ w, v = some w → 1 ≤ w.1.toNat) (noteSnapshot mask r) := by
  cases r with
  | error er => exact meets_pure fun _ _ => nofun
  | ok b =>
    refine meets_bind (J := fun _ _ => True) (meets_change fun _ _ => trivial) fun _ =>
      meets_look fun e _ => ?_
    cases ha : accept e.cfg.burstCap mask (snapStatus b) (snapBurst b) with
    | false => exact meets_pure fun _ _ => nofun
    | true =>
      simp only [accept, Bool.and_eq_true, decide_eq_true_eq] at ha
      obtain ⟨⟨_, hburst⟩, _⟩ := ha
      refine meets_pure fun _ _ w hw => ?_
      cases hw
      exact hburst

/-- An accepted burst count is at least 1 (R201). -/
theorem returns_getBurstAndStatus (mask : Byte) :
    Returns (fun v => 1 ≤ v.1.toNat) (getBurstAndStatus mask) :=
  meets_bind (J := fun _ _ => True) (meets_trivial _) fun _ =>
    meets_bind (J := fun _ _ => True) (meets_change fun _ _ => trivial) fun _ =>
      meets_repeatP (fun _ _ => trivial) <| meets_bind (J := fun _ _ => True) (meets_trivial _) fun r =>
        meets_bind (returns_noteSnapshot mask r) fun v => by
          cases v with
          | some v => exact meets_pure fun _ h => h v rfl
          | none =>
            refine meets_bind (J := fun _ _ => True) (meets_trivial _) fun e =>
              meets_bind (J := fun _ _ => True) (meets_trivial _) fun _ =>
                meets_bind (J := fun _ _ => True) (meets_trivial _) fun late => ?_
            cases late
            · exact meets_pure fun _ _ => trivial
            · exact meets_raise fun _ _ => trivial

/-! ### FIFO Transfer Engine -/

theorem on_waitCommandReady : On c {.status, .t0, .t1} waitCommandReady :=
  .bind (.op .now) fun _ _ =>
    .bind on_onX fun _ _ =>
      .repeatP consumes_commandReadyTurn <| .bind (on_readStatus.mono (by decide)) fun st _ =>
        .look (fun _ _ => rfl) fun e _ => by
          cases cmdReady e.cfg.map st
          · exact .bind (on_expired _ _) fun late _ => by
              cases late
              · exact .bind (on_setReady.mono (by decide)) fun _ _ => .pure _
              · exact .raise _
          · exact .pure _

theorem on_srcByte (src : Src) (i : Nat) : On c ∅ (srcByte src i) := by
  cases src
  · exact .op (.load i)
  · unfold srcByte
    dsimp only
    split
    · exact .pure _
    · exact .stopFault _

theorem on_srcBytes (src : Src) : ∀ k i : Nat, On c ∅ (srcBytes src i k)
  | 0, _ => .pure _
  | k + 1, i => .bind (on_srcByte src i) fun _ _ => .bind (on_srcBytes src k (i + 1)) fun _ _ => .pure _

theorem on_sendTurn (src : Src) (len : Nat) :
    On c {.status, .burst, .sent, .limit, .t0, .t1} (sendTurn src len) :=
  .look (fun _ _ => rfl) fun e _ => by
    split
    · refine .bind ((on_getBurstAndStatus _).mono (by decide)) fun v _ =>
        .bind on_onX fun _ _ =>
          .bind ((on_srcBytes _ _ _).mono (by decide)) fun p _ =>
            .bind (.op (.write .dataFifo p (fun hp => hp) (by decide))) fun _ _ =>
              .bind on_onX fun _ _ => .pure _
    · exact .pure _

theorem on_fifoWriteBody (src : Src) (len : Nat) :
    On c {.status, .burst, .sent, .limit, .t0, .t1} (fifoWriteBody src len) :=
  .bind on_onX fun _ _ =>
    .bind (.repeatP (consumes_sendTurn src len) (on_sendTurn src len)) fun _ _ =>
      .look (fun _ _ => rfl) fun e _ => .bind ((on_getBurstAndStatus _).mono (by decide)) fun v _ => by
        cases dataExpect e.cfg.map v.2
        · exact .pure _
        · exact .raise _

theorem on_writeGo : On c {.t1} writeGo :=
  .look (fun _ _ => rfl) fun e he => on_write (.inl (he ▸ rfl)) (by decide)

theorem on_memWriteAll {S : Finset Part} (hS : .rspbuf ∈ S) :
    ∀ (bs : List Byte) (i : Nat), On c S (memWriteAll i bs)
  | [], _ => .pure ()
  | v :: vs, i => .bind (.op (.store i v hS)) fun _ _ => on_memWriteAll hS vs (i + 1)

/-- A read of DATA_FIFO by at least one byte (R90). -/
theorem on_readFifo {S : Finset Part} {n : Nat} (hn : 1 ≤ n) (ht : .t1 ∈ S) :
    On c S (regRead .dataFifo n) :=
  .op (.read .dataFifo n (fun hle => ⟨hn, hle⟩) ht nofun)

theorem on_recvTurn (got : List Byte) : On c recvParts (recvTurn got) :=
  .look (fun _ _ => rfl) fun e _ => by
    split
    · rename_i hlt
      refine .bind ((on_getBurstAndStatus _).mono (by decide)) fun v hv =>
        .bind on_onX fun _ _ =>
          .bind (on_readFifo ?_ (by decide)) fun d _ => .bind (on_memWriteAll (by decide) _ _) fun _ _ =>
            .bind on_onX fun _ _ =>
              .pure _
      have hburst := (returns_getBurstAndStatus _).gives hv
      simp only [recvChunk]
      omega
    · exact .pure _

theorem on_recvRest (first : List Byte) : On c recvParts (recvRest first) :=
  .bind (.repeatFrom consumes_recvTurn on_recvTurn first) fun _ _ => .look (fun _ _ => rfl) fun e _ =>
    .bind ((on_getBurstAndStatus _).mono (by decide)) fun v _ => by
      cases dataAvail e.cfg.map v.2
      · exact .pure _
      · exact .raise _

theorem on_fifoReadBody (cap : Nat) : On c recvParts (fifoReadBody cap) :=
  .look (fun _ _ => rfl) fun e _ => .bind ((on_getBurstAndStatus _).mono (by decide)) fun v hv => by
    cases badFirstBurst e.cfg.hdrSize cap v.1
    · refine .bind (on_readFifo ((returns_getBurstAndStatus _).gives hv) (by decide)) fun d _ =>
        .bind (on_memWriteAll (by decide) _ _) fun _ _ =>
          .bind on_onX fun _ _ => ?_
      split
      · exact .raise _
      · exact .bind on_onX fun _ _ => on_recvRest _
    · exact .raise _

theorem on_cleanup : On c {.status, .access, .t1} cleanup :=
  .bind (on_readStatus.mono (by decide)) fun _ _ => .look (fun _ _ => rfl) fun _ _ =>
    .bind (.onlyIf _ (on_setReady.mono (by decide))) fun _ _ => (on_releaseLocality true).mono (by decide)

/-! ### TIS Session -/

/-- What SEND_CORE and the abort after it write (R261). -/
def sendParts : Finset Part :=
  {.status, .burst, .access, .sent, .limit, .t0, .t1, .tries}

theorem on_setSess {S : Finset Part} (s : Sess) : On c S (setSess s) := .op (.setSess s)

theorem on_sendCore (src : Src) (len : Nat) : On c sendParts (sendCore src len) :=
  .bind (on_setSess _) fun _ _ => .bind (on_requestLocality.mono (by decide)) fun _ _ =>
    .bind (on_setSess _) fun _ _ => .bind (on_waitCommandReady.mono (by decide)) fun _ _ =>
      .bind (on_setSess _) fun _ _ =>
        .bind ((on_fifoWriteBody _ _).mono (by decide)) fun _ _ => on_writeGo.mono (by decide)

theorem on_sessionAbort : On c {.status, .access, .t1} sessionAbort :=
  .bind (on_cleanup.mono (by decide)) fun _ _ => on_setSess _

theorem on_shutdownAbort : On c {.status, .access, .t1} shutdownAbort :=
  .bind on_sessionAbort fun _ _ => (on_releaseLocality true).mono (by decide)

theorem on_abort {S : Finset Part} (er : Err) {path : P Unit} (hp : On c S path) :
    On c S (abort er path : P α) :=
  .bind (.op (.setPending _)) fun _ _ => .bind hp fun _ _ => .bind (.op (.setPending _)) fun _ _ => .raise _

theorem on_sendCommand (len : Nat) : On c sendParts (sendCommand len) :=
  .bind (.attempt (on_sendCore _ _)) fun r _ => by
    cases r
    · exact on_abort _ (on_sessionAbort.mono (by decide))
    · exact .bind (on_setSess _) fun _ _ => .pure _

/-- What RECV_CORE and the abort after it write beside what the body does (R262). -/
def recvCoreParts : Finset Part := insert .access recvParts

theorem on_recvCore (cap : Nat) : On c recvCoreParts (recvCore cap) :=
  .bind (on_setSess _) fun _ _ => .bind ((on_fifoReadBody cap).mono (by decide)) fun _ _ =>
    .bind (on_setSess _) fun _ _ =>
      .bind ((on_releaseLocality false).mono (by decide)) fun _ _ =>
        .bind (on_setSess _) fun _ _ => .pure _

theorem on_recvCommand (cap : Nat) : On c recvCoreParts (recvCommand cap) :=
  .bind (.attempt (on_recvCore cap)) fun r _ => by
    cases r
    · exact on_abort _ (on_sessionAbort.mono (by decide))
    · exact .pure _

theorem on_probeIdentify : On c {.id, .t1, .didVid} probeIdentify :=
  .bind (on_read rfl (by decide) fun _ => by decide) fun d _ =>
    .bind on_onX fun _ _ =>
      .look (fun _ _ => rfl) fun e _ => by
        cases familyOf e.cfg.map (didVidValue d)
        · exact .raise _
        · exact .pure _

/-- What PROBE writes (R263). -/
def probeParts : Finset Part := {.id, .access, .tries, .t1, .didVid}

theorem on_probeCore : On c probeParts probeCore :=
  .bind (on_requestLocality.mono (by decide)) fun _ _ => on_probeIdentify.mono (by decide)

theorem on_probeCommand : On c probeParts probeCommand :=
  .bind (.attempt on_probeCore) fun r _ => by
    cases r
    · exact on_abort _ ((on_releaseLocality true).mono (by decide))
    · exact .pure _

theorem on_releaseCommand (force : Bool) : On c {.access, .t1} (releaseCommand force) :=
  .bind (on_releaseLocality force) fun _ _ => .pure _

theorem on_shutdownFinish (got : Received) : On c {.access, .t1} (shutdownFinish got) :=
  .bind (on_releaseLocality true) fun _ _ => by
    cases shutdownMatches got
    · exact .raise _
    · exact .pure _

theorem on_shutdownCommand : On c (sendParts ∪ recvCoreParts) shutdownCommand :=
  .bind (.attempt ((on_sendCore _ _).mono (by decide))) fun r _ => by
    cases r
    · exact on_abort _ (on_shutdownAbort.mono (by decide))
    · exact .bind (on_setSess _) fun _ _ =>
        .bind (.attempt ((on_recvCore 10).mono (by decide))) fun r2 _ => by
          cases r2
          · exact on_abort _ (on_shutdownAbort.mono (by decide))
          · exact (on_shutdownFinish _).mono (by decide)

/-! ### Every instruction -/

/-- What an instruction writes (R31), by the procedures it runs. -/
def parts : Instr → Finset Part
  | .probe => probeParts
  | .send _ => sendParts
  | .recv _ => recvCoreParts
  | .release _ | .releaseLocality | .checkLocality => {.access, .t1}
  | .shutdown => sendParts ∪ recvCoreParts
  | .requestLocality => {.access, .tries, .t1}
  | .getBurstAndStatus => {.status, .burst, .t0, .t1}
  | .readStatus => {.status, .t1}
  | .waitCommandReady => {.status, .t0, .t1}
  | .fifoWriteBody => {.status, .burst, .sent, .limit, .t0, .t1}
  | .fifoReadBody => recvParts
  | .cleanup => {.status, .access, .t1}
  | _ => {.t1}

theorem command_on (a : Args) (i : Instr) : (work a i).OnCommand (On c (parts i)) := by
  cases i with
  | probe => exact on_probeCommand
  | send len => exact on_sendCommand len
  | recv cap => exact on_recvCommand cap
  | release force => exact on_releaseCommand force
  | shutdown => exact on_shutdownCommand
  | _ => trivial

/-- An operation above the transport, or one of the transport's own. -/
inductive AnyOp (c : Cfg) (S : Finset Part) : ∀ α : Type, P α → Prop
  | op {α : Type} {p : P α} : Op c S α p → AnyOp c S α p
  | port {α : Type} {p : P α} : PortOp c α p → AnyOp c S α p

theorem made_mapped {A : ∀ α : Type, P α → Prop} {p : P α} (hp : Made c A p) (v : α → RetVal) :
    Made c A (p >>= fun a => pure (v a)) :=
  .bind hp fun _ _ => .pure _

theorem made_asFrame {A : ∀ α : Type, P α → Prop} (dir : Dir) {p : P (List Byte)} (hp : Made c A p) :
    Made c A (asFrame dir p) := by
  cases dir
  · exact made_mapped hp _
  · exact made_mapped hp _

theorem code_on (a : Args) (i : Instr) : (work a i).OnCode (Made c (AnyOp c (parts i))) := by
  have hop {α : Type} {S : Finset Part} {p : P α} (hp : On c S p) : Made c (AnyOp c S) p :=
    hp.imp fun _ _ => .op
  have hport {α : Type} {S : Finset Part} {p : P α} (hp : Made c (PortOp c) p) : Made c (AnyOp c S) p :=
    hp.imp fun _ _ => .port
  cases i with
  | probe | send _ | recv _ | release _ | shutdown => trivial
  | i2cRead => exact made_mapped (hport (made_i2cRead _ _ _)) _
  | i2cWrite => exact made_mapped (hport (made_i2cWrite _ _ _)) _
  | spiRead => exact made_mapped (hport (made_spiXfer _ _ _ _ _)) _
  | spiWrite => exact made_mapped (hport (made_spiWrite _ _ _)) _
  | readyWait => exact made_mapped (hport (made_readyWait.imp fun _ _ => .wait)) _
  | spiXfer => exact made_asFrame _ (hport (made_spiXfer _ _ _ _ _))
  | checkLocality => exact made_mapped (hop on_checkLocality) _
  | requestLocality => exact made_mapped (hop on_requestLocality) _
  | releaseLocality => exact made_mapped (hop (on_releaseLocality _)) _
  | getBurstAndStatus => exact made_mapped (hop (on_getBurstAndStatus _)) _
  | readStatus => exact made_mapped (hop on_readStatus) _
  | setReady => exact made_mapped (hop on_setReady) _
  | waitCommandReady => exact made_mapped (hop on_waitCommandReady) _
  | fifoWriteBody => exact made_mapped (hop (on_fifoWriteBody _ _)) _
  | writeGo => exact made_mapped (hop on_writeGo) _
  | fifoReadBody => exact made_mapped (hop (on_fifoReadBody _)) _
  | cleanup => exact made_mapped (hop on_cleanup) _
  | i2cAddrAccess _ | i2cAddrSts _ | i2cAddrDataFifo _ | i2cAddrDidVid _ =>
    exact .look (fun _ _ => rfl) fun _ _ => made_mapped (hport (made_i2cSend _)) _
  | spiHdrReadAccess _ _ | spiHdrWriteAccess _ _ | spiHdrReadSts _ _ | spiHdrWriteSts _ _
  | spiHdrReadDataFifo _ _ | spiHdrWriteDataFifo _ _ | spiHdrReadDidVid _ _ =>
    exact made_asFrame _ (hport (made_spiXfer _ _ _ _ _))
  | stsGoVal | stsReadyVal | accessReqVal | accessRelVal =>
    exact .look (fun _ _ => rfl) fun _ _ => made_mapped (hport (made_regWrite _ _)) _

end Sys2Proof.Machine
end

section
/-! PROOF. The clock and the working registers: what every operation touches, and so every instruction. -/

namespace Sys2Proof.Machine

variable {α β : Type} {c : Cfg} {S : Finset Part} {i : Instr} {s t u : State}

/-! ### What is read off a trace -/

theorem clockReads_append (a b : List Event) : clockReads (a ++ b) = clockReads a ++ clockReads b :=
  List.filterMap_append

theorem rspReads_append (a b : List Event) : rspReads (a ++ b) = rspReads a ++ rspReads b :=
  List.filterMap_append

theorem rspWrites_append (a b : List Event) : rspWrites (a ++ b) = rspWrites a ++ rspWrites b :=
  List.filterMap_append

/-- The event reads no clock, and neither reads nor writes RSPBUF. -/
def Event.Unseen (v : Event) : Prop := clockReads [v] = [] ∧ rspReads [v] = [] ∧ rspWrites [v] = []

/-- Clock values read, in rising order, from `a` on and up to `b`. -/
structure Between (a b : Nat) (l : List Nat) : Prop where
  le : a ≤ b
  rising : l.Pairwise (· ≤ ·)
  within : ∀ v ∈ l, a ≤ v ∧ v ≤ b

theorem Between.nil {a b : Nat} (h : a ≤ b) : Between a b [] := ⟨h, .nil, nofun⟩

theorem Between.append {a b d : Nat} {l m : List Nat} (h : Between a b l) (k : Between b d m) :
    Between a d (l ++ m) where
  le := h.le.trans k.le
  rising := List.pairwise_append.mpr
    ⟨h.rising, k.rising, fun v hv w hw => (h.within v hv).2.trans (k.within w hw).1⟩
  within v hv := by
    rcases List.mem_append.mp hv with hv | hv
    · exact ⟨(h.within v hv).1, (h.within v hv).2.trans k.le⟩
    · exact ⟨h.le.trans (k.within v hv).1, (k.within v hv).2⟩

/-! ### What an operation touches -/

/-- What an operation on the parts `S` does: it writes no other working register, and RSPBUF only if that is
among them; it never reads RSPBUF (R48); and the clock only grows, with the values read on the way (R47). -/
structure Touches (S : Finset Part) (e t : Engine) : Prop where
  cfg : t.cfg = e.cfg
  regs : ∀ r ∉ S, r.SameIn e.x t.x
  rspbuf : .rspbuf ∉ S → t.rspbuf = e.rspbuf ∧ rspWrites t.trace = rspWrites e.trace
  rspReads : rspReads t.trace = rspReads e.trace
  clock : ∃ l, clockReads t.trace = clockReads e.trace ++ l ∧ Between e.clock t.clock l

theorem Touches.refl (S : Finset Part) (e : Engine) : Touches S e e where
  cfg := rfl
  regs r _ := r.sameIn_refl e.x
  rspbuf _ := ⟨rfl, rfl⟩
  rspReads := rfl
  clock := ⟨[], (List.append_nil _).symm, .nil le_rfl⟩

theorem Touches.trans {a b d : Engine} (h : Touches S a b) (k : Touches S b d) : Touches S a d where
  cfg := k.cfg.trans h.cfg
  regs r hr := Part.sameIn_trans (h.regs r hr) (k.regs r hr)
  rspbuf hr := ⟨(k.rspbuf hr).1.trans (h.rspbuf hr).1, (k.rspbuf hr).2.trans (h.rspbuf hr).2⟩
  rspReads := k.rspReads.trans h.rspReads
  clock := by
    obtain ⟨l, hl, hbl⟩ := h.clock
    obtain ⟨m, hm, hbm⟩ := k.clock
    exact ⟨l ++ m, by rw [hm, hl, List.append_assoc], hbl.append hbm⟩

theorem progress_touches (S : Finset Part) : Progress (Touches S) (Touches S) :=
  .of_preorder (.refl S) .trans fun h => h.cfg

/-- An update that records nothing. -/
theorem touches_of_silent {e t : Engine} (hcfg : t.cfg = e.cfg) (hregs : ∀ r ∉ S, r.SameIn e.x t.x)
    (hrsp : t.rspbuf = e.rspbuf) (htrace : t.trace = e.trace) (hclock : e.clock ≤ t.clock) :
    Touches S e t where
  cfg := hcfg
  regs := hregs
  rspbuf _ := ⟨hrsp, by rw [htrace]⟩
  rspReads := by rw [htrace]
  clock := ⟨[], by rw [htrace, List.append_nil], .nil hclock⟩

theorem touches_settle (e : Engine) (a : Answer) (rest : List Answer) : Touches S e (e.settle a rest) :=
  touches_of_silent rfl (fun r _ => r.sameIn_refl e.x) rfl rfl (Nat.le_add_right _ _)

theorem touches_setX {e : Engine} {f : Regs → Regs} (hf : WritesIn S f) : Touches S e (e.setX (f e.x)) :=
  touches_of_silent rfl (hf e.x) rfl rfl le_rfl

theorem touches_log {v : Event} (hv : v.Unseen) (e : Engine) : Touches S e (e.log v) where
  cfg := rfl
  regs r _ := r.sameIn_refl e.x
  rspbuf _ := ⟨rfl, by simp [rspWrites_append, hv.2.2]⟩
  rspReads := by simp [rspReads_append, hv.2.1]
  clock := ⟨[], by simp [clockReads_append, hv.1], .nil le_rfl⟩

/-- The clock value read is the clock. -/
theorem touches_log_now (e : Engine) : Touches S e (e.log (.now e.clock)) where
  cfg := rfl
  regs r _ := r.sameIn_refl e.x
  rspbuf _ := ⟨rfl, by simp [rspWrites]⟩
  rspReads := by simp [Sys2Proof.Machine.rspReads]
  clock := ⟨[e.clock], by simp [clockReads], le_rfl, List.pairwise_singleton _ _, by simp⟩

theorem touches_store (hS : .rspbuf ∈ S) (e : Engine) (k : Nat) (v : Byte) :
    Touches S e ((e.setRsp k v).log (.memWrite k v)) where
  cfg := rfl
  regs r _ := r.sameIn_refl e.x
  rspbuf hr := absurd hS hr
  rspReads := by simp [Sys2Proof.Machine.rspReads]
  clock := ⟨[], by simp [clockReads], .nil le_rfl⟩

/-! ### Every operation -/

/-- The procedure touches only the parts `S`, whatever the environment answers. -/
abbrev OnlyTouches (c : Cfg) (S : Finset Part) (p : P α) : Prop := Runs c (Touches S) (Touches S) p

theorem touches_bind {p : P α} {k : α → P β} (hp : OnlyTouches c S p) (hk : ∀ a, OnlyTouches c S (k a)) :
    OnlyTouches c S (p >>= k) :=
  runs_bind (progress_touches S) hp fun a _ => hk a

theorem touches_take (w : Prim) : OnlyTouches c S (take w) := by
  intro e _
  rcases take_cases w e with ⟨_, h⟩ | ⟨a, rest, _, h⟩ <;> rw [h]
  · exact .refl S e
  · exact touches_settle e a rest

theorem touches_record {v : Event} (hv : v.Unseen) : OnlyTouches c S (record v) :=
  fun e _ => touches_log hv e

theorem touches_now : OnlyTouches c S now :=
  touches_bind (touches_take _) fun _ e _ => touches_log_now e

theorem touches_readyFlag : OnlyTouches c S readyFlag :=
  touches_bind (touches_take _) fun _ e _ => touches_log ⟨rfl, rfl, rfl⟩ e

theorem touches_readyAtDeadline : OnlyTouches c S readyAtDeadline := by
  intro e _
  rw [readyAtDeadline_apply]
  change Touches S e _
  split
  · exact touches_log ⟨rfl, rfl, rfl⟩ e
  · exact .refl S e

theorem touches_raise (er : Err) : OnlyTouches c S (raise er : P α) := fun e _ => .refl S e

theorem touches_busWrite (bs : List Byte) : OnlyTouches c S (busWrite bs) :=
  touches_bind (touches_take _) fun a => by
    cases a.err with
    | none => exact touches_record ⟨rfl, rfl, rfl⟩
    | some er => exact touches_bind (touches_record ⟨rfl, rfl, rfl⟩) fun _ => touches_raise _

theorem touches_busRead (n : Nat) : OnlyTouches c S (busRead n) :=
  touches_bind (touches_take _) fun a => by
    cases a.err with
    | none => exact touches_bind (touches_record ⟨rfl, rfl, rfl⟩) fun _ e _ => .refl S e
    | some er => exact touches_bind (touches_record ⟨rfl, rfl, rfl⟩) fun _ => touches_raise _

/-- An update of fields that no clock value or register stands in, with such an event. -/
theorem touches_change_log {f : Engine → Engine} {v : Event} (hv : v.Unseen)
    (hf : ∀ e : Engine, Touches S e (f e)) : OnlyTouches c S (change f >>= fun _ => record v) :=
  touches_bind (fun e _ => hf e) fun _ => touches_record hv

theorem touches_setLock (e : Engine) (l : Lock) : Touches S e (e.setLock l) :=
  touches_of_silent rfl (fun r _ => r.sameIn_refl e.x) rfl rfl le_rfl

theorem touches_lockTurn : OnlyTouches c S spiLockTurn :=
  touches_bind (touches_take _) fun a => by
    cases a.lockFree
    · exact fun e _ => .refl S e
    · exact touches_bind (fun e _ => touches_setLock e _) fun _ =>
        touches_bind (touches_record ⟨rfl, rfl, rfl⟩) fun _ e _ => .refl S e

theorem touches_sleep (ms : Nat) : OnlyTouches c S (sleep ms) :=
  touches_bind (touches_take _) fun _ => touches_change_log ⟨rfl, rfl, rfl⟩ fun e =>
    touches_of_silent rfl (fun r _ => r.sameIn_refl e.x) rfl rfl (Nat.le_add_right _ _)

theorem touches_load (k : Nat) : OnlyTouches c S (memRead .cmdbuf k) := by
  unfold memRead
  split
  · exact fun e _ => touches_log ⟨rfl, rfl, rfl⟩ e
  · exact fun _ _ => trivial

theorem touches_memWrite (hS : .rspbuf ∈ S) (k : Nat) (v : Byte) : OnlyTouches c S (memWrite k v) := by
  unfold memWrite
  split
  · exact fun e _ => touches_store hS e k v
  · exact fun _ _ => trivial

theorem WaitOp.touches (ht : .t1 ∈ S) {p : P α} (h : WaitOp α p) : OnlyTouches c S p := by
  cases h with
  | now => exact touches_now
  | readyFlag => exact touches_readyFlag
  | readyAtDeadline => exact touches_readyAtDeadline
  | noteT1 v =>
    refine fun e _ => touches_setX (f := fun x => { x with t1 := v }) fun x r hr => ?_
    cases r <;> simp_all [Part.SameIn]

theorem PortOp.touches (ht : .t1 ∈ S) {p : P α} (h : PortOp c α p) : OnlyTouches c S p := by
  cases h with
  | wait h => exact h.touches ht
  | busWrite bs => exact touches_busWrite bs
  | busRead n => exact touches_busRead n
  | readyClear =>
    exact touches_change_log ⟨rfl, rfl, rfl⟩ fun e =>
      touches_of_silent rfl (fun r _ => r.sameIn_refl e.x) rfl rfl le_rfl
  | lockTurn => exact touches_lockTurn
  | unlock => exact touches_change_log ⟨rfl, rfl, rfl⟩ fun e => touches_setLock e _
  | scratch loc kind p _ =>
    exact fun e _ => touches_of_silent rfl (fun r _ => r.sameIn_refl e.x) rfl rfl le_rfl

theorem Made.touches_of_port (ht : .t1 ∈ S) {p : P α} (h : Made c (PortOp c) p) : OnlyTouches c S p :=
  h.runs (progress_touches S) fun _ _ hop => hop.touches ht

theorem Op.touches {p : P α} (h : Op c S α p) : OnlyTouches c S p := by
  have hsame (e : Engine) : ∀ r ∉ S, r.SameIn e.x e.x := fun r _ => r.sameIn_refl e.x
  cases h with
  | read kind n _ ht _ => exact (made_regRead kind n).touches_of_port ht
  | write kind p _ ht => exact (made_regWrite kind p).touches_of_port ht
  | now => exact touches_now
  | sleep ms => exact touches_sleep ms
  | load k => exact touches_load k
  | onX f hf => exact fun e _ => touches_setX hf
  | store k v hS => exact touches_memWrite hS k v
  | setSess q => exact fun e _ => touches_of_silent rfl (hsame e) rfl rfl le_rfl
  | setPending q => exact fun e _ => touches_of_silent rfl (hsame e) rfl rfl le_rfl

theorem Made.touches {p : P α} (h : On c S p) : OnlyTouches c S p :=
  h.runs (progress_touches S) fun _ _ hop => hop.touches

/-! ### Every instruction -/

theorem t1_mem_parts (i : Instr) : .t1 ∈ parts i := by
  cases i <;> exact of_decide_eq_true rfl

theorem code_touches (a : Args) (i : Instr) : (work a i).OnCode (OnlyTouches c (parts i)) := by
  have h := code_on (c := c) a i
  cases hw : work a i with
  | command p => trivial
  | code p =>
    rw [hw] at h
    exact Made.runs (progress_touches _) (fun _ _ hop => by
      cases hop with
      | op hop => exact hop.touches
      | port hop => exact hop.touches (t1_mem_parts i)) h

/-- Around its procedure an instruction's body writes only `busy`, `result` and `ret`. -/
theorem body_touches (a : Args) (i : Instr) : OnlyTouches c (parts i) (work a i).body := by
  have hcmd := command_on (c := c) a i
  have hcode := code_touches (c := c) a i
  have hfield (t e : Engine) (hx : t.x = e.x) (hcfg : t.cfg = e.cfg) (hrsp : t.rspbuf = e.rspbuf)
      (htrace : t.trace = e.trace) (hclock : e.clock = t.clock) : Touches (parts i) e t :=
    touches_of_silent hcfg (fun r _ => hx ▸ r.sameIn_refl e.x) hrsp htrace hclock.le
  cases hw : work a i with
  | command p =>
    rw [hw] at hcmd
    exact touches_bind (fun e _ => hfield _ e rfl rfl rfl rfl rfl) fun _ =>
      touches_bind (runs_attempt (Made.touches hcmd)) fun _ e _ => hfield _ e rfl rfl rfl rfl rfl
  | code p =>
    rw [hw] at hcode
    exact touches_bind (runs_attempt hcode) fun _ e _ => hfield _ e rfl rfl rfl rfl rfl

/-- What a body's run goes along is what its instruction goes along, ended or waiting. -/
theorem launch_runs {R W : Engine → Engine → Prop} {body : P Unit} (h : launch i body s = .next t)
    (hb : Runs s.cfg R W body) :
    (t.running = none → R s.toEngine t.toEngine) ∧ (t.running ≠ none → W s.toEngine t.toEngine) := by
  have hl := hb s.toEngine rfl
  obtain ⟨_, ⟨hr, he | ⟨er, he⟩⟩ | ⟨w, he, hr⟩⟩ := launch_next h <;> rw [he] at hl
  · exact ⟨fun _ => hl, fun hn => absurd hr hn⟩
  · exact ⟨fun _ => hl, fun hn => absurd hr hn⟩
  · exact ⟨fun hn => by simp [hr] at hn, fun _ => hl⟩

theorem exec_touches (h : exec i s = .next t) : Touches (parts i) s.toEngine t.toEngine := by
  obtain ⟨hend, hwait⟩ := launch_runs (exec_next h).launch (body_touches s.args i)
  by_cases hn : t.running = none
  · exact hend hn
  · exact hwait hn

/-! ### The working registers (R31) -/

/-- `x` with the parts `S` taken from `y`. -/
def Regs.blend (S : Finset Part) (x y : Regs) : Regs where
  status := if .status ∈ S then y.status else x.status
  burst := if .burst ∈ S then y.burst else x.burst
  access := if .access ∈ S then y.access else x.access
  sent := if .sent ∈ S then y.sent else x.sent
  limit := if .limit ∈ S then y.limit else x.limit
  cur := if .cur ∈ S then y.cur else x.cur
  expected := if .expected ∈ S then y.expected else x.expected
  n := if .n ∈ S then y.n else x.n
  t0 := if .t0 ∈ S then y.t0 else x.t0
  t1 := if .t1 ∈ S then y.t1 else x.t1
  tries := if .tries ∈ S then y.tries else x.tries
  id := if .id ∈ S then y.id else x.id

/-- Registers that differ in the parts `S` only. -/
theorem eq_blend {x y : Regs} (h : ∀ r ∉ S, r.SameIn x y) : y = x.blend S y := by
  have hpart {γ : Type} {a b : γ} (r : Part) (hr : r.SameIn x y → b = a) :
      b = if r ∈ S then b else a := by
    split
    · rfl
    · exact hr (h r ‹_›)
  obtain ⟨_, _, _, _, _, _, _, _, _, _, _, _⟩ := y
  simp only [Regs.blend, Regs.mk.injEq]
  exact ⟨hpart .status id, hpart .burst id, hpart .access id, hpart .sent id, hpart .limit id,
    hpart .cur id, hpart .expected id, hpart .n id, hpart .t0 id, hpart .t1 id, hpart .tries id,
    hpart .id id⟩

theorem writesOnly_of_touches {x y : Regs} (h : y = x.blend (parts i) y) : writesOnly i x y := by
  cases i <;> exact h

/-- Settles O21. -/
theorem frameOfTheWorkingRegisters : Obligations.FrameOfTheWorkingRegisters := fun _ _ _ h =>
  writesOnly_of_touches (eq_blend (exec_touches h).regs)

end Sys2Proof.Machine
end

section
/-! PROOF. The clock: over an instruction, over the step that carries one on, and over every other step. -/

namespace Sys2Proof.Machine

variable {α β : Type} {c : Cfg} {S : Finset Part} {i : Instr} {s t u : State}

/-! ### Every operation waits for answers, or updates the engine without looking at those to come -/

/-- The engine at a later moment of the same instruction. -/
structure Later (e t : Engine) : Prop where
  cfg : t.cfg = e.cfg
  clock : e.clock ≤ t.clock
  trace : e.trace <+: t.trace

theorem Later.refl (e : Engine) : Later e e := ⟨rfl, le_rfl, List.prefix_rfl⟩

theorem progress_later : Progress Later Later :=
  .of_preorder .refl
    (fun h k => ⟨k.cfg.trans h.cfg, h.clock.trans k.clock, h.trace.trans k.trace⟩) fun h => h.cfg

/-- What all operations are made of. -/
inductive Micro : ∀ α : Type, P α → Prop
  | take (w : Prim) : Micro _ (take w)
  | change (f : Engine → Engine) : (∀ e as, f (e.more as) = (f e).more as) → (∀ e, Later e (f e)) →
      Micro _ (change f)

theorem later_settle (e : Engine) (a : Answer) (rest : List Answer) : Later e (e.settle a rest) :=
  ⟨rfl, Nat.le_add_right _ _, List.prefix_rfl⟩

theorem Micro.runs {p : P α} (h : Micro α p) : Runs c Later Later p := by
  cases h with
  | take w =>
    intro e _
    rcases take_cases w e with ⟨_, h⟩ | ⟨a, rest, _, h⟩ <;> rw [h]
    · exact .refl e
    · exact later_settle e a rest
  | change f _ hf => exact fun e _ => hf e

/-- With an answer there, more of them change nothing; without one, the engine takes the first of them. -/
theorem Micro.continues {p : P α} (h : Micro α p) : Continues c Later p := by
  cases h with
  | take w =>
    intro e as _
    rcases take_cases w e with ⟨_, h⟩ | ⟨a, rest, hi, h⟩ <;> rw [h]
    · rcases take_cases w (e.more as) with ⟨_, h'⟩ | ⟨a, rest, _, h'⟩ <;> rw [h']
      · exact (⟨rfl, le_rfl, List.prefix_rfl⟩ : Later e (e.more as))
      · exact later_settle e a rest
    · exact take_cons (show (e.more as).inbox = a :: (rest ++ as) by simp [Engine.more, hi])
  | change f hf _ => exact fun e as _ => congrArg (EStateM.Result.ok ()) (hf e as)

theorem made_record (v : Event) : Made c Micro (record v) :=
  .op (.change _ (fun _ _ => rfl) fun _ => ⟨rfl, le_rfl, List.prefix_append _ _⟩)

/-- An update of fields other than the configuration, the clock and the trace. -/
theorem made_change {f : Engine → Engine}
    (hf : ∀ e as, f (e.more as) = (f e).more as := by intros; rfl)
    (hcfg : ∀ e, (f e).cfg = e.cfg := by intros; rfl)
    (hclock : ∀ e, (f e).clock = e.clock := by intros; rfl)
    (htrace : ∀ e, (f e).trace = e.trace := by intros; rfl) : Made c Micro (change f) :=
  .op (.change f hf fun e => ⟨hcfg e, (hclock e).ge, (htrace e) ▸ List.prefix_rfl⟩)

theorem made_now : Made c Micro now :=
  .bind (.op (.take _)) fun _ _ => .look (fun _ _ => rfl) fun _ _ =>
    .bind (made_record _) fun _ _ => .pure _

theorem WaitOp.micro {p : P α} (h : WaitOp α p) : Made c Micro p := by
  cases h with
  | now => exact made_now
  | readyFlag =>
    exact .bind (.op (.take _)) fun _ _ => .look (fun _ _ => rfl) fun _ _ =>
      .bind (made_record _) fun _ _ => .pure _
  | readyAtDeadline =>
    exact .look (fun _ _ => rfl) fun _ _ => .bind (.onlyIf _ (made_record _)) fun _ _ => .pure _
  | noteT1 v => exact made_change

theorem PortOp.micro {p : P α} (h : PortOp c α p) : Made c Micro p := by
  cases h with
  | wait h => exact h.micro
  | busWrite bs =>
    refine .bind (.op (.take _)) fun a _ => ?_
    cases a.err with
    | none => exact made_record _
    | some er => exact .bind (made_record _) fun _ _ => .raise _
  | busRead n =>
    refine .bind (.op (.take _)) fun a _ => ?_
    cases a.err with
    | none => exact .bind (made_record _) fun _ _ => .pure _
    | some er => exact .bind (made_record _) fun _ _ => .raise _
  | readyClear =>
    exact .bind made_change fun _ _ => made_record _
  | lockTurn =>
    refine .bind (.op (.take _)) fun a _ => ?_
    cases a.lockFree
    · exact .pure _
    · exact .bind made_change fun _ _ => .bind (made_record _) fun _ _ => .pure _
  | unlock => exact .bind made_change fun _ _ => made_record _
  | scratch loc kind p _ => exact made_change

theorem Op.micro {p : P α} (h : Op c S α p) : Made c Micro p := by
  cases h with
  | read kind n _ _ _ => exact (made_regRead kind n).trans fun _ _ => PortOp.micro
  | write kind p _ _ => exact (made_regWrite kind p).trans fun _ _ => PortOp.micro
  | now => exact made_now
  | sleep ms =>
    exact .bind (.op (.take _)) fun _ _ =>
      .bind (.op (.change _ (fun _ _ => rfl) fun _ => ⟨rfl, Nat.le_add_right _ _, List.prefix_rfl⟩))
        fun _ _ => made_record _
  | load k =>
    unfold memRead
    split
    · exact .look (fun _ _ => rfl) fun _ _ => .bind (made_record _) fun _ _ => .pure _
    · exact .stopFault _
  | store k v _ =>
    unfold memWrite
    split
    · exact .bind made_change fun _ _ => made_record _
    · exact .stopFault _
  | onX f _ => exact made_change
  | setSess q => exact made_change
  | setPending q => exact made_change

/-- The body of every instruction. -/
theorem body_micro (a : Args) (i : Instr) : Made c Micro (work a i).body := by
  have hcmd := command_on (c := c) a i
  have hcode := code_on (c := c) a i
  cases hw : work a i with
  | command p =>
    rw [hw] at hcmd
    have hp : Made c Micro p := Made.trans hcmd fun _ _ => Op.micro
    exact .bind made_change fun _ _ =>
      .bind (.attempt hp) fun _ _ => made_change
  | code p =>
    rw [hw] at hcode
    have hp : Made c Micro p := Made.trans hcode fun _ _ hop => by
      cases hop with
      | op hop => exact hop.micro
      | port hop => exact hop.micro
    exact .bind (.attempt hp) fun _ _ => made_change

/-- With more answers an instruction's body does the same, and goes on where it waited (log 2). -/
theorem body_continues (a : Args) (i : Instr) : Continues c Later (work a i).body :=
  (body_micro a i).continues progress_later fun _ _ hop => ⟨hop.runs, hop.continues⟩

/-! ### Steps -/

/-- A waiting instruction is kept with the engine it started in. -/
theorem exec_waiting (h : exec i s = .next t) (ht : t.running ≠ none) :
    ∃ w, (work s.args i).body s.toEngine = .error (.blocked w) t.toEngine ∧
      t.running = some { instr := i, start := s.toEngine, waits := w } := by
  obtain ⟨_, ⟨hn, _⟩ | hw⟩ := launch_next (exec_next h).launch
  · exact absurd hn ht
  · exact hw

/-- What a launched body landed in is what its instruction ended or waits in. -/
theorem launch_landed {J : Engine → Prop} {body : P Unit} (h : launch i body s = .next t)
    (hl : Lands (fun _ => J) (fun _ => J) J (body s.toEngine)) : J t.toEngine := by
  obtain ⟨_, ⟨_, he | ⟨er, he⟩⟩ | ⟨w, he, _⟩⟩ := launch_next h <;> rwa [he] at hl

/-- The step that carries a waiting instruction on leaves a later state. -/
theorem later_of_carried_on {as : List Answer} (h : exec i s = .next t) (ht : t.running ≠ none)
    (hu : step { t with toEngine := { t.toEngine with inbox := as } } = .next u) :
    Later t.toEngine u.toEngine := by
  obtain ⟨w, hbody, hr⟩ := exec_waiting h ht
  cases hslot : t.slot with
  | some q => simp [step, hr, hslot] at hu
  | none =>
    simp only [step, hr, hslot] at hu
    refine launch_landed (exec_next hu).launch ?_
    have hgoes := body_continues s.args i s.toEngine
      (nextAnswers { t with toEngine := { t.toEngine with inbox := as } }) rfl
    rw [hbody] at hgoes
    exact hgoes

theorem exec_later (h : exec i s = .next t) : Later s.toEngine t.toEngine := by
  obtain ⟨hend, hwait⟩ := launch_runs (exec_next h).launch
    ((body_micro s.args i).runs progress_later fun _ _ hop => hop.runs)
  by_cases hn : t.running = none
  · exact hend hn
  · exact hwait hn

/-- The clock is outside the handle, and no move of the host turns it back (R8). -/
theorem hostMoves_clock {m : HostMove} (h : hostMoves m s = .next t) : t.clock = s.clock := by
  cases m with
  | wait | command _ | fillCmdbuf _ | giveRspbuf _ | detach =>
    cases h
    rfl
  | attach q =>
    unfold hostMoves at h
    dsimp only at h
    split at h
    · cases h
      rfl
    · rw [attachHandle_next h]
      rfl

theorem idleSettle_clock (s : State) : s.clock ≤ (idleSettle s).clock := by
  unfold idleSettle
  split
  · exact Nat.le_add_right _ _
  · exact Nat.le_add_right _ _

theorem idleStep_clock (h : idleStep s = .next t) : s.clock ≤ t.clock :=
  (idleSettle_clock s).trans (hostMoves_clock h).ge

/-- The values read from the clock within an instruction. -/
theorem exec_clockReads {evs : List Event} (h : exec i s = .next t) (htr : t.trace = s.trace ++ evs) :
    Between s.clock t.clock (clockReads evs) := by
  obtain ⟨l, hl, hbetween⟩ := (exec_touches h).clock
  rw [htr, clockReads_append] at hl
  rwa [List.append_cancel_left hl]

theorem step_clock_of_not_running (hr : s.running = none) (h : step s = .next t) :
    s.clock ≤ t.clock := by
  unfold step at h
  cases hslot : s.slot with
  | none =>
    simp only [hr, hslot] at h
    exact idleStep_clock h
  | some q =>
    simp only [hr, hslot] at h
    split at h
    · exact (exec_later h).clock
    · cases h

/-- Settles O18: the values read lie in order between the clock before and after; a waiting instruction goes
on from where it waited, with whatever answers; and an idle engine's clock is moved by answers only. -/
theorem clockNeverFalls : Obligations.ClockNeverFalls := by
  refine ⟨fun i s t evs h htr => ?_, fun i s t u as h ht hu => (later_of_carried_on h ht hu).clock,
    fun s t hr h => step_clock_of_not_running hr h⟩
  obtain ⟨hle, hrising, hwithin⟩ := exec_clockReads h htr
  exact ⟨hle, hrising, hwithin⟩

end Sys2Proof.Machine
end

section
/-! PROOF. RSPBUF: what FIFO_READ_BODY writes there, and that nothing else does. -/

namespace Sys2Proof.Machine

variable {α β : Type} {c : Cfg} {S : Finset Part} {i : Instr} {s t : State} {cap : Nat}

/-! ### Writing a byte string and reading it back -/

theorem indexed_append : ∀ (k : Nat) (a b : List Byte),
    indexed k (a ++ b) = indexed k a ++ indexed (k + a.length) b
  | _, [], _ => rfl
  | k, v :: vs, b => by
    simp only [List.cons_append, indexed, indexed_append (k + 1) vs b, List.length_cons]
    rw [Nat.add_right_comm, Nat.add_assoc]

theorem memSetAll_append : ∀ (m : Memory) (k : Nat) (a b : List Byte),
    memSetAll m k (a ++ b) = memSetAll (memSetAll m k a) (k + a.length) b
  | _, _, [], _ => rfl
  | m, k, v :: vs, b => by
    simp only [List.cons_append, memSetAll, memSetAll_append (memSet m k v) (k + 1) vs b, List.length_cons]
    rw [Nat.add_right_comm, Nat.add_assoc]

/-- A byte outside the string written keeps what it held. -/
theorem memGet_memSetAll_outside : ∀ (bs : List Byte) (m : Memory) (a k : Nat), Memory.wf m = true →
    k < a ∨ a + bs.length ≤ k → memGet (memSetAll m a bs) k = memGet m k
  | [], _, _, _, _, _ => rfl
  | v :: vs, m, a, k, hm, hk => by
    simp only [List.length_cons] at hk
    have hne : k ≠ a := by omega
    rw [memSetAll, memGet_memSetAll_outside vs _ _ _ (memSet_wf m a v hm) (by omega),
      memGet_after_memSet m a v k hm, if_neg hne]

theorem byteAt_cons_succ (v : Byte) (vs : List Byte) {k : Nat} (hk : k < vs.length) :
    byteAt (v :: vs) (k + 1) = byteAt vs k := by
  simp [byteAt, hk]

/-- A byte of the string written. -/
theorem memGet_memSetAll_inside : ∀ (bs : List Byte) (m : Memory) (a k : Nat), Memory.wf m = true →
    k < bs.length → memGet (memSetAll m a bs) (a + k) = byteAt bs k
  | v :: vs, m, a, 0, hm, _ => by
    rw [memSetAll, memGet_memSetAll_outside vs _ _ _ (memSet_wf m a v hm) (by omega),
      memGet_after_memSet m a v _ hm]
    simp [byteAt]
  | v :: vs, m, a, k + 1, hm, hk => by
    have hk' : k < vs.length := Nat.lt_of_succ_lt_succ hk
    rw [memSetAll, byteAt_cons_succ v vs hk',
      ← memGet_memSetAll_inside vs _ (a + 1) k (memSet_wf m a v hm) hk', Nat.add_assoc, Nat.add_comm 1 k]

/-! ### RSPBUF since a moment -/

/-- Since `e` the bytes `got` have been written to RSPBUF, from index 0 on and in order (R98), and none has
been read. -/
structure Filled (e : Engine) (got : List Byte) (t : Engine) : Prop where
  cfg : t.cfg = e.cfg
  rspbuf : t.rspbuf = memSetAll e.rspbuf 0 got
  writes : rspWrites t.trace = rspWrites e.trace ++ indexed 0 got
  reads : rspReads t.trace = rspReads e.trace

theorem Filled.refl (e : Engine) : Filled e [] e := ⟨rfl, rfl, (List.append_nil _).symm, rfl⟩

theorem Filled.setX {e t : Engine} {got : List Byte} (h : Filled e got t) (x : Regs) :
    Filled e got (t.setX x) :=
  ⟨h.cfg, h.rspbuf, h.writes, h.reads⟩

/-- What leaves RSPBUF alone. -/
theorem Filled.touches {e m t : Engine} {got : List Byte} (h : Filled e got m) (k : Touches S m t)
    (hS : .rspbuf ∉ S) : Filled e got t where
  cfg := k.cfg.trans h.cfg
  rspbuf := (k.rspbuf hS).1.trans h.rspbuf
  writes := (k.rspbuf hS).2.trans h.writes
  reads := k.rspReads.trans h.reads

/-- No more than `cap` bytes have been written. -/
def FilledTo (cap : Nat) (e t : Engine) : Prop := ∃ got, got.length ≤ cap ∧ Filled e got t

theorem FilledTo.mono {cap' : Nat} {e t : Engine} (hle : cap ≤ cap') (h : FilledTo cap e t) :
    FilledTo cap' e t := by
  obtain ⟨got, hlen, hf⟩ := h
  exact ⟨got, hlen.trans hle, hf⟩

theorem FilledTo.filled {e t : Engine} (h : FilledTo 0 e t) : Filled e [] t := by
  obtain ⟨got, hlen, hf⟩ := h
  rwa [List.eq_nil_of_length_eq_zero (Nat.le_zero.mp hlen)] at hf

theorem FilledTo.cfg {e t : Engine} (h : FilledTo cap e t) : t.cfg = e.cfg := by
  obtain ⟨_, _, hf⟩ := h
  exact hf.cfg

theorem FilledTo.of_touches {e t : Engine} (h : Touches S e t) (hS : .rspbuf ∉ S) : FilledTo cap e t :=
  ⟨[], Nat.zero_le _, (Filled.refl e).touches h hS⟩

/-- Writing nothing after, or before, changes nothing. -/
theorem FilledTo.then_none {a b d : Engine} (h : FilledTo cap a b) (k : FilledTo 0 b d) :
    FilledTo cap a d := by
  obtain ⟨got, hlen, hf⟩ := h
  have hk := k.filled
  exact ⟨got, hlen, hk.cfg.trans hf.cfg, hk.rspbuf.trans hf.rspbuf,
    hk.writes.trans ((List.append_nil _).trans hf.writes), hk.reads.trans hf.reads⟩

theorem FilledTo.after_none {a b d : Engine} (h : FilledTo 0 a b) (k : FilledTo cap b d) :
    FilledTo cap a d := by
  obtain ⟨got, hlen, hf⟩ := k
  have hh := h.filled
  have hrsp : b.rspbuf = a.rspbuf := hh.rspbuf
  have hwrites : rspWrites b.trace = rspWrites a.trace := hh.writes.trans (List.append_nil _)
  exact ⟨got, hlen, hf.cfg.trans hh.cfg, hrsp ▸ hf.rspbuf, hwrites ▸ hf.writes, hf.reads.trans hh.reads⟩

/-! ### How many bytes a read gives -/

theorem returns_bind {J : β → Prop} (p : P α) {k : α → P β} (hk : ∀ a, Returns J (k a)) :
    Returns J (p >>= k) :=
  meets_bind (meets_trivial p) hk

theorem returns_raise {J : α → Prop} (er : Err) : Returns J (raise er : P α) := meets_raise fun _ _ => trivial

theorem returns_clearOnErr {J : α → Prop} {p : P α} (hp : Returns J p) : Returns J (clearOnErr p) :=
  meets_attempt_bind hp (fun _ => meets_pure fun _ h => h)
    fun er => (returns_bind (J := J) readyClear fun _ => returns_raise er)

theorem returns_busRead (n : Nat) : Returns (fun bs => bs.length = n) (busRead n) :=
  returns_bind _ fun a => by
    cases a.err with
    | none => exact returns_bind _ fun _ => meets_pure fun _ _ => answerBytes_length n _
    | some er => exact returns_bind _ fun _ => returns_raise _

theorem returns_i2cRead (loc : Nat) (kind : Kind) (n : Nat) :
    Returns (fun bs => bs.length = n) (i2cRead loc kind n) :=
  returns_bind look fun e => by
    split
    · exact returns_clearOnErr (returns_raise _)
    · exact returns_bind _ fun _ => returns_clearOnErr (returns_busRead n)

theorem returns_spiBody_read (hdr : List Byte) (n : Nat) (p : List Byte) :
    Returns (fun bs => bs.length = n) (spiBody .read hdr n p) := by
  rw [spiBody_eq]
  exact returns_bind _ fun _ => returns_bind _ fun _ => returns_busRead n

theorem returns_spiRead (loc : Nat) (kind : Kind) (n : Nat) :
    Returns (fun bs => bs.length = n) (spiRead loc kind n) :=
  returns_bind look fun e => by
    split
    · exact returns_raise _
    · exact returns_bind _ fun _ => meets_attempt_bind (returns_spiBody_read _ n _)
        (fun a => meets_bind (J := fun _ _ => a.length = n) (meets_change fun _ h => h) fun _ =>
          meets_bind (J := fun _ _ => a.length = n) (meets_change fun _ h => h) fun _ =>
            meets_pure fun _ h => h)
        fun er => (returns_bind spiUnlock fun _ => returns_raise er)

/-- A register read of n bytes gives n bytes (R46; log 17). -/
theorem returns_regRead (kind : Kind) (n : Nat) : Returns (fun bs => bs.length = n) (regRead kind n) :=
  returns_bind look fun e => by
    cases e.cfg.transport
    · exact returns_i2cRead _ _ _
    · exact returns_spiRead _ _ _

/-! ### FIFO_READ_BODY (R224) -/

/-- Writing a byte string from an index on, and nothing else. -/
structure Stored (e : Engine) (k : Nat) (d : List Byte) (t : Engine) : Prop where
  cfg : t.cfg = e.cfg
  x : t.x = e.x
  rspbuf : t.rspbuf = memSetAll e.rspbuf k d
  writes : rspWrites t.trace = rspWrites e.trace ++ indexed k d
  reads : rspReads t.trace = rspReads e.trace

theorem lands_memWriteAll {X : Err → Engine → Prop} {W : Engine → Prop} :
    ∀ (d : List Byte) (k : Nat) (e : Engine), Lands (fun _ => Stored e k d) X W (memWriteAll k d e)
  | [], _, e => ⟨rfl, rfl, rfl, (List.append_nil _).symm, rfl⟩
  | v :: vs, k, e => by
    by_cases hk : k < bufSize
    · rw [memWriteAll, bind_of_ok (memWrite_ok hk v e)]
      refine (lands_memWriteAll vs (k + 1) _).imp (fun _ t h => ?_) fun _ _ h => h
      refine ⟨h.cfg, h.x, h.rspbuf, h.writes.trans ?_, h.reads.trans ?_⟩
      · simp [rspWrites, indexed]
      · simp [rspReads]
    · rw [memWriteAll, bind_of_error (memWrite_out hk v e)]
      trivial

/-- More bytes behind those that stand in RSPBUF. -/
theorem Filled.stored {e m t : Engine} {got d : List Byte} (h : Filled e got m)
    (k : Stored m got.length d t) : Filled e (got ++ d) t where
  cfg := k.cfg.trans h.cfg
  rspbuf := by rw [k.rspbuf, h.rspbuf, memSetAll_append, Nat.zero_add]
  writes := by rw [k.writes, h.writes, indexed_append, Nat.zero_add, List.append_assoc]
  reads := k.reads.trans h.reads

/-- A contract of FIFO_READ_BODY's steps: wherever they raise or wait, no more than `cap` bytes have been
written since `e`. -/
abbrev Filling (cap : Nat) (e : Engine) (I : Engine → Prop) (p : P α) (J : α → Engine → Prop) : Prop :=
  Meets I p J (fun _ => FilledTo cap e) (FilledTo cap e)

/-- A contract at one state that meets its entry condition. -/
theorem Meets.at {I W : Engine → Prop} {J : α → Engine → Prop} {X : Err → Engine → Prop} {p : P α}
    {m : Engine} (h : Meets I p J X W) (hm : I m) : Meets (fun q => q = m) p J X W :=
  h.pre fun _ hq => hq ▸ hm

/-- A step that leaves RSPBUF alone keeps what it does not touch, and gives what it can give. -/
theorem filling_touches {e : Engine} {I : Engine → Prop} {p : P α} (hp : OnlyTouches c S p)
    (hcfg : ∀ m, I m → m.cfg = c) (hI : ∀ m t, I m → Touches S m t → I t)
    (hfill : ∀ m, I m → FilledTo cap e m) : Filling cap e I p fun a t => I t ∧ Gives c p a := by
  intro m hm
  have h := hp m (hcfg m hm)
  rcases hpm : p m with ⟨a, t⟩ | ⟨_ | _ | _, t⟩ <;> rw [hpm] at h
  · exact ⟨hI m t hm h, m, t, hcfg m hm, hpm⟩
  · exact hfill t (hI m t hm h)
  · exact hfill t (hI m t hm h)
  · trivial

/-- The bytes in RSPBUF, and the registers of the receive loop: `x[cur]` counts them, and the capacity bounds
them and `x[expected]`. -/
structure Receiving (cap : Nat) (e : Engine) (got : List Byte) (t : Engine) : Prop where
  filled : Filled e got t
  bound : got.length ≤ cap
  cur : t.x.cur.toNat = got.length
  expected : t.x.expected.toNat ≤ cap

theorem Receiving.filledTo {e t : Engine} {got : List Byte} (h : Receiving cap e got t) :
    FilledTo cap e t := ⟨got, h.bound, h.filled⟩

theorem Receiving.touches {e m t : Engine} {got : List Byte} (h : Receiving cap e got m)
    (k : Touches S m t) (hS : .rspbuf ∉ S) (hcur : .cur ∉ S) (hexp : .expected ∉ S) :
    Receiving cap e got t where
  filled := h.filled.touches k hS
  bound := h.bound
  cur := (congrArg BitVec.toNat (k.regs _ hcur)).trans h.cur
  expected := (congrArg BitVec.toNat (k.regs _ hexp)).trans_le h.expected

/-- The receive loop within a turn that moves `k` bytes, which fit the declared length. -/
structure Moving (cap : Nat) (e : Engine) (got : List Byte) (k : Nat) (t : Engine) : Prop
    extends Receiving cap e got t where
  n : t.x.n = BitVec.ofNat 32 k
  fits : got.length + k ≤ t.x.expected.toNat

/-- What a turn of a loop that carries a value leaves. -/
def TurnedFrom {σ : Type} (I : σ → Engine → Prop) (J : α → Engine → Prop) : σ ⊕ α → Engine → Prop
  | .inl w, t => I w t
  | .inr a, t => J a t

theorem meets_repeatFrom {σ : Type} {I : σ → Engine → Prop} {J : α → Engine → Prop}
    {X : Err → Engine → Prop} {W : Engine → Prop} {body : σ → P (σ ⊕ α)} (hW : ∀ v e, I v e → W e)
    (hb : ∀ v, Meets (I v) (body v) (TurnedFrom I J) X W) (v : σ) :
    Meets (I v) (repeatFrom body v) J X W := by
  have hdone : ∀ k v, Meets (I v) (untilDoneFrom body k v) J X W := by
    intro k
    induction k with
    | zero => exact fun v => meets_block (hW v)
    | succ k ih =>
      refine fun v => meets_bind (hb v) fun o => ?_
      cases o with
      | inl w => exact ih w
      | inr a => exact meets_pure fun _ h => h
  exact fun e he => hdone _ v e he

theorem Moving.touches {e m t : Engine} {got : List Byte} {k : Nat} (h : Moving cap e got k m)
    (ht : Touches {.t1} m t) : Moving cap e got k t where
  toReceiving := h.toReceiving.touches ht (by decide) (by decide) (by decide)
  n := (ht.regs .n (by decide)).trans h.n
  fits := h.fits.trans_eq (congrArg BitVec.toNat (ht.regs .expected (by decide))).symm

/-- The end of a turn: the bytes read go behind those that stand in RSPBUF, and `x[cur]` moves on. -/
theorem filling_storeChunk {e : Engine} {got d : List Byte} {k : Nat} (hd : d.length = k) :
    Filling cap e (Moving cap e got k) (memWriteAll got.length d) fun _ t =>
      Receiving cap e (got ++ d) (t.setX { t.x with cur := t.x.cur + t.x.n }) := by
  intro m hm
  refine (lands_memWriteAll d got.length m).imp (fun _ t h => ?_) fun _ _ h => h
  have hlen : (got ++ d).length = got.length + k := by rw [List.length_append, hd]
  refine ⟨(hm.filled.stored h).setX _, hlen ▸ hm.fits.trans hm.expected, ?_, ?_⟩
  · have hlt := m.x.expected.isLt
    have hfits := hm.fits
    rw [Engine.setX_x, h.x, hm.n, BitVec.toNat_add, BitVec.toNat_ofNat, hm.cur, hlen]
    omega
  · rw [Engine.setX_x, h.x]
    exact hm.expected

theorem filling_recvTurn (e : Engine) (got : List Byte) :
    Filling cap e (Receiving cap e got) (recvTurn got)
      (TurnedFrom (Receiving cap e) fun _ => FilledTo cap e) := by
  refine meets_look fun m hm => ?_
  split
  · have hfits (burst : Half) : got.length + recvChunk burst m.x.expected m.x.cur ≤ m.x.expected.toNat := by
      have hcur := hm.cur
      simp only [recvChunk]
      omega
    have hpoll := filling_touches (cap := cap) (e := e)
      (I := fun t => Receiving cap e got t ∧ t.x.expected = m.x.expected)
      (on_getBurstAndStatus (c := e.cfg) (maskValidAvail m.cfg.map)).touches (fun _ h => h.1.filled.cfg)
      (fun _ _ h ht => ⟨h.1.touches ht (by decide) (by decide) (by decide),
        (ht.regs .expected (by decide)).trans h.2⟩) fun _ h => h.1.filledTo
    refine meets_bind (hpoll.at ⟨hm, rfl⟩) fun v => ?_
    refine meets_bind (J := fun _ => Moving cap e got (recvChunk v.1 m.x.expected m.x.cur))
      (meets_change fun t ht => ?_) fun _ => ?_
    · obtain ⟨⟨hr, hexp⟩, _⟩ := ht
      exact ⟨⟨hr.filled.setX _, hr.bound, hr.cur, hr.expected⟩, rfl,
        (hfits v.1).trans_eq (congrArg BitVec.toNat hexp).symm⟩
    · refine meets_bind (filling_touches (c := e.cfg) (S := {.t1})
        ((made_regRead _ _).touches_of_port (by decide)) (fun _ h => h.filled.cfg)
        (fun _ _ h => h.touches) fun _ h => h.filledTo) fun d => Meets.each fun t ht => ?_
      obtain ⟨ht, hd⟩ := ht
      rw [hm.cur]
      exact meets_bind ((filling_storeChunk ((returns_regRead _ _).gives hd)).at ht) fun _ =>
        meets_bind (J := fun _ => Receiving cap e (got ++ d)) (meets_change fun _ h => h) fun _ =>
          meets_pure fun _ h => h
  · exact meets_pure fun t ht => ht ▸ hm.filledTo

/-- A step of FIFO_READ_BODY that leaves RSPBUF as it is. -/
theorem filling_poll (e : Engine) (mask : Byte) :
    Filling cap e (FilledTo cap e) (getBurstAndStatus mask) fun v t =>
      FilledTo cap e t ∧ Gives e.cfg (getBurstAndStatus mask) v :=
  filling_touches (on_getBurstAndStatus mask).touches (fun _ h => h.cfg)
    (fun _ _ h ht => h.then_none (.of_touches ht (by decide))) fun _ h => h

theorem filling_recvRest (e : Engine) (first : List Byte) :
    Filling cap e (Receiving cap e first) (recvRest first) fun _ => FilledTo cap e :=
  meets_bind (meets_repeatFrom (fun _ _ h => h.filledTo) (filling_recvTurn e) first) fun _ =>
    meets_look fun m hm => meets_bind ((filling_poll e _).at hm) fun v => by
      cases dataAvail m.cfg.map v.2
      · exact meets_pure fun _ h => h.1
      · exact meets_raise fun _ h => h.1

/-- The first chunk is no longer than the capacity (R224). -/
theorem le_of_badFirstBurst {hdrSize : Nat} {burst : Half} (h : badFirstBurst hdrSize cap burst = false) :
    burst.toNat ≤ cap := by
  simp only [badFirstBurst, Bool.or_eq_false_iff, decide_eq_false_iff_not] at h
  omega

/-- The first chunk in RSPBUF, which the capacity bounds. -/
structure FirstChunk (cap : Nat) (e : Engine) (d : List Byte) (t : Engine) : Prop where
  filled : Filled e d t
  bound : d.length ≤ cap

theorem filling_firstChunk {e : Engine} {d : List Byte} (hd : d.length ≤ cap) :
    Filling cap e (Filled e []) (memWriteAll 0 d) fun _ => FirstChunk cap e d := by
  intro m hm
  refine (lands_memWriteAll d 0 m).imp (fun _ t h => ?_) fun _ _ h => h
  exact ⟨hm.stored h, hd⟩

theorem filling_fifoReadBody (e : Engine) :
    Filling cap e (fun m => m = e) (fifoReadBody cap) fun _ => FilledTo cap e := by
  have hnone (t : Engine) (h : Filled e [] t) : FilledTo cap e t := ⟨[], Nat.zero_le _, h⟩
  have hquiet {α : Type} {S : Finset Part} {p : P α} (hp : OnlyTouches e.cfg S p) (hS : .rspbuf ∉ S) :
      Filling cap e (Filled e []) p fun a t => Filled e [] t ∧ Gives e.cfg p a :=
    filling_touches hp (fun _ h => h.cfg) (fun _ _ h ht => h.touches ht hS) hnone
  refine meets_look fun m hm => meets_bind ((hquiet (on_getBurstAndStatus _).touches (by decide)).at
    (hm ▸ .refl _)) fun v => ?_
  cases hv : badFirstBurst m.cfg.hdrSize cap v.1 with
  | true => exact meets_raise fun _ h => hnone _ h.1
  | false =>
    have hburst := le_of_badFirstBurst hv
    refine meets_bind ((hquiet (S := {.t1}) ((made_regRead _ _).touches_of_port (by decide))
      (by decide)).pre fun _ h => h.1) fun d => Meets.each fun t ht => ?_
    have hlen : d.length = v.1.toNat := (returns_regRead _ _).gives ht.2
    refine meets_bind ((filling_firstChunk (hlen.trans_le hburst)).at ht.1) fun _ =>
      meets_bind (J := fun _ n => FirstChunk cap e d n ∧ n.x.expected = declaredLength d)
        (meets_change fun n hn => ⟨⟨hn.filled.setX _, hn.bound⟩, rfl⟩) fun _ => ?_
    split
    · exact meets_raise fun n hn => ⟨d, hn.1.bound, hn.1.filled⟩
    · rename_i hcap
      refine meets_bind (J := fun _ => Receiving cap e d) (meets_change fun n hn => ?_)
        fun _ => filling_recvRest e d
      obtain ⟨⟨hf, hbound⟩, hexp⟩ := hn
      refine ⟨hf.setX _, hbound, ?_, ?_⟩
      · have := v.1.isLt
        simp only [Engine.setX_x, BitVec.toNat_setWidth, hlen]
        omega
      · rw [Engine.setX_x, hexp]
        omega

/-! ### Every instruction -/

/-- The procedure writes at most `cap` bytes to RSPBUF, from index 0 on. -/
abbrev Fills (c : Cfg) (cap : Nat) (p : P α) : Prop := Runs c (FilledTo cap) (FilledTo cap) p

theorem fills_fifoReadBody (cap : Nat) : Fills c cap (fifoReadBody cap) :=
  fun e _ => filling_fifoReadBody e e rfl

theorem fills_of_touches {p : P α} (hp : OnlyTouches c S p) (hS : .rspbuf ∉ S) : Fills c cap p :=
  hp.imp (.of_touches · hS) (.of_touches · hS)

theorem fills_of_on {p : P α} (hp : On c S p) (hS : .rspbuf ∉ S) : Fills c cap p :=
  fills_of_touches hp.touches hS

/-- What follows writes nothing. -/
theorem fills_then {p : P α} {k : α → P β} (hp : Fills c cap p) (hk : ∀ a, Fills c 0 (k a)) :
    Fills c cap (p >>= k) :=
  runs_seq hp (fun a _ => hk a) (fun h => h.cfg) id id .then_none .then_none

/-- What goes before writes nothing. -/
theorem fills_after {p : P α} {k : α → P β} (hp : Fills c 0 p) (hk : ∀ a, Fills c cap (k a)) :
    Fills c cap (p >>= k) :=
  runs_seq hp (fun a _ => hk a) (fun h => h.cfg) (.mono (Nat.zero_le _)) (.mono (Nat.zero_le _))
    .after_none .after_none

theorem fills_recvCore (cap : Nat) : Fills c cap (recvCore cap) :=
  fills_after (fills_of_on (on_setSess (S := ∅) _) (by decide)) fun _ =>
    fills_then (fills_fifoReadBody cap) fun _ =>
      fills_after (fills_of_on (on_setSess (S := ∅) _) (by decide)) fun _ =>
        fills_after (fills_of_on (on_releaseLocality false) (by decide)) fun _ =>
          fills_of_on (S := ∅) (.bind (on_setSess _) fun _ _ => .pure _) (by decide)

theorem fills_recvCommand (cap : Nat) : Fills c cap (recvCommand cap) :=
  fills_then (runs_attempt (fills_recvCore cap)) fun r => by
    cases r
    · exact fills_of_on (on_abort _ on_sessionAbort) (by decide)
    · exact fills_of_on (S := ∅) (.pure _) (by decide)

theorem fills_shutdownCommand : Fills c 10 shutdownCommand :=
  fills_after (runs_attempt (fills_of_on (on_sendCore _ _) (by decide))) fun r => by
    cases r
    · exact fills_of_on (on_abort _ on_shutdownAbort) (by decide)
    · refine fills_after (fills_of_on (on_setSess (S := ∅) _) (by decide)) fun _ =>
        fills_then (runs_attempt (fills_recvCore 10)) fun r2 => ?_
      cases r2
      · exact fills_of_on (on_abort _ on_shutdownAbort) (by decide)
      · exact fills_of_on (on_shutdownFinish _) (by decide)

/-- An update of the engine outside RSPBUF that records nothing. -/
theorem fills_change {f : Engine → Engine} (hcfg : ∀ e, (f e).cfg = e.cfg)
    (hrsp : ∀ e, (f e).rspbuf = e.rspbuf) (htrace : ∀ e, (f e).trace = e.trace) :
    Fills c cap (change f) := fun e _ =>
  ⟨[], Nat.zero_le _, hcfg e, hrsp e, by rw [htrace]; exact (List.append_nil _).symm, by rw [htrace]⟩

theorem fills_hostCommand {p : P HostVal} (hp : Fills c cap p) : Fills c cap (hostCommand p) :=
  fills_after (fills_change (fun _ => rfl) (fun _ => rfl) fun _ => rfl) fun _ =>
    fills_then (runs_attempt hp) fun _ => fills_change (fun _ => rfl) (fun _ => rfl) fun _ => rfl

theorem fills_procedure {p : P RetVal} (hp : Fills c cap p) : Fills c cap (procedure p) :=
  fills_then (runs_attempt hp) fun _ => fills_change (fun _ => rfl) (fun _ => rfl) fun _ => rfl

theorem fills_body (a : Args) (i : Instr) : Fills c (rspCap i a) (work a i).body := by
  have hbody := body_touches (c := c) a i
  cases i with
  | recv cap => exact fills_hostCommand (fills_recvCommand cap)
  | shutdown => exact fills_hostCommand fills_shutdownCommand
  | fifoReadBody =>
    exact fills_procedure (fills_then (fills_fifoReadBody a.cap) fun _ =>
      fills_of_on (S := ∅) (.pure _) (by decide))
  | _ => exact fills_of_touches hbody (of_decide_eq_true rfl)

theorem exec_filledTo (h : exec i s = .next t) : FilledTo (rspCap i s.args) s.toEngine t.toEngine := by
  obtain ⟨hend, hwait⟩ := launch_runs (exec_next h).launch (fills_body s.args i)
  by_cases hn : t.running = none
  · exact hend hn
  · exact hwait hn

/-- Settles O22: what has been written since the instruction began is what its FIFO_READ_BODY has received. -/
theorem frameOfTheResponseBuffer : Obligations.FrameOfTheResponseBuffer := by
  intro i s t evs h htr hwf
  obtain ⟨written, hlen, hf⟩ := exec_filledTo h
  have hreads := hf.reads
  have hwrites := hf.writes
  rw [htr, rspReads_append] at hreads
  rw [htr, rspWrites_append] at hwrites
  refine ⟨List.append_right_eq_self.mp hreads, written, List.append_cancel_left hwrites, hlen, hf.rspbuf,
    fun k hk => ?_, fun a ha => ?_⟩
  · rw [hf.rspbuf, ← memGet_memSetAll_inside written s.rspbuf 0 k hwf hk, Nat.zero_add]
  · rw [hf.rspbuf]
    exact memGet_memSetAll_outside written s.rspbuf 0 a hwf (.inr (by omega))

end Sys2Proof.Machine
end

section
/-! PROOF. The bus traffic of host commands: what a register access puts on the bus, on either transport, and
that the commands' traffic is that of listed accesses. -/

namespace Sys2Proof.Machine

variable {α β : Type} {c : Cfg} {S : Finset Part} {i : Instr} {s t : State}

/-! ### The bus events since a moment -/

/-- Since `e` the bus has carried `tr`. -/
structure Emitted (e : Engine) (tr : List Event) (t : Engine) : Prop where
  cfg : t.cfg = e.cfg
  bus : busTrace t.trace = busTrace e.trace ++ tr

theorem Emitted.refl (e : Engine) : Emitted e [] e := ⟨rfl, (List.append_nil _).symm⟩

theorem Emitted.trans {a b d : Engine} {tr tr' : List Event} (h : Emitted a tr b) (k : Emitted b tr' d) :
    Emitted a (tr ++ tr') d :=
  ⟨k.cfg.trans h.cfg, by rw [k.bus, h.bus, List.append_assoc]⟩

theorem Emitted.off {a b d : Engine} {tr : List Event} (h : Emitted a tr b) (k : Emitted b [] d) :
    Emitted a tr d := by
  have hk := h.trans k
  rwa [List.append_nil] at hk

/-- A recorded bus event. -/
theorem Emitted.log {e t : Engine} {tr : List Event} {v : Event} (h : Emitted e tr t)
    (hv : v.onBus = true) : Emitted e (tr ++ [v]) (t.log v) :=
  h.trans ⟨rfl, by simp [busTrace, hv]⟩

/-- An event that is none of the bus's. -/
theorem Emitted.log_off {e t : Engine} {tr : List Event} {v : Event} (h : Emitted e tr t)
    (hv : v.onBus = false) : Emitted e tr (t.log v) :=
  h.off ⟨rfl, by simp [busTrace, hv]⟩

/-- An update that records nothing. -/
theorem Emitted.congr {e t u : Engine} {tr : List Event} (h : Emitted e tr t) (hcfg : u.cfg = t.cfg)
    (htrace : u.trace = t.trace) : Emitted e tr u :=
  ⟨hcfg.trans h.cfg, by rw [htrace, h.bus]⟩

/-! ### Port primitives -/

section Primitives

variable {e : Engine} {tr : List Event} {I W W' : Engine → Prop} {J J' : α → Engine → Prop}
  {X X' : Err → Engine → Prop}

theorem Meets.weaken {p : P α} (h : Meets I p J X W) (hJ : ∀ a t, J a t → J' a t)
    (hX : ∀ er t, X er t → X' er t) (hW : ∀ t, W t → W' t) : Meets I p J' X' W' := by
  intro m hm
  have hl := h m hm
  rcases hp : p m with ⟨a, t⟩ | ⟨_ | _ | _, t⟩ <;> rw [hp] at hl
  · exact hJ _ _ hl
  · exact hX _ _ hl
  · exact hW _ hl
  · trivial

theorem emits_take (w : Prim) :
    Meets (Emitted e tr) (take w) (fun _ => Emitted e tr) X (Emitted e tr) :=
  meets_take (fun _ h => h) fun _ _ _ h => h.congr rfl rfl

theorem emits_busWrite (bs : List Byte) :
    Meets (Emitted e tr) (busWrite bs) (fun _ => Emitted e (tr ++ [.busWrite bs]))
      (fun _ t => ∃ er, Emitted e (tr ++ [.busWriteErr bs er]) t) (Emitted e tr) :=
  meets_bind (emits_take _) fun a => by
    cases a.err with
    | none => exact meets_change fun _ h => h.log rfl
    | some er =>
      exact meets_bind (J := fun _ => Emitted e (tr ++ [.busWriteErr bs er]))
        (meets_change fun _ h => h.log rfl) fun _ => meets_raise fun _ h => ⟨er, h⟩

theorem emits_busRead (n : Nat) :
    Meets (Emitted e tr) (busRead n) (fun bs t => bs.length = n ∧ Emitted e (tr ++ [.busRead bs]) t)
      (fun _ t => ∃ er, Emitted e (tr ++ [.busReadErr n er]) t) (Emitted e tr) :=
  meets_bind (emits_take _) fun a => by
    cases a.err with
    | none =>
      exact meets_bind (J := fun _ => Emitted e (tr ++ [.busRead (answerBytes n a.bytes)]))
        (meets_change fun _ h => h.log rfl) fun _ => meets_pure fun _ h => ⟨answerBytes_length _ _, h⟩
    | some er =>
      exact meets_bind (J := fun _ => Emitted e (tr ++ [.busReadErr n er]))
        (meets_change fun _ h => h.log rfl) fun _ => meets_raise fun _ h => ⟨er, h⟩

/-- Off the bus: nothing is recorded there, whatever ends the procedure. -/
def OffBus (p : P α) : Prop :=
  ∀ e tr, Meets (Emitted e tr) p (fun _ => Emitted e tr) (fun _ => Emitted e tr) (Emitted e tr)

theorem offBus_bind {p : P α} {k : α → P β} (hp : OffBus p) (hk : ∀ a, OffBus (k a)) :
    OffBus (p >>= k) :=
  fun e tr => meets_bind (hp e tr) fun a => hk a e tr

theorem offBus_take (w : Prim) : OffBus (take w) := fun _ _ => emits_take w

theorem offBus_pure (a : α) : OffBus (pure a) := fun _ _ => meets_pure fun _ h => h

theorem offBus_record {v : Event} (hv : v.onBus = false) : OffBus (record v) :=
  fun _ _ => meets_change fun _ h => h.log_off hv

/-- A look at the state that only what is recorded off the bus, or returned, depends on. -/
theorem offBus_look {k : Engine → P β} (hk : ∀ e, OffBus (k e)) : OffBus (look >>= k) :=
  fun e tr => meets_look fun m hm => (hk m e tr).at hm

theorem offBus_change {f : Engine → Engine} (hcfg : ∀ e, (f e).cfg = e.cfg)
    (htrace : ∀ e, (f e).trace = e.trace) : OffBus (change f) :=
  fun _ _ => meets_change fun m h => h.congr (hcfg m) (htrace m)

theorem offBus_now : OffBus now :=
  offBus_bind (offBus_take _) fun _ => offBus_look fun _ =>
    offBus_bind (offBus_record rfl) fun _ => offBus_pure _

theorem offBus_onX (f : Regs → Regs) : OffBus (onX f) := offBus_change (fun _ => rfl) fun _ => rfl

theorem offBus_expired (t0 budget : Nat) : OffBus (expired t0 budget) :=
  offBus_bind offBus_now fun _ => offBus_look fun _ => offBus_pure _

theorem offBus_sleep (ms : Nat) : OffBus (sleep ms) :=
  offBus_bind (offBus_take _) fun _ =>
    offBus_bind (offBus_change (fun _ => rfl) fun _ => rfl) fun _ => offBus_record rfl

theorem offBus_memRead (k : Nat) : OffBus (memRead .cmdbuf k) := by
  unfold memRead
  split
  · exact offBus_look fun _ => offBus_bind (offBus_record rfl) fun _ => offBus_pure _
  · exact fun _ _ => meets_stopFault

theorem offBus_memWrite (k : Nat) (v : Byte) : OffBus (memWrite k v) := by
  unfold memWrite
  split
  · exact offBus_bind (offBus_change (fun _ => rfl) fun _ => rfl) fun _ => offBus_record rfl
  · exact fun _ _ => meets_stopFault

theorem WaitOp.offBus {p : P α} (h : WaitOp α p) : OffBus p := by
  cases h with
  | now => exact offBus_now
  | readyFlag =>
    exact offBus_bind (offBus_take _) fun _ => offBus_look fun _ =>
      offBus_bind (offBus_record rfl) fun _ => offBus_pure _
  | readyAtDeadline =>
    refine offBus_look fun m => offBus_bind ?_ fun _ => offBus_pure _
    cases m.ready
    · exact offBus_pure _
    · exact offBus_record rfl
  | noteT1 v => exact offBus_onX _

/-- The procedure moves nothing on the bus, as a run. -/
theorem OffBus.runs {p : P α} (h : OffBus p) : Runs c (Emitted · []) (Emitted · []) p :=
  fun e _ => h e [] e (.refl e)

/-- READY_WAIT records nothing on the bus (R157). -/
theorem offBus_readyWait : OffBus readyWait := by
  have hprogress : Progress (Emitted · []) (Emitted · []) :=
    .of_preorder .refl (fun h k => h.off k) fun h => h.cfg
  intro e tr m hm
  exact Meets.weaken (I := fun q => q = m)
    (fun q hq => hq ▸ made_readyWait.runs hprogress (fun _ _ hop => hop.offBus.runs) m rfl)
    (fun _ _ h => hm.off h) (fun _ _ h => hm.off h) (fun _ h => hm.off h) m rfl

theorem offBus_readyClear : OffBus readyClear :=
  offBus_bind (offBus_change (fun _ => rfl) fun _ => rfl) fun _ => offBus_record rfl

/-- The clearing of the flag on an error exit is none of the bus's. -/
theorem meets_clearOnErr {p : P α} (hp : Meets I p J X W)
    (hX : ∀ er m, X er m → X er ((m.setReady false).log .readyClear)) :
    Meets I (clearOnErr p) J X W :=
  meets_attempt_bind hp (fun _ => meets_pure fun _ h => h) fun er m hm => hX er m hm

theorem Emitted.cleared {t : Engine} (h : Emitted e tr t) :
    Emitted e tr ((t.setReady false).log .readyClear) :=
  (h.congr (u := t.setReady false) rfl rfl).log_off rfl

end Primitives

/-! ### What an access has done, or does (R112, R113, R153) -/

/-- Since `e` the bus has carried one transaction of the access, whatever ended it; or nothing, where the
transport refused the access or its wait for the controller has not ended. -/
def Accessed (c : Cfg) (a : Access) (e t : Engine) : Prop :=
  Emitted e [] t ∨ a.size ≤ c.maxXfer ∧ ∃ tr, a.Traffic c tr ∧ Emitted e tr t

/-- Since `e` the bus has carried the beginning of one. -/
def Accessing (c : Cfg) (a : Access) (e t : Engine) : Prop :=
  Emitted e [] t ∨ a.size ≤ c.maxXfer ∧ ∃ tr tr', a.Traffic c tr' ∧ tr <+: tr' ∧ Emitted e tr t

/-- A procedure that makes the access. -/
abbrev Accesses (c : Cfg) (a : Access) (p : P α) : Prop := Runs c (Accessed c a) (Accessing c a) p

/-- A step of a procedure that has begun to make the access in `e`. -/
abbrev AccessStep (c : Cfg) (a : Access) (e : Engine) (I : Engine → Prop) (p : P α)
    (J : α → Engine → Prop) : Prop :=
  Meets I p J (fun _ => Accessed c a e) (Accessing c a e)

section Traffic

variable {a : Access} {er : Nat} {ev : Event}

theorem traffic_i2c_fails (ht : c.transport = .i2c) : a.Traffic c [.busWriteErr (a.opening c) er] :=
  .inl ⟨er, by rw [ht]⟩

theorem traffic_i2c_opens (ht : c.transport = .i2c) : a.Traffic c [.busWrite (a.opening c)] := by
  refine .inr ?_
  rw [ht]
  exact .inl rfl

theorem traffic_i2c_read {kind : Kind} {n : Nat} (ht : c.transport = .i2c)
    (hev : (Access.read kind n).Carries ev) :
    (Access.read kind n).Traffic c [.busWrite ((Access.read kind n).opening c), ev] := by
  refine .inr ?_
  rw [ht]
  exact .inr ⟨kind, n, ev, rfl, hev, rfl⟩

theorem traffic_spi_fails (ht : c.transport = .spi) :
    a.Traffic c [.lock, .busWriteErr (a.opening c) er, .unlock] :=
  .inl ⟨er, by rw [ht]⟩

/-- The events of a frame from the lock to the last stalled byte. -/
def polled (hdr stalls : List Byte) : List Event :=
  .lock :: .busWrite hdr :: stalls.map fun b => .busRead [b]

theorem polled_snoc (hdr stalls : List Byte) (b : Byte) :
    polled hdr stalls ++ [.busRead [b]] = polled hdr (stalls ++ [b]) := by
  simp [polled]

/-- The bytes of a stall poll before the one that ends it (R116). -/
def Stalled (stalls : List Byte) : Prop := ∀ b ∈ stalls, notStalled b = false

theorem Stalled.snoc {stalls : List Byte} {b : Byte} (h : Stalled stalls) (hb : notStalled b = false) :
    Stalled (stalls ++ [b]) := by
  intro x hx
  rcases List.mem_append.mp hx with hx | hx
  · exact h x hx
  · rwa [List.mem_singleton.mp hx]

theorem traffic_spi {stalls : List Byte} {last : List Event} (ht : c.transport = .spi)
    (hs : Stalled stalls)
    (hlast : last = [] ∨ (∃ er, last = [.busReadErr 1 er]) ∨
      ∃ go ev, notStalled go = true ∧ a.Carries ev ∧ last = [.busRead [go], ev]) :
    a.Traffic c (polled (a.opening c) stalls ++ last ++ [.unlock]) := by
  refine .inr ?_
  rw [ht]
  exact ⟨stalls, last, hs, rfl, hlast⟩

/-- Every access has an operation that carries its data. -/
theorem exists_carries (a : Access) : ∃ ev, a.Carries ev := by
  cases a with
  | read _ n => exact ⟨.busReadErr n 0, .inr ⟨0, rfl⟩⟩
  | write _ p => exact ⟨.busWrite p, .inl rfl⟩

end Traffic

/-! ### I2C -/

section I2c

variable {a : Access} {e : Engine}

theorem accesses_i2cWriteStep (ht : c.transport = .i2c) (hn : a.size ≤ c.maxXfer) :
    AccessStep c a e (Emitted e []) (clearOnErr (busWrite (a.opening c))) fun _ =>
      Emitted e [.busWrite (a.opening c)] :=
  (meets_clearOnErr (emits_busWrite _) fun _ _ ⟨er, h⟩ => ⟨er, h.cleared⟩).weaken (fun _ _ h => h)
    (fun _ _ ⟨_, h⟩ => .inr ⟨hn, _, traffic_i2c_fails ht, h⟩) fun _ h => .inl h

theorem accesses_i2cWaitStep (ht : c.transport = .i2c) (hn : a.size ≤ c.maxXfer) :
    AccessStep c a e (Emitted e [.busWrite (a.opening c)]) (clearOnErr readyWait) fun _ =>
      Emitted e [.busWrite (a.opening c)] :=
  (meets_clearOnErr (offBus_readyWait e _) fun _ _ h => h.cleared).weaken (fun _ _ h => h)
    (fun _ _ h => .inr ⟨hn, _, traffic_i2c_opens ht, h⟩)
    fun _ h => .inr ⟨hn, _, _, traffic_i2c_opens ht, List.prefix_rfl, h⟩

/-- The bus write of an I2C access, and the wait after it (R112, R113). -/
theorem accesses_i2cSend (ht : c.transport = .i2c) (hn : a.size ≤ c.maxXfer) :
    AccessStep c a e (Emitted e []) (i2cSend (a.opening c)) fun _ => Emitted e [.busWrite (a.opening c)] :=
  meets_bind ((offBus_readyClear e []).weaken (fun _ _ h => h) (fun _ _ h => .inl h) fun _ h => .inl h)
    fun _ => meets_bind (accesses_i2cWriteStep ht hn) fun _ => accesses_i2cWaitStep ht hn

/-- The transport refuses the access before the bus. -/
theorem accesses_refused (er : Err) :
    AccessStep c a e (Emitted e []) (raise er : P α) fun _ => Accessed c a e :=
  meets_raise fun _ h => .inl h

theorem Accessed.cleared {t : Engine} (h : Accessed c a e t) :
    Accessed c a e ((t.setReady false).log .readyClear) := by
  rcases h with h | ⟨hn, tr, htr, h⟩
  · exact .inl h.cleared
  · exact .inr ⟨hn, tr, htr, h.cleared⟩

end I2c

theorem accesses_i2cRead (ht : c.transport = .i2c) (kind : Kind) (n : Nat) :
    Accesses c (.read kind n) (i2cRead c.loc kind n) := by
  rintro e rfl
  rw [i2cRead, bind_of_ok (look_apply e)]
  split
  · exact meets_clearOnErr (accesses_refused _) (fun _ _ h => h.cleared) e (.refl e)
  · rename_i hn
    have hle : (Access.read kind n).size ≤ e.cfg.maxXfer := not_lt.mp hn
    have hopen : [i2cAddr e.cfg.map e.cfg.loc kind] = (Access.read kind n).opening e.cfg := by
      simp [Access.opening, ht]
    rw [hopen]
    refine meets_bind (accesses_i2cSend ht hle) (fun _ => ?_) e (.refl e)
    refine (meets_clearOnErr (emits_busRead n) fun _ m ⟨er, h⟩ => ⟨er, h.cleared⟩).weaken ?_ ?_ ?_
    · exact fun bs t ⟨hlen, h⟩ => .inr ⟨hle, _, traffic_i2c_read ht (.inl ⟨bs, hlen, rfl⟩), h⟩
    · exact fun _ t ⟨er, h⟩ => .inr ⟨hle, _, traffic_i2c_read ht (.inr ⟨er, rfl⟩), h⟩
    · exact fun t h => .inr ⟨hle, _, _, traffic_i2c_opens ht, List.prefix_rfl, h⟩

theorem accesses_i2cWrite (ht : c.transport = .i2c) (kind : Kind) (p : List Byte) :
    Accesses c (.write kind p) (i2cWrite c.loc kind p) := by
  rintro e rfl
  rw [i2cWrite, bind_of_ok (look_apply e)]
  split
  · exact meets_clearOnErr (accesses_refused _) (fun _ _ h => h.cleared) e (.refl e)
  · rename_i hn
    have hle : (Access.write kind p).size ≤ e.cfg.maxXfer := not_lt.mp fun h => hn (.inl h)
    have hopen : ((i2cAddr e.cfg.map e.cfg.loc kind :: p) ++ e.scratch.drop (p.length + 1)).take
        (p.length + 1) = (Access.write kind p).opening e.cfg := by
      simp [Access.opening, ht]
    rw [bind_of_ok (change_apply _ e), bind_of_ok (look_apply _)]
    change Lands _ _ _ (i2cSend (((i2cAddr e.cfg.map e.cfg.loc kind :: p) ++
      e.scratch.drop (p.length + 1)).take (p.length + 1)) _)
    rw [hopen]
    exact (accesses_i2cSend ht hle).weaken (fun _ t h => .inr ⟨hle, _, traffic_i2c_opens ht, h⟩)
      (fun _ _ h => h) (fun _ h => h) _ (Emitted.congr (.refl e) rfl rfl)

/-! ### SPI -/

/-- In a frame, before the controller is given back: the unlock is all that its traffic still lacks. -/
def Framed (c : Cfg) (a : Access) (e t : Engine) : Prop :=
  ∃ tr, a.Traffic c (tr ++ [.unlock]) ∧ Emitted e tr t

/-- In a frame that may go on: its events so far begin a transaction's. -/
def Framing (c : Cfg) (a : Access) (e t : Engine) : Prop :=
  ∃ tr tr', a.Traffic c tr' ∧ tr <+: tr' ∧ Emitted e tr t

/-- The stall poll of a frame, none of whose bytes has ended it. -/
def Polling (c : Cfg) (a : Access) (e t : Engine) : Prop :=
  ∃ stalls, Stalled stalls ∧ Emitted e (polled (a.opening c) stalls) t

/-- The stall poll of a frame has ended with `go`. -/
def Going (c : Cfg) (a : Access) (e t : Engine) : Prop :=
  ∃ stalls go, Stalled stalls ∧ notStalled go = true ∧
    Emitted e (polled (a.opening c) stalls ++ [.busRead [go]]) t

section Spi

variable {a : Access} {e : Engine}

theorem framed_traffic {m : Engine} {stalls : List Byte} {last : List Event} (ht : c.transport = .spi)
    (hs : Stalled stalls)
    (hlast : last = [] ∨ (∃ er, last = [.busReadErr 1 er]) ∨
      ∃ go ev, notStalled go = true ∧ a.Carries ev ∧ last = [.busRead [go], ev])
    (h : Emitted e (polled (a.opening c) stalls ++ last) m) : Framed c a e m :=
  ⟨_, traffic_spi ht hs hlast, h⟩

theorem Polling.framed {m : Engine} (ht : c.transport = .spi) (h : Polling c a e m) : Framed c a e m := by
  obtain ⟨stalls, hs, h⟩ := h
  exact framed_traffic ht hs (.inl rfl) (by rwa [List.append_nil])

theorem Framed.framing {m : Engine} (h : Framed c a e m) : Framing c a e m := by
  obtain ⟨tr, htr, h⟩ := h
  exact ⟨tr, _, htr, List.prefix_append _ _, h⟩

/-- A stall poll that has ended has the access's data still to come. -/
theorem Going.framing {m : Engine} (ht : c.transport = .spi) (h : Going c a e m) : Framing c a e m := by
  obtain ⟨stalls, go, hs, hgo, h⟩ := h
  obtain ⟨ev, hev⟩ := exists_carries a
  refine ⟨_, _, traffic_spi ht hs (.inr (.inr ⟨go, ev, hgo, hev, rfl⟩)), ⟨[ev, .unlock], ?_⟩, h⟩
  simp

/-- A step of a frame that is none of the bus's. -/
theorem accesses_polling {p : P α} (ht : c.transport = .spi) (hp : OffBus p) :
    Meets (Polling c a e) p (fun _ => Polling c a e) (fun _ => Framed c a e) (Framing c a e) :=
  Meets.each fun _ ⟨stalls, hs, hm⟩ => ((hp e _).at hm).weaken
    (fun _ _ h => ⟨stalls, hs, h⟩) (fun _ _ h => Polling.framed ht ⟨stalls, hs, h⟩)
    fun _ h => (Polling.framed ht ⟨stalls, hs, h⟩).framing

/-- A byte of the stall poll goes on with it, or ends it (R116). -/
theorem accesses_stallByte (ht : c.transport = .spi) :
    Meets (Polling c a e) (busRead 1)
      (fun bs t => (notStalled (byteAt bs 0) = true → Going c a e t) ∧
        (notStalled (byteAt bs 0) = false → Polling c a e t))
      (fun _ => Framed c a e) (Framing c a e) := by
  refine Meets.each fun m ⟨stalls, hs, hm⟩ => ((emits_busRead 1).at hm).weaken (fun bs t ⟨hlen, h⟩ => ?_)
    (fun _ t ⟨er, h⟩ => framed_traffic ht hs (.inr (.inl ⟨er, rfl⟩)) h)
    fun t h => (Polling.framed ht ⟨stalls, hs, h⟩).framing
  obtain ⟨b, rfl⟩ := List.length_eq_one_iff.mp hlen
  refine ⟨fun hgo => ⟨stalls, b, hs, hgo, h⟩, fun hb => ⟨stalls ++ [b], hs.snoc hb, ?_⟩⟩
  rwa [← polled_snoc]

theorem accesses_stallTurn (ht : c.transport = .spi) :
    Meets (Polling c a e) spiStallTurn (Turned (Polling c a e) fun _ => Going c a e)
      (fun _ => Framed c a e) (Framing c a e) :=
  meets_bind (accesses_stallByte ht) fun bs => by
    cases hb : notStalled (byteAt bs 0) with
    | true => exact meets_pure fun _ h => h.1 rfl
    | false =>
      refine meets_look fun q hq =>
        meets_bind ((accesses_polling ht (offBus_expired _ _)).at (hq.2 rfl)) fun late => ?_
      cases late
      · exact meets_pure fun _ h => h
      · exact meets_raise fun _ h => h.framed ht

theorem accesses_stallWait (ht : c.transport = .spi) :
    Meets (Polling c a e) stallWait (fun _ => Going c a e) (fun _ => Framed c a e) (Framing c a e) :=
  meets_bind (accesses_polling ht offBus_now) fun _ =>
    meets_bind (accesses_polling ht (offBus_onX _)) fun _ =>
      meets_repeatP (fun _ h => (h.framed ht).framing) (accesses_stallTurn ht)

/-- The payload part of a frame carries the access's data, or fails to. -/
def Pays (a : Access) (p : P α) : Prop :=
  ∀ e tr, Meets (Emitted e tr) p (fun _ t => ∃ ev, a.Carries ev ∧ Emitted e (tr ++ [ev]) t)
    (fun _ t => ∃ ev, a.Carries ev ∧ Emitted e (tr ++ [ev]) t) (Emitted e tr)

theorem pays_read (kind : Kind) (n : Nat) (p : List Byte) :
    Pays (.read kind n) (spiPayload .read n p) := fun _ _ =>
  (emits_busRead n).weaken (fun bs _ ⟨hlen, h⟩ => ⟨_, .inl ⟨bs, hlen, rfl⟩, h⟩)
    (fun _ _ ⟨er, h⟩ => ⟨_, .inr ⟨er, rfl⟩, h⟩) fun _ h => h

theorem pays_write (kind : Kind) (n : Nat) (p : List Byte) :
    Pays (.write kind p) (spiPayload .write n p) := fun e tr =>
  meets_bind (J := fun _ => Emitted e (tr ++ [.busWrite p])) ((emits_busWrite p).weaken (fun _ _ h => h)
    (fun _ _ ⟨er, h⟩ => ⟨_, .inr ⟨er, rfl⟩, h⟩) fun _ h => h) fun _ =>
      meets_pure fun _ h => ⟨_, .inl rfl, h⟩

theorem accesses_payload {p : P α} (ht : c.transport = .spi) (hp : Pays a p) :
    Meets (Going c a e) p (fun _ => Framed c a e) (fun _ => Framed c a e) (Framing c a e) := by
  refine Meets.each fun m ⟨stalls, go, hs, hgo, hm⟩ => ?_
  have hframed (t : Engine) (h : ∃ ev, a.Carries ev ∧
      Emitted e (polled (a.opening c) stalls ++ [.busRead [go]] ++ [ev]) t) : Framed c a e t := by
    obtain ⟨ev, hev, h⟩ := h
    rw [List.append_assoc] at h
    exact framed_traffic ht hs (.inr (.inr ⟨go, ev, hgo, hev, rfl⟩)) h
  exact ((hp e _).at hm).weaken (fun _ t h => hframed t h) (fun _ t h => hframed t h)
    fun t h => Going.framing ht ⟨stalls, go, hs, hgo, h⟩

theorem accesses_spiBody (ht : c.transport = .spi) {dir : Dir} {n : Nat} {p : List Byte}
    (hp : Pays a (spiPayload dir n p)) :
    Meets (Emitted e [.lock]) (spiBody dir (a.opening c) n p) (fun _ => Framed c a e)
      (fun _ => Framed c a e) (Framing c a e) := by
  rw [spiBody_eq]
  refine meets_bind (J := fun _ => Polling c a e) ((emits_busWrite (a.opening c)).weaken
    (fun _ _ h => ⟨[], nofun, h⟩) (fun _ _ ⟨er, h⟩ => ⟨_, traffic_spi_fails ht, h⟩)
    fun _ h => ⟨_, _, traffic_spi_fails (er := 0) ht, ⟨_, rfl⟩, h⟩) fun _ =>
    meets_bind (accesses_stallWait ht) fun _ => accesses_payload ht hp

/-- The wait for the controller (R45). -/
theorem emits_spiLock {X : Err → Engine → Prop} :
    Meets (Emitted e []) spiLock (fun _ => Emitted e [.lock]) X (Emitted e []) :=
  meets_repeatP (fun _ h => h) <| meets_bind (emits_take _) fun b => by
    cases b.lockFree
    · exact meets_pure fun _ h => h
    · exact meets_bind (J := fun _ => Emitted e []) (meets_change fun _ h => h.congr rfl rfl) fun _ =>
        meets_bind (J := fun _ => Emitted e [.lock]) (meets_change fun _ h => h.log rfl) fun _ =>
          meets_pure fun _ h => h

theorem accesses_spiUnlock (hn : a.size ≤ c.maxXfer) {X : Err → Engine → Prop} {W : Engine → Prop} :
    Meets (Framed c a e) spiUnlock (fun _ => Accessed c a e) X W := by
  intro m hm
  obtain ⟨tr, htr, h⟩ := hm
  exact .inr ⟨hn, _, htr, (h.congr (u := m.setLock .free) rfl rfl).log rfl⟩

end Spi

/-- A frame on the bus, of at most MAX_XFER bytes (R153). -/
theorem accesses_spiXfer {a : Access} {dir : Dir} {kind : Kind} {n : Nat} {p : List Byte}
    (ht : c.transport = .spi) (hsize : a.size = n) (hopen : spiHeader c.map dir c.loc kind n = a.opening c)
    (hp : Pays a (spiPayload dir n p)) : Accesses c a (spiXfer dir c.loc kind n p) := by
  rintro e rfl
  rw [spiXfer, bind_of_ok (look_apply e)]
  split
  · exact .inl (.refl e)
  · rename_i hn
    have hle : a.size ≤ e.cfg.maxXfer := by omega
    have hbody : AccessStep e.cfg a e (Emitted e [.lock]) (attempt (spiBody dir (a.opening e.cfg) n p))
        fun _ => Framed e.cfg a e :=
      (meets_attempt (X' := fun _ => Accessed e.cfg a e) (accesses_spiBody ht hp)).weaken
        (fun r _ h => by cases r <;> exact h) (fun _ _ h => h) fun _ h => .inr ⟨hle, h⟩
    have hframe : AccessStep e.cfg a e (Emitted e []) (spiLock >>= fun _ =>
        attempt (spiBody dir (a.opening e.cfg) n p) >>= fun r => spiUnlock >>= fun _ => ofExcept r)
        fun _ => Accessed e.cfg a e :=
      meets_bind (emits_spiLock.weaken (fun _ _ h => h) (fun _ _ h => h) fun _ h => .inl h) fun _ =>
        meets_bind hbody fun r => meets_bind (accesses_spiUnlock hle) fun _ => by
          cases r
          · exact meets_raise fun _ h => h
          · exact meets_pure fun _ h => h
    rw [hopen]
    exact hframe e (.refl e)

theorem accesses_regRead (kind : Kind) (n : Nat) : Accesses c (.read kind n) (regRead kind n) := by
  rintro e rfl
  rw [regRead, bind_of_ok (look_apply e)]
  cases ht : e.cfg.transport with
  | i2c => exact accesses_i2cRead ht kind n e rfl
  | spi => exact accesses_spiXfer (n := n) ht rfl (by simp [Access.opening, ht]) (pays_read kind n []) e rfl

theorem accesses_regWrite (kind : Kind) (p : List Byte) : Accesses c (.write kind p) (regWrite kind p) := by
  rintro e rfl
  rw [regWrite, bind_of_ok (look_apply e)]
  cases ht : e.cfg.transport with
  | i2c => exact accesses_i2cWrite ht kind p e rfl
  | spi =>
    have hframe := accesses_spiXfer (n := p.length) (kind := kind) ht rfl (by simp [Access.opening, ht])
      (pays_write kind p.length p) e rfl
    have hstep : AccessStep e.cfg (.write kind p) e (fun m => m = e)
        (spiXfer .write e.cfg.loc kind p.length p) fun _ => Accessed e.cfg (.write kind p) e :=
      fun _ hm => hm ▸ hframe
    exact meets_bind (K := fun _ => Accessed e.cfg (.write kind p) e) hstep
      (fun _ => meets_pure fun _ h => h) e rfl

/-! ### Sequences of listed accesses (R43) -/

/-- A sequence of listed accesses with a traffic of each; of them, reads of DID_VID at most `n`. -/
structure Exchange (c : Cfg) (n : Nat) (accesses : List Access) (traffics : List (List Event)) : Prop where
  each : List.Forall₂ (fun a tr => a.Listed c ∧ a.Traffic c tr) accesses traffics
  didVid : accesses.count (.read .didVid 4) ≤ n

theorem Exchange.append {n m : Nat} {as bs : List Access} {tr tr' : List (List Event)}
    (h : Exchange c n as tr) (k : Exchange c m bs tr') : Exchange c (n + m) (as ++ bs) (tr ++ tr') where
  each := List.rel_append h.each k.each
  didVid := by
    rw [List.count_append]
    exact Nat.add_le_add h.didVid k.didVid

/-- Since `e` the bus has carried such a sequence. -/
def Exchanged (c : Cfg) (n : Nat) (e t : Engine) : Prop :=
  ∃ as trs, Exchange c n as trs ∧ Emitted e trs.flatten t

/-- Since `e` the bus has carried the beginning of one. -/
def Exchanging (c : Cfg) (n : Nat) (e t : Engine) : Prop :=
  ∃ as trs tr, Exchange c n as trs ∧ tr <+: trs.flatten ∧ Emitted e tr t

/-- The procedure makes listed accesses only, and reads DID_VID at most `n` times. -/
abbrev Exchanges (c : Cfg) (n : Nat) (p : P α) : Prop := Runs c (Exchanged c n) (Exchanging c n) p

section Exchanges

variable {n m : Nat} {a b d : Engine}

theorem exchange_nil : Exchange c n [] [] := ⟨.nil, Nat.zero_le _⟩

theorem Exchanged.of_off (h : Emitted a [] b) : Exchanged c n a b := ⟨[], [], exchange_nil, h⟩

theorem Exchanging.of_off (h : Emitted a [] b) : Exchanging c n a b :=
  ⟨[], [], [], exchange_nil, List.prefix_rfl, h⟩

theorem Exchanged.cfg (h : Exchanged c n a b) : b.cfg = a.cfg := by
  obtain ⟨_, _, _, h⟩ := h
  exact h.cfg

theorem Exchanged.then (h : Exchanged c n a b) (k : Exchanged c m b d) : Exchanged c (n + m) a d := by
  obtain ⟨as, trs, hx, h⟩ := h
  obtain ⟨as', trs', hx', k⟩ := k
  refine ⟨_, _, hx.append hx', ?_⟩
  rw [List.flatten_append]
  exact h.trans k

theorem Exchanged.then_waits (h : Exchanged c n a b) (k : Exchanging c m b d) :
    Exchanging c (n + m) a d := by
  obtain ⟨as, trs, hx, h⟩ := h
  obtain ⟨as', trs', tr, hx', hpre, k⟩ := k
  refine ⟨_, _, _, hx.append hx', ?_, h.trans k⟩
  rw [List.flatten_append]
  exact (List.prefix_append_right_inj _).mpr hpre

theorem progress_exchanged : Progress (Exchanged c 0) (Exchanging c 0) where
  refl e := .of_off (.refl e)
  trans := Exchanged.then
  stays e := .of_off (.refl e)
  waits := Exchanged.then_waits
  cfg := Exchanged.cfg

theorem Exchanges.mono {p : P α} (hp : Exchanges c n p) (hle : n ≤ m) : Exchanges c m p :=
  Runs.imp hp (fun ⟨as, trs, hx, h⟩ => ⟨as, trs, ⟨hx.each, hx.didVid.trans hle⟩, h⟩)
    fun ⟨as, trs, tr, hx, hpre, h⟩ => ⟨as, trs, tr, ⟨hx.each, hx.didVid.trans hle⟩, hpre, h⟩

theorem exchanges_bind {p : P α} {k : α → P β} (hp : Exchanges c n p) (hk : ∀ a, Exchanges c m (k a)) :
    Exchanges c (n + m) (p >>= k) :=
  runs_seq hp (fun a _ => hk a) (fun h => h.cfg) (fun h => h.then (m := m) (.of_off (.refl _)))
    (fun ⟨as, trs, tr, hx, hpre, h⟩ => ⟨as, trs, tr, ⟨hx.each, hx.didVid.trans (Nat.le_add_right _ _)⟩,
      hpre, h⟩) (fun h k => h.then k) fun h k => h.then_waits k

theorem OffBus.exchanges {p : P α} (h : OffBus p) : Exchanges c n p := h.runs.imp .of_off .of_off

/-- An access that is listed if the transport makes it. -/
theorem Accesses.exchanges {x : Access} {p : P α} (h : Accesses c x p) (hx : x.Proper c)
    (hn : [x].count (.read .didVid 4) ≤ n) : Exchanges c n p := by
  have hone (hle : x.size ≤ c.maxXfer) {tr : List Event} (htr : x.Traffic c tr) :
      Exchange c n [x] [tr] := ⟨.cons ⟨hx hle, htr⟩ .nil, hn⟩
  refine Runs.imp h (fun hacc => ?_) fun hacc => ?_
  · rcases hacc with hoff | ⟨hle, tr, htr, hacc⟩
    · exact .of_off hoff
    · exact ⟨_, _, hone hle htr, by simpa using hacc⟩
  · rcases hacc with hoff | ⟨hle, tr, tr', htr, hpre, hacc⟩
    · exact .of_off hoff
    · exact ⟨_, _, _, hone hle htr, by simpa using hpre, hacc⟩

theorem Op.exchanges (hS : .didVid ∉ S) {p : P α} (h : Op c S α p) : Exchanges c 0 p := by
  cases h with
  | read kind k hp _ hd =>
    refine (accesses_regRead kind k).exchanges hp ?_
    have hne : kind ≠ .didVid := fun hk => hS (hd hk)
    simp [hne]
  | write kind p hp _ => exact (accesses_regWrite kind p).exchanges hp (by simp)
  | now => exact offBus_now.exchanges
  | sleep ms => exact (offBus_sleep ms).exchanges
  | load k => exact (offBus_memRead k).exchanges
  | onX f _ => exact (offBus_onX f).exchanges
  | store k v _ => exact (offBus_memWrite k v).exchanges
  | setSess q => exact (offBus_change (f := fun e => e.setSess q) (fun _ => rfl) fun _ => rfl).exchanges
  | setPending q =>
    exact (offBus_change (f := fun e => e.setPending q) (fun _ => rfl) fun _ => rfl).exchanges

theorem exchanges_of_on {p : P α} (hp : On c S p) (hS : .didVid ∉ S) : Exchanges c 0 p :=
  hp.runs progress_exchanged fun _ _ hop => hop.exchanges hS

end Exchanges

/-! ### Host commands -/

/-- PROBE's one read of DID_VID (R263). -/
theorem exchanges_probeIdentify : Exchanges c 1 probeIdentify := by
  refine exchanges_bind (m := 0) ((accesses_regRead .didVid 4).exchanges (fun _ => rfl) (by decide))
    fun d => exchanges_of_on (S := {.id}) (.bind on_onX fun _ _ => .look (fun _ _ => rfl) fun e _ => ?_)
      (by decide)
  cases familyOf e.cfg.map (didVidValue d)
  · exact .raise _
  · exact .pure _

theorem exchanges_probeCommand : Exchanges c 1 probeCommand := by
  have hcore : Exchanges c 1 probeCore :=
    exchanges_bind (n := 0) (exchanges_of_on on_requestLocality (by decide)) fun _ => exchanges_probeIdentify
  refine exchanges_bind (m := 0) (runs_attempt hcore) fun r => ?_
  cases r
  · exact exchanges_of_on (on_abort _ (on_releaseLocality true)) (by decide)
  · exact exchanges_of_on (S := ∅) (.pure _) (by decide)

/-- How often a host command may read DID_VID: a PROBE once (R43). -/
def didVidReads (i : Instr) : Nat := if i = .probe then 1 else 0

theorem command_exchanges (a : Args) (i : Instr) :
    (work a i).OnCommand (Exchanges c (didVidReads i)) := by
  cases i with
  | probe => exact exchanges_probeCommand
  | send len => exact exchanges_of_on (on_sendCommand len) (by decide)
  | recv cap => exact exchanges_of_on (on_recvCommand cap) (by decide)
  | release force => exact exchanges_of_on (on_releaseCommand force) (by decide)
  | shutdown => exact exchanges_of_on on_shutdownCommand (by decide)
  | _ => trivial

theorem exchanges_hostCommand {n : Nat} {p : P HostVal} (hp : Exchanges c n p) :
    Exchanges c n (hostCommand p) := by
  have hbusy : Exchanges c 0 (change fun e => e.setBusy true) :=
    (offBus_change (f := fun e => e.setBusy true) (fun _ => rfl) fun _ => rfl).exchanges
  have hresult (r : Except Err HostVal) :
      Exchanges c 0 (change fun e => (e.setResult (hostResultOf r)).setBusy false) :=
    (offBus_change (f := fun e => (e.setResult (hostResultOf r)).setBusy false) (fun _ => rfl)
      fun _ => rfl).exchanges
  exact (exchanges_bind hbusy fun _ => exchanges_bind (runs_attempt hp) hresult).mono (by omega)

/-- Settles O33: every operation of a host command is off the bus or makes a listed access, and a sequence of
those is what the bus carries. -/
theorem hostCommandsWriteListedAccessesOnly : Obligations.HostCommandsWriteListedAccessesOnly := by
  intro i s t evs hi h htr
  have hbus {tr : List Event} (he : Emitted s.toEngine tr t.toEngine) : busTrace evs = tr := by
    have hb := he.bus
    rw [htr, busTrace_append] at hb
    exact List.append_cancel_left hb
  have hrun := (exec_next h).launch
  have hcmd := command_exchanges (c := s.cfg) s.args i
  obtain ⟨p, hp⟩ := work_of_isHostCommand s.args hi
  rw [hp] at hrun hcmd
  obtain ⟨hend, hwait⟩ := launch_runs hrun (exchanges_hostCommand hcmd)
  by_cases hn : t.running = none
  · obtain ⟨accesses, traffics, hx, he⟩ := hend hn
    rw [hbus he]
    exact ⟨accesses, traffics, hx.each, List.prefix_rfl, fun _ => rfl, hx.didVid⟩
  · obtain ⟨accesses, traffics, tr, hx, hpre, he⟩ := hwait hn
    rw [hbus he]
    exact ⟨accesses, traffics, hx.each, hpre, fun h => absurd h hn, hx.didVid⟩

end Sys2Proof.Machine
end

section
/-! PROOF. Byte orders and wire addresses as numbers (20_memory.md R81 to R86; 30_encoding.md R111, R114,
R115). -/

namespace Sys2Proof.Machine

variable {v w k loc lenM1 : Nat}

/-! ### Fields put together with or -/

/-- Or is addition where the low part ends below the high one. -/
theorem toNat_or_of_dvd {x y : BitVec w} (hx : 2 ^ k ∣ x.toNat) (hy : y.toNat < 2 ^ k) :
    (x ||| y).toNat = x.toNat + y.toNat := by
  obtain ⟨q, hq⟩ := hx
  rw [BitVec.toNat_or, hq, Nat.two_pow_add_eq_or_of_lt hy]

theorem toNat_shiftLeft_of_lt {x : BitVec w} (h : x.toNat * 2 ^ k < 2 ^ w) :
    (x <<< k).toNat = x.toNat * 2 ^ k := by
  rw [BitVec.toNat_shiftLeft, Nat.shiftLeft_eq, Nat.mod_eq_of_lt h]

/-- A field moved up in a word wide enough to hold it there. -/
theorem toNat_setWidth_shiftLeft (x : BitVec v) (h : v + k ≤ w) :
    (x.setWidth w <<< k).toNat = x.toNat * 2 ^ k := by
  have hx : (x.setWidth w).toNat = x.toNat := BitVec.toNat_setWidth_of_le (by omega)
  rw [toNat_shiftLeft_of_lt, hx]
  calc (x.setWidth w).toNat * 2 ^ k < 2 ^ v * 2 ^ k := by rw [hx]; gcongr; exact x.isLt
    _ = 2 ^ (v + k) := (pow_add 2 v k).symm
    _ ≤ 2 ^ w := Nat.pow_le_pow_right two_pos h

/-! ### Byte orders (R84 to R86) -/

theorem le16_toNat (x y : Byte) : (le16 x y).toNat = x.toNat + 256 * y.toNat := by
  have hx : (x.setWidth 16).toNat = x.toNat := BitVec.toNat_setWidth_of_le (by decide)
  have hy : (y.setWidth 16 <<< 8).toNat = y.toNat * 2 ^ 8 := toNat_setWidth_shiftLeft y (by decide)
  rw [le16, BitVec.or_comm, toNat_or_of_dvd (k := 8) (by omega) (by omega), hx, hy]
  omega

theorem be32_toNat (a b c d : Byte) :
    (be32 a b c d).toNat = ((a.toNat * 256 + b.toNat) * 256 + c.toNat) * 256 + d.toNat := by
  have ha : (a.setWidth 32 <<< 24).toNat = a.toNat * 2 ^ 24 := toNat_setWidth_shiftLeft a (by decide)
  have hb : (b.setWidth 32 <<< 16).toNat = b.toNat * 2 ^ 16 := toNat_setWidth_shiftLeft b (by decide)
  have hc : (c.setWidth 32 <<< 8).toNat = c.toNat * 2 ^ 8 := toNat_setWidth_shiftLeft c (by decide)
  have hd : (d.setWidth 32).toNat = d.toNat := BitVec.toNat_setWidth_of_le (by decide)
  have hab := toNat_or_of_dvd (k := 24) (x := a.setWidth 32 <<< 24) (y := b.setWidth 32 <<< 16)
    (by omega) (by omega)
  have habc := toNat_or_of_dvd (k := 16) (x := a.setWidth 32 <<< 24 ||| b.setWidth 32 <<< 16)
    (y := c.setWidth 32 <<< 8) (by omega) (by omega)
  rw [be32, toNat_or_of_dvd (k := 8) (by omega) (by omega), habc, hab, ha, hb, hc, hd]
  omega

/-- Bytes 2 and 3 of a header: its address, highest byte first (R86). -/
theorem spiAddr_highByte_toNat (a : BitVec 14) : ((a >>> 8).setWidth 8 : Byte).toNat = a.toNat / 256 := by
  simp [Nat.shiftRight_eq_div_pow]
  omega

theorem spiAddr_lowByte_toNat (a : BitVec 14) : (a.setWidth 8 : Byte).toNat = a.toNat % 256 := by
  simp

/-- Settles O7. -/
theorem fieldByteOrders : Obligations.FieldByteOrders := fun a b c d _ _ _ m _ loc kind _ =>
  ⟨le16_toNat a b, be32_toNat a b c d, _, _, _, _, rfl, spiAddr_highByte_toNat (spiAddr m loc kind),
    spiAddr_lowByte_toNat (spiAddr m loc kind)⟩

/-! ### Base plus locality (R81, R82) -/

theorem i2cAddr_toNat (m : TpmMap) (kind : Kind) (hloc : loc ≤ 15) :
    (i2cAddr m loc kind).toNat = (i2cBase m kind).toNat + 16 * loc := by
  have hbase : ((i2cBase m kind).setWidth 8).toNat = (i2cBase m kind).toNat :=
    BitVec.toNat_setWidth_of_le (by decide)
  have hnat : (BitVec.ofNat 8 loc).toNat = loc := by simp; omega
  have hshift : (BitVec.ofNat 8 loc <<< 4).toNat = loc * 2 ^ 4 := by
    rw [toNat_shiftLeft_of_lt (by omega), hnat]
  rw [i2cAddr, BitVec.or_comm, toNat_or_of_dvd (k := 4) (by omega) (by omega), hbase, hshift]
  omega

theorem spiAddr_toNat (m : TpmMap) (kind : Kind) (hloc : loc ≤ 3) :
    (spiAddr m loc kind).toNat = loc * 2 ^ 12 + (spiBase m kind).toNat := by
  have hbase : ((spiBase m kind).setWidth 14).toNat = (spiBase m kind).toNat :=
    BitVec.toNat_setWidth_of_le (by decide)
  have hnat : (BitVec.ofNat 14 loc).toNat = loc := by simp; omega
  have hshift : (BitVec.ofNat 14 loc <<< 12).toNat = loc * 2 ^ 12 := by
    rw [toNat_shiftLeft_of_lt (by omega), hnat]
  rw [spiAddr, BitVec.or_comm, toNat_or_of_dvd (k := 12) (by omega) (by omega), hbase, hshift]

/-! ### The words of the opcode table (R111, R115) -/

/-- The address byte is the table's word, whatever the map's base. -/
theorem i2cAddr_eq_word (m : TpmMap) (kind : Kind) (hloc : loc ≤ 15) :
    [i2cAddr m loc kind] = i2cAddrWord (i2cBase m kind).toNat loc := by
  have haddr := i2cAddr_toNat m kind hloc
  refine congrArg (fun b : Byte => [b]) (BitVec.eq_of_toNat_eq ?_)
  rw [BitVec.toNat_ofNat]
  omega

/-- Byte 0 of a header: direction, marker and length minus one (R114, D12). -/
theorem spiHeader_firstByte_toNat (dir : Dir) (hlen : lenM1 ≤ 63) :
    (spiRwBit .standard dir ||| spiMarkerBit .standard ||| BitVec.ofNat 8 lenM1).toNat =
      (dir == .read).toNat * 128 + 64 + lenM1 := by
  have hflags : (spiRwBit .standard dir ||| spiMarkerBit .standard).toNat =
      (dir == .read).toNat * 128 + 64 := by cases dir <;> rfl
  have hnat : (BitVec.ofNat 8 lenM1).toNat = lenM1 := by simp; omega
  rw [toNat_or_of_dvd (k := 6) (by omega) (by omega), hflags, hnat]

theorem spiHeader_eq_word (dir : Dir) (kind : Kind) (hloc : loc ≤ 3) (hlen : lenM1 ≤ 63) :
    spiHeader .standard dir loc kind (lenM1 + 1) =
      spiHdrWord (dir == .read).toNat lenM1 loc (spiBase .standard kind).toNat := by
  have hfirst := spiHeader_firstByte_toNat dir hlen
  have haddr := spiAddr_toNat .standard kind hloc
  have hhigh := spiAddr_highByte_toNat (spiAddr .standard loc kind)
  have hlow := spiAddr_lowByte_toNat (spiAddr .standard loc kind)
  have hbase := (spiBase .standard kind).isLt
  have hdir := Bool.toNat_le (dir == .read)
  simp only [spiHeader, spiHdrWord, beBytes4, Nat.add_sub_cancel, List.cons.injEq, and_true]
  refine ⟨?_, ?_, ?_, ?_⟩ <;> apply BitVec.eq_of_toNat_eq <;> rw [BitVec.toNat_ofNat]
  · omega
  · change 0xD4 = _
    omega
  · omega
  · omega

/-- Settles O6. -/
theorem wireAddressesAreTableWords : Obligations.WireAddressesAreTableWords := by
  refine ⟨fun loc hloc => ?_, fun loc lenM1 hloc hlen => ?_⟩
  · have hword (kind : Kind) := i2cAddr_eq_word .standard kind hloc
    have haddr (kind : Kind) := i2cAddr_toNat .standard kind hloc
    exact ⟨hword .access, hword .sts, hword .dataFifo, hword .didVid,
      haddr .access, haddr .sts, haddr .dataFifo, haddr .didVid⟩
  · have hword (dir : Dir) (kind : Kind) := spiHeader_eq_word dir kind hloc hlen
    exact ⟨hword .read .access, hword .write .access, hword .read .sts, hword .write .sts,
      hword .read .dataFifo, hword .write .dataFifo, hword .read .didVid⟩

end Sys2Proof.Machine
end

section
/-! PROOF. More answers: an instruction run with more of them goes on from where it was, and carrying a waiting
instruction on is running it with them (20_memory.md R94, R97; log 2). -/

namespace Sys2Proof.Machine

variable {i : Instr} {s t t' : State} {as : List Answer}

/-- The machine with further answers behind those it has. -/
def State.more (s : State) (as : List Answer) : State := { s with toEngine := s.toEngine.more as }

/-- An instruction that ended leaves further answers where they are. -/
theorem ended_of_more (h : exec i s = .next t) (hn : t.running = none)
    (h' : exec i (s.more as) = .next t') : t'.running = none ∧ t'.toEngine = t.toEngine.more as := by
  have hgoes := body_continues s.args i s.toEngine as rfl
  have hlaunch : launch i (work s.args i).body (s.more as) = .next t' := (exec_next h').launch
  obtain ⟨_, ⟨_, he | ⟨er, he⟩⟩ | ⟨w, _, hr⟩⟩ := launch_next (exec_next h).launch
  · have hmore : (work s.args i).body (s.more as).toEngine = .ok () (t.toEngine.more as) := by
      rwa [he] at hgoes
    rw [launch_of_ok hmore] at hlaunch
    cases hlaunch
    exact ⟨rfl, rfl⟩
  · have hmore : (work s.args i).body (s.more as).toEngine =
        .error (.raised er) (t.toEngine.more as) := by rwa [he] at hgoes
    simp only [launch, hmore] at hlaunch
    cases hlaunch
    exact ⟨rfl, rfl⟩
  · simp [hr] at hn

/-- Running an instruction with more answers comes by the state it ended or waited in. -/
theorem later_of_more (h : exec i s = .next t) (h' : exec i (s.more as) = .next t') :
    Later t.toEngine t'.toEngine := by
  by_cases hn : t.running = none
  · rw [(ended_of_more h hn h').2]
    exact ⟨rfl, le_rfl, List.prefix_rfl⟩
  · obtain ⟨w, he, _⟩ := exec_waiting h hn
    have hgoes := body_continues s.args i s.toEngine as rfl
    rw [he] at hgoes
    exact launch_landed (exec_next h').launch hgoes

/-- Settles O11: the run with more answers passes the state the first one left, and where that was the end it
stays there. -/
theorem moreAnswersOnlyExtendTheTrace : Obligations.MoreAnswersOnlyExtendTheTrace := by
  intro i s t t' as h h'
  refine ⟨(later_of_more h h').trace, fun hn => ?_⟩
  obtain ⟨hended, hengine⟩ := ended_of_more h hn h'
  rw [hengine]
  exact ⟨hended, rfl, rfl, rfl, rfl⟩

/-- Settles O10: a waiting instruction is kept with the engine it started in, and beside the engine the machine
is as it was. -/
theorem carryingOnIsRunningWithMoreAnswers : Obligations.CarryingOnIsRunningWithMoreAnswers := by
  intro i s t r a as h hr hslot
  obtain ⟨w, _, hkept⟩ := exec_waiting h (by simp [hr])
  obtain ⟨⟨hslot', hdrawn, hturn⟩, _⟩ := launch_next (exec_next h).launch
  cases hr.symm.trans hkept
  simp [step, hr, hslot, hslot', resumeState, nextAnswers, drawnNext, hdrawn, hturn]

end Sys2Proof.Machine
end

section
/-! PROOF. A length that does not fit ends a transfer before its first bus operation (40_transport.md R151 to
R155; log 14, log 33). -/

namespace Sys2Proof.Machine

variable {e t : Engine} {er : Err} {s : State} {b : Transport} {i : Instr} {loc n : Nat}
  {kind : Kind} {p : List Byte}

/-! ### The transport's length checks -/

theorem i2cRead_of_too_long (h : e.cfg.maxXfer < n) :
    i2cRead loc kind n e =
      .error (.raised (.insufficientResources n)) ((e.setReady false).log .readyClear) := by
  rw [i2cRead, bind_of_ok (look_apply e), if_pos h, clearOnErr_of_raised (raise_apply _ e)]

theorem i2cWrite_of_too_long (h : e.cfg.maxXfer < p.length) :
    i2cWrite loc kind p e =
      .error (.raised (.insufficientResources p.length)) ((e.setReady false).log .readyClear) := by
  rw [i2cWrite, bind_of_ok (look_apply e), if_pos (.inl h), clearOnErr_of_raised (raise_apply _ e)]

theorem spiXfer_of_bad_length {dir : Dir} (h : n = 0 ∨ e.cfg.maxXfer < n) :
    spiXfer dir loc kind n p e = .error (.raised (.insufficientResources n)) e := by
  rw [spiXfer, bind_of_ok (look_apply e), if_pos (by omega), raise_apply]

theorem spiWrite_of_bad_length (h : p.length = 0 ∨ e.cfg.maxXfer < p.length) :
    spiWrite loc kind p e = .error (.raised (.insufficientResources p.length)) e := by
  rw [spiWrite, bind_of_error (spiXfer_of_bad_length h)]

/-- A frame's error is its row's. -/
theorem asFrame_of_raised (dir : Dir) {q : P (List Byte)} (h : q e = .error (.raised er) t) :
    asFrame dir q e = .error (.raised er) t := by
  cases dir <;> exact bind_of_error h

/-! ### A row of the transport that raises -/

theorem launchOn_of_raised {q : P RetVal} (hb : s.cfg.transport = b) (hloc : loc ≤ b.maxLoc)
    (h : q s.toEngine = .error (.raised er) t) :
    launchOn b loc i q s = .next { s with toEngine := t.setRet (.err er), running := none } := by
  rw [launchOn, if_neg (not_not.mpr hb), if_pos hloc,
    launch_of_ok (procedure_of_attempt (attempt_of_raised h))]
  rfl

/-- Settles O26: an I2C transfer has cleared the ready flag and no more, a SPI transfer has done nothing. -/
theorem lengthIsCheckedBeforeTheBus : Obligations.LengthIsCheckedBeforeTheBus := by
  intro s
  have hclear (r : Ret) : Finished s
      { s with toEngine := ((s.setReady false).log .readyClear).setRet r, running := none } s.inbox [] :=
    ⟨rfl, rfl, (Moved.clear s.toEngine).traffic⟩
  refine ⟨fun hb hloc hn => ?_, fun hb hloc hn => ?_, fun hb hloc hn => ⟨?_, ?_⟩, fun hb hloc hn => ?_⟩
  · exact ⟨_, launchOn_of_raised hb hloc (bind_of_error (i2cRead_of_too_long hn)), hclear _, rfl⟩
  · exact ⟨_, launchOn_of_raised hb hloc (bind_of_error (i2cWrite_of_too_long hn)), hclear _, rfl, rfl⟩
  · exact launchOn_of_raised hb hloc (bind_of_error (spiXfer_of_bad_length hn))
  · exact launchOn_of_raised hb hloc (asFrame_of_raised _ (spiXfer_of_bad_length hn))
  · exact launchOn_of_raised hb hloc (bind_of_error (spiWrite_of_bad_length hn))

end Sys2Proof.Machine
end

section
/-! PROOF. Words and instructions: the decoder reads back what the encoder writes, and nothing else
(30_encoding.md R110 to R128). -/

namespace Sys2Proof

variable {op arg base lenM1 loc w : Nat} {read : Bool} {f : Format} {bs : List Byte} {b : Byte} {i : Instr}

/-! ### Numbers and bytes (R83) -/

theorem beNat_one (b : Byte) : beNat [b] = b.toNat := by simp [beNat]

theorem beNat_four (a b c d : Byte) :
    beNat [a, b, c, d] = ((a.toNat * 256 + b.toNat) * 256 + c.toNat) * 256 + d.toNat := by simp [beNat]

/-- Four bytes hold a 32-bit number. -/
theorem beNat_beBytes4 (hw : w < 2 ^ 32) : beNat (beBytes4 w) = w := by
  rw [beBytes4, beNat_four]
  simp only [BitVec.toNat_ofNat]
  omega

/-- The number four bytes spell is written with the same bytes, and fits 32 bits. -/
theorem beBytes4_beNat (hlen : bs.length = 4) : beBytes4 (beNat bs) = bs ∧ beNat bs < 2 ^ 32 := by
  match bs, hlen with
  | [a, b, c, d], _ =>
    rw [beNat_four]
    refine ⟨?_, by omega⟩
    simp only [beBytes4, List.cons.injEq, and_true]
    refine ⟨?_, ?_, ?_, ?_⟩ <;> apply BitVec.eq_of_toNat_eq <;> rw [BitVec.toNat_ofNat] <;> omega

/-- A one-byte word by its number. -/
theorem singleton_of_toNat {c : Byte} (h : b.toNat = c.toNat) : [c] = [b] :=
  congrArg (fun x => [x]) (BitVec.eq_of_toNat_eq h.symm)

/-- A bit as a number. -/
theorem toNat_beq_one {n : Nat} (h : n < 2) : (n == 1).toNat = n := by
  interval_cases n <;> rfl

/-! ### What is decoded where -/

theorem decodeAs_length (h : decodeAs f bs = .ok i) : bs.length = formatBytes f := by
  by_contra hlen
  simp [decodeAs, hlen] at h

theorem decodeAs_hcmd (h : bs.length = 4) : decodeAs .hcmd bs = decodeHcmd (beNat bs) := by
  simp [decodeAs, formatBytes, h]

theorem decodeAs_spiHdr (h : bs.length = 4) : decodeAs .spiHdr bs = decodeSpiHdr (beNat bs) := by
  simp [decodeAs, formatBytes, h]

theorem decodeAs_stsWr (h : bs.length = 4) : decodeAs .stsWr bs = decodeStsWr (beNat bs) := by
  simp [decodeAs, formatBytes, h]

theorem decodeAs_uop (b : Byte) : decodeAs .uop [b] = decodeUop b.toNat := by
  rw [← beNat_one b]
  rfl

theorem decodeAs_i2cAddr (b : Byte) : decodeAs .i2cAddr [b] = decodeI2cAddr b.toNat := by
  rw [← beNat_one b]
  rfl

theorem decodeAs_accessWr (b : Byte) : decodeAs .accessWr [b] = decodeAccessWr b.toNat := by
  rw [← beNat_one b]
  rfl

/-- The bytes are the format's word for a well-formed instruction. -/
def WordOf (f : Format) (bs : List Byte) (i : Instr) : Prop :=
  i.WellFormed ∧ i.format = f ∧ encode i = bs

/-! ### Host commands (R126, R127) -/

theorem hcmd_op (harg : arg < 2 ^ 24) (hop : op < 256) : natBits (op * 2 ^ 24 + arg) 31 24 = op := by
  unfold natBits
  omega

theorem hcmd_arg (harg : arg < 2 ^ 24) : natBits (op * 2 ^ 24 + arg) 23 0 = arg := by
  unfold natBits
  omega

theorem decodeHcmd_probe (h : natBits w 31 24 = 0x01) :
    decodeHcmd w = if natBits w 23 0 = 0 then .ok .probe else .error .reservedOperandBits := by
  simp only [decodeHcmd, h]

theorem decodeHcmd_send (h : natBits w 31 24 = 0x02) : decodeHcmd w = .ok (.send (natBits w 23 0)) := by
  simp only [decodeHcmd, h]

theorem decodeHcmd_recv (h : natBits w 31 24 = 0x03) : decodeHcmd w = .ok (.recv (natBits w 23 0)) := by
  simp only [decodeHcmd, h]

theorem decodeHcmd_release (h : natBits w 31 24 = 0x04) :
    decodeHcmd w = if natBits w 23 0 < 2 then .ok (.release (natBits w 23 0 == 1))
      else .error .reservedOperandBits := by
  simp only [decodeHcmd, h]

theorem decodeHcmd_shutdown (h : natBits w 31 24 = 0x05) :
    decodeHcmd w = if natBits w 23 0 = 0 then .ok .shutdown else .error .reservedOperandBits := by
  simp only [decodeHcmd, h]

theorem decodeHcmd_reserved (h : natBits w 31 24 = 0x00 ∨ 0x06 ≤ natBits w 31 24) :
    decodeHcmd w = .error .reservedOpcode := by
  simp only [decodeHcmd]
  split
  case h_6 => rfl
  all_goals omega

theorem decodeAs_hcmdWord (hop : op < 256) (harg : arg < 2 ^ 24) :
    decodeAs .hcmd (hcmdWord op arg) = decodeHcmd (op * 2 ^ 24 + arg) := by
  rw [hcmdWord, decodeAs_hcmd rfl, beNat_beBytes4 (by omega)]

/-- A word that decodes is the command's. -/
theorem wordOf_decodeHcmd (hw : w < 2 ^ 32) (h : decodeHcmd w = .ok i) : WordOf .hcmd (beBytes4 w) i := by
  have hfields : w = natBits w 31 24 * 2 ^ 24 + natBits w 23 0 := by unfold natBits; omega
  have harg : natBits w 23 0 < 2 ^ 24 := by unfold natBits; omega
  have hword {op arg : Nat} (hop : natBits w 31 24 = op) (ha : natBits w 23 0 = arg) :
      hcmdWord op arg = beBytes4 w := by rw [hcmdWord, ← hop, ← ha, ← hfields]
  simp only [decodeHcmd] at h
  split at h
  case h_1 hop =>
    split at h <;> cases h
    exact ⟨trivial, rfl, hword hop ‹_›⟩
  case h_2 hop =>
    cases h
    exact ⟨harg, rfl, hword hop rfl⟩
  case h_3 hop =>
    cases h
    exact ⟨harg, rfl, hword hop rfl⟩
  case h_4 hop =>
    split at h <;> cases h
    exact ⟨trivial, rfl, hword hop (toNat_beq_one ‹_›).symm⟩
  case h_5 hop =>
    split at h <;> cases h
    exact ⟨trivial, rfl, hword hop ‹_›⟩
  case h_6 => cases h

/-! ### Procedure codes (R128) and register values (R117, R118) -/

theorem wordOf_decodeUop (h : decodeUop b.toNat = .ok i) : WordOf .uop [b] i := by
  unfold decodeUop at h
  split at h <;> cases h <;> exact ⟨trivial, rfl, singleton_of_toNat ‹_›⟩

theorem wordOf_decodeAccessWr (h : decodeAccessWr b.toNat = .ok i) : WordOf .accessWr [b] i := by
  unfold decodeAccessWr at h
  split at h <;> cases h <;> exact ⟨trivial, rfl, singleton_of_toNat ‹_›⟩

theorem decodeStsWr_go : decodeStsWr 0x20000000 = .ok .stsGoVal := by simp only [decodeStsWr]

theorem decodeStsWr_ready : decodeStsWr 0x40000000 = .ok .stsReadyVal := by simp only [decodeStsWr]

theorem wordOf_decodeStsWr (h : decodeStsWr w = .ok i) : WordOf .stsWr (beBytes4 w) i := by
  unfold decodeStsWr at h
  split at h <;> cases h <;> exact ⟨trivial, rfl, rfl⟩

/-! ### I2C address bytes (R111) -/

theorem decodeI2cAddr_access (h : natBits w 3 0 = 0x0) :
    decodeI2cAddr w = .ok (.i2cAddrAccess (natBits w 7 4)) := by simp only [decodeI2cAddr, h]

theorem decodeI2cAddr_sts (h : natBits w 3 0 = 0x1) :
    decodeI2cAddr w = .ok (.i2cAddrSts (natBits w 7 4)) := by simp only [decodeI2cAddr, h]

theorem decodeI2cAddr_dataFifo (h : natBits w 3 0 = 0x5) :
    decodeI2cAddr w = .ok (.i2cAddrDataFifo (natBits w 7 4)) := by simp only [decodeI2cAddr, h]

theorem decodeI2cAddr_didVid (h : natBits w 3 0 = 0x6) :
    decodeI2cAddr w = .ok (.i2cAddrDidVid (natBits w 7 4)) := by simp only [decodeI2cAddr, h]

/-- Base and locality of an address byte are read back. -/
theorem decodeAs_i2cAddrWord {row : Nat → Instr} (hbase : base ≤ 15) (hloc : loc ≤ 15)
    (hrow : ∀ w, natBits w 3 0 = base → decodeI2cAddr w = .ok (row (natBits w 7 4))) :
    decodeAs .i2cAddr (i2cAddrWord base loc) = .ok (row loc) := by
  have hbits : natBits (loc * 16 + base) 3 0 = base := by unfold natBits; omega
  have hfield : natBits (loc * 16 + base) 7 4 = loc := by unfold natBits; omega
  rw [i2cAddrWord, decodeAs_i2cAddr, BitVec.toNat_ofNat, Nat.mod_eq_of_lt (by omega), hrow _ hbits, hfield]

theorem wordOf_decodeI2cAddr (h : decodeI2cAddr b.toNat = .ok i) : WordOf .i2cAddr [b] i := by
  have hloc : natBits b.toNat 7 4 ≤ 15 := by unfold natBits; omega
  have hword {base : Nat} (hbase : natBits b.toNat 3 0 = base) :
      i2cAddrWord base (natBits b.toNat 7 4) = [b] := by
    refine singleton_of_toNat ?_
    rw [← hbase, BitVec.toNat_ofNat]
    unfold natBits
    omega
  simp only [decodeI2cAddr] at h
  split at h <;> cases h <;> exact ⟨hloc, rfl, hword ‹_›⟩

/-! ### SPI frame headers (R114, R115) -/

theorem decodeAs_spiHdrWord (hbase : base < 2 ^ 12) (hlen : lenM1 ≤ 63) (hloc : loc ≤ 3) :
    decodeAs .spiHdr (spiHdrWord read.toNat lenM1 loc base) = decodeSpiRegister read base lenM1 loc := by
  have hread := Bool.toNat_le read
  set w := read.toNat * 2 ^ 31 + 2 ^ 30 + lenM1 * 2 ^ 24 + 0xD4 * 2 ^ 16 + loc * 2 ^ 12 + base with hw
  have hdecode : decodeAs .spiHdr (spiHdrWord read.toNat lenM1 loc base) = decodeSpiHdr w := by
    rw [spiHdrWord, decodeAs_spiHdr rfl, beNat_beBytes4 (by omega)]
  have hdir : natBits w 31 31 = read.toNat := by unfold natBits; omega
  have hmarker : natBits w 30 30 = 1 := by unfold natBits; omega
  have hlength : natBits w 29 24 = lenM1 := by unfold natBits; omega
  have hvendor : natBits w 23 16 = 0xD4 := by unfold natBits; omega
  have hhigh : natBits w 15 14 = 0 := by unfold natBits; omega
  have hlocality : natBits w 13 12 = loc := by unfold natBits; omega
  have haddr : natBits w 11 0 = base := by unfold natBits; omega
  rw [hdecode, decodeSpiHdr, if_neg (not_not.mpr hmarker), if_neg (not_not.mpr hvendor),
    if_neg (not_not.mpr hhigh), hdir, hlength, hlocality, haddr]
  cases read <;> rfl

theorem wordOf_decodeSpiRegister (hlen : lenM1 ≤ 63) (hloc : loc ≤ 3)
    (h : decodeSpiRegister read base lenM1 loc = .ok i) :
    WordOf .spiHdr (spiHdrWord read.toNat lenM1 loc base) i := by
  unfold decodeSpiRegister at h
  cases read <;> split at h <;> cases h <;> exact ⟨⟨hlen, hloc⟩, rfl, rfl⟩

theorem wordOf_decodeSpiHdr (hw : w < 2 ^ 32) (h : decodeSpiHdr w = .ok i) :
    WordOf .spiHdr (beBytes4 w) i := by
  unfold decodeSpiHdr at h
  split at h
  case isTrue => cases h
  case isFalse hmarker =>
  split at h
  case isTrue => cases h
  case isFalse hvendor =>
  split at h
  case isTrue => cases h
  case isFalse hhigh =>
  have hreg := wordOf_decodeSpiRegister (by unfold natBits; omega) (by unfold natBits; omega) h
  have hdir : (natBits w 31 31 == 1).toNat = natBits w 31 31 :=
    toNat_beq_one (by unfold natBits; omega)
  have hfields : natBits w 31 31 * 2 ^ 31 + 2 ^ 30 + natBits w 29 24 * 2 ^ 24 + 0xD4 * 2 ^ 16 +
      natBits w 13 12 * 2 ^ 12 + natBits w 11 0 = w := by
    unfold natBits at *
    omega
  rwa [spiHdrWord, hdir, hfields] at hreg

/-! ### Every word of every format -/

/-- Settles O1: in each format the fields of the word are those the instruction was written from. -/
theorem decodeOfEncodeIsTheInstruction : Obligations.DecodeOfEncodeIsTheInstruction := by
  intro i hi
  cases i with
  | probe => exact (decodeAs_hcmdWord (by decide) (by decide)).trans (decodeHcmd_probe rfl)
  | shutdown => exact (decodeAs_hcmdWord (by decide) (by decide)).trans (decodeHcmd_shutdown rfl)
  | release force => cases force <;> exact (decodeAs_hcmdWord (by decide) (by decide)).trans rfl
  | send len =>
    refine (decodeAs_hcmdWord (by decide) hi).trans ?_
    rw [decodeHcmd_send (hcmd_op hi (by decide)), hcmd_arg hi]
  | recv cap =>
    refine (decodeAs_hcmdWord (by decide) hi).trans ?_
    rw [decodeHcmd_recv (hcmd_op hi (by decide)), hcmd_arg hi]
  | i2cAddrAccess loc => exact decodeAs_i2cAddrWord (by decide) hi fun _ => decodeI2cAddr_access
  | i2cAddrSts loc => exact decodeAs_i2cAddrWord (by decide) hi fun _ => decodeI2cAddr_sts
  | i2cAddrDataFifo loc => exact decodeAs_i2cAddrWord (by decide) hi fun _ => decodeI2cAddr_dataFifo
  | i2cAddrDidVid loc => exact decodeAs_i2cAddrWord (by decide) hi fun _ => decodeI2cAddr_didVid
  | spiHdrReadAccess lenM1 loc | spiHdrReadSts lenM1 loc | spiHdrReadDataFifo lenM1 loc
  | spiHdrReadDidVid lenM1 loc =>
    obtain ⟨hlen, hloc⟩ := hi
    exact decodeAs_spiHdrWord (read := true) (by decide) hlen hloc
  | spiHdrWriteAccess lenM1 loc | spiHdrWriteSts lenM1 loc | spiHdrWriteDataFifo lenM1 loc =>
    obtain ⟨hlen, hloc⟩ := hi
    exact decodeAs_spiHdrWord (read := false) (by decide) hlen hloc
  | i2cRead | i2cWrite | spiRead | spiWrite | readyWait | spiXfer
  | checkLocality | requestLocality | releaseLocality | getBurstAndStatus | readStatus | setReady
  | waitCommandReady | fifoWriteBody | writeGo | fifoReadBody | cleanup => exact decodeAs_uop _
  | accessReqVal | accessRelVal => exact decodeAs_accessWr _
  | stsGoVal => exact (decodeAs_stsWr rfl).trans decodeStsWr_go
  | stsReadyVal => exact (decodeAs_stsWr rfl).trans decodeStsWr_ready

/-- Settles O2: a one-byte word is its number, and four bytes are the bytes of theirs. -/
theorem decodedWordsAreEncodings : Obligations.DecodedWordsAreEncodings := by
  intro f bs i h
  have hlen := decodeAs_length h
  cases f with
  | uop =>
    obtain ⟨b, rfl⟩ := List.length_eq_one_iff.mp hlen
    exact wordOf_decodeUop (decodeAs_uop b ▸ h)
  | i2cAddr =>
    obtain ⟨b, rfl⟩ := List.length_eq_one_iff.mp hlen
    exact wordOf_decodeI2cAddr (decodeAs_i2cAddr b ▸ h)
  | accessWr =>
    obtain ⟨b, rfl⟩ := List.length_eq_one_iff.mp hlen
    exact wordOf_decodeAccessWr (decodeAs_accessWr b ▸ h)
  | hcmd =>
    obtain ⟨hbytes, hlt⟩ := beBytes4_beNat hlen
    exact hbytes ▸ wordOf_decodeHcmd hlt (decodeAs_hcmd hlen ▸ h)
  | spiHdr =>
    obtain ⟨hbytes, hlt⟩ := beBytes4_beNat hlen
    exact hbytes ▸ wordOf_decodeSpiHdr hlt (decodeAs_spiHdr hlen ▸ h)
  | stsWr =>
    obtain ⟨hbytes, _⟩ := beBytes4_beNat hlen
    exact hbytes ▸ wordOf_decodeStsWr (decodeAs_stsWr hlen ▸ h)

/-- Settles O3: the words are the encodings of their instructions. -/
theorem handWrittenWordsDecode : Obligations.HandWrittenWordsDecode :=
  have h := decodeOfEncodeIsTheInstruction
  ⟨h (.send 12) (by decide), h (.recv 4096) (by decide), h (.release true) trivial, h .fifoReadBody trivial,
    h (.i2cAddrSts 1) (by decide), h (.spiHdrReadDidVid 3 0) (by decide),
    h (.spiHdrWriteDataFifo 11 0) (by decide), h .stsGoVal trivial, h .accessRelVal trivial⟩

end Sys2Proof
end

section
/-! PROOF. The host opcode map, the SPI header's fields and the flag tests (30_encoding.md R114, R119, R120,
R124, R127). -/

namespace Sys2Proof.Machine

variable {s m n : Byte}

/-! ### The host opcode map (R127) -/

/-- A reserved word in the slot ends the run (R124 (g), R311). -/
theorem step_of_reserved_word {s : State} {w : Nat} {r : Reject} (ha : s.attached = true)
    (hr : s.running = none) (hs : s.slot = some { fmt := .hcmd, bytes := beBytes4 w }) (hw : w < 2 ^ 32)
    (hd : decodeHcmd w = .error r) : step s = .refused (.badWord r) := by
  refine step_of_fetch_error hr hs ?_
  rw [fetch, if_pos ha, decodeAs_hcmd rfl, beNat_beBytes4 hw, hd]

/-- Settles O4. -/
theorem hostOpcodeMap : Obligations.HostOpcodeMap := by
  refine ⟨fun op arg hop harg => ?_, decodeHcmd_send (w := 0x0200000C) rfl,
    decodeHcmd_recv (w := 0x03001000) rfl, decodeHcmd_release (w := 0x04000001) rfl,
    fun _ _ _ ha hr hs hw hd => step_of_reserved_word ha hr hs hw hd⟩
  have hcode := hcmd_op harg hop
  have hoperand := hcmd_arg (op := op) harg
  refine ⟨fun h => ?_, fun h => ?_, fun h => ?_, fun h => ?_, fun h => ?_, fun h => ?_⟩
  · rw [decodeHcmd_probe (hcode.trans h), hoperand]
  · rw [decodeHcmd_send (hcode.trans h), hoperand]
  · rw [decodeHcmd_recv (hcode.trans h), hoperand]
  · rw [decodeHcmd_release (hcode.trans h), hoperand]
    by_cases hbit : arg < 2
    · rw [if_pos hbit, if_pos (by omega), Nat.mod_eq_of_lt hbit]
    · rw [if_neg hbit, if_neg (by omega)]
  · rw [decodeHcmd_shutdown (hcode.trans h), hoperand]
  · exact decodeHcmd_reserved (hcode.symm ▸ h)

/-! ### The SPI frame header (R114) -/

/-- Settles O5: byte 0 and the address as numbers give every field. -/
theorem spiHeaderLayout : Obligations.SpiHeaderLayout := by
  intro dir loc kind n _ hn _
  have hdir := Bool.toNat_le (dir == .read)
  have hfirst := spiHeader_firstByte_toNat dir (lenM1 := n - 1) (by omega)
  have hhigh := spiAddr_highByte_toNat (spiAddr .standard loc kind)
  have hlow := spiAddr_lowByte_toNat (spiAddr .standard loc kind)
  have hvendor : (TpmMap.standard.spiVendor).toNat = 0xD4 := rfl
  have haddr := (spiAddr .standard loc kind).isLt
  refine ⟨_, _, _, _, rfl, ?_, ?_, by omega, rfl, by omega, by omega, by omega, ?_⟩
  · rw [BitVec.getLsbD, hfirst, Nat.testBit_eq_decide_div_mod_eq, Bool.eq_iff_iff, decide_eq_true_eq,
      ← Bool.toNat_eq_one]
    omega
  · rw [BitVec.getLsbD, hfirst, Nat.testBit_eq_decide_div_mod_eq, decide_eq_true_eq]
    omega
  · rw [beNat_four]
    unfold natBits
    refine ⟨?_, ?_, ?_, ?_, ?_, ?_⟩ <;> omega

/-! ### Flag tests (R116, R119, R120) -/

theorem hasAll_iff : hasAll s m = true ↔ ∀ k, m.getLsbD k = true → s.getLsbD k = true := by
  rw [hasAll, beq_iff_eq]
  refine ⟨fun h k hk => ?_, fun h => BitVec.eq_of_getLsbD_eq fun k _ => ?_⟩
  · rw [← h, BitVec.getLsbD_and, Bool.and_eq_true] at hk
    exact hk.1
  · rw [BitVec.getLsbD_and, Bool.and_eq_right_iff_imp]
    exact h k

/-- The mask of two flags tests both. -/
theorem hasAll_or : hasAll s (m ||| n) = (hasAll s m && hasAll s n) := by
  rw [Bool.eq_iff_iff, Bool.and_eq_true, hasAll_iff, hasAll_iff, hasAll_iff]
  simp only [BitVec.getLsbD_or, Bool.or_eq_true, or_imp, forall_and]

/-- The mask of one bit tests that bit. -/
theorem hasAll_twoPow {k : Nat} (hk : k < 8) : hasAll s (BitVec.twoPow 8 k) = s.getLsbD k := by
  rw [Bool.eq_iff_iff, hasAll_iff]
  simp [BitVec.getLsbD_twoPow, hk]

theorem hasAny_twoPow {k : Nat} (hk : k < 8) : hasAny s (BitVec.twoPow 8 k) = s.getLsbD k := by
  have hbit : BitVec.twoPow 8 k ≠ 0#8 := fun h => by
    have hnat := congrArg BitVec.toNat h
    rw [BitVec.toNat_twoPow_of_lt hk] at hnat
    exact (Nat.two_pow_pos k).ne' hnat
  rw [hasAny, BitVec.and_twoPow]
  cases s.getLsbD k <;> simp [hbit]

theorem notStalled_eq (s : Byte) : notStalled s = s.getLsbD 0 := hasAll_twoPow (k := 0) (by decide)

/-- Settles O8: every flag is a mask of one bit. -/
theorem flagTestsBitByBit : Obligations.FlagTestsBitByBit := by
  intro s m b1 b2 b3
  have hall {k j : Nat} (hk : k < 8) (hj : j < 8) :
      hasAll s (BitVec.twoPow 8 k ||| BitVec.twoPow 8 j) = (s.getLsbD k && s.getLsbD j) := by
    rw [hasAll_or, hasAll_twoPow hk, hasAll_twoPow hj]
  exact ⟨rfl, le16_toNat b1 b2, hasAll_iff, hasAll_twoPow (k := 7) (by decide),
    hall (k := 7) (j := 4) (by decide) (by decide), hall (k := 7) (j := 3) (by decide) (by decide),
    hasAny_twoPow (k := 6) (by decide), hasAny_twoPow (k := 4) (by decide),
    hasAny_twoPow (k := 3) (by decide), hall (k := 7) (j := 5) (by decide) (by decide),
    hall (k := 7) (j := 2) (by decide) (by decide), notStalled_eq s⟩

end Sys2Proof.Machine
end

section
/-! PROOF. The wire encodings as rows (30_encoding.md R111 to R118; log 6, log 7, log 8): the address phase, the
frame and the register write each of them fixes. -/

namespace Sys2Proof.Machine

variable {e t : Engine} {er : Err} {v : RetVal} {evs : List Event} {s : State} {b : Transport} {i : Instr}
  {dir : Dir} {kind : Kind} {loc lenM1 : Nat} {p : List Byte} {as rest : List Answer}

/-! ### A row that ends -/

theorem launch_procedure_of_ok {q : P RetVal} (h : q s.toEngine = .ok v t) :
    launch i (procedure q) s = .next { s with toEngine := t.setRet (.ok v), running := none } :=
  launch_of_ok (procedure_of_attempt (attempt_of_ok h))

theorem launch_procedure_of_raised {q : P RetVal} (h : q s.toEngine = .error (.raised er) t) :
    launch i (procedure q) s = .next { s with toEngine := t.setRet (.err er), running := none } :=
  launch_of_ok (procedure_of_attempt (attempt_of_raised h))

theorem launchOn_of_ok {q : P RetVal} (hb : s.cfg.transport = b) (hloc : loc ≤ b.maxLoc)
    (h : q s.toEngine = .ok v t) :
    launchOn b loc i q s = .next { s with toEngine := t.setRet (.ok v), running := none } := by
  rw [launchOn, if_neg (not_not.mpr hb), if_pos hloc, launch_procedure_of_ok h]

/-- What a procedure has moved is what its row has done. -/
theorem Moved.finished (h : Moved s.toEngine t rest evs) (r : Ret) :
    Finished s { s with toEngine := t.setRet r, running := none } rest evs :=
  ⟨rfl, h.inbox, h.traffic⟩

theorem asUnit_of_ok {q : P Unit} (h : q e = .ok () t) : asUnit q e = .ok .unit t := bind_of_ok h

theorem asUnit_of_raised {q : P Unit} (h : q e = .error (.raised er) t) :
    asUnit q e = .error (.raised er) t := bind_of_error h

/-! ### I2C address bytes (R111, R112) -/

theorem i2cAddressPhase_of_answers {w n f : Answer} (hi : e.inbox = w :: n :: f :: rest)
    (hw : w.err = none) (hf : f.edge = true) (ht : e.cfg.transport = .i2c) (hl : e.readyPath = true) :
    ∃ t, i2cAddressPhase loc kind e = .ok .unit t ∧
      Moved e t rest [.busWrite [i2cAddr e.cfg.map loc kind]] ∧ t.ready = true ∧
      t.x.t1 = e.clock + w.ticks + n.ticks := by
  obtain ⟨t, hsend, hm, hready, _, _, _, ht1⟩ :=
    i2cSend_of_answers (bs := [i2cAddr e.cfg.map loc kind]) hi hw hf ht hl
  refine ⟨t, ?_, hm, hready, ht1⟩
  rw [i2cAddressPhase, bind_of_ok (look_apply e), asUnit_of_ok hsend]

/-- A row that is the address phase of its register and locality. -/
theorem i2cAddressRow_completes {w n f : Answer}
    (hrow : exec i s = launchOn .i2c loc i (i2cAddressPhase loc kind) s)
    (hword : encode i = i2cAddrWord (i2cBase .standard kind).toNat loc) (hloc : loc ≤ 15)
    (hb : s.cfg.transport = .i2c) (hmap : s.cfg.map = .standard) (hl : s.readyPath = true)
    (hi : s.inbox = w :: n :: f :: rest) (hw : w.err = none) (hf : f.edge = true) :
    ∃ t, exec i s = .next t ∧ Finished s t rest [.busWrite (encode i)] ∧ t.ret = .ok .unit ∧
      t.ready = true ∧ t.x = { s.x with t1 := s.clock + w.ticks + n.ticks } := by
  obtain ⟨t, hphase, hm, hready, ht1⟩ := i2cAddressPhase_of_answers (loc := loc) (kind := kind) hi hw hf hb hl
  rw [hmap, i2cAddr_eq_word .standard kind hloc, ← hword] at hm
  exact ⟨_, hrow.trans (launchOn_of_ok hb hloc hphase), hm.finished _, rfl, hready, ht1 ▸ hm.x⟩

/-- Settles O34. -/
theorem i2cAddressRowsComplete : Obligations.I2cAddressRowsComplete := by
  rintro i loc s w n f rest (rfl | rfl | rfl | rfl) hloc hb hmap hl hi hw hf
  · exact i2cAddressRow_completes (kind := .access) rfl rfl hloc hb hmap hl hi hw hf
  · exact i2cAddressRow_completes (kind := .sts) rfl rfl hloc hb hmap hl hi hw hf
  · exact i2cAddressRow_completes (kind := .dataFifo) rfl rfl hloc hb hmap hl hi hw hf
  · exact i2cAddressRow_completes (kind := .didVid) rfl rfl hloc hb hmap hl hi hw hf

/-! ### SPI frame headers (R114, R115, R153) -/

/-- The traffic of a frame that is not stalled, its data moved by `ev`. -/
def frameTraffic (hdr : List Byte) (ev : Event) : List Event :=
  [.lock, .busWrite hdr, .busRead [0x01], ev, .unlock]

theorem spiFrame_read_of_answers {bs : List Byte} {a : Args} (hi : e.inbox = as ++ rest)
    (ha : AnswersRead .spi bs as) (hn : bs.length = lenM1 + 1) (hw : lenM1 + 1 ≤ e.cfg.maxXfer) :
    ∃ t, spiFrame .read kind lenM1 loc a e = .ok (.bytes bs) t ∧
      Moved e t rest (frameTraffic (spiHeader e.cfg.map .read loc kind (lenM1 + 1)) (.busRead bs)) ∧
      t.lock = .free := by
  obtain ⟨t, hx, hm, _, hlock, _⟩ := spiXfer_of_answers (dir := .read) (loc := loc) (kind := kind)
    (p := payloadOf a (lenM1 + 1)) hi ⟨ha, hn⟩ (Nat.le_add_left 1 lenM1) hw
  exact ⟨t, bind_of_ok hx, hm, hlock⟩

theorem spiFrame_write_of_answers {a : Args} (hi : e.inbox = as ++ rest) (ha : AnswersWrite .spi as)
    (hw : lenM1 + 1 ≤ e.cfg.maxXfer) :
    ∃ t, spiFrame .write kind lenM1 loc a e = .ok .unit t ∧
      Moved e t rest (frameTraffic (spiHeader e.cfg.map .write loc kind (lenM1 + 1))
        (.busWrite (payloadOf a (lenM1 + 1)))) ∧
      t.lock = .free := by
  obtain ⟨t, hx, hm, _, hlock, _⟩ := spiXfer_of_answers (dir := .write) (loc := loc) (kind := kind)
    (p := payloadOf a (lenM1 + 1)) (bs := []) hi ⟨ha, rfl⟩ (Nat.le_add_left 1 lenM1) hw
  exact ⟨t, bind_of_ok hx, hm, hlock⟩

/-- A row that is the frame of its direction, register and locality. -/
theorem spiHeaderRow_completes {ev : Event}
    (hrow : exec i s = launchOn .spi loc i (spiFrame dir kind lenM1 loc s.args) s)
    (hword : encode i = spiHdrWord (dir == .read).toNat lenM1 loc (spiBase .standard kind).toNat)
    (hlen : lenM1 ≤ 63) (hloc : loc ≤ 3) (hb : s.cfg.transport = .spi) (hmap : s.cfg.map = .standard)
    (hframe : ∃ t, spiFrame dir kind lenM1 loc s.args s.toEngine = .ok v t ∧
      Moved s.toEngine t rest (frameTraffic (spiHeader s.cfg.map dir loc kind (lenM1 + 1)) ev) ∧
      t.lock = .free) :
    ∃ t, exec i s = .next t ∧ Finished s t rest (frameTraffic (encode i) ev) ∧ t.ret = .ok v ∧
      t.lock = .free ∧ t.x = { s.x with t1 := t.x.t1 } := by
  obtain ⟨t, hx, hm, hlock⟩ := hframe
  rw [hmap, spiHeader_eq_word dir kind hloc hlen, ← hword] at hm
  exact ⟨_, hrow.trans (launchOn_of_ok hb hloc hx), hm.finished _, rfl, hlock, hm.x⟩

/-- Settles O35. -/
theorem spiHeaderRowsComplete : Obligations.SpiHeaderRowsComplete := by
  refine fun i lenM1 loc s as rest hlen hloc hb hmap hw hi => ⟨?_, ?_⟩
  · intro hrow bs hn ha
    have hframe (kind : Kind) := spiFrame_read_of_answers (kind := kind) (loc := loc) (a := s.args) hi ha hn hw
    rcases hrow with rfl | rfl | rfl | rfl
    · exact spiHeaderRow_completes (dir := .read) rfl rfl hlen hloc hb hmap (hframe .access)
    · exact spiHeaderRow_completes (dir := .read) rfl rfl hlen hloc hb hmap (hframe .sts)
    · exact spiHeaderRow_completes (dir := .read) rfl rfl hlen hloc hb hmap (hframe .dataFifo)
    · exact spiHeaderRow_completes (dir := .read) rfl rfl hlen hloc hb hmap (hframe .didVid)
  · rintro hrow p rfl ha
    have hframe (kind : Kind) := spiFrame_write_of_answers (kind := kind) (loc := loc) (a := s.args) hi ha hw
    rcases hrow with rfl | rfl | rfl
    · exact spiHeaderRow_completes (dir := .write) rfl rfl hlen hloc hb hmap (hframe .access)
    · exact spiHeaderRow_completes (dir := .write) rfl rfl hlen hloc hb hmap (hframe .sts)
    · exact spiHeaderRow_completes (dir := .write) rfl rfl hlen hloc hb hmap (hframe .dataFifo)

end Sys2Proof.Machine
end

section
/-! PROOF. SPI frames opened, stalled and given back (40_transport.md R153, R154; 30_encoding.md R116). -/

namespace Sys2Proof.Machine

variable {e t : Engine} {evs : List Event} {s : State} {dir : Dir} {kind : Kind} {loc k : Nat}
  {go stall : Byte} {hdr p : List Byte} {rest rest' : List Answer}

/-! ### A frame and its lock (R45, R153) -/

/-- The engine once it holds the SPI controller, which the answer `l` has given it. -/
def Engine.locked (e : Engine) (l : Answer) (rest : List Answer) : Engine :=
  ((e.settle l rest).setLock .engine).log .lock

/-- The engine once it has given the controller back. -/
def Engine.unlocked (e : Engine) : Engine := (e.setLock .free).log .unlock

@[simp] theorem Engine.locked_inbox (e : Engine) (l : Answer) (rest : List Answer) :
    (e.locked l rest).inbox = rest := rfl

/-- A frame is its body between the lock and the unlock. -/
theorem spiXfer_of_body {l : Answer} {r : Except Err (List Byte)} (hi : e.inbox = l :: rest)
    (hl : l.lockFree = true) (h1 : 1 ≤ k) (hw : k ≤ e.cfg.maxXfer)
    (hbody : attempt (spiBody dir (spiHeader e.cfg.map dir loc kind k) k p) (e.locked l rest) = .ok r t) :
    spiXfer dir loc kind k p e = ofExcept r t.unlocked := by
  rw [spiXfer, bind_of_ok (look_apply e), if_neg (by omega), bind_of_ok (spiLock_of_free hi hl)]
  exact (bind_of_ok hbody).trans (bind_of_ok (spiUnlock_apply t))

/-- What a frame moves, by what its body moves. -/
theorem Moved.frame {l : Answer} (h : Moved (e.locked l rest) t rest' evs) :
    Moved e t.unlocked rest' (.lock :: evs ++ [.unlock]) := by
  have hlock : Moved e (e.locked l rest) rest [.lock] :=
    (Moved.settle e l rest).trans <| (Moved.setLock _ .engine).trans <| Moved.log _ .lock rfl
  have hunlock : Moved t t.unlocked t.inbox [.unlock] :=
    (Moved.setLock t .free).trans <| Moved.log _ .unlock rfl
  exact h.inbox ▸ (hlock.trans h).trans hunlock

/-- A frame's header is out and its stall poll begins, counted from the clock value just read. -/
theorem spiBody_of_opened {h n : Answer} (hi : e.inbox = h :: n :: rest) (hh : h.err = none) :
    ∃ t, spiBody dir hdr k p e = (repeatP spiStallTurn >>= fun _ => spiPayload dir k p) t ∧
      Moved e t rest [.busWrite hdr] ∧ t.clock = e.clock + h.ticks + n.ticks ∧ t.x.t1 = t.clock := by
  have hhdr := busWrite_ok (bs := hdr) hi hh
  have hnow := now_ok (e := (e.settle h (n :: rest)).log (.busWrite hdr)) (a := n) (rest := rest) rfl
  have hmoved := (Moved.event e h (n :: rest) (.busWrite hdr) rfl).trans <|
    (Moved.event _ n rest (.now (e.clock + h.ticks + n.ticks)) rfl).trans
      (Moved.setT1 _ (e.clock + h.ticks + n.ticks))
  refine ⟨_, ?_, hmoved, by simp, by simp⟩
  rw [spiBody, bind_of_ok hhdr, bind_of_ok hnow, bind_of_ok (onX_apply _ _)]
  rfl

/-! ### The stall poll (R116, R303 (b)) -/

theorem byteAt_singleton (v : Byte) : byteAt [v] 0 = v := rfl

theorem busRead_one {q : Answer} (hi : e.inbox = q :: rest) (hq : q.err = none) (hb : q.bytes = [go]) :
    busRead 1 e = .ok [go] ((e.settle q rest).log (.busRead [go])) := by
  rw [busRead_ok hi hq, hb]
  rfl

/-- Bit 0 ends the poll, whatever the other bits. -/
theorem spiStall_of_notStalled {q : Answer} (hi : e.inbox = q :: rest) (hq : q.err = none)
    (hb : q.bytes = [go]) (hgo : notStalled go = true) :
    repeatP spiStallTurn e = .ok () ((e.settle q rest).log (.busRead [go])) := by
  apply repeatP_done
  rw [spiStallTurn, bind_of_ok (busRead_one hi hq hb)]
  simp only [byteAt_singleton, hgo, pure_apply]

/-- A stalled byte, and the look at the clock after it: with the budget gone the poll times out, else it goes
on. -/
theorem spiStallTurn_of_stalled {q c : Answer} (hi : e.inbox = q :: c :: rest) (hq : q.err = none)
    (hb : q.bytes = [stall]) (hstall : notStalled stall = false) :
    ∃ t, spiStallTurn e = (if e.cfg.tSpi * e.cfg.clkPerMs ≤ e.clock + q.ticks + c.ticks - e.x.t1
        then .error (.raised (.timeout .spiStall)) t else .ok none t) ∧
      Moved e t rest [.busRead [stall]] := by
  set m := (e.settle q (c :: rest)).log (.busRead [stall])
  have hlate := expired_ok (e := m) (t0 := m.x.t1) (budget := m.cfg.tSpi) (a := c) (rest := rest) rfl
  refine ⟨_, ?_, (Moved.event e q (c :: rest) (.busRead [stall]) rfl).trans
    (Moved.event m c rest (.now (m.clock + c.ticks)) rfl)⟩
  rw [spiStallTurn, bind_of_ok (busRead_one hi hq hb)]
  simp only [byteAt_singleton, hstall]
  rw [bind_of_ok (look_apply m), bind_of_ok hlate]
  by_cases hgone : e.cfg.tSpi * e.cfg.clkPerMs ≤ e.clock + q.ticks + c.ticks - e.x.t1
  · have hd : decide (m.cfg.tSpi * m.cfg.clkPerMs ≤ m.clock + c.ticks - m.x.t1) = true := decide_eq_true hgone
    rw [if_pos hgone, hd]
    rfl
  · have hd : decide (m.cfg.tSpi * m.cfg.clkPerMs ≤ m.clock + c.ticks - m.x.t1) = false := decide_eq_false hgone
    rw [if_neg hgone, hd]
    rfl

/-- With the budget gone the poll ends in Timeout(spi_stall). -/
theorem spiStall_of_gone {q c : Answer} (hi : e.inbox = q :: c :: rest) (hq : q.err = none)
    (hb : q.bytes = [stall]) (hstall : notStalled stall = false)
    (hgone : e.cfg.tSpi * e.cfg.clkPerMs ≤ e.clock + q.ticks + c.ticks - e.x.t1) :
    ∃ t, repeatP spiStallTurn e = .error (.raised (.timeout .spiStall)) t ∧
      Moved e t rest [.busRead [stall]] := by
  obtain ⟨t, hturn, hm⟩ := spiStallTurn_of_stalled hi hq hb hstall
  exact ⟨t, repeatP_error (hturn.trans (if_pos hgone)), hm⟩

/-- Within the budget the byte is polled again. -/
theorem spiStall_of_in_time {q c : Answer} (hi : e.inbox = q :: c :: rest) (hq : q.err = none)
    (hb : q.bytes = [stall]) (hstall : notStalled stall = false)
    (htime : e.clock + q.ticks + c.ticks - e.x.t1 < e.cfg.tSpi * e.cfg.clkPerMs) :
    ∃ t, repeatP spiStallTurn e = repeatP spiStallTurn t ∧ Moved e t rest [.busRead [stall]] := by
  obtain ⟨t, hturn, hm⟩ := spiStallTurn_of_stalled hi hq hb hstall
  exact ⟨t, repeatP_again consumes_spiStallTurn (hturn.trans (if_neg (by omega))), hm⟩

/-! ### A stalled read (R154) -/

/-- SPI_READ ends as the body of its frame ends. -/
theorem exec_spiRead_of_body {l : Answer} {r : Except Err (List Byte)} (hb : s.cfg.transport = .spi)
    (hloc : s.args.loc ≤ 3) (h1 : 1 ≤ s.args.n) (hw : s.args.n ≤ s.cfg.maxXfer)
    (hi : s.inbox = l :: rest) (hl : l.lockFree = true)
    (hbody : attempt (spiBody .read (spiHeader s.cfg.map .read s.args.loc s.args.kind s.args.n) s.args.n [])
      (s.locked l rest) = .ok r t)
    (hm : Moved (s.locked l rest) t rest' evs) :
    ∃ t, exec .spiRead s = .next t ∧ Finished s t rest' (.lock :: evs ++ [.unlock]) ∧
      t.ret = retOf (r.map .bytes) ∧ t.lock = .free := by
  have hx := spiXfer_of_body (kind := s.args.kind) (loc := s.args.loc) hi hl h1 hw hbody
  cases r with
  | ok bs => exact ⟨_, launchOn_of_ok hb hloc (bind_of_ok hx), hm.frame.finished _, rfl, rfl⟩
  | error er => exact ⟨_, launchOn_of_raised hb hloc (bind_of_error hx), hm.frame.finished _, rfl, rfl⟩

/-- Settles O29: after a stalled byte the poll times out or begins anew. -/
theorem spiStallPoll : Obligations.SpiStallPoll := by
  intro s l h n q c rest stall hb hloc h1 hw hl hh hq hqb hstall
  rw [← notStalled_eq] at hstall
  have hopened (rest : List Answer) := spiBody_of_opened (dir := .read) (k := s.args.n) (p := [])
    (hdr := spiHeader s.cfg.map .read s.args.loc s.args.kind s.args.n)
    (Engine.locked_inbox s.toEngine l (h :: n :: rest)) hh
  refine ⟨fun q2 d go hi htime hq2 hgob hgo hd hlen => ?_, fun hi hgone => ?_⟩
  · rw [← notStalled_eq] at hgo
    obtain ⟨e1, hopen, hm1, _, ht1⟩ := hopened (q :: c :: q2 :: d :: rest)
    have hcfg : e1.cfg = s.cfg := hm1.cfg
    obtain ⟨e2, hagain, hm2⟩ := spiStall_of_in_time hm1.inbox hq hqb hstall (by rw [hcfg, ht1]; omega)
    have hpoll := hagain.trans (spiStall_of_notStalled hm2.inbox hq2 hgob hgo)
    have hm3 := Moved.event e2 q2 (d :: rest) (.busRead [go]) rfl
    have hdata := busRead_ok (n := s.args.n) hm3.inbox hd
    rw [← hlen, answerBytes_exact, hlen] at hdata
    exact exec_spiRead_of_body hb hloc h1 hw hi hl
      (attempt_of_ok (hopen.trans ((bind_of_ok hpoll).trans hdata)))
      (hm1.trans (hm2.trans (hm3.trans (Moved.event _ d rest (.busRead d.bytes) rfl))))
  · obtain ⟨e1, hopen, hm1, _, ht1⟩ := hopened (q :: c :: rest)
    have hcfg : e1.cfg = s.cfg := hm1.cfg
    obtain ⟨e2, htimeout, hm2⟩ := spiStall_of_gone hm1.inbox hq hqb hstall (by rw [hcfg, ht1]; omega)
    exact exec_spiRead_of_body hb hloc h1 hw hi hl
      (attempt_of_raised (hopen.trans (bind_of_error htimeout))) (hm1.trans hm2)

end Sys2Proof.Machine
end

section
/-! PROOF. The register values and the procedures that write them (30_encoding.md R117, R118; 42_status_burst.md
R203; 43_fifo_transfer.md R223), done or failed (40_transport.md R158). -/

namespace Sys2Proof.Machine

variable {e : Engine} {s : State} {i : Instr} {kind : Kind} {loc v : Nat} {bs p : List Byte}
  {as rest : List Answer}

/-! ### A register write whose first bus operation fails -/

/-- The bus's error ends the transaction before the wait, with the flag cleared again (R151). -/
theorem i2cSend_of_fails {w : Answer} (hi : e.inbox = w :: rest) (hw : w.err = some v) :
    ∃ t, i2cSend bs e = .error (.raised (.io v)) t ∧ Moved e t rest [.busWriteErr bs v] := by
  have hfail := busWrite_err (bs := bs) (e := (e.setReady false).log .readyClear) hi hw
  refine ⟨_, ?_, (Moved.clear e).trans <| (Moved.event _ w rest (.busWriteErr bs v) rfl).trans (Moved.clear _)⟩
  rw [i2cSend, bind_of_ok (readyClear_apply e), bind_of_error (clearOnErr_of_raised hfail)]

theorem i2cWrite_of_fails (hi : e.inbox = as ++ rest) (ha : AnswersFail .i2c v as)
    (hw : p.length ≤ e.cfg.maxXfer) (hc : p.length + 1 ≤ e.cfg.scratchCap) :
    ∃ t, i2cWrite loc kind p e = .error (.raised (.io v)) t ∧
      Moved e t rest [.busWriteErr (i2cAddr e.cfg.map loc kind :: p) v] := by
  obtain ⟨w, rfl, hwe⟩ := ha
  set m := e.setScratch (i2cAddr e.cfg.map loc kind :: p) with hm
  obtain ⟨t, hsend, hmoved⟩ := i2cSend_of_fails (e := m) (bs := i2cAddr e.cfg.map loc kind :: p) hi hwe
  refine ⟨t, ?_, (Moved.setScratch e _).trans hmoved⟩
  have hbytes : m.scratch.take (p.length + 1) = i2cAddr e.cfg.map loc kind :: p := by
    simp [hm]
  rw [i2cWrite, bind_of_ok (look_apply e), if_neg (by omega), bind_of_ok (change_apply _ e),
    bind_of_ok (look_apply m), hbytes, hsend]

theorem spiWrite_of_fails (hi : e.inbox = as ++ rest) (ha : AnswersFail .spi v as)
    (h1 : 1 ≤ p.length) (hw : p.length ≤ e.cfg.maxXfer) :
    ∃ t, spiWrite loc kind p e = .error (.raised (.io v)) t ∧
      Moved e t rest [.lock, .busWriteErr (spiHeader e.cfg.map .write loc kind p.length) v, .unlock] := by
  obtain ⟨l, h, rfl, hl, hh⟩ := ha
  have hfail := busWrite_err (bs := spiHeader e.cfg.map .write loc kind p.length)
    (Engine.locked_inbox e l (h :: rest)) hh
  have hbody := attempt_of_raised (bind_of_error hfail : spiBody .write _ p.length p (e.locked l (h :: rest)) = _)
  exact ⟨_, bind_of_error (spiXfer_of_body hi hl h1 hw hbody),
    (Moved.event _ h rest (.busWriteErr _ v) rfl).frame⟩

/-- On either bus. -/
theorem regWrite_of_fails (hok : e.cfg.ok = true) (hi : e.inbox = as ++ rest)
    (ha : AnswersFail e.cfg.transport v as) (h1 : 1 ≤ p.length) (hw : p.length ≤ e.cfg.maxXfer) :
    ∃ t, regWrite kind p e = .error (.raised (.io v)) t ∧
      Moved e t rest (errTraffic e.cfg (.write kind p) (.io v)) := by
  rw [regWrite, bind_of_ok (look_apply e)]
  cases hb : e.cfg.transport with
  | i2c =>
    obtain ⟨hscratch, _⟩ := (Cfg.ok_iff e.cfg).mp hok
    simpa [errTraffic, Access.opening, hb] using
      i2cWrite_of_fails (loc := e.cfg.loc) (kind := kind) hi (hb ▸ ha) hw (by omega)
  | spi =>
    simpa [errTraffic, Access.opening, hb] using
      spiWrite_of_fails (loc := e.cfg.loc) (kind := kind) hi (hb ▸ ha) h1 hw

/-! ### The instructions that write a register value -/

/-- The instruction is the register write of `p`: it ends as the write ends, but SET_READY swallows its error
(R203). -/
structure WritesValue (i : Instr) (kind : Kind) (p : List Byte) (s : State) : Prop where
  done : ∀ t, regWrite kind p s.toEngine = .ok () t →
    exec i s = .next { s with toEngine := t.setRet (.ok .unit), running := none }
  failed : ∀ er t, regWrite kind p s.toEngine = .error (.raised er) t →
    exec i s = .next { s with
      toEngine := t.setRet (if i = .setReady then .ok .unit else .err er), running := none }

/-- The rows other than SET_READY. -/
theorem writesValue_of_row {q : P RetVal} (hi : i ≠ .setReady) (hrow : exec i s = launch i (procedure q) s)
    (hq : q s.toEngine = asUnit (regWrite kind p) s.toEngine) : WritesValue i kind p s where
  done _ h := hrow.trans (launch_procedure_of_ok (hq.trans (asUnit_of_ok h)))
  failed _ _ h := by
    rw [if_neg hi]
    exact hrow.trans (launch_procedure_of_raised (hq.trans (asUnit_of_raised h)))

theorem writesValue_of_value {value : TpmMap → List Byte} (hi : i ≠ .setReady)
    (hrow : exec i s = launch i (procedure (writeValue kind value)) s) :
    WritesValue i kind (value s.cfg.map) s :=
  writesValue_of_row hi hrow (bind_of_ok (look_apply s.toEngine))

theorem writesValue_writeGo (s : State) : WritesValue .writeGo .sts (stsGoBytes s.cfg.map) s := by
  refine writesValue_of_row nofun rfl ?_
  have hgo : writeGo s.toEngine = regWrite .sts (stsGoBytes s.cfg.map) s.toEngine :=
    bind_of_ok (look_apply s.toEngine)
  simp only [asUnit, bind_apply, hgo]

theorem writesValue_setReady (s : State) : WritesValue .setReady .sts (stsReadyBytes s.cfg.map) s where
  done _ h := launch_procedure_of_ok
    (asUnit_of_ok ((bind_of_ok (look_apply s.toEngine)).trans (bind_of_ok (attempt_of_ok h))))
  failed _ _ h := launch_procedure_of_ok
    (asUnit_of_ok ((bind_of_ok (look_apply s.toEngine)).trans (bind_of_ok (attempt_of_raised h))))

/-- The register and the bytes of each such instruction (R117, R118). -/
def valueRows : List (Instr × Kind × List Byte) :=
  [(.stsGoVal, .sts, [0x20, 0, 0, 0]), (.writeGo, .sts, [0x20, 0, 0, 0]),
    (.stsReadyVal, .sts, [0x40, 0, 0, 0]), (.setReady, .sts, [0x40, 0, 0, 0]),
    (.accessReqVal, .access, [0x02]), (.accessRelVal, .access, [0x20])]

/-- With the spec's map each writes its bytes, one or four of them. -/
theorem writesValue_of_mem (hmap : s.cfg.map = .standard) (hmem : (i, kind, p) ∈ valueRows) :
    WritesValue i kind p s ∧ 1 ≤ p.length ∧ p.length ≤ 4 := by
  have hgo : stsGoBytes s.cfg.map = [0x20, 0, 0, 0] := by rw [hmap]; rfl
  have hready : stsReadyBytes s.cfg.map = [0x40, 0, 0, 0] := by rw [hmap]; rfl
  have hreq : accessReqBytes s.cfg.map = [0x02] := by rw [hmap]; rfl
  have hrel : accessRelBytes s.cfg.map = [0x20] := by rw [hmap]; rfl
  simp only [valueRows, List.mem_cons, Prod.mk.injEq, List.not_mem_nil, or_false] at hmem
  rcases hmem with ⟨rfl, rfl, rfl⟩ | ⟨rfl, rfl, rfl⟩ | ⟨rfl, rfl, rfl⟩ | ⟨rfl, rfl, rfl⟩ | ⟨rfl, rfl, rfl⟩ |
    ⟨rfl, rfl, rfl⟩
  · exact ⟨hgo ▸ writesValue_of_value nofun rfl, by decide, by decide⟩
  · exact ⟨hgo ▸ writesValue_writeGo s, by decide, by decide⟩
  · exact ⟨hready ▸ writesValue_of_value nofun rfl, by decide, by decide⟩
  · exact ⟨hready ▸ writesValue_setReady s, by decide, by decide⟩
  · exact ⟨hreq ▸ writesValue_of_value nofun rfl, by decide, by decide⟩
  · exact ⟨hrel ▸ writesValue_of_value nofun rfl, by decide, by decide⟩

/-- Settles O36. -/
theorem registerValueWrites : Obligations.RegisterValueWrites := by
  intro i kind p s as rest hmem hs hmap hi
  obtain ⟨hwrites, h1, h4⟩ := writesValue_of_mem hmap hmem
  have hw : p.length ≤ s.cfg.maxXfer := h4.trans hs.wide
  refine ⟨fun ha => ?_, fun v ha => ?_⟩
  · obtain ⟨t, hdone, hm, _⟩ := regWrite_of_answers (kind := kind) hs hi ha (.inl h1) hw
    exact ⟨_, hwrites.done t hdone, hm.finished _, rfl, hm.x⟩
  · obtain ⟨t, hfailed, hm⟩ := regWrite_of_fails (kind := kind) hs.cfg_ok hi ha h1 hw
    exact ⟨_, hwrites.failed _ t hfailed, rfl, hm.inbox, rfl⟩

end Sys2Proof.Machine
end

section
/-! PROOF. The error exits of the register transport: which errors its procedures raise, and what they leave
(40_transport.md R150, R156). -/

namespace Sys2Proof.Machine

variable {α : Type} {b : Transport} {X Y : Err → Engine → Prop} {p : P α} {i : Instr}

/-! ### What a procedure promises of its error exits only -/

/-- The contract of the error exits: wherever the procedure raises, `X` holds. -/
def exits (X : Err → Engine → Prop) : Contract where
  inv _ := True
  raised := X
  waiting _ := True

theorem keeps_exits_of_silent (h : Silent p) : Keeps (exits X) p := Meets.of_silent h h

theorem keeps_exits_imp (h : Keeps (exits X) p) (hXY : ∀ er e, X er e → Y er e) : Keeps (exits Y) p :=
  h.imp (fun _ h => h) (fun _ _ h => h) hXY

theorem keeps_exits_repeatP {body : P (Option α)} (h : Keeps (exits X) body) :
    Keeps (exits X) (repeatP body) :=
  meets_repeatP (fun _ _ => trivial) <|
    h.imp (fun _ h => h) (fun o _ _ => by cases o <;> trivial) fun _ _ h => h

/-! ### Port primitives -/

theorem silent_take (w : Prim) : Silent (take w) := meets_take (fun _ _ => trivial) fun _ _ _ _ => trivial

theorem silent_record (v : Event) : Silent (record v) := meets_change fun _ _ => trivial

theorem silent_now : Silent now :=
  Meets.each fun e _ => (meets_now e).imp (fun _ h => h) (fun _ _ _ => trivial) fun _ _ h => h

theorem silent_expired (t0 budget : Nat) : Silent (expired t0 budget) :=
  Meets.each fun e _ => (meets_expired e t0 budget).imp (fun _ h => h) (fun _ _ _ => trivial) fun _ _ h => h

theorem silent_readyFlag : Silent readyFlag :=
  silent_bind (silent_take _) fun _ => silent_look fun _ => silent_bind (silent_record _) fun _ => silent_pure _

/-- A bus operation raises the bus's own error (R158). -/
def busFailed (er : Err) (_ : Engine) : Prop := ∃ v, er = .io v

theorem busWrite_exits (bs : List Byte) : Keeps (exits busFailed) (busWrite bs) :=
  keeps_bind (keeps_exits_of_silent (silent_take _)) fun a => by
    cases a.err with
    | none => exact keeps_exits_of_silent (silent_record _)
    | some v =>
      exact keeps_bind (keeps_exits_of_silent (silent_record _)) fun _ => keeps_raise fun _ _ => ⟨v, rfl⟩

theorem busRead_exits (n : Nat) : Keeps (exits busFailed) (busRead n) :=
  keeps_bind (keeps_exits_of_silent (silent_take _)) fun a => by
    cases a.err with
    | none => exact keeps_exits_of_silent (silent_bind (silent_record _) fun _ => silent_pure _)
    | some v =>
      exact keeps_bind (keeps_exits_of_silent (silent_record _)) fun _ => keeps_raise fun _ _ => ⟨v, rfl⟩

/-! ### I2C -/

/-- The errors of a register transaction on the bus `b` (R150). -/
def Err.OfBus (b : Transport) (er : Err) : Prop :=
  (∃ n, er = .insufficientResources n) ∨ (∃ v, er = .io v) ∨
    (er = .timeout .ready ∧ b = .i2c) ∨ (er = .timeout .spiStall ∧ b = .spi)

theorem Err.ofBus_of_busFailed {er : Err} {e : Engine} (h : busFailed er e) : er.OfBus b := .inr (.inl h)

/-- The error exits of a transport procedure on the bus `b`: on I2C the ready flag is 0 (R156). On SPI it
always is, by the invariant. -/
def exitsOn (b : Transport) : Contract := exits fun er e => er.OfBus b ∧ (b = .i2c → e.ready = false)

/-- The last look at the flag gives the flag (R157). -/
theorem readyAtDeadline_gives_flag :
    Meets (fun _ => True) readyAtDeadline (fun set e => e.ready = set) X fun _ => True := by
  intro e _
  rw [readyAtDeadline_apply]
  cases h : e.ready
  · exact h
  · exact h

/-- READY_WAIT times out only with the flag 0 (R157, D3). -/
theorem readyWait_exits : Keeps (exitsOn .i2c) readyWait :=
  keeps_bind (keeps_exits_of_silent silent_now) fun _ =>
    keeps_bind (keeps_exits_of_silent (silent_onX _)) fun _ =>
      keeps_exits_repeatP <| keeps_bind (keeps_exits_of_silent silent_readyFlag) fun seen => by
        cases seen
        · exact keeps_look fun _ => keeps_bind (keeps_exits_of_silent (silent_expired _ _)) fun late => by
            cases late
            · exact keeps_pure _
            · exact meets_bind readyAtDeadline_gives_flag fun set => by
                cases set
                · exact meets_raise fun _ h => ⟨.inr (.inr (.inl ⟨rfl, rfl⟩)), fun _ => h⟩
                · exact meets_pure fun _ _ => trivial
        · exact keeps_pure _

/-- Every I2C error exit clears the flag (R151, R152). -/
theorem clearOnErr_exits (h : Keeps (exits X) p) (hX : ∀ er e, X er e → er.OfBus .i2c) :
    Keeps (exitsOn .i2c) (clearOnErr p) :=
  meets_attempt_bind h (fun a => keeps_pure a) fun er e he => ⟨hX er e he, fun _ => rfl⟩

theorem i2cSend_exits (bs : List Byte) : Keeps (exitsOn .i2c) (i2cSend bs) :=
  keeps_bind (keeps_change fun _ _ => trivial) fun _ =>
    keeps_bind (clearOnErr_exits (busWrite_exits bs) fun _ _ => Err.ofBus_of_busFailed) fun _ =>
      clearOnErr_exits readyWait_exits fun _ _ h => h.1

theorem lengthError_exits (n : Nat) :
    Keeps (exits fun er _ => er.OfBus b) (raise (.insufficientResources n) : P α) :=
  keeps_raise fun _ _ => .inl ⟨n, rfl⟩

theorem i2cRead_exits (loc : Nat) (kind : Kind) (n : Nat) : Keeps (exitsOn .i2c) (i2cRead loc kind n) :=
  keeps_look fun _ => by
    split
    · exact clearOnErr_exits (lengthError_exits n) fun _ _ h => h
    · exact keeps_bind (i2cSend_exits _) fun _ =>
        clearOnErr_exits (busRead_exits n) fun _ _ => Err.ofBus_of_busFailed

theorem i2cWrite_exits (loc : Nat) (kind : Kind) (p : List Byte) :
    Keeps (exitsOn .i2c) (i2cWrite loc kind p) :=
  keeps_look fun _ => by
    split
    · exact clearOnErr_exits (lengthError_exits p.length) fun _ _ h => h
    · exact keeps_bind (keeps_change fun _ _ => trivial) fun _ => keeps_look fun _ => i2cSend_exits _

/-! ### SPI -/

/-- On SPI the exits say which error it is. -/
theorem exitsOn_spi_of_ofBus (h : Keeps (exits X) p) (hX : ∀ er e, X er e → er.OfBus .spi) :
    Keeps (exitsOn .spi) p :=
  keeps_exits_imp h fun er e he => ⟨hX er e he, nofun⟩

theorem spi_busRead_exits (n : Nat) : Keeps (exitsOn .spi) (busRead n) :=
  exitsOn_spi_of_ofBus (busRead_exits n) fun _ _ => Err.ofBus_of_busFailed

theorem spi_busWrite_exits (bs : List Byte) : Keeps (exitsOn .spi) (busWrite bs) :=
  exitsOn_spi_of_ofBus (busWrite_exits bs) fun _ _ => Err.ofBus_of_busFailed

theorem stallWait_exits : Keeps (exitsOn .spi) stallWait :=
  keeps_bind (keeps_exits_of_silent silent_now) fun _ =>
    keeps_bind (keeps_exits_of_silent (silent_onX _)) fun _ =>
      keeps_exits_repeatP <| keeps_bind (spi_busRead_exits 1) fun s => by
        cases notStalled (byteAt s 0)
        · exact keeps_look fun _ => keeps_bind (keeps_exits_of_silent (silent_expired _ _)) fun late => by
            cases late
            · exact keeps_pure _
            · exact keeps_raise fun _ _ => ⟨.inr (.inr (.inr ⟨rfl, rfl⟩)), nofun⟩
        · exact keeps_pure _

theorem spiBody_exits (dir : Dir) (hdr : List Byte) (n : Nat) (p : List Byte) :
    Keeps (exitsOn .spi) (spiBody dir hdr n p) := by
  rw [spiBody_eq]
  refine keeps_bind (spi_busWrite_exits hdr) fun _ => keeps_bind stallWait_exits fun _ => ?_
  cases dir
  · exact spi_busRead_exits n
  · exact keeps_bind (spi_busWrite_exits p) fun _ => keeps_pure _

/-- A frame's error is its body's (R153). -/
theorem spiXfer_exits (dir : Dir) (loc : Nat) (kind : Kind) (n : Nat) (p : List Byte) :
    Keeps (exitsOn .spi) (spiXfer dir loc kind n p) :=
  keeps_look fun _ => by
    split
    · exact exitsOn_spi_of_ofBus (lengthError_exits n) fun _ _ h => h
    · exact keeps_bind (meets_spiLock _) fun _ => meets_attempt_bind (spiBody_exits _ _ n p)
        (fun a => keeps_bind (keeps_change fun _ _ => trivial) fun _ => keeps_pure a)
        fun er e he => ⟨he.1, nofun⟩

/-! ### The six procedure codes -/

/-- Each runs on the bus it needs, and exits as said. -/
theorem transportCode_exits (a : Args)
    (hi : i = .i2cRead ∨ i = .i2cWrite ∨ i = .spiRead ∨ i = .spiWrite ∨ i = .spiXfer ∨ i = .readyWait) :
    ∃ b p, neededTransport i = some b ∧ work a i = .code p ∧ Keeps (exitsOn b) p := by
  rcases hi with rfl | rfl | rfl | rfl | rfl | rfl
  · exact ⟨.i2c, _, rfl, rfl, keeps_mapped (i2cRead_exits _ _ _) _⟩
  · exact ⟨.i2c, _, rfl, rfl, keeps_mapped (i2cWrite_exits _ _ _) _⟩
  · exact ⟨.spi, _, rfl, rfl, keeps_mapped (spiXfer_exits _ _ _ _ _) _⟩
  · exact ⟨.spi, _, rfl, rfl, keeps_mapped (keeps_spiWrite spiXfer_exits _ _ _) _⟩
  · exact ⟨.spi, _, rfl, rfl, keeps_asFrame _ (spiXfer_exits _ _ _ _ _)⟩
  · exact ⟨.i2c, _, rfl, rfl, keeps_mapped readyWait_exits _⟩

/-- An error recorded in `ret` is one the procedure raised. -/
theorem procedure_exits {p : P RetVal} (hp : Keeps (exitsOn b) p) :
    Meets (fun _ => True) (procedure p) (fun _ t => ∀ er, t.ret = .err er → (exitsOn b).raised er t)
      (fun _ _ => False) fun _ => True :=
  meets_attempt_bind hp (fun _ => meets_change fun _ _ er hr => by cases hr)
    fun er => meets_change fun _ he er' hr => by
      cases hr
      exact he

/-- Settles O30: on I2C the exits clear the flag, on SPI the invariant holds it 0; lock and registers are the
business of every instruction's frame. -/
theorem transportErrorLeavesNoPartialState : Obligations.TransportErrorLeavesNoPartialState := by
  intro i s t er hi hinv hlock h ht hret
  obtain ⟨b, p, hneeds, hwork, hp⟩ := transportCode_exits s.args hi
  obtain ⟨hrun, hbus⟩ := exec_next h
  obtain rfl : s.cfg.transport = b := hbus b hneeds
  rw [hwork] at hrun
  obtain ⟨her, hready⟩ : (exitsOn s.cfg.transport).raised er t.toEngine := by
    rcases (launch_lands hrun (procedure_exits hp) trivial).1 ht with hl | ⟨_, hf⟩
    · exact hl er hret
    · exact hf.elim
  have hframe := exec_along frame_closed h
  have hinv' : t.toEngine.Inv := hinv.of_frame hframe (exec_lock_of_i2c h)
  have hregs : writesOnly i s.x t.x := frameOfTheWorkingRegisters i s t h
  refine ⟨exec_unlocked h hlock ht, ?_, ?_, her⟩
  · cases hb : s.cfg.transport with
    | i2c => exact hready hb
    | spi => exact hinv'.ready_spi (hframe.cfg ▸ hb)
  · rcases hi with rfl | rfl | rfl | rfl | rfl | rfl <;> exact hregs

end Sys2Proof.Machine
end

section
/-! PROOF. Register transactions with their whole next state (40_transport.md R151 to R157; 30_encoding.md R112,
R113; log 27, log 35): the engine after each procedure, written as what it has become since. -/

namespace Sys2Proof.Machine

variable {e t : Engine} {s : State} {er : Err} {dir : Dir} {kind : Kind} {loc k v : Nat} {go : Byte}
  {bs hdr p : List Byte} {w n f l g h q d : Answer} {rest rest' : List Answer}

/-! ### The engine some events later -/

/-- The engine some primitives later: the ready flag, the clock, the working registers and the answers left as
given, with these events recorded. -/
def Engine.later (e : Engine) (ready : Bool) (clock : Nat) (x : Regs) (rest : List Answer)
    (evs : List Event) : Engine :=
  { e with ready := ready, clock := clock, x := x, inbox := rest, trace := e.trace ++ evs }

theorem Engine.later_later (e : Engine) (r r' : Bool) (c c' : Nat) (x x' : Regs) (i i' : List Answer)
    (evs evs' : List Event) :
    (e.later r c x i evs).later r' c' x' i' evs' = e.later r' c' x' i' (evs ++ evs') := by
  simp [Engine.later]

theorem Engine.later_log (e : Engine) (r : Bool) (c : Nat) (x : Regs) (i : List Answer) (evs : List Event)
    (ev : Event) : (e.later r c x i evs).log ev = e.later r c x i (evs ++ [ev]) := by
  simp [Engine.later, Engine.log]

/-- An answered primitive with its event, where no other user of the SPI controller comes or goes (R45). -/
theorem Engine.settle_log_eq_later (hlock : e.lock = .engine ∨ e.cfg.transport = .i2c) (a : Answer)
    (ev : Event) :
    (e.settle a rest).log ev =
      e.later (e.ready || (a.edge && e.readyPath)) (e.clock + a.ticks) e.x rest [ev] := by
  simp only [Engine.settle, if_pos hlock]
  rfl

/-! ### READY_WAIT (R157) -/

/-- The engine whose wait begins at the clock value that the answer `n` gives. -/
def Engine.waitBegun (e : Engine) (n : Answer) (rest : List Answer) : Engine :=
  e.later (e.ready || n.edge) (e.clock + n.ticks) { e.x with t1 := e.clock + n.ticks } rest
    [.now (e.clock + n.ticks)]

theorem Engine.waitBegun_later (r : Bool) (c : Nat) (evs : List Event) :
    (e.waitBegun n (f :: rest)).later r c (e.waitBegun n (f :: rest)).x rest' evs =
      e.later r c { e.x with t1 := e.clock + n.ticks } rest' (.now (e.clock + n.ticks) :: evs) :=
  Engine.later_later ..

section Wait

variable (hb : e.cfg.transport = .i2c) (hl : e.readyPath = true)
include hb hl

/-- On I2C an edge of any primitive sets the flag (R36, D36). -/
theorem settle_log_of_i2c (a : Answer) (ev : Event) :
    (e.settle a rest).log ev = e.later (e.ready || a.edge) (e.clock + a.ticks) e.x rest [ev] := by
  rw [Engine.settle_log_eq_later (.inr hb), hl, Bool.and_true]

theorem readyFlag_of_i2c (hi : e.inbox = f :: rest) :
    readyFlag e = .ok (e.ready || f.edge)
      (e.later (e.ready || f.edge) (e.clock + f.ticks) e.x rest [.readyFlag (e.ready || f.edge)]) := by
  rw [readyFlag_ok hi, settle_log_of_i2c hb hl, hl, Bool.and_true]

/-- A flag seen ends the turn before the deadline is looked at (R303 (b)). -/
theorem readyWaitTurn_of_seen (hi : e.inbox = f :: rest) (hf : (e.ready || f.edge) = true) :
    readyWaitTurn e = .ok (some ()) (e.later true (e.clock + f.ticks) e.x rest [.readyFlag true]) := by
  rw [readyWaitTurn, bind_of_ok (readyFlag_of_i2c hb hl hi), hf]
  rfl

/-- A flag not seen: the turn looks at the deadline, and where it has passed at the flag as that look left it
(D3, log 35). -/
theorem readyWaitTurn_of_unseen {m : Engine} (hi : e.inbox = f :: l :: rest)
    (hf : (e.ready || f.edge) = false)
    (hm : m = e.later l.edge (e.clock + f.ticks + l.ticks) e.x rest
      [.readyFlag false, .now (e.clock + f.ticks + l.ticks)]) :
    readyWaitTurn e =
      if e.cfg.tIrq * e.cfg.clkPerMs ≤ e.clock + f.ticks + l.ticks - e.x.t1 then
        if l.edge then .ok (some ()) (m.log (.readyFlag true)) else .error (.raised (.timeout .ready)) m
      else .ok none m := by
  set u := e.later false (e.clock + f.ticks) e.x (l :: rest) [.readyFlag false]
  have hflag : readyFlag e = .ok false u := by rw [readyFlag_of_i2c hb hl hi, hf]
  have hlook : (u.settle l rest).log (.now (u.clock + l.ticks)) = m := by
    rw [settle_log_of_i2c (e := u) hb hl, Engine.later_later, hm]
    rfl
  have hexpired := expired_ok (e := u) (t0 := u.x.t1) (budget := u.cfg.tIrq) (a := l) (rest := rest) rfl
  rw [hlook] at hexpired
  have hready : m.ready = l.edge := by rw [hm]; rfl
  rw [readyWaitTurn, bind_of_ok hflag]
  refine (bind_of_ok (look_apply u)).trans ((bind_of_ok hexpired).trans ?_)
  by_cases hlate : e.cfg.tIrq * e.cfg.clkPerMs ≤ e.clock + f.ticks + l.ticks - e.x.t1
  · have hd : decide (u.cfg.tIrq * u.cfg.clkPerMs ≤ u.clock + l.ticks - u.x.t1) = true := decide_eq_true hlate
    rw [if_pos hlate, hd]
    refine (bind_of_ok (readyAtDeadline_apply m)).trans ?_
    rw [hready]
    cases l.edge <;> rfl
  · have hd : decide (u.cfg.tIrq * u.cfg.clkPerMs ≤ u.clock + l.ticks - u.x.t1) = false :=
      decide_eq_false hlate
    rw [if_neg hlate, hd]
    rfl

/-- The wait's start is noted, and its turns begin. -/
theorem readyWait_begins (hi : e.inbox = n :: rest) :
    readyWait e = repeatP readyWaitTurn (e.waitBegun n rest) := by
  rw [readyWait, bind_of_ok (now_ok hi), bind_of_ok (onX_apply _ _), settle_log_of_i2c hb hl]
  rfl

theorem readyWait_of_seen (hi : e.inbox = n :: f :: rest) (hf : (e.ready || n.edge || f.edge) = true) :
    readyWait e = .ok ()
      (e.later true (e.clock + n.ticks + f.ticks) { e.x with t1 := e.clock + n.ticks } rest
        [.now (e.clock + n.ticks), .readyFlag true]) := by
  have hturn := readyWaitTurn_of_seen (e := e.waitBegun n (f :: rest)) hb hl rfl hf
  rw [readyWait_begins hb hl hi, repeatP_done hturn, Engine.waitBegun_later]
  rfl

/-- The first turn of a wait that does not see the flag. -/
theorem readyWait_firstTurn (hi : e.inbox = n :: f :: l :: rest)
    (hf : (e.ready || n.edge || f.edge) = false) {m : Engine}
    (hm : m = e.later l.edge (e.clock + n.ticks + f.ticks + l.ticks)
      { e.x with t1 := e.clock + n.ticks } rest
      [.now (e.clock + n.ticks), .readyFlag false, .now (e.clock + n.ticks + f.ticks + l.ticks)]) :
    readyWait e = repeatP readyWaitTurn (e.waitBegun n (f :: l :: rest)) ∧
    readyWaitTurn (e.waitBegun n (f :: l :: rest)) =
      if e.cfg.tIrq * e.cfg.clkPerMs ≤ f.ticks + l.ticks then
        if l.edge then .ok (some ()) (m.log (.readyFlag true)) else .error (.raised (.timeout .ready)) m
      else .ok none m := by
  refine ⟨readyWait_begins hb hl hi, ?_⟩
  have hsince : e.clock + n.ticks + f.ticks + l.ticks - (e.clock + n.ticks) = f.ticks + l.ticks := by omega
  rw [← hsince]
  exact readyWaitTurn_of_unseen (e := e.waitBegun n (f :: l :: rest)) hb hl rfl hf
    (hm.trans (Engine.waitBegun_later ..).symm)

/-- The budget gone at the first look at the deadline: an edge by then ends the wait (D3, log 35). -/
theorem readyWait_of_edge_at_deadline (hi : e.inbox = n :: f :: l :: rest)
    (hf : (e.ready || n.edge || f.edge) = false)
    (hlate : e.cfg.tIrq * e.cfg.clkPerMs ≤ f.ticks + l.ticks) (hedge : l.edge = true) :
    readyWait e = .ok ()
      (e.later true (e.clock + n.ticks + f.ticks + l.ticks) { e.x with t1 := e.clock + n.ticks } rest
        [.now (e.clock + n.ticks), .readyFlag false, .now (e.clock + n.ticks + f.ticks + l.ticks),
          .readyFlag true]) := by
  obtain ⟨hbegin, hturn⟩ := readyWait_firstTurn hb hl hi hf rfl
  rw [if_pos hlate, if_pos hedge, Engine.later_log, hedge] at hturn
  exact hbegin.trans (repeatP_done hturn)

/-- With no edge by then it times out. -/
theorem readyWait_of_timeout (hi : e.inbox = n :: f :: l :: rest)
    (hf : (e.ready || n.edge || f.edge) = false)
    (hlate : e.cfg.tIrq * e.cfg.clkPerMs ≤ f.ticks + l.ticks) (hedge : l.edge = false) :
    readyWait e = .error (.raised (.timeout .ready))
      (e.later false (e.clock + n.ticks + f.ticks + l.ticks) { e.x with t1 := e.clock + n.ticks } rest
        [.now (e.clock + n.ticks), .readyFlag false, .now (e.clock + n.ticks + f.ticks + l.ticks)]) := by
  obtain ⟨hbegin, hturn⟩ := readyWait_firstTurn hb hl hi hf rfl
  rw [if_pos hlate, hedge] at hturn
  exact hbegin.trans (repeatP_error hturn)

/-- The budget not gone: the flag is looked at again. -/
theorem readyWait_of_second_look (hi : e.inbox = n :: f :: l :: g :: rest)
    (hf : (e.ready || n.edge || f.edge) = false)
    (htime : f.ticks + l.ticks < e.cfg.tIrq * e.cfg.clkPerMs) (hg : (l.edge || g.edge) = true) :
    readyWait e = .ok ()
      (e.later true (e.clock + n.ticks + f.ticks + l.ticks + g.ticks) { e.x with t1 := e.clock + n.ticks } rest
        [.now (e.clock + n.ticks), .readyFlag false, .now (e.clock + n.ticks + f.ticks + l.ticks),
          .readyFlag true]) := by
  obtain ⟨hbegin, hturn⟩ := readyWait_firstTurn hb hl hi hf rfl
  rw [if_neg htime.not_ge] at hturn
  rw [hbegin, repeatP_again consumes_readyWaitTurn hturn,
    repeatP_done (readyWaitTurn_of_seen (e := e.later ..) hb hl rfl hg), Engine.later_later]
  rfl

end Wait

/-- Settles O27. -/
theorem readyWaitResult : Obligations.ReadyWaitResult := by
  refine fun s hb hl => ⟨fun n f rest hi hf => ?_, fun n f l g rest hi hf htime hg => ?_,
    fun n f l rest hi hf hlate => ?_⟩
  · exact launchOn_of_ok hb (Nat.zero_le _) (asUnit_of_ok (readyWait_of_seen hb hl hi hf))
  · exact ⟨_, launchOn_of_ok hb (Nat.zero_le _) (asUnit_of_ok (readyWait_of_second_look hb hl hi hf htime hg)),
      ⟨rfl, rfl, busTrace_append _ _⟩, rfl⟩
  · exact ⟨fun hedge => launchOn_of_ok hb (Nat.zero_le _)
        (asUnit_of_ok (readyWait_of_edge_at_deadline hb hl hi hf hlate hedge)),
      fun hedge => launchOn_of_raised hb (Nat.zero_le _)
        (asUnit_of_raised (readyWait_of_timeout hb hl hi hf hlate hedge))⟩

/-! ### I2C_READ (R151) -/

/-- The engine after the bus write of an I2C transaction (R343). -/
def Engine.sent (e : Engine) (bs : List Byte) (w : Answer) (rest : List Answer) : Engine :=
  e.later w.edge (e.clock + w.ticks) e.x rest [.readyClear, .busWrite bs]

theorem Engine.sent_later (r : Bool) (c : Nat) (x : Regs) (evs : List Event) :
    (e.sent bs w rest).later r c x rest' evs =
      e.later r c x rest' (.readyClear :: .busWrite bs :: evs) :=
  Engine.later_later ..

/-- The flag cleared again on an error exit. -/
theorem Engine.later_clear (r : Bool) (c : Nat) (x : Regs) (evs : List Event) :
    ((e.later r c x rest evs).setReady false).log .readyClear =
      e.later false c x rest (evs ++ [.readyClear]) :=
  Engine.later_log e false c x rest evs .readyClear

theorem i2cRead_of_send (hk : k ≤ e.cfg.maxXfer) :
    i2cRead loc kind k e =
      (i2cSend [i2cAddr e.cfg.map loc kind] >>= fun _ => clearOnErr (busRead k)) e := by
  rw [i2cRead, bind_of_ok (look_apply e), if_neg (by omega)]

section I2c

variable (hb : e.cfg.transport = .i2c) (hl : e.readyPath = true)
include hb hl

/-- After a write that succeeds only the wait is left. -/
theorem i2cSend_of_sent (hi : e.inbox = w :: rest) (hw : w.err = none) :
    i2cSend bs e = clearOnErr readyWait (e.sent bs w rest) := by
  have hwrite := busWrite_ok (bs := bs) (e := e.later false e.clock e.x e.inbox [.readyClear]) hi hw
  rw [settle_log_of_i2c (e := e.later ..) hb hl, Engine.later_later] at hwrite
  rw [i2cSend]
  exact (bind_of_ok (readyClear_apply e)).trans (bind_of_ok (clearOnErr_of_ok hwrite))

theorem i2cSend_of_write_error (hi : e.inbox = w :: rest) (hw : w.err = some v) :
    i2cSend bs e = .error (.raised (.io v))
      (e.later false (e.clock + w.ticks) e.x rest [.readyClear, .busWriteErr bs v, .readyClear]) := by
  have hwrite := busWrite_err (bs := bs) (e := e.later false e.clock e.x e.inbox [.readyClear]) hi hw
  rw [settle_log_of_i2c (e := e.later ..) hb hl, Engine.later_later] at hwrite
  have hexit := clearOnErr_of_raised hwrite
  rw [Engine.later_clear] at hexit
  rw [i2cSend]
  exact (bind_of_ok (readyClear_apply e)).trans (bind_of_error hexit)

section Read

variable (hk : k ≤ e.cfg.maxXfer)
include hk

variable {c : Nat} {x : Regs} {evs : List Event}

/-- The flag seen, the data are read. -/
theorem i2cRead_of_data (hi : e.inbox = w :: rest) (hw : w.err = none)
    (hwait : readyWait (e.sent [i2cAddr e.cfg.map loc kind] w rest) =
      .ok () (e.later true c x (d :: rest') evs))
    (hd : d.err = none) (hlen : d.bytes.length = k) :
    i2cRead loc kind k e = .ok d.bytes (e.later true (c + d.ticks) x rest' (evs ++ [.busRead d.bytes])) := by
  have hread := busRead_ok (n := k) (e := e.later true c x (d :: rest') evs) rfl hd
  rw [← hlen, answerBytes_exact, hlen, settle_log_of_i2c (e := e.later ..) hb hl, Engine.later_later] at hread
  rw [i2cRead_of_send hk, bind_of_ok ((i2cSend_of_sent hb hl hi hw).trans (clearOnErr_of_ok hwait)),
    clearOnErr_of_ok hread]
  rfl

theorem i2cRead_of_data_error (hi : e.inbox = w :: rest) (hw : w.err = none)
    (hwait : readyWait (e.sent [i2cAddr e.cfg.map loc kind] w rest) =
      .ok () (e.later true c x (d :: rest') evs))
    (hd : d.err = some v) :
    i2cRead loc kind k e = .error (.raised (.io v))
      (e.later false (c + d.ticks) x rest' (evs ++ [.busReadErr k v, .readyClear])) := by
  have hread := busRead_err (n := k) (e := e.later true c x (d :: rest') evs) rfl hd
  rw [settle_log_of_i2c (e := e.later ..) hb hl, Engine.later_later] at hread
  rw [i2cRead_of_send hk, bind_of_ok ((i2cSend_of_sent hb hl hi hw).trans (clearOnErr_of_ok hwait)),
    clearOnErr_of_raised hread, Engine.later_clear, List.append_assoc]
  rfl

theorem i2cRead_of_wait_error {r : Bool} (hi : e.inbox = w :: rest) (hw : w.err = none)
    (hwait : readyWait (e.sent [i2cAddr e.cfg.map loc kind] w rest) =
      .error (.raised er) (e.later r c x rest' evs)) :
    i2cRead loc kind k e = .error (.raised er) (e.later false c x rest' (evs ++ [.readyClear])) := by
  rw [i2cRead_of_send hk, bind_of_error ((i2cSend_of_sent hb hl hi hw).trans (clearOnErr_of_raised hwait)),
    Engine.later_clear]

theorem i2cRead_of_write_error (hi : e.inbox = w :: rest) (hw : w.err = some v) :
    i2cRead loc kind k e = .error (.raised (.io v)) (e.later false (e.clock + w.ticks) e.x rest
      [.readyClear, .busWriteErr [i2cAddr e.cfg.map loc kind] v, .readyClear]) := by
  rw [i2cRead_of_send hk, bind_of_error (i2cSend_of_write_error hb hl hi hw)]

end Read

/-- The wait of a transaction whose flag is seen at the first look. -/
theorem sent_wait_of_seen (hf : (w.edge || n.edge || f.edge) = true) :
    readyWait (e.sent bs w (n :: f :: rest)) = .ok ()
      (e.later true (e.clock + w.ticks + n.ticks + f.ticks)
        { e.x with t1 := e.clock + w.ticks + n.ticks } rest
        [.readyClear, .busWrite bs, .now (e.clock + w.ticks + n.ticks), .readyFlag true]) := by
  rw [readyWait_of_seen (e := e.sent ..) hb hl rfl hf, Engine.sent_later]
  rfl

end I2c

theorem asBytes_of_ok {q : P (List Byte)} (h : q e = .ok bs t) : asBytes q e = .ok (.bytes bs) t :=
  bind_of_ok h

theorem asBytes_of_raised {q : P (List Byte)} (h : q e = .error (.raised er) t) :
    asBytes q e = .error (.raised er) t := bind_of_error h

/-- Settles O23. -/
theorem i2cReadResult : Obligations.I2cReadResult := by
  refine ⟨fun s w n f d rest hb hl hloc hk hi hw hd hf hlen => ?_,
    fun s w n f l d rest hb hl hloc hk hi hw hd hf hedge hlen hlate => ?_⟩
  · exact launchOn_of_ok hb hloc
      (asBytes_of_ok (i2cRead_of_data hb hl hk hi hw (sent_wait_of_seen hb hl hf) hd hlen))
  · have hwait := readyWait_of_edge_at_deadline (rest := d :: rest)
      (e := s.sent [i2cAddr s.cfg.map s.args.loc s.args.kind] w (n :: f :: l :: d :: rest))
      hb hl rfl hf hlate hedge
    rw [Engine.sent_later] at hwait
    exact launchOn_of_ok hb hloc (asBytes_of_ok (i2cRead_of_data hb hl hk hi hw hwait hd hlen))

/-- Settles O25. -/
theorem i2cReadErrorExits : Obligations.I2cReadErrorExits := by
  refine fun s v hb hl hloc hk => ⟨fun w rest hi hw => ?_, fun w n f d rest hi hw hf hd => ?_,
    fun w n f l rest hi hw hf hlate => ?_⟩
  · exact launchOn_of_raised hb hloc (asBytes_of_raised (i2cRead_of_write_error hb hl hk hi hw))
  · exact launchOn_of_raised hb hloc
      (asBytes_of_raised (i2cRead_of_data_error hb hl hk hi hw (sent_wait_of_seen hb hl hf) hd))
  · obtain ⟨hunseen, hedge⟩ := Bool.or_eq_false_iff.mp hf
    have hwait := readyWait_of_timeout (rest := rest)
      (e := s.sent [i2cAddr s.cfg.map s.args.loc s.args.kind] w (n :: f :: l :: rest))
      hb hl rfl hunseen hlate hedge
    rw [Engine.sent_later] at hwait
    exact launchOn_of_raised hb hloc (asBytes_of_raised (i2cRead_of_wait_error hb hl hk hi hw hwait))

/-! ### I2C_WRITE (R152) -/

/-- A write is the transaction of its bytes, put together in the scratch buffer (R113). -/
theorem i2cWrite_of_send (hw : p.length ≤ e.cfg.maxXfer) (hc : p.length + 1 ≤ e.cfg.scratchCap) :
    i2cWrite loc kind p e =
      i2cSend (i2cAddr e.cfg.map loc kind :: p) (e.setScratch (i2cAddr e.cfg.map loc kind :: p)) := by
  have hbytes : (e.setScratch (i2cAddr e.cfg.map loc kind :: p)).scratch.take (p.length + 1) =
      i2cAddr e.cfg.map loc kind :: p := by simp
  rw [i2cWrite, bind_of_ok (look_apply e), if_neg (by omega), bind_of_ok (change_apply _ e),
    bind_of_ok (look_apply _), hbytes]

/-- Settles O24. -/
theorem i2cWriteResult : Obligations.I2cWriteResult := by
  intro s w n f rest hb hl hloc hok hlen hi hw hf
  obtain ⟨hcap, _⟩ := (Cfg.ok_iff s.cfg).mp hok
  have hsend := i2cSend_of_sent (bs := i2cAddr s.cfg.map s.args.loc s.args.kind :: s.args.payload)
    (e := s.setScratch (i2cAddr s.cfg.map s.args.loc s.args.kind :: s.args.payload)) hb hl hi hw
  rw [clearOnErr_of_ok (sent_wait_of_seen (e := s.setScratch _) hb hl hf)] at hsend
  exact launchOn_of_ok hb hloc (asUnit_of_ok ((i2cWrite_of_send hlen (by omega)).trans hsend))

/-! ### SPI_READ, SPI_WRITE and SPI_XFER (R153 to R155) -/

section Spi

variable (hlock : e.lock = .engine) (hl : e.readyPath = false)
include hlock hl

/-- In a frame on SPI a primitive changes neither the lock nor the flag (R36, R45). -/
theorem settle_log_of_spi (a : Answer) (ev : Event) :
    (e.settle a rest).log ev = e.later e.ready (e.clock + a.ticks) e.x rest [ev] := by
  rw [Engine.settle_log_eq_later (.inl hlock), hl, Bool.and_false, Bool.or_false]

/-- Header and stall poll, bit 0 of the first byte set: the payload is left. -/
theorem spiBody_of_go (hi : e.inbox = h :: n :: q :: rest) (hh : h.err = none) (hq : q.err = none)
    (hqb : q.bytes = [go]) (hgo : notStalled go = true) :
    spiBody dir hdr k p e = spiPayload dir k p
      (e.later e.ready (e.clock + h.ticks + n.ticks + q.ticks)
        { e.x with t1 := e.clock + h.ticks + n.ticks } rest
        [.busWrite hdr, .now (e.clock + h.ticks + n.ticks), .busRead [go]]) := by
  have hhdr := busWrite_ok (bs := hdr) hi hh
  rw [settle_log_of_spi hlock hl] at hhdr
  set e1 := e.later e.ready (e.clock + h.ticks) e.x (n :: q :: rest) [.busWrite hdr]
  have hnow := now_ok (e := e1) (a := n) (rest := q :: rest) rfl
  rw [settle_log_of_spi (e := e1) hlock hl, Engine.later_later] at hnow
  set e2 := e.later e.ready (e.clock + h.ticks + n.ticks) { e.x with t1 := e.clock + h.ticks + n.ticks }
    (q :: rest) [.busWrite hdr, .now (e.clock + h.ticks + n.ticks)]
  have hpoll := spiStall_of_notStalled (e := e2) (q := q) (rest := rest) rfl hq hqb hgo
  rw [settle_log_of_spi (e := e2) hlock hl, Engine.later_later] at hpoll
  rw [spiBody, bind_of_ok hhdr]
  exact (bind_of_ok hnow).trans ((bind_of_ok (onX_apply _ _)).trans (bind_of_ok hpoll))

end Spi

/-- The engine that has done a frame's primitives and given the controller back. -/
theorem locked_later_unlocked (hl : e.readyPath = false) (c : Nat) (x : Regs) (evs : List Event) :
    ((e.locked l rest).later (e.locked l rest).ready c x rest' evs).unlocked =
      (e.setLock .free).later e.ready c x rest' (.lock :: evs ++ [.unlock]) := by
  have hready : (e.locked l rest).ready = e.ready := by
    simp [Engine.locked, hl]
  rw [hready]
  simp [Engine.locked, Engine.unlocked, Engine.later, Engine.settle, Engine.log, Engine.setLock]

/-- A whole frame, its payload moved by the event `ev`. -/
theorem spiXfer_of_go {ev : Event} (hl : e.readyPath = false) (hi : e.inbox = l :: h :: n :: q :: d :: rest)
    (hfree : l.lockFree = true) (hh : h.err = none) (hq : q.err = none) (hqb : q.bytes = [go])
    (hgo : notStalled go = true) (h1 : 1 ≤ k) (hw : k ≤ e.cfg.maxXfer)
    (hpayload : ∀ m : Engine, m.inbox = d :: rest →
      spiPayload dir k p m = .ok bs ((m.settle d rest).log ev)) :
    spiXfer dir loc kind k p e = .ok bs
      ((e.setLock .free).later e.ready (e.clock + l.ticks + h.ticks + n.ticks + q.ticks + d.ticks)
        { e.x with t1 := e.clock + l.ticks + h.ticks + n.ticks } rest
        [.lock, .busWrite (spiHeader e.cfg.map dir loc kind k),
          .now (e.clock + l.ticks + h.ticks + n.ticks), .busRead [go], ev, .unlock]) := by
  set m := e.locked l (h :: n :: q :: d :: rest)
  have hbody := (spiBody_of_go (e := m) (dir := dir) (hdr := spiHeader e.cfg.map dir loc kind k)
    (k := k) (p := p) (rest := d :: rest) rfl hl rfl hh hq hqb hgo).trans (hpayload _ rfl)
  rw [settle_log_of_spi (e := m.later ..) rfl hl, Engine.later_later] at hbody
  rw [spiXfer_of_body hi hfree h1 hw (attempt_of_ok hbody)]
  exact congrArg (EStateM.Result.ok bs) (locked_later_unlocked hl ..)

theorem spiPayload_read (hi : e.inbox = d :: rest) (hd : d.err = none) (hlen : d.bytes.length = k) :
    spiPayload .read k p e = .ok d.bytes ((e.settle d rest).log (.busRead d.bytes)) := by
  have hread := busRead_ok (n := k) hi hd
  rwa [← hlen, answerBytes_exact, hlen] at hread

theorem spiPayload_write (hi : e.inbox = d :: rest) (hd : d.err = none) :
    spiPayload .write k p e = .ok [] ((e.settle d rest).log (.busWrite p)) :=
  bind_of_ok (busWrite_ok hi hd)

/-- The payload operand itself, where n is its length (log 7). -/
theorem payloadOf_length (a : Args) : payloadOf a a.payload.length = a.payload := answerBytes_exact _

theorem spiWrite_of_ok (hx : spiXfer .write loc kind p.length p e = .ok bs t) :
    spiWrite loc kind p e = .ok () t := bind_of_ok hx

/-- SPI_XFER by its own code, as a read: the payload operand plays no part. -/
theorem asFrame_of_read (hdir : dir = .read) (hx : spiXfer .read loc kind k p e = .ok bs t) :
    asFrame dir (spiXfer dir loc kind k p) e = .ok (.bytes bs) t := by
  subst hdir
  exact asBytes_of_ok hx

/-- As a write of the whole payload operand. -/
theorem asFrame_of_write {a : Args} (hdir : dir = .write) (hk : k = a.payload.length)
    (hx : spiXfer .write loc kind a.payload.length a.payload e = .ok bs t) :
    asFrame dir (spiXfer dir loc kind k (payloadOf a k)) e = .ok .unit t := by
  subst hdir hk
  rw [payloadOf_length]
  exact bind_of_ok hx

/-- Settles O28: three procedures, one frame. -/
theorem spiTransactionResults : Obligations.SpiTransactionResults := by
  intro s l h n q d rest go hb hl hloc hi hfree hh hq hqb hgo hd
  rw [← notStalled_eq] at hgo
  refine ⟨fun i hcode h1 hw hlen => ?_, fun i p hp hcode h1 hw => ?_⟩
  · have hframe (p : List Byte) := spiXfer_of_go (loc := s.args.loc) (kind := s.args.kind) hl hi hfree hh
      hq hqb hgo h1 hw fun m hm => spiPayload_read (p := p) hm hd hlen
    rcases hcode with rfl | ⟨rfl, hdir⟩
    · exact launchOn_of_ok hb hloc (asBytes_of_ok (hframe []))
    · exact launchOn_of_ok hb hloc (asFrame_of_read hdir (hframe _))
  · subst hp
    have hframe := spiXfer_of_go (loc := s.args.loc) (kind := s.args.kind) hl hi hfree hh
      hq hqb hgo h1 hw fun m hm => spiPayload_write (p := s.args.payload) hm hd
    rcases hcode with rfl | ⟨rfl, hdir, hlen⟩
    · exact launchOn_of_ok hb hloc (asUnit_of_ok (spiWrite_of_ok hframe))
    · exact launchOn_of_ok hb hloc (asFrame_of_write hdir hlen hframe)

end Sys2Proof.Machine
end

section
/-! PROOF. A register access that ends, well or in an error of the bus or of its wait (40_transport.md R150 to
R158): what its caller is given and what it has moved, on either bus. -/

namespace Sys2Proof.Machine

variable {α : Type} {e t : Engine} {er : Err} {dir : Dir} {kind : Kind} {loc k : Nat} {a : Access}
  {bs p : List Byte} {as rest : List Answer} {evs : List Event}

/-! ### The access whose wait runs out, or whose first bus operation fails -/

/-- No edge before the deadline: the wait after the bus write times out, and the flag is cleared again (R152,
R157). -/
theorem i2cSend_of_timeout {w n f l : Answer} (hb : e.cfg.transport = .i2c) (hl : e.readyPath = true)
    (hi : e.inbox = w :: n :: f :: l :: rest) (hw : w.err = none)
    (hf : (w.edge || n.edge || f.edge || l.edge) = false)
    (hlate : e.cfg.tIrq * e.cfg.clkPerMs ≤ f.ticks + l.ticks) :
    ∃ t, i2cSend bs e = .error (.raised (.timeout .ready)) t ∧ Moved e t rest [.busWrite bs] := by
  obtain ⟨hunseen, hedge⟩ := Bool.or_eq_false_iff.mp hf
  have hwait := readyWait_of_timeout (e := e.sent bs w (n :: f :: l :: rest)) hb hl rfl hunseen hlate hedge
  have hexit := clearOnErr_of_raised hwait
  rw [Engine.sent_later, Engine.later_clear] at hexit
  refine ⟨_, (i2cSend_of_sent hb hl hi hw).trans hexit, ?_⟩
  constructor <;> simp [Engine.sent, Engine.later, busTrace, List.filter, Event.onBus, cmdReads, sleeps]

/-- The bus write of an I2C access and the wait after it, ending in an error. -/
theorem i2cSend_of_err (hb : e.cfg.transport = .i2c) (hl : e.readyPath = true) (hi : e.inbox = as ++ rest)
    (ha : AnswersErr e.cfg er as) (hbs : bs = a.opening e.cfg) :
    ∃ t, i2cSend bs e = .error (.raised er) t ∧ Moved e t rest (errTraffic e.cfg a er) := by
  subst hbs
  unfold AnswersErr at ha
  split at ha
  case h_1 v =>
    rw [hb] at ha
    obtain ⟨w, rfl, hw⟩ := ha
    simpa [errTraffic, hb] using i2cSend_of_fails hi hw
  case h_2 =>
    obtain ⟨_, w, n, f, l, rfl, hw, hf, hlate⟩ := ha
    simpa [errTraffic, hb] using i2cSend_of_timeout hb hl hi hw hf hlate
  case h_3 =>
    obtain ⟨hspi, _⟩ := ha
    rw [hb] at hspi
    cases hspi
  case h_4 => exact ha.elim

/-- The frame of an SPI access, ending in an error: its header fails, or it stays stalled (R153). -/
theorem spiXfer_of_err (hb : e.cfg.transport = .spi) (hi : e.inbox = as ++ rest)
    (ha : AnswersErr e.cfg er as) (h1 : 1 ≤ k) (hw : k ≤ e.cfg.maxXfer)
    (hhdr : spiHeader e.cfg.map dir loc kind k = a.opening e.cfg) :
    ∃ t, spiXfer dir loc kind k p e = .error (.raised er) t ∧ Moved e t rest (errTraffic e.cfg a er) := by
  unfold AnswersErr at ha
  split at ha
  case h_1 v =>
    rw [hb] at ha
    obtain ⟨l, h, rfl, hl, hh⟩ := ha
    have hfail := busWrite_err (bs := spiHeader e.cfg.map dir loc kind k)
      (Engine.locked_inbox e l (h :: rest)) hh
    have hbody := attempt_of_raised (bind_of_error hfail : spiBody dir _ k p (e.locked l (h :: rest)) = _)
    refine ⟨_, spiXfer_of_body hi hl h1 hw hbody, ?_⟩
    simpa [errTraffic, hb, hhdr, busTrace, List.filter, Event.onBus] using
      (Moved.event _ h rest (.busWriteErr _ v) rfl).frame
  case h_2 =>
    obtain ⟨hi2c, _⟩ := ha
    rw [hb] at hi2c
    cases hi2c
  case h_3 =>
    obtain ⟨_, l, h, n, q, z, rfl, hl, hh, hq, hqb, hgone⟩ := ha
    obtain ⟨m, hopen, hm, hclock, ht1⟩ := spiBody_of_opened (dir := dir) (k := k) (p := p)
      (hdr := spiHeader e.cfg.map dir loc kind k) (Engine.locked_inbox e l (h :: n :: q :: z :: rest)) hh
    have hcfg : m.cfg = e.cfg := hm.cfg
    obtain ⟨t, hstall, hmt⟩ := spiStall_of_gone hm.inbox hq hqb rfl (by rw [hcfg, ht1]; omega)
    have hbody := attempt_of_raised (hopen.trans (bind_of_error hstall))
    refine ⟨_, spiXfer_of_body hi hl h1 hw hbody, ?_⟩
    simpa [errTraffic, hb, hhdr] using (hm.trans hmt).frame
  case h_4 => exact ha.elim

theorem regRead_of_err (hs : e.Serves) (hi : e.inbox = as ++ rest) (ha : AnswersErr e.cfg er as)
    (h1 : 1 ≤ k) (hw : k ≤ e.cfg.maxXfer) :
    ∃ t, regRead kind k e = .error (.raised er) t ∧ Moved e t rest (errTraffic e.cfg (.read kind k) er) := by
  rw [regRead, bind_of_ok (look_apply e)]
  cases hb : e.cfg.transport with
  | i2c =>
    obtain ⟨t, hsend, hm⟩ := i2cSend_of_err (bs := [i2cAddr e.cfg.map e.cfg.loc kind])
      (a := .read kind k) hb (hs.live hb) hi ha
      (by simp [Access.opening, hb])
    exact ⟨t, (i2cRead_of_send hw).trans (bind_of_error hsend), hm⟩
  | spi => exact spiXfer_of_err hb hi ha h1 hw (by simp [Access.opening, hb])

theorem regWrite_of_err (hs : e.Serves) (hi : e.inbox = as ++ rest) (ha : AnswersErr e.cfg er as)
    (h1 : 1 ≤ p.length) (hw : p.length ≤ e.cfg.maxXfer) :
    ∃ t, regWrite kind p e = .error (.raised er) t ∧
      Moved e t rest (errTraffic e.cfg (.write kind p) er) := by
  rw [regWrite, bind_of_ok (look_apply e)]
  cases hb : e.cfg.transport with
  | i2c =>
    obtain ⟨hscratch, _⟩ := (Cfg.ok_iff e.cfg).mp hs.cfg_ok
    obtain ⟨t, hsend, hm⟩ := i2cSend_of_err (e := e.setScratch (i2cAddr e.cfg.map e.cfg.loc kind :: p))
      (bs := i2cAddr e.cfg.map e.cfg.loc kind :: p) (a := .write kind p) hb (hs.live hb) hi ha
      (by simp [Access.opening, hb])
    exact ⟨t, (i2cWrite_of_send hw (by omega)).trans hsend, (Moved.setScratch e _).trans hm⟩
  | spi =>
    obtain ⟨t, hx, hm⟩ := spiXfer_of_err (dir := .write) (loc := e.cfg.loc) (kind := kind) (p := p)
      (a := .write kind p) hb hi ha h1 hw (by simp [Access.opening, hb])
    exact ⟨t, bind_of_error hx, hm⟩

/-! ### The access with its outcome -/

theorem readDone_of_answers {c : Cfg} (ha : AnswersRead c.transport bs as) :
    ReadDone c kind bs.length (.ok bs) as (readTraffic c kind bs) := ⟨rfl, ha, rfl⟩

theorem readDone_of_fails {c : Cfg} {v : Nat} (ha : AnswersFail c.transport v as) :
    ReadDone c kind k (.error (.io v)) as (errTraffic c (.read kind k) (.io v)) := ⟨ha, rfl⟩

theorem attempt_regRead_of_done {o : Except Err (List Byte)} (hs : e.Serves) (hi : e.inbox = as ++ rest)
    (ho : ReadDone e.cfg kind k o as evs) (h1 : 1 ≤ k) (hw : k ≤ e.cfg.maxXfer) :
    ∃ t, attempt (regRead kind k) e = .ok o t ∧ Moved e t rest evs := by
  cases o with
  | ok bs =>
    obtain ⟨hlen, ha, rfl⟩ := ho
    obtain ⟨t, hread, hm, _⟩ := regRead_of_answers hs hi ha h1 hw hlen
    exact ⟨t, attempt_of_ok hread, hm⟩
  | error er =>
    obtain ⟨ha, rfl⟩ := ho
    obtain ⟨t, hread, hm⟩ := regRead_of_err hs hi ha h1 hw
    exact ⟨t, attempt_of_raised hread, hm⟩

theorem attempt_regWrite_of_done {o : Except Err Unit} (hs : e.Serves) (hi : e.inbox = as ++ rest)
    (ho : WriteDone e.cfg kind p o as evs) (h1 : 1 ≤ p.length) (hw : p.length ≤ e.cfg.maxXfer) :
    ∃ t, attempt (regWrite kind p) e = .ok o t ∧ Moved e t rest evs := by
  cases o with
  | ok _ =>
    obtain ⟨ha, rfl⟩ := ho
    obtain ⟨t, hwrite, hm, _⟩ := regWrite_of_answers (kind := kind) hs hi ha (.inl h1) hw
    exact ⟨t, attempt_of_ok hwrite, hm⟩
  | error er =>
    obtain ⟨ha, rfl⟩ := ho
    obtain ⟨t, hwrite, hm⟩ := regWrite_of_err (kind := kind) hs hi ha h1 hw
    exact ⟨t, attempt_of_raised hwrite, hm⟩

end Sys2Proof.Machine
end

section
/-! PROOF. The Locality Manager (41_locality.md R180 to R183; 60_exceptions.md R302 (b)): what CHECK_LOCALITY,
REQUEST_LOCALITY and RELEASE_LOCALITY make of the outcomes of their accesses, whatever these are. -/

namespace Sys2Proof.Machine

variable {α : Type} {e m t : Engine} {er : Err} {s : State} {i : Instr} {b : Byte}
  {o : Except Err (List Byte)} {w : Except Err Unit} {q : P Unit} {r : Except Err Unit}
  {as rest : List Answer} {evs tr : List Event}

/-! ### A procedure code that returns nothing -/

/-- A procedure goes on as another from another engine. -/
theorem attempt_congr {p p' : P α} (h : p e = p' m) : attempt p e = attempt p' m := by
  simp [attempt, h]

theorem attempt_eq_value {p : P α} {v : α} : attempt p e = .ok (.ok v) t ↔ p e = .ok v t := by
  simp [attempt_eq_ok]

theorem attempt_eq_error {p : P α} : attempt p e = .ok (.error er) t ↔ p e = .error (.raised er) t := by
  simp [attempt_eq_ok]

/-- Its outcome is in `ret`. -/
theorem launch_asUnit (h : attempt q s.toEngine = .ok r t) :
    launch i (procedure (asUnit q)) s =
      .next { s with toEngine := t.setRet (retOf (r.map fun _ => .unit)), running := none } := by
  rcases attempt_eq_ok.mp h with ⟨_, rfl, hq⟩ | ⟨er, rfl, hq⟩
  · exact launch_procedure_of_ok (asUnit_of_ok hq)
  · exact launch_procedure_of_raised (asUnit_of_raised hq)

/-- What has moved since a moment with the same bus traffic is what the instruction has done. -/
theorem Moved.finished_since (h : Moved e t rest evs) (he : busTrace e.trace = busTrace s.trace) (r : Ret) :
    Finished s { s with toEngine := t.setRet r, running := none } rest evs :=
  ⟨rfl, h.inbox, he ▸ h.traffic⟩

/-! ### What a check notes -/

theorem Moved.access (h : Moved e t rest evs) : t.x.access = e.x.access := by rw [h.x]

/-- The engine that has noted what it read from ACCESS (R180). -/
def Engine.noted (e : Engine) (o : Except Err (List Byte)) : Engine :=
  e.setX { e.x with access := checkedByte e.x.access o }

@[simp] theorem Engine.noted_cfg (e : Engine) (o : Except Err (List Byte)) : (e.noted o).cfg = e.cfg := rfl

theorem Engine.Serves.noted (h : e.Serves) (o : Except Err (List Byte)) : (e.noted o).Serves :=
  ⟨h.cfg_ok, h.wide, h.live⟩

/-- What moves between two engines moves between them once both have noted the byte. -/
theorem Moved.noted (h : Moved e t rest evs) (o : Except Err (List Byte)) :
    Moved (e.noted o) (t.noted o) rest evs :=
  { h with
    x := by
      change { t.x with access := checkedByte t.x.access o } =
        { e.x with access := checkedByte e.x.access o, t1 := t.x.t1 }
      rw [h.x] }

/-- ACCESS is one byte wide, which every transport that serves can move (R90). -/
theorem attempt_readAccess (hs : e.Serves) (hi : e.inbox = as ++ rest)
    (ho : ReadDone e.cfg .access 1 o as tr) :
    ∃ t, attempt (regRead .access 1) e = .ok o t ∧ Moved e t rest tr :=
  attempt_regRead_of_done hs hi ho le_rfl (Nat.one_le_of_lt hs.wide)

theorem attempt_writeAccess (hs : e.Serves) (hi : e.inbox = as ++ rest)
    (hw : WriteDone e.cfg .access [b] w as tr) :
    ∃ t, attempt (regWrite .access [b]) e = .ok w t ∧ Moved e t rest tr :=
  attempt_regWrite_of_done hs hi hw le_rfl (Nat.one_le_of_lt hs.wide)

/-! ### CHECK_LOCALITY (R180) -/

/-- What a check makes of its read. -/
def checkOutcome (c : Cfg) : Except Err (List Byte) → Except Err Unit
  | .ok bs => if localityOk c.map (byteAt bs 0) then .ok () else .error (.invalidDeviceState (byteAt bs 0))
  | .error er => .error er

theorem checkOutcome_of_passes {c : Cfg} (h : checkPasses c o = true) : checkOutcome c o = .ok () := by
  cases o with
  | ok bs => exact if_pos h
  | error er => cases h

theorem checkOutcome_of_fails {c : Cfg} (h : checkPasses c o = false) :
    ∃ er, checkOutcome c o = .error er := by
  cases o with
  | ok bs => exact ⟨_, if_neg (Bool.eq_false_iff.mp h)⟩
  | error er => exact ⟨er, rfl⟩

/-- One read decides; the byte it gives is noted. -/
theorem attempt_checkLocality (h : attempt (regRead .access 1) e = .ok o m) :
    attempt checkLocality e = .ok (checkOutcome m.cfg o) (m.noted o) := by
  rcases attempt_eq_ok.mp h with ⟨bs, rfl, hread⟩ | ⟨er, rfl, hread⟩
  · rw [checkLocality, attempt_congr (bind_of_ok hread), attempt_congr (bind_of_ok (onX_apply _ m)),
      attempt_congr (bind_of_ok (look_apply _)), checkOutcome]
    cases hok : localityOk m.cfg.map (byteAt bs 0) with
    | true => exact attempt_of_ok (by simp [Engine.noted, checkedByte, hok])
    | false => exact attempt_of_raised (by simp [Engine.noted, checkedByte, hok])
  · exact attempt_of_raised (bind_of_error hread)

theorem attempt_checkLocality_of_done (hs : e.Serves) (hi : e.inbox = as ++ rest)
    (ho : ReadDone e.cfg .access 1 o as tr) :
    ∃ t, attempt checkLocality e = .ok (checkOutcome e.cfg o) t ∧ Moved (e.noted o) t rest tr := by
  obtain ⟨m, hread, hm⟩ := attempt_readAccess hs hi ho
  exact ⟨_, hm.cfg ▸ attempt_checkLocality hread, hm.noted o⟩

/-- A register read that raises has left `x[access]` alone: of the working registers it writes t1 only (R31). -/
theorem regRead_keeps_access {kind : Kind} {n : Nat} (h : regRead kind n e = .error (.raised er) t) :
    t.x.access = e.x.access := by
  have htouches := (made_regRead (c := e.cfg) kind n).touches_of_port (S := {.t1}) (by decide) e rfl
  rw [h] at htouches
  exact htouches.regs .access (by decide)

/-- A check whose read fails ends with the transport's error. -/
theorem exec_checkLocality_of_raised (h : regRead .access 1 s.toEngine = .error (.raised er) m) :
    ∃ t, exec .checkLocality s = .next t ∧ t.running = none ∧ t.trace = m.trace ∧ t.inbox = m.inbox ∧
      t.ret = .err er ∧ t.x.access = s.x.access :=
  ⟨_, launch_asUnit (attempt_checkLocality (attempt_of_raised h)), rfl, rfl, rfl, rfl,
    (regRead_keeps_access h : m.x.access = s.x.access)⟩

/-- Settles O37: the check is its one read, and what `checkOutcome` makes of it. -/
theorem checkLocalityResult : Obligations.CheckLocalityResult := by
  refine fun s as rest hs hi => ⟨fun b ha => ?_, fun v ha => ?_, fun _ _ => exec_checkLocality_of_raised⟩
  · obtain ⟨t, hcheck, hm⟩ := attempt_checkLocality_of_done hs hi (readDone_of_answers ha)
    refine ⟨_, launch_asUnit hcheck, hm.finished_since rfl _, hm.x, ?_⟩
    change retOf ((if localityOk s.cfg.map b = true then .ok () else _ : Except Err Unit).map _) = _
    split <;> rfl
  · obtain ⟨m, hread, hm⟩ := regRead_of_err (kind := .access) (er := .io v) hs hi ha le_rfl
      (Nat.one_le_of_lt hs.wide)
    obtain ⟨t, hexec, hend, _, hinbox, hret, haccess⟩ := exec_checkLocality_of_raised hread
    exact ⟨t, hexec, hend, hinbox.trans hm.inbox, hret, haccess⟩

/-! ### RELEASE_LOCALITY (R182, R183) -/

/-- Whether a release writes, by what its read gave. -/
def releaseWrites (c : Cfg) (force : Bool) : Except Err (List Byte) → Bool
  | .ok bs => force || releaseWanted c.map (byteAt bs 0)
  | .error _ => c.releaseWriteOnReadFail && force

/-- The read is made and noted; the write is all that is left. -/
theorem releaseLocality_of_read {force : Bool} (h : attempt (regRead .access 1) e = .ok o m) :
    releaseLocality force e = onlyIf (releaseWrites m.cfg force o) relinquish (m.noted o) := by
  rw [releaseLocality, bind_of_ok h, bind_of_ok (look_apply m)]
  cases o with
  | ok bs => exact bind_of_ok (onX_apply _ m)
  | error er => rfl

/-- The write's outcome is discarded. -/
theorem relinquish_of_done (hs : e.Serves) (hi : e.inbox = as ++ rest)
    (hw : WriteDone e.cfg .access (accessRelBytes e.cfg.map) w as tr) :
    ∃ t, relinquish e = .ok () t ∧ Moved e t rest tr := by
  obtain ⟨t, hwrite, hm⟩ := attempt_writeAccess hs hi hw
  exact ⟨t, (bind_of_ok (look_apply e)).trans (bind_of_ok hwrite), hm⟩

section Release

variable {force : Bool} {ra wa : List Answer} {rt wt : List Event} (hs : e.Serves)
  (ho : ReadDone e.cfg .access 1 o ra rt)
include hs ho

theorem releaseLocality_without_write (hi : e.inbox = ra ++ rest) (hno : releaseWrites e.cfg force o = false) :
    ∃ t, releaseLocality force e = .ok () t ∧ Moved (e.noted o) t rest rt := by
  obtain ⟨m, hread, hm⟩ := attempt_readAccess hs hi ho
  refine ⟨_, ?_, hm.noted o⟩
  rw [releaseLocality_of_read hread, hm.cfg, hno]
  rfl

theorem releaseLocality_with_write (hi : e.inbox = ra ++ wa ++ rest)
    (hyes : releaseWrites e.cfg force o = true)
    (hw : WriteDone e.cfg .access (accessRelBytes e.cfg.map) w wa wt) :
    ∃ t, releaseLocality force e = .ok () t ∧ Moved (e.noted o) t rest (rt ++ wt) := by
  obtain ⟨m, hread, hm⟩ := attempt_readAccess hs (hi.trans (List.append_assoc ..)) ho
  obtain ⟨t, hwrite, hmt⟩ := relinquish_of_done (e := m.noted o) ((hm.serves hs).noted o) hm.inbox
    (by rwa [Engine.noted_cfg, hm.cfg])
  refine ⟨t, ?_, (hm.noted o).trans hmt⟩
  rw [releaseLocality_of_read hread, hm.cfg, hyes]
  exact hwrite

end Release

/-- The instruction ends with Ok, as its procedure does. -/
theorem exec_releaseLocality_of_ok (h : releaseLocality s.args.force s.toEngine = .ok () t) :
    exec .releaseLocality s = .next { s with toEngine := t.setRet (.ok .unit), running := none } :=
  launch_asUnit (attempt_of_ok h)

/-- A procedure that raises nothing leaves Ok in `ret`. -/
theorem ret_of_silent {s t : State} (hq : Silent q) (h : launch i (procedure (asUnit q)) s = .next t)
    (ht : t.running = none) : t.ret = .ok .unit := by
  have hbody : Meets (fun _ => True) (procedure (asUnit q)) (fun _ t => t.ret = .ok .unit)
      (fun _ _ => False) fun _ => True :=
    meets_attempt_bind (J := fun v _ => v = .unit) (meets_bind hq fun _ => meets_pure fun _ _ => rfl)
      (fun v => meets_change fun _ hv => congrArg Ret.ok hv) fun _ => meets_change fun _ hf => hf.elim
  rcases (launch_lands h hbody trivial).1 ht with hret | ⟨_, hf⟩
  · exact hret
  · exact hf.elim

/-! ### REQUEST_LOCALITY before its write (R181, R183 (a)) -/

/-- Where the first check passes there is nothing more to do. -/
theorem requestLocality_of_passes (hs : e.Serves) (hi : e.inbox = as ++ rest)
    (ho : ReadDone e.cfg .access 1 o as tr) (hpass : checkPasses e.cfg o = true) :
    ∃ t, requestLocality e = .ok () t ∧ Moved (e.noted o) t rest tr := by
  obtain ⟨t, hcheck, hm⟩ := attempt_checkLocality_of_done hs hi ho
  rw [checkOutcome_of_passes hpass] at hcheck
  exact ⟨t, bind_of_ok hcheck, hm⟩

/-- Settles O39: a first check that passes is the whole request, and a release is its read with at most one
write, neither of which it lets fail it. -/
theorem localityManagerProperties : Obligations.LocalityManagerProperties := by
  refine ⟨fun s b as rest hs hi ha hok => ?_, fun s b as wa rest hs hi ha => ⟨fun hwants => ?_, ?_⟩,
    fun s t h ht => ret_of_silent (silent_releaseLocality s.args.force) h ht,
    fun s v as wa rest hs hi ha => ⟨fun hno => ?_, fun hyes hw => ?_⟩⟩
  · obtain ⟨t, hrequest, hm⟩ := requestLocality_of_passes hs hi (readDone_of_answers ha) hok
    exact ⟨_, launch_asUnit (attempt_of_ok hrequest), hm.finished_since rfl _, rfl, hm.x⟩
  · have hrelease {w : Except Err Unit} {tr : List Event} :=
      releaseLocality_with_write (w := w) (wt := tr) hs (readDone_of_answers ha) hi
        (Bool.or_eq_true_iff.mpr hwants)
    refine ⟨fun hw => ?_, fun v hw => ?_⟩
    · obtain ⟨t, hrelease, hm⟩ := hrelease (w := .ok ()) ⟨hw, rfl⟩
      exact ⟨_, exec_releaseLocality_of_ok hrelease, hm.finished_since rfl _, rfl, hm.x⟩
    · obtain ⟨t, hrelease, hm⟩ := hrelease (w := .error (.io v)) ⟨hw, rfl⟩
      exact ⟨_, exec_releaseLocality_of_ok hrelease, rfl, hm.inbox, rfl⟩
  · intro hforce hwanted
    obtain ⟨t, hrelease, hm⟩ := releaseLocality_without_write hs (readDone_of_answers ha)
      (hi.trans (List.append_assoc ..)) (Bool.or_eq_false_iff.mpr ⟨hforce, hwanted⟩)
    exact ⟨_, exec_releaseLocality_of_ok hrelease, hm.finished_since rfl _, rfl⟩
  · obtain ⟨t, hrelease, hm⟩ := releaseLocality_without_write hs (readDone_of_fails ha)
      (hi.trans (List.append_assoc ..)) hno
    exact ⟨_, exec_releaseLocality_of_ok hrelease, rfl, hm.inbox, rfl, hm.access⟩
  · obtain ⟨t, hrelease, hm⟩ :=
      releaseLocality_with_write (w := .ok ()) hs (readDone_of_fails ha) hi hyes ⟨hw, rfl⟩
    exact ⟨_, exec_releaseLocality_of_ok hrelease, rfl, hm.inbox, rfl, hm.access⟩

end Sys2Proof.Machine
end

section
/-! PROOF. REQUEST_LOCALITY where the first check fails (41_locality.md R181; 60_exceptions.md R302 (b)): the
write, and the checks after it, by induction on those that fail. -/

namespace Sys2Proof.Machine

variable {e m t : Engine} {er : Err} {o last : Except Err (List Byte)} {os : List (Except Err (List Byte))}
  {left : Nat} {as rest : List Answer} {evs tr : List Event}

/-! ### What checks leave, whatever they read -/

/-- The engine with what the checks with the outcomes `os` note, `tries` the number of the last, and with the
sleeps `ms` between them. What else the checks do is `Moved` from here; it does not look at where in the trace
the sleeps stand. -/
def Engine.checked (e : Engine) (tries : Nat) (os : List (Except Err (List Byte))) (ms : List Nat) : Engine :=
  { e with
    x := { e.x with access := os.foldl checkedByte e.x.access, tries := BitVec.ofNat 8 tries }
    trace := e.trace ++ ms.map .sleep }

theorem Engine.checked_checked (e : Engine) (k k' : Nat) (os os' : List (Except Err (List Byte)))
    (ms ms' : List Nat) : (e.checked k os ms).checked k' os' ms' = e.checked k' (os ++ os') (ms ++ ms') := by
  simp [Engine.checked]

theorem Engine.Serves.checked (h : e.Serves) (k : Nat) (os : List (Except Err (List Byte))) (ms : List Nat) :
    (e.checked k os ms).Serves :=
  ⟨h.cfg_ok, h.wide, h.live⟩

@[simp] theorem busTrace_map_sleep (ms : List Nat) : busTrace (ms.map .sleep) = [] := by
  simp [busTrace, Event.onBus]

@[simp] theorem cmdReads_map_sleep (ms : List Nat) : cmdReads (ms.map .sleep) = [] := by
  simp [cmdReads]

@[simp] theorem sleeps_map_sleep (ms : List Nat) : sleeps (ms.map .sleep) = ms := by
  simp [sleeps, List.filterMap_map]

theorem Engine.busTrace_checked (e : Engine) (k : Nat) (os : List (Except Err (List Byte))) (ms : List Nat) :
    busTrace (e.checked k os ms).trace = busTrace e.trace := by simp [Engine.checked]

theorem Engine.sleeps_checked (e : Engine) (k : Nat) (os : List (Except Err (List Byte))) (ms : List Nat) :
    sleeps (e.checked k os ms).trace = sleeps e.trace ++ ms := by simp [Engine.checked]

/-- What moves between two engines moves between them once both have made the same checks. -/
theorem Moved.checked (h : Moved e t rest evs) (k : Nat) (os : List (Except Err (List Byte)))
    (ms : List Nat) : Moved (e.checked k os ms) (t.checked k os ms) rest evs :=
  { h with
    x := by
      change { t.x with access := os.foldl checkedByte t.x.access, tries := BitVec.ofNat 8 k } =
        { e.x with
          access := os.foldl checkedByte e.x.access, tries := BitVec.ofNat 8 k, t1 := t.x.t1 }
      rw [h.x]
    traffic := by simp [Engine.checked, h.traffic]
    reads := by simp [Engine.checked, h.reads]
    sleeps := by simp [Engine.checked, h.sleeps] }

/-- A sleep between two checks (R181). -/
theorem sleep_of_checked {k : Nat} {ms : List Nat} {q : Answer} (h : Moved (e.checked k os ms) m (q :: rest) evs)
    (d : Nat) : ∃ t, sleep d m = .ok () t ∧ Moved (e.checked k os (ms ++ [d])) t rest evs := by
  refine ⟨_, sleep_ok h.inbox, { h with inbox := rfl, traffic := ?_, reads := ?_, sleeps := ?_ }⟩
  · simpa [Engine.checked, busTrace, List.filter, Event.onBus] using h.traffic
  · simpa [Engine.checked, cmdReads] using h.reads
  · have hslept := h.sleeps
    rw [Engine.sleeps_checked] at hslept ⊢
    simp [hslept, show sleeps [.sleep d] = [d] from rfl]

/-! ### The checks after the write -/

/-- What the last check decides (R181). -/
def lastOutcome (c : Cfg) (o : Except Err (List Byte)) : Except Err Unit :=
  if checkPasses c o then .ok () else .error (.timeout .locality)

section Checks

variable (hs : e.Serves)
include hs

/-- A check of the loop, after it has counted itself. -/
theorem attempt_countedCheck {k : Nat} (hi : e.inbox = as ++ rest) (ho : ReadDone e.cfg .access 1 o as tr) :
    ∃ t, attempt checkLocality (e.setX { e.x with tries := BitVec.ofNat 8 k }) =
        .ok (checkOutcome e.cfg o) t ∧
      Moved (e.checked k [o] []) t rest tr := by
  obtain ⟨t, hcheck, hm⟩ := attempt_checkLocality_of_done
    (e := e.setX { e.x with tries := BitVec.ofNat 8 k }) ⟨hs.cfg_ok, hs.wide, hs.live⟩ hi ho
  exact ⟨t, hcheck, by simpa [Engine.checked, Engine.noted, Engine.setX] using hm⟩

theorem requestChecks_of_passes (hi : e.inbox = as ++ rest) (ho : ReadDone e.cfg .access 1 o as tr)
    (hpass : checkPasses e.cfg o = true) :
    ∃ t, requestChecks (left + 1) e = .ok () t ∧
      Moved (e.checked (e.cfg.locTries - left) [o] []) t rest tr := by
  obtain ⟨t, hcheck, hm⟩ := attempt_countedCheck (k := e.cfg.locTries - left) hs hi ho
  rw [checkOutcome_of_passes hpass] at hcheck
  refine ⟨t, ?_, hm⟩
  rw [requestChecks, bind_of_ok (look_apply e), bind_of_ok (onX_apply _ e), bind_of_ok hcheck]
  rfl

theorem requestChecks_of_fails (hi : e.inbox = as ++ rest) (ho : ReadDone e.cfg .access 1 o as tr)
    (hfail : checkPasses e.cfg o = false) :
    ∃ t, requestChecks (left + 1) e =
        (onlyIf (left != 0) (sleep e.cfg.locDelay) >>= fun _ => requestChecks left) t ∧
      Moved (e.checked (e.cfg.locTries - left) [o] []) t rest tr := by
  obtain ⟨er, her⟩ := checkOutcome_of_fails hfail
  obtain ⟨t, hcheck, hm⟩ := attempt_countedCheck (k := e.cfg.locTries - left) hs hi ho
  rw [her] at hcheck
  refine ⟨t, ?_, hm⟩
  rw [requestChecks, bind_of_ok (look_apply e), bind_of_ok (onX_apply _ e), bind_of_ok hcheck]

/-- After a check that fails with others to come there is a sleep. -/
theorem requestChecks_again {q : Answer} (hi : e.inbox = as ++ q :: rest)
    (ho : ReadDone e.cfg .access 1 o as tr) (hfail : checkPasses e.cfg o = false) :
    ∃ t, requestChecks (left + 2) e = requestChecks (left + 1) t ∧
      Moved (e.checked (e.cfg.locTries - (left + 1)) [o] [e.cfg.locDelay]) t rest tr := by
  obtain ⟨m, hcheck, hm⟩ := requestChecks_of_fails (left := left + 1) hs hi ho hfail
  obtain ⟨t, hsleep, hmt⟩ := sleep_of_checked hm e.cfg.locDelay
  exact ⟨t, hcheck.trans (bind_of_ok hsleep), hmt⟩

/-- The last check passes, or no other is to come. -/
theorem requestChecks_last (hi : e.inbox = as ++ rest) (ho : ReadDone e.cfg .access 1 o as tr)
    (hlast : checkPasses e.cfg o = true ∨ left = 0) :
    ∃ t, attempt (requestChecks (left + 1)) e = .ok (lastOutcome e.cfg o) t ∧
      Moved (e.checked (e.cfg.locTries - left) [o] []) t rest tr := by
  cases hpass : checkPasses e.cfg o with
  | true =>
    obtain ⟨t, hcheck, hm⟩ := requestChecks_of_passes hs hi ho hpass
    exact ⟨t, by rw [lastOutcome, if_pos hpass, attempt_of_ok hcheck], hm⟩
  | false =>
    obtain rfl : left = 0 := by simpa [hpass] using hlast
    obtain ⟨t, hcheck, hm⟩ := requestChecks_of_fails hs hi ho hpass
    refine ⟨t, ?_, hm⟩
    rw [lastOutcome, hpass]
    exact attempt_of_raised hcheck

end Checks

/-- The outcomes of more than one check. -/
theorem checksDone_cons {c : Cfg} (h : os ≠ []) :
    ChecksDone c (o :: os) as tr ↔ ∃ ra rt q as' tr', ReadDone c .access 1 o ra rt ∧
      ChecksDone c os as' tr' ∧ as = ra ++ q :: as' ∧ tr = rt ++ tr' := by
  cases os with
  | nil => exact absurd rfl h
  | cons _ _ => exact Iff.rfl

/-- Checks that fail, a sleep after each of them, and one that decides. -/
theorem requestChecks_of_done (os : List (Except Err (List Byte))) :
    ∀ {e : Engine} {left : Nat} {as : List Answer} {tr : List Event}, e.Serves → e.inbox = as ++ rest →
      ChecksDone e.cfg (os ++ [last]) as tr → left ≤ e.cfg.locTries → os.length + 1 ≤ left →
      (∀ o ∈ os, checkPasses e.cfg o = false) →
      checkPasses e.cfg last = true ∨ os.length + 1 = left →
      ∃ t, attempt (requestChecks left) e = .ok (lastOutcome e.cfg last) t ∧
        Moved (e.checked (e.cfg.locTries - left + os.length + 1) (os ++ [last])
          (List.replicate os.length e.cfg.locDelay)) t rest tr := by
  induction os with
  | nil =>
    intro e left as tr hs hi hdone htries hleft _ hlast
    obtain ⟨left, rfl⟩ := Nat.exists_eq_add_of_le' hleft
    have hcount : e.cfg.locTries - (left + 1) + 1 = e.cfg.locTries - left := by omega
    obtain ⟨t, hchecks, hm⟩ := requestChecks_last (left := left) hs hi hdone (by simpa using hlast)
    exact ⟨t, hchecks, by simpa [hcount] using hm⟩
  | cons o os ih =>
    intro e left as tr hs hi hdone htries hleft hfail hlast
    obtain ⟨ra, rt, q, as', tr', ho, hrest, rfl, rfl⟩ := (checksDone_cons (by simp)).mp hdone
    rw [List.length_cons] at hleft
    obtain ⟨left, rfl⟩ : ∃ k, left = k + 2 := Nat.exists_eq_add_of_le' (by omega)
    obtain ⟨m, hagain, hm⟩ := requestChecks_again (left := left) (rest := as' ++ rest) hs
      (by simpa using hi) ho (hfail o (by simp))
    have hcfg : m.cfg = e.cfg := hm.cfg
    obtain ⟨t, hchecks, hmt⟩ := ih (left := left + 1) (hm.serves (hs.checked ..)) hm.inbox
      (by rwa [hcfg]) (by rw [hcfg]; omega) (by omega)
      (by rw [hcfg]; exact fun o' ho' => hfail o' (by simp [ho'])) (by simpa [hcfg] using hlast)
    rw [hcfg] at hchecks hmt
    refine ⟨t, (attempt_congr hagain).trans hchecks, ?_⟩
    have hall := (hm.checked ..).trans hmt
    rw [Engine.checked_checked] at hall
    have hcount : e.cfg.locTries - (left + 1) + os.length + 1 =
        e.cfg.locTries - (left + 2) + (o :: os).length + 1 := by
      rw [List.length_cons]
      omega
    rwa [hcount] at hall

/-! ### The whole request -/

section Request

variable {a0 w : List Answer} {tr0 trw : List Event} (hs : e.Serves)
  (ho : ReadDone e.cfg .access 1 o a0 tr0) (hfail : checkPasses e.cfg o = false)
include hs ho hfail

/-- Where the first check fails REQUEST_USE is written, and the other checks are left. -/
theorem requestLocality_of_fails {wo : Except Err Unit} (hi : e.inbox = a0 ++ w ++ rest)
    (hw : WriteDone e.cfg .access (accessReqBytes e.cfg.map) wo w trw) :
    ∃ m t, requestLocality e = (regWrite .access (accessReqBytes e.cfg.map) >>= fun _ =>
        requestChecks e.cfg.locTries) m ∧
      attempt (regWrite .access (accessReqBytes e.cfg.map)) m = .ok wo t ∧
      Moved (e.noted o) t rest (tr0 ++ trw) := by
  obtain ⟨er, her⟩ := checkOutcome_of_fails hfail
  obtain ⟨m, hcheck, hm⟩ := attempt_checkLocality_of_done hs (hi.trans (List.append_assoc ..)) ho
  have hcfg : m.cfg = e.cfg := hm.cfg
  rw [her] at hcheck
  obtain ⟨t, hwrite, hmt⟩ := attempt_writeAccess (hm.serves (hs.noted o)) hm.inbox (by rwa [hcfg])
  refine ⟨m, t, ?_, hwrite, hm.trans hmt⟩
  rw [requestLocality, bind_of_ok hcheck, ← hcfg]
  exact bind_of_ok (look_apply m)

/-- The write's own error ends the request. -/
theorem requestLocality_of_write_error (hi : e.inbox = a0 ++ w ++ rest)
    (hw : WriteDone e.cfg .access (accessReqBytes e.cfg.map) (.error er) w trw) :
    ∃ t, requestLocality e = .error (.raised er) t ∧ Moved (e.noted o) t rest (tr0 ++ trw) := by
  obtain ⟨m, t, hrequest, hwrite, hm⟩ := requestLocality_of_fails hs ho hfail hi hw
  exact ⟨t, hrequest.trans (bind_of_error (attempt_eq_error.mp hwrite)), hm⟩

/-- After the write the last of the checks decides. -/
theorem requestLocality_of_checks {ac : List Answer} {trc : List Event}
    (hi : e.inbox = a0 ++ w ++ ac ++ rest)
    (hw : WriteDone e.cfg .access (accessReqBytes e.cfg.map) (.ok ()) w trw)
    (hchecks : ChecksDone e.cfg (os ++ [last]) ac trc) (htries : os.length + 1 ≤ e.cfg.locTries)
    (hfails : ∀ o ∈ os, checkPasses e.cfg o = false)
    (hlast : checkPasses e.cfg last = true ∨ os.length + 1 = e.cfg.locTries) :
    ∃ t, attempt requestLocality e = .ok (lastOutcome e.cfg last) t ∧
      Moved ((e.noted o).checked (os.length + 1) (os ++ [last])
        (List.replicate os.length e.cfg.locDelay)) t rest (tr0 ++ trw ++ trc) := by
  obtain ⟨m, u, hrequest, hwrite, hm⟩ :=
    requestLocality_of_fails hs ho hfail (hi.trans (List.append_assoc ..)) hw
  have hcfg : u.cfg = e.cfg := hm.cfg
  rw [← hcfg] at hchecks htries hfails hlast
  obtain ⟨t, hdone, hmt⟩ := requestChecks_of_done os (hm.serves (hs.noted o)) hm.inbox hchecks le_rfl
    htries hfails hlast
  rw [Nat.sub_self, Nat.zero_add] at hmt
  rw [hcfg] at hdone hmt
  exact ⟨t, (attempt_congr (hrequest.trans (bind_of_ok (attempt_eq_value.mp hwrite)))).trans hdone,
    (hm.checked ..).trans hmt⟩

end Request

/-- Settles O38: by the whole request; its sleeps are those of the events that the instruction adds. -/
theorem requestLocalityResult : Obligations.RequestLocalityResult := by
  intro s o a0 tr0 hs _ _ ho hfail
  refine ⟨fun er w rest trw hi hw => ?_, fun os last w ac rest trw trc hi hw hchecks htries hfails hlast => ?_⟩
  · obtain ⟨t, hrequest, hm⟩ := requestLocality_of_write_error hs ho hfail hi hw
    exact ⟨_, launch_asUnit (attempt_of_raised hrequest), hm.finished_since rfl _, rfl, hm.x⟩
  · obtain ⟨t, hrequest, hm⟩ := requestLocality_of_checks hs ho hfail hi hw hchecks htries hfails hlast
    have hexec : exec .requestLocality s = .next _ := launch_asUnit hrequest
    obtain ⟨evs, hevs⟩ : ∃ evs, s.trace ++ evs = t.trace := (exec_along frame_closed hexec).trace
    have hsleeps : sleeps s.trace ++ sleeps evs =
        sleeps s.trace ++ List.replicate os.length s.cfg.locDelay := by
      rw [← sleeps_append, hevs, hm.sleeps, Engine.sleeps_checked]
      rfl
    refine ⟨_, hexec, hm.finished_since (Engine.busTrace_checked ..) _,
      ⟨evs, hevs.symm, List.append_cancel_left hsleeps⟩, hm.x, ?_⟩
    rw [lastOutcome]
    split <;> rfl

end Sys2Proof.Machine
end

section
/-! SUPPORT. The clock over a register transaction: it grows by the ticks of the answers taken and by nothing
else (10_state.md R47), since only a sleep adds ticks of its own. -/

namespace Sys2Proof.Machine

variable {α β : Type} {c : Cfg} {e t : Engine} {p : P α} {as rest : List Answer}

theorem ticksOf_append (as rest : List Answer) : ticksOf (as ++ rest) = ticksOf as + ticksOf rest := by
  simp [ticksOf]

/-- The clock has moved by the ticks of the answers used up. -/
structure Timed (e t : Engine) : Prop where
  cfg : t.cfg = e.cfg
  clock : t.clock + ticksOf t.inbox = e.clock + ticksOf e.inbox

theorem progress_timed : Progress Timed Timed :=
  .of_preorder (fun _ => ⟨rfl, rfl⟩) (fun h k => ⟨k.cfg.trans h.cfg, k.clock.trans h.clock⟩) fun h => h.cfg

/-- The clock then, where the answers `as` are used up. -/
theorem Timed.clock_of_inbox (h : Timed e t) (hi : e.inbox = as ++ rest) (ht : t.inbox = rest) :
    t.clock = e.clock + ticksOf as := by
  have hclock := h.clock
  rw [hi, ht, ticksOf_append] at hclock
  omega

/-- Whatever the environment answers. -/
abbrev KeepsTime (c : Cfg) (p : P α) : Prop := Runs c Timed Timed p

theorem keepsTime_bind {k : α → P β} (hp : KeepsTime c p) (hk : ∀ a, KeepsTime c (k a)) :
    KeepsTime c (p >>= k) :=
  runs_bind progress_timed hp fun a _ => hk a

theorem keepsTime_pure (a : α) : KeepsTime c (pure a) := runs_pure progress_timed a

theorem keepsTime_raise (er : Err) : KeepsTime c (raise er : P α) := fun e _ => progress_timed.refl e

theorem keepsTime_take (w : Prim) : KeepsTime c (take w) := by
  intro e _
  rcases take_cases w e with ⟨_, h⟩ | ⟨a, rest, hi, h⟩ <;> rw [h]
  · exact progress_timed.refl e
  · refine ⟨rfl, ?_⟩
    simp [hi, ticksOf, Nat.add_assoc]

/-- An update of fields other than the configuration, the clock and the answers. -/
theorem keepsTime_change {f : Engine → Engine} (hcfg : ∀ e, (f e).cfg = e.cfg := by intros; rfl)
    (hclock : ∀ e, (f e).clock = e.clock := by intros; rfl)
    (hinbox : ∀ e, (f e).inbox = e.inbox := by intros; rfl) : KeepsTime c (change f) :=
  fun e _ => ⟨hcfg e, by rw [hclock, hinbox]⟩

theorem keepsTime_record (v : Event) : KeepsTime c (record v) := keepsTime_change

/-- An answer looked at only through the state it leaves. -/
theorem keepsTime_observed {w : Prim} {ev : Engine → Event} {v : Engine → α} :
    KeepsTime c (take w >>= fun _ => look >>= fun e => record (ev e) >>= fun _ => pure (v e)) :=
  keepsTime_bind (keepsTime_take w) fun _ e he => keepsTime_bind (keepsTime_record (ev e))
    (fun _ => keepsTime_pure (v e)) e he

theorem WaitOp.keepsTime (h : WaitOp α p) : KeepsTime c p := by
  cases h with
  | now => exact keepsTime_observed
  | readyFlag => exact keepsTime_observed
  | readyAtDeadline =>
    intro e _
    rw [readyAtDeadline_apply]
    change Timed e _
    split
    · exact ⟨rfl, rfl⟩
    · exact ⟨rfl, rfl⟩
  | noteT1 v => exact keepsTime_change

theorem PortOp.keepsTime (h : PortOp c α p) : KeepsTime c p := by
  cases h with
  | wait h => exact h.keepsTime
  | busWrite bs =>
    refine keepsTime_bind (keepsTime_take _) fun a => ?_
    cases a.err with
    | none => exact keepsTime_record _
    | some er => exact keepsTime_bind (keepsTime_record _) fun _ => keepsTime_raise _
  | busRead n =>
    refine keepsTime_bind (keepsTime_take _) fun a => ?_
    cases a.err with
    | none => exact keepsTime_bind (keepsTime_record _) fun _ => keepsTime_pure _
    | some er => exact keepsTime_bind (keepsTime_record _) fun _ => keepsTime_raise _
  | readyClear => exact keepsTime_bind keepsTime_change fun _ => keepsTime_record _
  | lockTurn =>
    refine keepsTime_bind (keepsTime_take _) fun a => ?_
    cases a.lockFree
    · exact keepsTime_pure _
    · exact keepsTime_bind keepsTime_change fun _ =>
        keepsTime_bind (keepsTime_record _) fun _ => keepsTime_pure _
  | unlock => exact keepsTime_bind keepsTime_change fun _ => keepsTime_record _
  | scratch loc kind p _ => exact keepsTime_change

/-- A register read keeps time, however it ends. -/
theorem timed_of_regRead {kind : Kind} {n : Nat} {o : Except Err (List Byte)}
    (h : attempt (regRead kind n) e = .ok o t) : Timed e t := by
  have hruns : KeepsTime e.cfg (attempt (regRead kind n)) :=
    runs_attempt ((made_regRead kind n).runs progress_timed fun _ _ => PortOp.keepsTime)
  have hlands := hruns e rfl
  rwa [h] at hlands

end Sys2Proof.Machine
end

section
/-! PROOF. Reads of the STS register and READ_STATUS (42_status_burst.md R202; 60_exceptions.md R302 (a)). -/

namespace Sys2Proof.Machine

variable {e m t : Engine} {s : State} {i : Instr} {o : Except Err (List Byte)}
  {as rest : List Answer} {evs tr : List Event}

/-! ### A snapshot of the register -/

/-- What moves between two engines moves between them once both have made the same update of registers other
than t1, which an access writes. -/
theorem Moved.onX (h : Moved e t rest evs) (f : Regs → Regs)
    (hf : ∀ x v, f { x with t1 := v } = { f x with t1 := v } := by intros; rfl) :
    Moved (e.setX (f e.x)) (t.setX (f t.x)) rest evs :=
  { h with
    x := by
      change f t.x = { f e.x with t1 := (f t.x).t1 }
      rw [h.x, hf] }

/-- STS is four bytes wide, which every transport that serves can move (R90). -/
theorem attempt_readSts (hs : e.Serves) (hi : e.inbox = as ++ rest) (ho : ReadDone e.cfg .sts 4 o as tr) :
    ∃ t, attempt (regRead .sts 4) e = .ok o t ∧ Moved e t rest tr ∧ t.clock = e.clock + ticksOf as := by
  obtain ⟨t, hread, hm⟩ := attempt_regRead_of_done hs hi ho (by decide) hs.wide
  exact ⟨t, hread, hm, (timed_of_regRead hread).clock_of_inbox hi hm.inbox⟩

/-! ### READ_STATUS (R202) -/

theorem readStatus_of_read (h : attempt (regRead .sts 4) e = .ok o m) :
    readStatus e = .ok (statusOf o) (m.setX { m.x with status := statusOf o }) :=
  (bind_of_ok h).trans (bind_of_ok (onX_apply _ m))

/-- The instruction's whole effect after its read. -/
theorem exec_readStatus_of_read (h : attempt (regRead .sts 4) s.toEngine = .ok o m) :
    exec .readStatus s = .next { s with
      toEngine := (m.setX { m.x with status := statusOf o }).setRet (.ok (.status (statusOf o)))
      running := none } :=
  launch_procedure_of_ok (bind_of_ok (readStatus_of_read h))

/-- A procedure run by its own code to its end has left there what its contract says, and its outcome in `ret`. -/
theorem launch_procedure_lands {I W : Engine → Prop} {J : RetVal → Engine → Prop}
    {X : Err → Engine → Prop} {q : P RetVal} {t : State} (hq : Meets I q J X W)
    (hs : I s.toEngine) (h : launch i (procedure q) s = .next t) (ht : t.running = none) :
    ∃ r m, t.toEngine = m.setRet (retOf r) ∧ Caught J X r m := by
  have hbody : Meets I (procedure q) (fun _ t => ∃ r m, t = m.setRet (retOf r) ∧ Caught J X r m)
      (fun _ _ => False) W :=
    meets_bind (meets_attempt hq) fun r => meets_change fun m hr => ⟨r, m, rfl, hr⟩
  rcases (launch_lands h hbody hs).1 ht with hdone | ⟨_, hf⟩
  · exact hdone
  · exact hf.elim

theorem ret_of_readStatus {t : State} (h : exec .readStatus s = .next t) (ht : t.running = none) :
    ∃ v, t.ret = .ok (.status v) := by
  have hq : Meets (fun _ => True) (asStatus readStatus) (fun v _ => ∃ b, v = .status b)
      (fun _ _ => False) fun _ => True :=
    meets_bind silent_readStatus fun b => meets_pure fun _ _ => ⟨b, rfl⟩
  obtain ⟨r, m, hret, hr⟩ := launch_procedure_lands hq trivial h ht
  cases r with
  | ok v =>
    obtain ⟨b, rfl⟩ := hr
    exact ⟨b, congrArg Engine.ret hret⟩
  | error er => exact hr.elim

/-- Settles O42: the read's outcome, with 0x00 for an error, is all that READ_STATUS notes and returns. -/
theorem readStatusResult : Obligations.ReadStatusResult := by
  refine ⟨fun s as rest hs hi => ⟨fun b hlen ha => ?_, fun v ha => ?_, fun er m hread => ?_⟩,
    fun s t => ret_of_readStatus⟩
  · obtain ⟨m, hread, hm, _⟩ := attempt_readSts (o := .ok b) hs hi ⟨hlen, ha, rfl⟩
    have hnoted := hm.onX fun x => { x with status := snapStatus b }
    exact ⟨_, exec_readStatus_of_read hread, hnoted.finished_since rfl _, rfl, hnoted.x⟩
  · obtain ⟨m, hread, hm, _⟩ := attempt_readSts hs hi (readDone_of_fails ha)
    exact ⟨_, exec_readStatus_of_read hread, rfl, hm.inbox, rfl, rfl⟩
  · exact ⟨_, exec_readStatus_of_read (attempt_of_raised hread), rfl, rfl, rfl, rfl, rfl⟩

end Sys2Proof.Machine
end

section
/-! PROOF. GET_BURST_AND_STATUS (42_status_burst.md R200; 60_exceptions.md R302 (a), R303 (c)): what one turn of
the poll makes of its read, and polls of one and of two turns. -/

namespace Sys2Proof.Machine

variable {e m t : Engine} {s : State} {o : Except Err (List Byte)} {mask : Byte}
  {v : Half × Byte} {n q l : Answer} {as rest : List Answer} {evs tr : List Event}

/-! ### One turn -/

/-- What the poll makes of a read of STS: the value it returns, or nothing. -/
def pollOutcome (c : Cfg) (mask : Byte) : Except Err (List Byte) → Option (Half × Byte)
  | .ok b =>
    if accept c.burstCap mask (snapStatus b) (snapBurst b) then some (snapBurst b, snapStatus b) else none
  | .error _ => none

/-- The registers once the poll has noted what it read: a snapshot that arrived, accepted or not (R200). -/
def Regs.snapped (o : Except Err (List Byte)) (x : Regs) : Regs :=
  match o with
  | .ok b => { x with status := snapStatus b, burst := snapBurst b }
  | .error _ => x

/-- The engine that has noted it. -/
def Engine.snapped (e : Engine) (o : Except Err (List Byte)) : Engine := e.setX (e.x.snapped o)

theorem noteSnapshot_apply (mask : Byte) (o : Except Err (List Byte)) (e : Engine) :
    noteSnapshot mask o e = .ok (pollOutcome e.cfg mask o) (e.snapped o) := by
  cases o with
  | error er => rfl
  | ok b =>
    rw [noteSnapshot, bind_of_ok (onX_apply _ e), bind_of_ok (look_apply _), Engine.setX_cfg, pollOutcome]
    cases accept e.cfg.burstCap mask (snapStatus b) (snapBurst b) <;> rfl

theorem Moved.snapped (h : Moved e t rest evs) (o : Except Err (List Byte)) :
    Moved (e.snapped o) (t.snapped o) rest evs :=
  h.onX (Regs.snapped o) fun _ _ => by cases o <;> rfl

theorem Engine.snapped_t0 (e : Engine) (o : Except Err (List Byte)) : (e.snapped o).x.t0 = e.x.t0 := by
  cases o <;> rfl

/-- The engine after a sleep. -/
def Engine.slept (e : Engine) (ms : Nat) (q : Answer) (rest : List Answer) : Engine :=
  ((e.settle q rest).addTicks (ms * e.cfg.clkPerMs)).log (.sleep ms)

/-- And after a look at the clock. -/
def Engine.paused (e : Engine) (ms : Nat) (q l : Answer) (rest : List Answer) : Engine :=
  ((e.slept ms q (l :: rest)).settle l rest).log (.now ((e.slept ms q (l :: rest)).clock + l.ticks))

/-- Beside its event a pause moves the clock only. -/
theorem Moved.paused (h : Moved e m (q :: l :: rest) evs) (ms : Nat) :
    Moved (e.log (.sleep ms)) (m.paused ms q l rest) rest evs := by
  have hslept : Moved (e.log (.sleep ms)) (m.slept ms q (l :: rest)) (l :: rest) evs :=
    { h with
      inbox := rfl
      traffic := by simpa [Engine.slept, busTrace, List.filter, Event.onBus] using h.traffic
      reads := by simpa [Engine.slept, cmdReads] using h.reads
      sleeps := by simpa [Engine.slept] using h.sleeps }
  exact List.append_nil evs ▸ hslept.trans (Moved.event _ l rest (.now _) rfl)

theorem burstTurn_of_accepted (hread : attempt (regRead .sts 4) e = .ok o m)
    (ho : pollOutcome m.cfg mask o = some v) : burstTurn mask e = .ok (some v) (m.snapped o) := by
  rw [burstTurn, bind_of_ok hread, bind_of_ok (noteSnapshot_apply mask o m), ho]
  rfl

/-- After the sleep the deadline is tested, and no other read comes before that (R303 (c)). -/
theorem burstTurn_of_refused (hread : attempt (regRead .sts 4) e = .ok o m)
    (ho : pollOutcome m.cfg mask o = none) (hi : m.inbox = q :: l :: rest) :
    burstTurn mask e =
      (if m.cfg.tLong * m.cfg.clkPerMs ≤
          m.clock + q.ticks + m.cfg.tShort * m.cfg.clkPerMs + l.ticks - m.x.t0
        then raise (.timeout .status) else pure none)
      ((m.snapped o).paused m.cfg.tShort q l rest) := by
  rw [burstTurn, bind_of_ok hread, bind_of_ok (noteSnapshot_apply mask o m), ho]
  have hsleep : sleep m.cfg.tShort (m.snapped o) =
      .ok () ((m.snapped o).slept m.cfg.tShort q (l :: rest)) := sleep_ok hi
  have hlook : expired (m.snapped o).x.t0 m.cfg.tLong ((m.snapped o).slept m.cfg.tShort q (l :: rest)) =
      .ok (decide (m.cfg.tLong * m.cfg.clkPerMs ≤
          m.clock + q.ticks + m.cfg.tShort * m.cfg.clkPerMs + l.ticks - (m.snapped o).x.t0))
        ((m.snapped o).paused m.cfg.tShort q l rest) := expired_ok rfl
  refine (bind_of_ok (look_apply _)).trans ((bind_of_ok hsleep).trans ((bind_of_ok hlook).trans ?_))
  rw [Engine.snapped_t0]
  split
  next hlate => rw [decide_eq_true hlate]
  next hlate => rw [decide_eq_false hlate]

/-! ### The poll -/

/-- The engine with the start of its poll noted, the clock value that the answer `n` gives. -/
def Engine.polling (e : Engine) (n : Answer) : Engine := e.setX { e.x with t0 := e.clock + n.ticks }

theorem getBurstAndStatus_begins (mask : Byte) (hi : e.inbox = n :: rest) :
    ∃ m, getBurstAndStatus mask e = repeatP (burstTurn mask) m ∧ Moved (e.polling n) m rest [] ∧
      m.clock = e.clock + n.ticks :=
  ⟨_, (bind_of_ok (now_ok hi)).trans (bind_of_ok (onX_apply _ _)),
    (Moved.event e n rest (.now (e.clock + n.ticks)) rfl).onX fun x => { x with t0 := e.clock + n.ticks },
    rfl⟩

/-- The poll after a first read that it refused: what that read gave is noted, and it has slept. -/
def Engine.refused (e : Engine) (n : Answer) (o : Except Err (List Byte)) : Engine :=
  ((e.polling n).snapped o).log (.sleep e.cfg.tShort)

theorem Engine.Serves.refused (h : e.Serves) (n : Answer) (o : Except Err (List Byte)) :
    (e.refused n o).Serves :=
  ⟨h.cfg_ok, h.wide, h.live⟩

theorem Engine.sleeps_refused (e : Engine) (n : Answer) (o : Except Err (List Byte)) :
    sleeps (e.refused n o).trace = sleeps e.trace ++ [e.cfg.tShort] :=
  sleeps_append e.trace [.sleep e.cfg.tShort]

section Poll

variable (hs : e.Serves)
include hs

/-- A read accepted ends the poll at any turn. -/
theorem poll_of_accepted (hi : e.inbox = as ++ rest) (ho : ReadDone e.cfg .sts 4 o as tr)
    (hv : pollOutcome e.cfg mask o = some v) :
    ∃ t, repeatP (burstTurn mask) e = .ok v t ∧ Moved (e.snapped o) t rest tr := by
  obtain ⟨m, hread, hm, _⟩ := attempt_readSts hs hi ho
  rw [← hm.cfg] at hv
  exact ⟨_, repeatP_done (burstTurn_of_accepted hread hv), hm.snapped o⟩

theorem getBurstAndStatus_of_accepted (hi : e.inbox = n :: as ++ rest) (ho : ReadDone e.cfg .sts 4 o as tr)
    (hv : pollOutcome e.cfg mask o = some v) :
    ∃ t, getBurstAndStatus mask e = .ok v t ∧ Moved ((e.polling n).snapped o) t rest tr := by
  obtain ⟨m, hpoll, hm, _⟩ := getBurstAndStatus_begins mask hi
  rw [← show m.cfg = e.cfg from hm.cfg] at ho hv
  obtain ⟨t, hdone, ht⟩ := poll_of_accepted (hm.serves ⟨hs.cfg_ok, hs.wide, hs.live⟩) hm.inbox ho hv
  exact ⟨t, hpoll.trans hdone, (hm.snapped o).trans ht⟩

/-- A first read that fails or is not accepted: the deadline decides between a timeout and another turn. -/
theorem getBurstAndStatus_of_refused (hi : e.inbox = n :: as ++ q :: l :: rest)
    (ho : ReadDone e.cfg .sts 4 o as tr) (hv : pollOutcome e.cfg mask o = none) :
    ∃ t, Moved (e.refused n o) t rest tr ∧
      getBurstAndStatus mask e =
        if e.cfg.tLong * e.cfg.clkPerMs ≤ ticksOf as + q.ticks + e.cfg.tShort * e.cfg.clkPerMs + l.ticks
        then .error (.raised (.timeout .status)) t else repeatP (burstTurn mask) t := by
  obtain ⟨m, hpoll, hm, hstart⟩ := getBurstAndStatus_begins mask hi
  have hcfg : m.cfg = e.cfg := hm.cfg
  obtain ⟨u, hread, hu, hclock⟩ := attempt_readSts (hm.serves ⟨hs.cfg_ok, hs.wide, hs.live⟩) hm.inbox
    (hcfg ▸ ho)
  have hmu := hm.trans hu
  have hucfg : u.cfg = e.cfg := hmu.cfg
  have ht0 : u.x.t0 = e.clock + n.ticks := by rw [hmu.x]; rfl
  have hturn := burstTurn_of_refused hread (hucfg ▸ hv) hu.inbox
  rw [hucfg, show u.clock + q.ticks + e.cfg.tShort * e.cfg.clkPerMs + l.ticks - u.x.t0 =
    ticksOf as + q.ticks + e.cfg.tShort * e.cfg.clkPerMs + l.ticks by omega] at hturn
  refine ⟨_, (hmu.snapped o).paused e.cfg.tShort, hpoll.trans ?_⟩
  split at hturn
  next hlate => exact (repeatP_error hturn).trans (if_pos hlate).symm
  next hlate => exact (repeatP_again (consumes_burstTurn mask) hturn).trans (if_neg hlate).symm

theorem getBurstAndStatus_of_timeout (hi : e.inbox = n :: as ++ q :: l :: rest)
    (ho : ReadDone e.cfg .sts 4 o as tr) (hv : pollOutcome e.cfg mask o = none)
    (hlate : e.cfg.tLong * e.cfg.clkPerMs ≤
      ticksOf as + q.ticks + e.cfg.tShort * e.cfg.clkPerMs + l.ticks) :
    ∃ t, getBurstAndStatus mask e = .error (.raised (.timeout .status)) t ∧
      Moved (e.refused n o) t rest tr := by
  obtain ⟨t, hm, hpoll⟩ := getBurstAndStatus_of_refused (mask := mask) hs hi ho hv
  exact ⟨t, hpoll.trans (if_pos hlate), hm⟩

/-- With time left a second read is made; accepted, it ends the poll. -/
theorem getBurstAndStatus_of_retry {o' : Except Err (List Byte)} {as' : List Answer} {tr' : List Event}
    (hi : e.inbox = n :: as ++ q :: l :: (as' ++ rest)) (ho : ReadDone e.cfg .sts 4 o as tr)
    (hv : pollOutcome e.cfg mask o = none)
    (htime : ticksOf as + q.ticks + e.cfg.tShort * e.cfg.clkPerMs + l.ticks <
      e.cfg.tLong * e.cfg.clkPerMs)
    (ho' : ReadDone e.cfg .sts 4 o' as' tr') (hv' : pollOutcome e.cfg mask o' = some v) :
    ∃ t, getBurstAndStatus mask e = .ok v t ∧
      Moved ((e.refused n o).snapped o') t rest (tr ++ tr') := by
  obtain ⟨m, hm, hpoll⟩ := getBurstAndStatus_of_refused (mask := mask) hs hi ho hv
  rw [← show m.cfg = e.cfg from hm.cfg] at ho' hv'
  obtain ⟨t, hdone, ht⟩ := poll_of_accepted (hm.serves (hs.refused n o)) hm.inbox ho' hv'
  exact ⟨t, (hpoll.trans (if_neg htime.not_ge)).trans hdone, (hm.snapped o').trans ht⟩

end Poll

/-! ### The procedure code -/

theorem exec_getBurstAndStatus_of_ok (h : getBurstAndStatus s.args.mask s.toEngine = .ok v t) :
    exec .getBurstAndStatus s =
      .next { s with toEngine := t.setRet (.ok (.burstStatus v.1 v.2)), running := none } :=
  launch_procedure_of_ok (bind_of_ok h)

theorem exec_getBurstAndStatus_of_raised {er : Err}
    (h : getBurstAndStatus s.args.mask s.toEngine = .error (.raised er) t) :
    exec .getBurstAndStatus s = .next { s with toEngine := t.setRet (.err er), running := none } :=
  launch_procedure_of_raised (bind_of_error h)

/-- The sleeps among the events an instruction adds. -/
theorem exec_sleeps {i : Instr} {t : State} {ms : List Nat} (h : exec i s = .next t)
    (hms : sleeps t.trace = sleeps s.trace ++ ms) : ∃ evs, t.trace = s.trace ++ evs ∧ sleeps evs = ms := by
  obtain ⟨evs, hevs⟩ : ∃ evs, s.trace ++ evs = t.trace := (exec_along frame_closed h).trace
  rw [← hevs, sleeps_append] at hms
  exact ⟨evs, hevs.symm, List.append_cancel_left hms⟩

theorem pollOutcome_of_accept {c : Cfg} {b : List Byte}
    (h : accept c.burstCap mask (snapStatus b) (snapBurst b) = true) :
    pollOutcome c mask (.ok b) = some (snapBurst b, snapStatus b) := if_pos h

/-- A read that fails, or whose snapshot is not accepted, is a read the poll refuses. -/
theorem readDone_refused {c : Cfg} (h : (∃ er, AnswersFail c.transport er as) ∨
      ∃ b, b.length = 4 ∧ AnswersRead c.transport b as ∧
        accept c.burstCap mask (snapStatus b) (snapBurst b) = false) :
    ∃ o tr, ReadDone c .sts 4 o as tr ∧ pollOutcome c mask o = none := by
  rcases h with ⟨er, hfail⟩ | ⟨b, hlen, hread, hno⟩
  · exact ⟨_, _, readDone_of_fails hfail, rfl⟩
  · exact ⟨.ok b, _, ⟨hlen, hread, rfl⟩, if_neg (Bool.eq_false_iff.mp hno)⟩

/-- Settles O40: a poll of one turn that is accepted, and one whose first turn is refused and meets the
deadline or is followed by a second. -/
theorem getBurstAndStatusResult : Obligations.GetBurstAndStatusResult := by
  refine fun s n as hs => ⟨fun b rest hi hlen ha haccept => ?_, fun q l rest hi hrefused => ?_⟩
  · obtain ⟨t, hpoll, hm⟩ := getBurstAndStatus_of_accepted (o := .ok b) hs hi ⟨hlen, ha, rfl⟩
      (pollOutcome_of_accept haccept)
    exact ⟨_, exec_getBurstAndStatus_of_ok hpoll, hm.finished_since rfl _, rfl, hm.x⟩
  · obtain ⟨o, tr, ho, hv⟩ := readDone_refused hrefused
    refine ⟨fun hlate => ?_, fun htime b' as' rest' hrest hlen' ha' haccept' => ?_⟩
    · obtain ⟨t, hpoll, hm⟩ := getBurstAndStatus_of_timeout hs hi ho hv hlate
      exact ⟨_, exec_getBurstAndStatus_of_raised hpoll, rfl, hm.inbox, rfl⟩
    · subst hrest
      obtain ⟨t, hpoll, hm⟩ := getBurstAndStatus_of_retry (o' := .ok b') hs hi ho hv htime
        ⟨hlen', ha', rfl⟩ (pollOutcome_of_accept haccept')
      have hexec := exec_getBurstAndStatus_of_ok hpoll
      exact ⟨_, hexec, rfl, hm.inbox, rfl, exec_sleeps hexec (hm.sleeps.trans (s.sleeps_refused n o))⟩

end Sys2Proof.Machine
end

section
/-! PROOF. The acceptance test (42_status_burst.md R201), and that what the poll returns has passed it (R200;
70_reset_and_hazards.md R346). -/

namespace Sys2Proof.Machine

variable {W : Engine → Prop} {mask status : Byte} {burst : Half} {cap : Nat}

theorem accept_iff : accept cap mask status burst = true ↔
    status &&& mask = mask ∧ 1 ≤ burst.toNat ∧ burst.toNat ≤ cap - 1 := by
  simp only [accept, hasAll, Bool.and_eq_true, beq_iff_eq, decide_eq_true_eq, and_assoc]
  exact and_congr_right' (and_congr_right fun hburst => by omega)

/-! ### The poll -/

/-- The poll's value is accepted, and stands in the working registers. -/
structure Polled (mask : Byte) (v : Half × Byte) (t : Engine) : Prop where
  accepted : accept t.cfg.burstCap mask v.2 v.1 = true
  burst : t.x.burst = v.1
  status : t.x.status = v.2

theorem silent_sleep (ms : Nat) : Silent (sleep ms) :=
  silent_bind (silent_take _) fun _ => meets_bind (J := fun _ _ => True) (meets_change fun _ _ => trivial)
    fun _ => silent_record _

/-- A snapshot is passed on only if it is accepted. -/
theorem meets_noteSnapshot_polled {X : Err → Engine → Prop} (mask : Byte) (r : Except Err (List Byte)) :
    Meets (fun _ => True) (noteSnapshot mask r) (fun o t => ∀ v, o = some v → Polled mask v t) X W := by
  intro e _
  rw [noteSnapshot_apply]
  intro v hv
  cases r with
  | error er => cases hv
  | ok b =>
    obtain ⟨haccept, hval⟩ := Option.ite_none_right_eq_some.mp hv
    cases hval
    exact ⟨haccept, rfl, rfl⟩

/-- Whatever the TPM answers, the poll returns an accepted value or times out. -/
theorem meets_getBurstAndStatus (mask : Byte) :
    Meets (fun _ => True) (getBurstAndStatus mask) (Polled mask) (fun er _ => er = .timeout .status)
      fun _ => True :=
  meets_bind (keeps_exits_of_silent silent_now) fun _ =>
    meets_bind (keeps_exits_of_silent (silent_onX _)) fun _ => meets_repeatP (fun _ _ => trivial) <|
      meets_bind (keeps_exits_of_silent (silent_attempt _)) fun r =>
        meets_bind (meets_noteSnapshot_polled mask r) fun o => by
          cases o with
          | some v => exact meets_pure fun _ h => h v rfl
          | none =>
            refine meets_look fun e _ =>
              meets_bind ((keeps_exits_of_silent (silent_sleep _)).pre fun _ _ => trivial) fun _ =>
                meets_bind (keeps_exits_of_silent (silent_expired _ _)) fun late => ?_
            cases late
            · exact meets_pure fun _ _ => trivial
            · exact meets_raise fun _ _ => rfl

/-- How a poll run by its own code ends. -/
theorem exec_getBurstAndStatus_ends {s t : State} (h : exec .getBurstAndStatus s = .next t)
    (ht : t.running = none) : t.ret = .err (.timeout .status) ∨
      ∃ v : Half × Byte, t.ret = .ok (.burstStatus v.1 v.2) ∧ Polled s.args.mask v t.toEngine := by
  have hq : Meets (fun _ => True) (asBurstStatus (getBurstAndStatus s.args.mask))
      (fun r t => ∃ v : Half × Byte, r = .burstStatus v.1 v.2 ∧ Polled s.args.mask v t)
      (fun er _ => er = .timeout .status) fun _ => True :=
    meets_bind (meets_getBurstAndStatus _) fun v => meets_pure fun _ hv => ⟨v, rfl, hv⟩
  obtain ⟨r, m, hm, hr⟩ := launch_procedure_lands hq trivial h ht
  rw [hm]
  cases r with
  | ok _ =>
    obtain ⟨v, rfl, haccept, hburst, hstatus⟩ := hr
    exact .inr ⟨v, rfl, haccept, hburst, hstatus⟩
  | error _ => exact .inl (congrArg Ret.err hr)

/-! ### The final checks of the FIFO bodies -/

/-- The burst register holds a count the poll accepts. -/
def BurstInRange (t : Engine) : Prop := 1 ≤ t.x.burst.toNat ∧ t.x.burst.toNat ≤ t.cfg.burstCap - 1

theorem Polled.burstInRange {v : Half × Byte} {t : Engine} (h : Polled mask v t) : BurstInRange t := by
  obtain ⟨_, hrange⟩ := accept_iff.mp h.accepted
  rwa [← h.burst] at hrange

/-- The procedure returns with such a count. -/
abbrev EndsInRange {α : Type} (p : P α) : Prop :=
  Meets (fun _ => True) p (fun _ => BurstInRange) (fun _ _ => True) fun _ => True

theorem endsInRange_bind {α β : Type} {p : P α} {k : α → P β} (hk : ∀ a, EndsInRange (k a)) :
    EndsInRange (p >>= k) :=
  meets_bind (meets_trivial p) hk

/-- What a procedure's value is made into does not matter. -/
theorem endsInRange_map {α β : Type} {p : P α} {f : α → β} (hp : EndsInRange p) :
    EndsInRange (p >>= fun a => pure (f a)) :=
  meets_bind hp fun _ => meets_pure fun _ h => h

/-- A last poll, and a test of its flags. -/
theorem endsInRange_finalCheck {α : Type} {mask : Byte} {bad : Half × Byte → Bool} {er : Err} {a : α} :
    EndsInRange (getBurstAndStatus mask >>= fun v =>
      match bad v with
      | true => raise er
      | false => pure a) :=
  meets_bind ((meets_getBurstAndStatus mask).imp (fun _ h => h) (fun _ _ h => h.burstInRange)
    fun _ _ _ => trivial) fun v => by
      cases bad v
      · exact meets_pure fun _ h => h
      · exact meets_raise fun _ _ => trivial

theorem endsInRange_fifoWriteBody (src : Src) (len : Nat) : EndsInRange (fifoWriteBody src len) :=
  endsInRange_bind fun _ => endsInRange_bind fun _ => endsInRange_bind fun _ => endsInRange_finalCheck

theorem endsInRange_recvRest (first : List Byte) : EndsInRange (recvRest first) :=
  endsInRange_bind fun _ => endsInRange_bind fun _ => endsInRange_finalCheck

theorem endsInRange_fifoReadBody (cap : Nat) : EndsInRange (fifoReadBody cap) :=
  endsInRange_bind fun e => endsInRange_bind fun v => by
    cases badFirstBurst e.cfg.hdrSize cap v.1
    · refine endsInRange_bind fun d => endsInRange_bind fun _ => endsInRange_bind fun _ => ?_
      split
      · exact meets_raise fun _ _ => trivial
      · exact endsInRange_bind fun _ => endsInRange_recvRest d
    · exact meets_raise fun _ _ => trivial

theorem burstInRange_of_launch {i : Instr} {q : P RetVal} {s t : State} {v : RetVal} (hq : EndsInRange q)
    (h : launch i (procedure q) s = .next t) (ht : t.running = none) (hret : t.ret = .ok v) :
    BurstInRange t.toEngine := by
  obtain ⟨r, m, hm, hr⟩ := launch_procedure_lands hq trivial h ht
  rw [hm] at hret ⊢
  cases r with
  | ok _ => exact hr
  | error _ => cases hret

/-- Settles O41. -/
theorem acceptedBurstsAreInRange : Obligations.AcceptedBurstsAreInRange := by
  refine ⟨fun _ _ _ _ => accept_iff, fun s t h ht => ?_, fun i s t v hi h ht hret => ?_⟩
  · refine (exec_getBurstAndStatus_ends h ht).imp_right fun ⟨v, hret, hv⟩ => ?_
    have hcfg : t.cfg = s.cfg := (exec_along frame_closed h).cfg
    obtain ⟨hmask, hlow, hhigh⟩ := accept_iff.mp (hcfg ▸ hv.accepted)
    exact ⟨v.1, v.2, hret, hmask, hlow, hhigh, fun hcap => by omega, hv.burst, hv.status⟩
  · have hcfg : t.cfg = s.cfg := (exec_along frame_closed h).cfg
    rw [← hcfg]
    rcases hi with rfl | rfl
    · exact burstInRange_of_launch (endsInRange_map (endsInRange_fifoWriteBody _ _)) h ht hret
    · exact burstInRange_of_launch (endsInRange_map (endsInRange_fifoReadBody _)) h ht hret

end Sys2Proof.Machine
end

section
/-! SUPPORT. The bus traffic of the accesses and polls that a FIFO transfer makes, and what of it belongs to
DATA_FIFO (40_transport.md R151 to R153; 42_status_burst.md R200). -/

namespace Sys2Proof.Machine

variable {α : Type} {c : Cfg} {a : Access} {e t : Engine} {dir : Dir} {kind : Kind} {n : Nat}
  {bs p hdr stalls : List Byte} {go : Byte} {ev : Event} {tr tr' : List Event}
  {I J X W : Engine → Prop} {R V : Engine → Engine → Prop}

/-! ### Runs and contracts where a procedure returned -/

/-- A run, as a contract of the state it starts in. -/
theorem Runs.at {q : P α} (hq : Runs c R V q) (hcfg : e.cfg = c) :
    Meets (fun m => m = e) q (fun _ => R e) (fun _ => R e) (V e) := fun _ hm => hm ▸ hq e hcfg

/-- Two contracts at once. -/
theorem Meets.and {K K' : α → Engine → Prop} {X X' : Err → Engine → Prop} {W W' : Engine → Prop} {q : P α}
    (h : Meets I q K X W) (k : Meets I q K' X' W') :
    Meets I q (fun v t => K v t ∧ K' v t) (fun er t => X er t ∧ X' er t) fun t => W t ∧ W' t := by
  intro m hm
  have h' := h m hm
  have k' := k m hm
  rcases hqm : q m with ⟨v, u⟩ | ⟨_ | _ | _, u⟩ <;> rw [hqm] at h' k'
  · exact ⟨h', k'⟩
  · exact ⟨h', k'⟩
  · exact ⟨h', k'⟩
  · trivial

theorem Runs.of_ok {q : P α} {v : α} (hq : Runs c R V q) (hcfg : e.cfg = c) (h : q e = .ok v t) : R e t := by
  have hl := hq e hcfg
  rwa [h] at hl

theorem Meets.of_ok {q : P α} {v : α} {K : α → Engine → Prop} {X : Err → Engine → Prop}
    (hq : Meets I q K X W) (he : I e) (h : q e = .ok v t) : K v t := by
  have hl := hq e he
  rwa [h] at hl

/-! ### An access that has gone through -/

/-- The traffic of an access whose data has gone over the bus, in the operation `ev` (R112, R113, R153). -/
def Access.Completed (c : Cfg) (a : Access) (ev : Event) (tr : List Event) : Prop :=
  match c.transport, a with
  | .i2c, .read _ _ => tr = [.busWrite (a.opening c), ev]
  | .i2c, .write _ _ => tr = [.busWrite (a.opening c)]
  | .spi, _ => ∃ stalls go, Stalled stalls ∧ notStalled go = true ∧
      tr = polled (a.opening c) stalls ++ [.busRead [go], ev, .unlock]

theorem completed_i2c_read (ht : c.transport = .i2c) :
    (Access.read kind n).Completed c ev [.busWrite ((Access.read kind n).opening c), ev] := by
  simp only [Access.Completed, ht]

theorem completed_i2c_write (ht : c.transport = .i2c) :
    (Access.write kind p).Completed c ev [.busWrite ((Access.write kind p).opening c)] := by
  simp only [Access.Completed, ht]

theorem completed_spi (ht : c.transport = .spi) (hs : Stalled stalls) (hgo : notStalled go = true) :
    a.Completed c ev (polled (a.opening c) stalls ++ [.busRead [go], ev, .unlock]) := by
  simp only [Access.Completed, ht]
  exact ⟨stalls, go, hs, hgo, rfl⟩

/-- Since `e` the bus has carried the access, and its data in the operation `ev`. -/
def Went (c : Cfg) (a : Access) (e : Engine) (ev : Event) (t : Engine) : Prop :=
  ∃ tr, a.Completed c ev tr ∧ Emitted e tr t

/-- From states that meet `I`, where the procedure returns `J` holds; no more is said. -/
abbrev Ends (I : Engine → Prop) (q : P α) (J : α → Engine → Prop) : Prop :=
  Meets I q J (fun _ _ => True) fun _ => True

theorem Meets.ends {K : α → Engine → Prop} {X : Err → Engine → Prop} {q : P α} (h : Meets I q K X W) :
    Ends I q K :=
  h.weaken (fun _ _ h => h) (fun _ _ _ => trivial) fun _ _ => trivial

theorem ends_raise {K : α → Engine → Prop} (er : Err) : Ends I (raise er : P α) K :=
  meets_raise fun _ _ => trivial

theorem ends_clearOnErr {K : α → Engine → Prop} {q : P α} (h : Ends I q K) : Ends I (clearOnErr q) K :=
  meets_clearOnErr h fun _ _ _ => trivial

/-- Where the procedure returns it has made the access, with its data in the operation `ev` of its value. -/
abbrev Completes (c : Cfg) (a : Access) (ev : α → Event) (q : P α) : Prop :=
  ∀ e, e.cfg = c → Ends (fun m => m = e) q fun v => Went c a e (ev v)

theorem completes_i2cRead (ht : c.transport = .i2c) (kind : Kind) (n : Nat) :
    Completes c (.read kind n) .busRead (i2cRead c.loc kind n) := by
  rintro e rfl
  refine meets_look fun m hm => ?_
  subst hm
  split
  · exact ends_clearOnErr (ends_raise _)
  · rename_i hn
    have hopen : [i2cAddr m.cfg.map m.cfg.loc kind] = (Access.read kind n).opening m.cfg := by
      simp [Access.opening, ht]
    have hsend := accesses_i2cSend (a := .read kind n) (e := m) ht (not_lt.mp hn)
    rw [hopen]
    exact meets_bind (hsend.ends.at (.refl m)) fun _ => ends_clearOnErr <|
      (emits_busRead n).ends.weaken (fun _ _ h => ⟨_, completed_i2c_read ht, h.2⟩)
        (fun _ _ h => h) fun _ h => h

theorem completes_i2cWrite (ht : c.transport = .i2c) (kind : Kind) (p : List Byte) :
    Completes c (.write kind p) (fun _ => .busWrite p) (i2cWrite c.loc kind p) := by
  rintro e rfl
  refine meets_look fun m hm => ?_
  subst hm
  split
  · exact ends_clearOnErr (ends_raise _)
  · rename_i hn
    have hsend := accesses_i2cSend (a := .write kind p) (e := m) ht (not_lt.mp fun h => hn (.inl h))
    have hopen : (Access.write kind p).opening m.cfg = i2cAddr m.cfg.map m.cfg.loc kind :: p := by
      simp [Access.opening, ht]
    refine meets_bind (J := fun _ u => u.scratch.take (p.length + 1) = (Access.write kind p).opening m.cfg ∧
      Emitted m [] u) (meets_change fun u hu => ?_) fun _ => meets_look fun u hu => ?_
    · subst hu
      exact ⟨by simp [hopen], (Emitted.refl u).congr rfl rfl⟩
    · rw [hu.1]
      exact (hsend.ends.at hu.2).weaken (fun _ _ h => ⟨_, completed_i2c_write ht, h⟩)
        (fun _ _ h => h) fun _ h => h

/-- The payload part of a frame, where it carries its data. -/
abbrev Carried (ev : List Byte → Event) (q : P (List Byte)) : Prop :=
  ∀ e tr, Ends (Emitted e tr) q fun bs => Emitted e (tr ++ [ev bs])

theorem carried_read (n : Nat) (p : List Byte) : Carried .busRead (spiPayload .read n p) := fun _ _ =>
  (emits_busRead n).ends.weaken (fun _ _ h => h.2) (fun _ _ h => h) fun _ h => h

theorem carried_write (n : Nat) (p : List Byte) :
    Carried (fun _ => .busWrite p) (spiPayload .write n p) := fun _ _ =>
  meets_bind (emits_busWrite p).ends fun _ => meets_pure fun _ h => h

/-- The body of a frame whose payload goes over the bus (R153). -/
theorem ends_spiBody {ev : List Byte → Event} (ht : c.transport = .spi) (hp : Carried ev (spiPayload dir n p)) :
    Ends (Emitted e [.lock]) (spiBody dir (a.opening c) n p) fun bs u =>
      ∃ stalls go, Stalled stalls ∧ notStalled go = true ∧
        Emitted e (polled (a.opening c) stalls ++ [.busRead [go]] ++ [ev bs]) u := by
  rw [spiBody_eq]
  refine meets_bind (J := fun _ => Polling c a e) ((emits_busWrite (a.opening c)).ends.weaken
    (fun _ _ h => ⟨[], nofun, h⟩) (fun _ _ h => h) fun _ h => h) fun _ =>
    meets_bind (accesses_stallWait ht).ends fun _ => Meets.each fun m ⟨stalls, go, hs, hgo, hm⟩ => ?_
  exact ((hp e _).at hm).weaken (fun _ _ h => ⟨stalls, go, hs, hgo, h⟩) (fun _ _ h => h) fun _ h => h

theorem completes_spiXfer {ev : List Byte → Event} (ht : c.transport = .spi)
    (hopen : spiHeader c.map dir c.loc kind n = a.opening c) (hp : Carried ev (spiPayload dir n p)) :
    Completes c a ev (spiXfer dir c.loc kind n p) := by
  rintro e rfl
  refine meets_look fun m hm => ?_
  subst hm
  split
  · exact ends_raise _
  · rw [hopen]
    refine meets_bind ((emits_spiLock (X := fun _ _ => True)).ends.at (.refl m)) fun _ =>
      meets_bind (meets_attempt (ends_spiBody ht hp)) fun r => ?_
    cases r with
    | error er => exact meets_bind (meets_trivial _) fun _ => ends_raise er
    | ok bs =>
      refine meets_bind (J := fun _ => Went m.cfg a m (ev bs)) ?_ fun _ => meets_pure fun _ h => h
      rintro u ⟨stalls, go, hs, hgo, hu⟩
      have hdone := (hu.congr (u := u.setLock .free) rfl rfl).log (v := .unlock) rfl
      exact ⟨_, completed_spi ht hs hgo, by simpa using hdone⟩

/-- A register read that returns bytes has read them from the register (R150). -/
theorem completes_regRead (kind : Kind) (n : Nat) :
    Completes c (.read kind n) .busRead (regRead kind n) := by
  rintro e rfl
  refine meets_look fun m hm => ?_
  subst hm
  cases ht : m.cfg.transport with
  | i2c => exact completes_i2cRead ht kind n m rfl
  | spi => exact completes_spiXfer ht (by simp [Access.opening, ht]) (carried_read n []) m rfl

/-- A register write that returns has written its bytes to the register (R150). -/
theorem completes_regWrite (kind : Kind) (p : List Byte) :
    Completes c (.write kind p) (fun _ => .busWrite p) (regWrite kind p) := by
  rintro e rfl
  refine meets_look fun m hm => ?_
  subst hm
  cases ht : m.cfg.transport with
  | i2c => exact completes_i2cWrite ht kind p m rfl
  | spi =>
    exact meets_bind (completes_spiXfer (a := .write kind p) ht (by simp [Access.opening, ht])
      (carried_write p.length p) m rfl) fun _ => meets_pure fun _ h => h

/-! ### Polls (R200) -/

/-- The operations of a poll. -/
inductive PollOp : ∀ α : Type, P α → Prop
  | read : PollOp _ (regRead .sts 4)
  | now : PollOp _ now
  | sleep (ms : Nat) : PollOp _ (sleep ms)
  | onX (f : Regs → Regs) : PollOp _ (onX f)

theorem made_noteSnapshot (mask : Byte) (o : Except Err (List Byte)) :
    Made c PollOp (noteSnapshot mask o) := by
  cases o with
  | error er => exact .pure _
  | ok b =>
    refine .bind (.op (.onX _)) fun _ _ => .look (fun _ _ => rfl) fun m _ => ?_
    cases accept m.cfg.burstCap mask (snapStatus b) (snapBurst b)
    · exact .pure _
    · exact .pure _

theorem made_getBurstAndStatus (mask : Byte) : Made c PollOp (getBurstAndStatus mask) :=
  .bind (.op .now) fun _ _ => .bind (.op (.onX _)) fun _ _ =>
    .repeatP (consumes_burstTurn mask) <| .bind (.attempt (.op .read)) fun o _ =>
      .bind (made_noteSnapshot mask o) fun v _ => by
        cases v
        · refine .look (fun _ _ => rfl) fun m _ => .bind (.op (.sleep _)) fun _ _ =>
            .bind (.bind (.op .now) fun _ _ => .look (fun _ _ => rfl) fun _ _ => .pure _) fun late _ => ?_
          cases late
          · exact .pure _
          · exact .raise _
        · exact .pure _

/-- Since `e` the bus has carried reads of STS only, whatever became of them. -/
def StsRead (c : Cfg) (e t : Engine) : Prop :=
  ∃ trs : List (List Event), (∀ tr ∈ trs, (Access.read .sts 4).Traffic c tr) ∧ Emitted e trs.flatten t

theorem StsRead.of_off (h : Emitted e [] t) : StsRead c e t := ⟨[], nofun, h⟩

theorem progress_stsRead : Progress (StsRead c) fun _ _ => True where
  refl e := .of_off (.refl e)
  trans := by
    rintro a b d ⟨trs, htrs, h⟩ ⟨trs', htrs', k⟩
    refine ⟨trs ++ trs', fun tr htr => ?_, ?_⟩
    · exact (List.mem_append.mp htr).elim (htrs tr) (htrs' tr)
    · rw [List.flatten_append]
      exact h.trans k
  stays _ := trivial
  waits _ _ := trivial
  cfg := fun ⟨_, _, h⟩ => h.cfg

theorem PollOp.stsRead {q : P α} (h : PollOp α q) : Runs c (StsRead c) (fun _ _ => True) q := by
  have hoff {q : P α} (h : OffBus q) : Runs c (StsRead c) (fun _ _ => True) q :=
    h.runs.imp .of_off fun _ => trivial
  cases h with
  | read =>
    refine (accesses_regRead .sts 4).imp (fun h => ?_) fun _ => trivial
    rcases h with h | ⟨_, tr, htr, h⟩
    · exact .of_off h
    · exact ⟨[tr], by simpa using htr, by simpa using h⟩
  | now => exact hoff offBus_now
  | sleep ms => exact hoff (offBus_sleep ms)
  | onX f => exact hoff (offBus_onX f)

theorem runs_poll_stsRead (mask : Byte) :
    Runs c (StsRead c) (fun _ _ => True) (getBurstAndStatus mask) :=
  (made_getBurstAndStatus mask).runs progress_stsRead fun _ _ => PollOp.stsRead

/-! ### The bytes written to DATA_FIFO -/

/-- A trace between transactions that has written `bs` to DATA_FIFO, whatever follows it. -/
def Sends (c : Cfg) (tr : List Event) (bs : List Byte) : Prop :=
  ∀ rest, fifoSent c none (tr ++ rest) = bs ++ fifoSent c none rest

theorem Sends.nil : Sends c [] [] := fun _ => rfl

theorem Sends.append {bs' : List Byte} (h : Sends c tr bs) (k : Sends c tr' bs') :
    Sends c (tr ++ tr') (bs ++ bs') := fun rest => by
  rw [List.append_assoc, h, k, List.append_assoc]

theorem Sends.eq (h : Sends c tr bs) : fifoSent c none tr = bs := by
  simpa [fifoSent] using h []

theorem Sends.flatten {trs : List (List Event)} (h : ∀ tr ∈ trs, Sends c tr []) : Sends c trs.flatten [] := by
  induction trs with
  | nil => exact .nil
  | cons tr trs ih =>
    exact (h tr List.mem_cons_self).append (ih fun u hu => h u (List.mem_cons_of_mem _ hu))

theorem busTrace_cons (ev : Event) (evs : List Event) :
    busTrace (ev :: evs) = (if ev.onBus then [ev] else []) ++ busTrace evs := by
  simp only [busTrace, List.filter_cons]
  split <;> rfl

/-- Only events of the bus count. -/
theorem fifoSent_busTrace (c : Cfg) (evs : List Event) (hdr : Option (List Byte)) :
    fifoSent c hdr (busTrace evs) = fifoSent c hdr evs := by
  induction evs generalizing hdr with
  | nil => rfl
  | cons ev evs ih =>
    rw [busTrace_cons]
    cases ev <;> simp [Event.onBus, fifoSent, ih]

/-- The event of a bus read, done or failed. -/
def Event.isRead : Event → Bool
  | .busRead _ | .busReadErr _ _ => true
  | _ => false

/-- Bus reads with nothing else between them. -/
def OnlyReads (evs : List Event) : Prop := ∀ ev ∈ evs, ev.isRead = true

theorem OnlyReads.cons_iff {evs : List Event} : OnlyReads (ev :: evs) ↔ ev.isRead = true ∧ OnlyReads evs :=
  List.forall_mem_cons

/-- The traffic of a read, whatever became of it: its first bus write fails, or reads follow it. -/
def ReadTraffic (c : Cfg) (a : Access) (tr : List Event) : Prop :=
  (∃ er, tr = match c.transport with
    | .i2c => [.busWriteErr (a.opening c) er]
    | .spi => [.lock, .busWriteErr (a.opening c) er, .unlock]) ∨
  ∃ evs, OnlyReads evs ∧ tr = match c.transport with
    | .i2c => .busWrite (a.opening c) :: evs
    | .spi => .lock :: .busWrite (a.opening c) :: evs ++ [.unlock]

theorem isRead_of_carries (h : (Access.read kind n).Carries ev) : ev.isRead = true := by
  rcases h with ⟨bs, _, rfl⟩ | ⟨er, rfl⟩ <;> rfl

theorem onlyReads_stalls (stalls : List Byte) : OnlyReads (stalls.map fun b => .busRead [b]) := by
  simp [OnlyReads, Event.isRead]

theorem OnlyReads.append {evs evs' : List Event} (h : OnlyReads evs) (k : OnlyReads evs') :
    OnlyReads (evs ++ evs') :=
  fun ev hev => (List.mem_append.mp hev).elim (h ev) (k ev)

theorem readTraffic_of_traffic (h : (Access.read kind n).Traffic c tr) :
    ReadTraffic c (.read kind n) tr := by
  refine h.imp_right fun h => ?_
  cases ht : c.transport with
  | i2c =>
    rw [ht] at h
    rcases h with rfl | ⟨_, _, ev, _, hev, rfl⟩
    · exact ⟨[], nofun, rfl⟩
    · exact ⟨[ev], by simpa [OnlyReads] using isRead_of_carries hev, rfl⟩
  | spi =>
    rw [ht] at h
    obtain ⟨stalls, last, _, rfl, hlast⟩ := h
    refine ⟨_, (onlyReads_stalls stalls).append (evs' := last) ?_, rfl⟩
    rcases hlast with rfl | ⟨er, rfl⟩ | ⟨go, ev, _, hev, rfl⟩
    · exact nofun
    · simp [OnlyReads, Event.isRead]
    · simpa [OnlyReads, Event.isRead] using isRead_of_carries hev

theorem fifoSent_reads {evs : List Event} (h : OnlyReads evs) (hdr : Option (List Byte)) (rest : List Event) :
    fifoSent c hdr (evs ++ rest) = fifoSent c hdr rest := by
  induction evs with
  | nil => rfl
  | cons ev evs ih =>
    obtain ⟨hev, hevs⟩ := OnlyReads.cons_iff.mp h
    cases ev <;> simp_all [Event.isRead, fifoSent]

/-- A read writes no data. -/
theorem sends_of_read (h : ReadTraffic c (.read kind n) tr) : Sends c tr [] := by
  intro rest
  cases ht : c.transport with
  | i2c =>
    rw [ReadTraffic, ht] at h
    rcases h with ⟨er, rfl⟩ | ⟨evs, hevs, rfl⟩
    · simp [fifoSent]
    · simp [fifoSent, ht, Access.opening, fifoSent_reads hevs]
  | spi =>
    rw [ReadTraffic, ht] at h
    rcases h with ⟨er, rfl⟩ | ⟨evs, hevs, rfl⟩
    · simp [fifoSent]
    · simp [fifoSent, ht, fifoSent_reads hevs]

/-- A write of DATA_FIFO that has gone through writes its payload. -/
theorem sends_of_completed (h : (Access.write .dataFifo p).Completed c (.busWrite p) tr) : Sends c tr p := by
  intro rest
  cases ht : c.transport with
  | i2c =>
    simp only [Access.Completed, ht] at h
    simp [h, fifoSent, ht, Access.opening, opensFifo]
  | spi =>
    simp only [Access.Completed, ht] at h
    obtain ⟨stalls, go, _, _, rfl⟩ := h
    simp [polled, fifoSent, ht, Access.opening, opensFifo, spiHeader, fifoSent_reads (onlyReads_stalls stalls)]

/-! ### The byte strings read from DATA_FIFO -/

/-- A trace between transactions in which the reads of DATA_FIFO have given `bss`, whatever follows it. Between
transactions only the expectation of a payload may be left from an earlier one. -/
def Receives (c : Cfg) (tr : List Event) (bss : List (List Byte)) : Prop :=
  ∀ go, ∃ go', ∀ rest, fifoReceived c false go (tr ++ rest) = bss ++ fifoReceived c false go' rest

theorem Receives.nil : Receives c [] [] := fun go => ⟨go, fun _ => rfl⟩

theorem Receives.append {bss bss' : List (List Byte)} (h : Receives c tr bss) (k : Receives c tr' bss') :
    Receives c (tr ++ tr') (bss ++ bss') := fun go => by
  obtain ⟨go', h⟩ := h go
  obtain ⟨go'', k⟩ := k go'
  exact ⟨go'', fun rest => by rw [List.append_assoc, h, k, List.append_assoc]⟩

theorem Receives.eq {bss : List (List Byte)} (h : Receives c tr bss) : fifoReceived c false false tr = bss := by
  obtain ⟨go, h⟩ := h false
  simpa [fifoReceived] using h []

theorem Receives.flatten {trs : List (List Event)} (h : ∀ tr ∈ trs, Receives c tr []) :
    Receives c trs.flatten [] := by
  induction trs with
  | nil => exact .nil
  | cons tr trs ih =>
    exact (h tr List.mem_cons_self).append (ih fun u hu => h u (List.mem_cons_of_mem _ hu))

theorem fifoReceived_busTrace (c : Cfg) (evs : List Event) (inFifo go : Bool) :
    fifoReceived c inFifo go (busTrace evs) = fifoReceived c inFifo go evs := by
  induction evs generalizing inFifo go with
  | nil => rfl
  | cons ev evs ih =>
    rw [busTrace_cons]
    cases ev with
    | busRead bs => cases inFifo <;> cases go <;> simp [Event.onBus, fifoReceived, ih]
    | _ => simp [Event.onBus, fifoReceived, ih]

/-- Outside a DATA_FIFO transaction reads give nothing. -/
theorem receives_of_onlyReads {evs : List Event} (h : OnlyReads evs) : Receives c evs [] := by
  induction evs with
  | nil => exact .nil
  | cons ev evs ih =>
    obtain ⟨hev, hevs⟩ := OnlyReads.cons_iff.mp h
    refine Receives.append (tr := [ev]) (bss := []) (fun go => ?_) (ih hevs)
    cases ev with
    | busRead bs => exact ⟨false, fun rest => by simp [fifoReceived]⟩
    | busReadErr k er => exact ⟨go, fun rest => by simp [fifoReceived]⟩
    | _ => cases hev

theorem spi_beq_i2c : (Transport.spi == Transport.i2c) = false := rfl

/-- A read of another register gives none of DATA_FIFO. -/
theorem receives_of_read (hopen : opensFifo c (a.opening c) = false) (h : ReadTraffic c a tr) :
    Receives c tr [] := by
  intro go
  cases ht : c.transport with
  | i2c =>
    rw [ReadTraffic, ht] at h
    rcases h with ⟨er, rfl⟩ | ⟨evs, hevs, rfl⟩
    · exact ⟨go, fun rest => by simp [fifoReceived]⟩
    · obtain ⟨go', hreads⟩ := receives_of_onlyReads (c := c) hevs true
      exact ⟨go', fun rest => by simpa [fifoReceived, hopen, ht] using hreads rest⟩
  | spi =>
    rw [ReadTraffic, ht] at h
    rcases h with ⟨er, rfl⟩ | ⟨evs, hevs, rfl⟩
    · exact ⟨false, fun rest => by simp [fifoReceived]⟩
    · obtain ⟨go', hreads⟩ := receives_of_onlyReads (c := c) hevs false
      exact ⟨false, fun rest => by
        simpa [fifoReceived, hopen, ht, spi_beq_i2c] using hreads (.unlock :: rest)⟩

theorem fifoReceived_stalls (hs : Stalled stalls) (rest : List Event) :
    fifoReceived c true false (stalls.map (fun b => .busRead [b]) ++ rest) = fifoReceived c true false rest := by
  induction stalls with
  | nil => rfl
  | cons b stalls ih =>
    obtain ⟨hb, hs⟩ := List.forall_mem_cons.mp hs
    simpa [fifoReceived, byteAt_singleton, hb] using ih hs

/-- A read of DATA_FIFO that has gone through gives the bytes it carried. -/
theorem receives_of_completed (h : (Access.read .dataFifo n).Completed c (.busRead bs) tr) :
    Receives c tr [bs] := by
  intro g
  refine ⟨false, fun rest => ?_⟩
  cases ht : c.transport with
  | i2c =>
    simp only [Access.Completed, ht] at h
    simp [h, fifoReceived, ht, Access.opening, opensFifo]
  | spi =>
    simp only [Access.Completed, ht] at h
    obtain ⟨stalls, go, hs, hgo, rfl⟩ := h
    simp [polled, fifoReceived, ht, Access.opening, opensFifo, spiHeader, fifoReceived_stalls hs,
      byteAt_singleton, hgo, spi_beq_i2c]

/-- STS has another address than DATA_FIFO (R82). -/
theorem opensFifo_sts (hmap : c.map = .standard) : opensFifo c ((Access.read .sts n).opening c) = false := by
  cases ht : c.transport with
  | i2c =>
    have hne : i2cAddr c.map c.loc .sts ≠ i2cAddr c.map c.loc .dataFifo := fun h => by
      simpa [i2cAddr, i2cBase, hmap, TpmMap.standard] using congrArg (BitVec.getLsbD · 2) h
    simp [opensFifo, Access.opening, ht, hne]
  | spi =>
    have hne : (spiAddr c.map c.loc .sts).setWidth 8 ≠ (spiAddr c.map c.loc .dataFifo).setWidth 8 :=
      fun h => by
        simpa [spiAddr, spiBase, hmap, TpmMap.standard] using congrArg (BitVec.getLsbD · 2) h
    simp [opensFifo, Access.opening, ht, spiHeader, hne]

theorem StsRead.sends (h : StsRead c e t) : ∃ tr, Sends c tr [] ∧ Emitted e tr t := by
  obtain ⟨trs, htrs, h⟩ := h
  exact ⟨_, .flatten fun tr htr => sends_of_read (readTraffic_of_traffic (htrs tr htr)), h⟩

theorem StsRead.receives (hmap : c.map = .standard) (h : StsRead c e t) :
    ∃ tr, Receives c tr [] ∧ Emitted e tr t := by
  obtain ⟨trs, htrs, h⟩ := h
  exact ⟨_, .flatten fun tr htr =>
    receives_of_read (opensFifo_sts hmap) (readTraffic_of_traffic (htrs tr htr)), h⟩

end Sys2Proof.Machine
end

section
/-! PROOF. What FIFO_WRITE_BODY writes to DATA_FIFO and reads from CMDBUF, whatever the environment answers
(43_fifo_transfer.md R221, R222; 20_memory.md R98): an invariant of its loop over the chunks. -/

namespace Sys2Proof.Machine

variable {α β : Type} {c : Cfg} {e m t : Engine} {s : State} {q : P α} {src : Src} {i j k n len : Nat}

/-! ### The source of a write -/

theorem memBytes_add (b : Memory) (i j k : Nat) :
    memBytes b i (j + k) = memBytes b i j ++ memBytes b (i + j) k := by
  simp [memBytes, List.range_add, Nat.add_assoc]

@[simp] theorem memBytes_length (b : Memory) (i k : Nat) : (memBytes b i k).length = k := by
  simp [memBytes]

/-- The `k` bytes of the source from index `i` on. -/
def Engine.chunk (e : Engine) (src : Src) (i k : Nat) : List Byte :=
  match src with
  | .cmdbuf => memBytes e.cmdbuf i k
  | .shutdownCmd => (shutdownCmd.drop i).take k

/-- The CMDBUF reads that fetch them. -/
def Engine.chunkReads (e : Engine) (src : Src) (i k : Nat) : List (Nat × Byte) :=
  match src with
  | .cmdbuf => indexed i (memBytes e.cmdbuf i k)
  | .shutdownCmd => []

theorem Engine.chunk_zero (e : Engine) (src : Src) (k : Nat) : e.chunk src 0 k = e.source src k := by
  cases src <;> rfl

theorem Engine.chunk_length (e : Engine) (hik : i + k ≤ sourceSize src) : (e.chunk src i k).length = k := by
  cases src with
  | cmdbuf => exact memBytes_length ..
  | shutdownCmd =>
    have hsize : shutdownCmd.length = 12 := rfl
    simp only [sourceSize] at hik
    simp only [Engine.chunk, List.length_take, List.length_drop]
    omega

theorem Engine.chunk_add (e : Engine) (src : Src) (i j k : Nat) :
    e.chunk src i (j + k) = e.chunk src i j ++ e.chunk src (i + j) k := by
  cases src with
  | cmdbuf => exact memBytes_add ..
  | shutdownCmd => simp [Engine.chunk, List.take_add]

theorem Engine.chunkReads_add (e : Engine) (src : Src) (i j k : Nat) :
    e.chunkReads src i (j + k) = e.chunkReads src i j ++ e.chunkReads src (i + j) k := by
  cases src with
  | cmdbuf => simp [Engine.chunkReads, memBytes_add, indexed_append]
  | shutdownCmd => rfl

theorem Engine.source_add (e : Engine) (src : Src) (j k : Nat) :
    e.source src (j + k) = e.source src j ++ e.chunk src j k := by
  rw [← e.chunk_zero, ← e.chunk_zero, e.chunk_add, Nat.zero_add]

/-- The events of CMDBUF reads. -/
def loads (rs : List (Nat × Byte)) : List Event := rs.map fun r => .memRead .cmdbuf r.1 r.2

/-- The engine that has read the bytes. -/
def Engine.loaded (e : Engine) (src : Src) (i k : Nat) : Engine :=
  { e with trace := e.trace ++ loads (e.chunkReads src i k) }

theorem srcByte_of_fits (e : Engine) (hi : i < sourceSize src) :
    ∃ b, srcByte src i e = .ok b (e.loaded src i 1) ∧ e.chunk src i 1 = [b] := by
  cases src with
  | cmdbuf => exact ⟨_, memRead_ok hi e, rfl⟩
  | shutdownCmd =>
    have hlt : i < shutdownCmd.length := hi
    refine ⟨shutdownCmd[i], ?_, ?_⟩
    · simp [srcByte, hlt, Engine.loaded, Engine.chunkReads, loads]
    · simp [Engine.chunk, List.take_one_drop_eq_of_lt_length hlt]

theorem Engine.loaded_loaded (e : Engine) (src : Src) (i j k : Nat) :
    (e.loaded src i j).loaded src (i + j) k = e.loaded src i (j + k) := by
  simp [Engine.loaded, loads, e.chunkReads_add src i j k]
  rfl

/-- The bytes are read one after the other, each once (R98). -/
theorem srcBytes_of_fits (k i : Nat) (e : Engine) (hik : i + k ≤ sourceSize src) :
    srcBytes src i k e = .ok (e.chunk src i k) (e.loaded src i k) := by
  induction k generalizing i e with
  | zero => cases src <;> simp [srcBytes, Engine.chunk, Engine.loaded, Engine.chunkReads, loads, memBytes, indexed]
  | succ k ih =>
    obtain ⟨b, hb, hchunk⟩ := srcByte_of_fits e (src := src) (i := i) (by omega)
    have hrest := ih (i + 1) (e.loaded src i 1) (by omega)
    rw [srcBytes, bind_of_ok hb, bind_of_ok hrest, Nat.add_comm k 1, e.chunk_add, hchunk, ← e.loaded_loaded]
    rfl

theorem cmdReads_loads (rs : List (Nat × Byte)) : cmdReads (loads rs) = rs := by
  induction rs with
  | nil => rfl
  | cons r rs ih => exact congrArg (r :: ·) ih

theorem busTrace_loads (rs : List (Nat × Byte)) : busTrace (loads rs) = [] := by
  induction rs with
  | nil => rfl
  | cons r rs ih => exact ih

theorem cmdReads_loaded (e : Engine) (src : Src) (i k : Nat) :
    cmdReads (e.loaded src i k).trace = cmdReads e.trace ++ e.chunkReads src i k := by
  rw [Engine.loaded, cmdReads_append, cmdReads_loads]

theorem emitted_loaded (e : Engine) (src : Src) (i k : Nat) : Emitted e [] (e.loaded src i k) :=
  ⟨rfl, by rw [Engine.loaded, busTrace_append, busTrace_loads]⟩

/-! ### What polls and accesses leave of it -/

/-- CMDBUF holds what it held, and has not been read. -/
structure SameSource (e t : Engine) : Prop where
  cfg : t.cfg = e.cfg
  cmdbuf : t.cmdbuf = e.cmdbuf
  reads : cmdReads t.trace = cmdReads e.trace

theorem progress_sameSource : Progress SameSource SameSource :=
  .of_preorder (fun _ => ⟨rfl, rfl, rfl⟩)
    (fun h k => ⟨k.cfg.trans h.cfg, k.cmdbuf.trans h.cmdbuf, k.reads.trans h.reads⟩) fun h => h.cfg

/-- Whatever the environment answers. -/
abbrev KeepsSource (c : Cfg) (q : P α) : Prop := Runs c SameSource SameSource q

theorem keepsSource_bind {f : α → P β} (hq : KeepsSource c q) (hf : ∀ a, KeepsSource c (f a)) :
    KeepsSource c (q >>= f) :=
  runs_bind progress_sameSource hq fun a _ => hf a

theorem keepsSource_pure (a : α) : KeepsSource c (pure a) := runs_pure progress_sameSource a

theorem keepsSource_raise (er : Err) : KeepsSource c (raise er : P α) := fun e _ => progress_sameSource.refl e

theorem keepsSource_take (w : Prim) : KeepsSource c (take w) := by
  intro e _
  rcases take_cases w e with ⟨_, h⟩ | ⟨a, rest, _, h⟩ <;> rw [h]
  · exact progress_sameSource.refl e
  · exact ⟨rfl, rfl, rfl⟩

theorem keepsSource_change {f : Engine → Engine} (hcfg : ∀ e, (f e).cfg = e.cfg := by intros; rfl)
    (hcmdbuf : ∀ e, (f e).cmdbuf = e.cmdbuf := by intros; rfl)
    (htrace : ∀ e, (f e).trace = e.trace := by intros; rfl) : KeepsSource c (change f) :=
  fun e _ => ⟨hcfg e, hcmdbuf e, by rw [htrace]⟩

theorem keepsSource_record {v : Event} (hv : cmdReads [v] = []) : KeepsSource c (record v) :=
  fun e _ => ⟨rfl, rfl, by rw [Engine.log_trace, cmdReads_append, hv, List.append_nil]⟩

/-- An update and its event. -/
theorem keepsSource_change_record {f : Engine → Engine} {v : Event} (hf : KeepsSource c (change f))
    (hv : cmdReads [v] = []) : KeepsSource c (change f >>= fun _ => record v) :=
  keepsSource_bind hf fun _ => keepsSource_record hv

/-- An answer looked at only through the state it leaves. -/
theorem keepsSource_observed {w : Prim} {ev : Engine → Event} {v : Engine → α}
    (hev : ∀ e, cmdReads [ev e] = []) :
    KeepsSource c (take w >>= fun _ => look >>= fun e => record (ev e) >>= fun _ => pure (v e)) :=
  keepsSource_bind (keepsSource_take w) fun _ e he => keepsSource_bind (keepsSource_record (hev e))
    (fun _ => keepsSource_pure (v e)) e he

theorem WaitOp.keepsSource (h : WaitOp α q) : KeepsSource c q := by
  cases h with
  | now => exact keepsSource_observed fun _ => rfl
  | readyFlag => exact keepsSource_observed fun _ => rfl
  | readyAtDeadline =>
    intro e _
    rw [readyAtDeadline_apply]
    change SameSource e _
    split
    · exact ⟨rfl, rfl, by simp [cmdReads]⟩
    · exact progress_sameSource.refl e
  | noteT1 v => exact keepsSource_change

theorem PortOp.keepsSource (h : PortOp c α q) : KeepsSource c q := by
  cases h with
  | wait h => exact h.keepsSource
  | busWrite bs =>
    refine keepsSource_bind (keepsSource_take _) fun a => ?_
    cases a.err with
    | none => exact keepsSource_record rfl
    | some er => exact keepsSource_bind (keepsSource_record rfl) fun _ => keepsSource_raise _
  | busRead n =>
    refine keepsSource_bind (keepsSource_take _) fun a => ?_
    cases a.err with
    | none => exact keepsSource_bind (keepsSource_record rfl) fun _ => keepsSource_pure _
    | some er => exact keepsSource_bind (keepsSource_record rfl) fun _ => keepsSource_raise _
  | readyClear => exact keepsSource_change_record keepsSource_change rfl
  | lockTurn =>
    refine keepsSource_bind (keepsSource_take _) fun a => ?_
    cases a.lockFree
    · exact keepsSource_pure _
    · exact keepsSource_bind keepsSource_change fun _ =>
        keepsSource_bind (keepsSource_record rfl) fun _ => keepsSource_pure _
  | unlock => exact keepsSource_change_record keepsSource_change rfl
  | scratch loc kind p _ => exact keepsSource_change

theorem PollOp.keepsSource (h : PollOp α q) : KeepsSource c q := by
  cases h with
  | read => exact (made_regRead .sts 4).runs progress_sameSource fun _ _ => PortOp.keepsSource
  | now => exact WaitOp.now.keepsSource
  | sleep ms =>
    exact keepsSource_bind (keepsSource_take _) fun _ => keepsSource_change_record keepsSource_change rfl
  | onX f => exact keepsSource_change

theorem keepsSource_poll (mask : Byte) : KeepsSource c (getBurstAndStatus mask) :=
  (made_getBurstAndStatus mask).runs progress_sameSource fun _ _ => PollOp.keepsSource

theorem keepsSource_regWrite (kind : Kind) (p : List Byte) : KeepsSource c (regWrite kind p) :=
  (made_regWrite kind p).runs progress_sameSource fun _ _ => PortOp.keepsSource

/-! ### The loop over the chunks (R221) -/

/-- Since `e` the first `j` bytes of the source have been written to DATA_FIFO and the first `k` have been
read. -/
structure Sending (src : Src) (e : Engine) (j k : Nat) (t : Engine) : Prop where
  cfg : t.cfg = e.cfg
  cmdbuf : t.cmdbuf = e.cmdbuf
  reads : cmdReads t.trace = cmdReads e.trace ++ e.chunkReads src 0 k
  data : ∃ tr, Sends e.cfg tr (e.source src j) ∧ Emitted e tr t

/-- Since `e` at most the first `len` bytes of the source have been read, in order. -/
def ReadsPrefix (src : Src) (len : Nat) (e t : Engine) : Prop :=
  ∃ k ≤ len, cmdReads t.trace = cmdReads e.trace ++ e.chunkReads src 0 k

theorem Sending.readsPrefix (h : Sending src e j k t) (hk : k ≤ len) : ReadsPrefix src len e t :=
  ⟨k, hk, h.reads⟩

theorem Sending.refl (src : Src) (e : Engine) : Sending src e 0 0 e where
  cfg := rfl
  cmdbuf := rfl
  reads := by cases src <;> simp [Engine.chunkReads, memBytes, indexed]
  data := ⟨[], by cases src <;> exact .nil, .refl e⟩

/-- An update elsewhere, which records nothing. -/
theorem Sending.congr (h : Sending src e j k m) (hcfg : t.cfg = m.cfg := by rfl)
    (hcmdbuf : t.cmdbuf = m.cmdbuf := by rfl) (htrace : t.trace = m.trace := by rfl) : Sending src e j k t :=
  ⟨hcfg.trans h.cfg, hcmdbuf.trans h.cmdbuf, htrace ▸ h.reads,
    h.data.imp fun _ ⟨hs, hm⟩ => ⟨hs, hm.congr hcfg htrace⟩⟩

/-- A step that reads no byte, on whose traffic the next `n` bytes go out. -/
theorem Sending.advance (h : Sending src e j k m) (hs : SameSource m t)
    (hd : ∃ tr, Sends e.cfg tr (e.chunk src j n) ∧ Emitted m tr t) : Sending src e (j + n) k t := by
  obtain ⟨tr, hsent, ht⟩ := h.data
  obtain ⟨tr', hsent', ht'⟩ := hd
  exact ⟨hs.cfg.trans h.cfg, hs.cmdbuf.trans h.cmdbuf, hs.reads.trans h.reads, _,
    e.source_add src j n ▸ hsent.append hsent', ht.trans ht'⟩

theorem Sending.chunk_eq (h : Sending src e j k t) (i n : Nat) : t.chunk src i n = e.chunk src i n := by
  cases src <;> simp [Engine.chunk, h.cmdbuf]

/-- The next `n` bytes are read. -/
theorem Sending.load (h : Sending src e j k t) (n : Nat) :
    Sending src e j (k + n) (t.loaded src k n) where
  cfg := h.cfg
  cmdbuf := h.cmdbuf
  reads := by
    have hchunk : t.chunkReads src k n = e.chunkReads src k n := by
      cases src <;> simp [Engine.chunkReads, h.cmdbuf]
    rw [cmdReads_loaded, h.reads, hchunk, List.append_assoc, e.chunkReads_add, Nat.zero_add]
  data := h.data.imp fun _ ⟨hs, ht⟩ => ⟨hs, ht.off (emitted_loaded t src k n)⟩

/-- The loop between two turns: what has been sent is counted in `x[sent]`. -/
structure SendLoop (src : Src) (len : Nat) (e : Engine) (j : Nat) (t : Engine) : Prop
    extends Sending src e j j t where
  sent : t.x.sent.toNat = j
  bound : j ≤ len

theorem ReadsPrefix.same (h : ReadsPrefix src len e m) (hs : SameSource m t) : ReadsPrefix src len e t :=
  h.imp fun _ ⟨hk, hr⟩ => ⟨hk, hs.reads.trans hr⟩

theorem SendLoop.readsPrefix (h : SendLoop src len e j t) : ReadsPrefix src len e t :=
  h.toSending.readsPrefix h.bound

/-- A poll writes no data and keeps `x[sent]`. -/
theorem SendLoop.poll (h : SendLoop src len e j m) (hpoll : StsRead e.cfg m t) (hs : SameSource m t)
    (ht : t.x.sent = m.x.sent) : SendLoop src len e j t where
  toSending := h.toSending.advance (n := 0) hs (by
    have hnone : e.chunk src j 0 = [] := by cases src <;> simp [Engine.chunk, memBytes]
    exact hnone ▸ hpoll.sends)
  sent := ht ▸ h.sent
  bound := h.bound

/-- A contract of the steps of FIFO_WRITE_BODY since `e`: where they raise or wait at
most the first `len` bytes have been read. -/
abbrev Sender (src : Src) (len : Nat) (e : Engine) (I : Engine → Prop) (q : P α) (J : α → Engine → Prop) : Prop :=
  Meets I q J (fun _ => ReadsPrefix src len e) (ReadsPrefix src len e)

theorem sender_poll (mask : Byte) :
    Sender src len e (SendLoop src len e j) (getBurstAndStatus mask) fun _ => SendLoop src len e j :=
  Meets.each fun _ hm => (((runs_poll_stsRead mask).at hm.cfg).and
    (((keepsSource_poll mask).at hm.cfg).and ((on_getBurstAndStatus mask).touches.at hm.cfg))).weaken
      (fun _ _ ⟨hpoll, hs, ht⟩ => hm.poll hpoll hs (ht.regs .sent (by decide)))
      (fun _ _ ⟨_, hs, _⟩ => hm.readsPrefix.same hs) fun _ ⟨_, hs, _⟩ => hm.readsPrefix.same hs

theorem sourceSize_le (src : Src) : sourceSize src ≤ 2 ^ 24 := by cases src <;> decide

/-- Within a turn the next `n` bytes have been read, and are still to be written and counted. -/
structure SendTurn (src : Src) (len : Nat) (e : Engine) (j n : Nat) (t : Engine) : Prop
    extends Sending src e j (j + n) t where
  sent : t.x.sent.toNat = j
  limit : t.x.limit = BitVec.ofNat 32 n
  bound : j + n ≤ len

/-- The next `n` bytes are read. -/
theorem sender_load (hlen : len ≤ sourceSize src) :
    Sender src len e (fun t => SendLoop src len e j t ∧ t.x.limit = BitVec.ofNat 32 n ∧ j + n ≤ len)
      (srcBytes src j n) fun p t => p = e.chunk src j n ∧ SendTurn src len e j n t := by
  rintro m ⟨hm, hlimit, hbound⟩
  rw [srcBytes_of_fits n j m (hbound.trans hlen)]
  exact ⟨hm.chunk_eq j n, hm.load n, hm.sent, hlimit, hbound⟩

/-- The chunk is written: it goes out whole, and `x[sent]` can count it. -/
theorem sender_write (hlen : len ≤ sourceSize src) :
    Sender src len e (SendTurn src len e j n) (regWrite .dataFifo (e.chunk src j n)) fun _ t =>
      SendLoop src len e (j + n) (t.setX { t.x with sent := t.x.sent + t.x.limit }) := by
  refine Meets.each fun m hm => ?_
  have hprefix {t : Engine} (hs : SameSource m t) : ReadsPrefix src len e t :=
    (hm.readsPrefix hm.bound).same hs
  have hkeeps := (keepsSource_regWrite .dataFifo (e.chunk src j n)).at hm.cfg
  have htouches := ((made_regWrite .dataFifo (e.chunk src j n)).touches_of_port (S := {.t1}) (by decide)).at
    hm.cfg
  refine ((completes_regWrite .dataFifo (e.chunk src j n) m hm.cfg).and (hkeeps.and htouches)).weaken
    (fun _ t ⟨⟨tr, htr, hemit⟩, hs, ht⟩ => ?_) (fun _ _ ⟨_, hs, _⟩ => hprefix hs) fun _ ⟨_, hs, _⟩ => hprefix hs
  have hsent : t.x.sent = m.x.sent := ht.regs .sent (by decide)
  have hlimit : t.x.limit = BitVec.ofNat 32 n := (ht.regs .limit (by decide)).trans hm.limit
  refine ⟨(hm.advance hs ⟨tr, sends_of_completed htr, hemit⟩).congr, ?_, hm.bound⟩
  have hbound := hm.bound.trans (hlen.trans (sourceSize_le src))
  have hjn : (m.x.sent + BitVec.ofNat 32 n).toNat = j + n := by
    rw [BitVec.toNat_add, BitVec.toNat_ofNat, hm.sent]
    omega
  rw [Engine.setX_x, hsent, hlimit, hjn]

theorem sender_sendTurn (hlen : len ≤ sourceSize src) :
    Sender src len e (fun t => ∃ j, SendLoop src len e j t) (sendTurn src len)
      (Turned (fun t => ∃ j, SendLoop src len e j t) fun _ => SendLoop src len e len) := by
  refine meets_look fun m ⟨j, hm⟩ => ?_
  split
  · refine meets_bind ((sender_poll _).at hm) fun v => ?_
    have hfits : j + sendChunk v.1 len m.x.sent ≤ len := by
      have hsent := hm.sent
      simp only [sendChunk]
      omega
    rw [hm.sent]
    refine meets_bind (J := fun _ t => SendLoop src len e j t ∧
      t.x.limit = BitVec.ofNat 32 (sendChunk v.1 len m.x.sent) ∧ j + sendChunk v.1 len m.x.sent ≤ len)
      (meets_change fun t ht => ⟨⟨ht.toSending.congr, ht.sent, ht.bound⟩, rfl, hfits⟩) fun _ =>
        meets_bind (sender_load hlen) fun p => ?_
    refine Meets.each fun t ⟨hp, ht⟩ => ?_
    subst hp
    exact meets_bind ((sender_write hlen).at ht) fun _ => meets_bind (J := fun _ t => SendLoop src len e _ t)
      (meets_change fun _ h => h) fun _ => meets_pure fun _ h => ⟨_, h⟩
  · refine meets_pure fun t ht => ?_
    subst ht
    have hdone : j = len := by
      have := hm.sent
      have := hm.bound
      omega
    exact hdone ▸ hm

theorem sender_fifoWriteBody (hlen : len ≤ sourceSize src) :
    Sender src len e (fun m => m = e) (fifoWriteBody src len) fun _ => SendLoop src len e len := by
  refine meets_bind (J := fun _ t => ∃ j, SendLoop src len e j t) (meets_change fun t ht => ?_) fun _ => ?_
  · subst ht
    exact ⟨0, (Sending.refl src t).congr, rfl, Nat.zero_le _⟩
  · refine meets_bind (meets_repeatP (fun _ ⟨_, h⟩ => h.readsPrefix) (sender_sendTurn hlen)) fun _ =>
      meets_look fun m hm => meets_bind ((sender_poll _).at hm) fun v => ?_
    cases dataExpect m.cfg.map v.2
    · exact meets_pure fun _ h => h
    · exact meets_raise fun _ h => h.readsPrefix

/-! ### The instruction -/

/-- A procedure run by its own code that waits has left there what its contract says of waiting. -/
theorem launch_procedure_waits {ins : Instr} {I W : Engine → Prop} {J : RetVal → Engine → Prop}
    {X : Err → Engine → Prop} {q : P RetVal} {t : State} (hq : Meets I q J X W)
    (hs : I s.toEngine) (h : launch ins (procedure q) s = .next t) (ht : t.running ≠ none) : W t.toEngine := by
  have hbody : Meets I (procedure q) (fun _ _ => True) (fun _ _ => True) W :=
    meets_bind (meets_attempt hq) fun _ => meets_change fun _ _ => trivial
  exact (launch_lands h hbody hs).2 ht

/-- What a FIFO_WRITE_BODY has read, and where it ended with Ok what it has sent. -/
theorem exec_fifoWriteBody_sends {t : State} (hlen : s.args.len ≤ sourceSize s.args.src)
    (h : exec .fifoWriteBody s = .next t) :
    ReadsPrefix s.args.src s.args.len s.toEngine t.toEngine ∧ (t.running = none → t.ret = .ok .unit →
      SendLoop s.args.src s.args.len s.toEngine s.args.len t.toEngine) := by
  have hq : Sender s.args.src s.args.len s.toEngine (fun m => m = s.toEngine)
      (asUnit (fifoWriteBody s.args.src s.args.len)) fun _ =>
        SendLoop s.args.src s.args.len s.toEngine s.args.len :=
    meets_bind (sender_fifoWriteBody hlen) fun _ => meets_pure fun _ h => h
  by_cases hn : t.running = none
  · obtain ⟨r, m, hm, hr⟩ := launch_procedure_lands hq rfl h hn
    rw [hm]
    cases r with
    | ok v => exact ⟨hr.readsPrefix, fun _ _ => ⟨hr.toSending.congr, hr.sent, hr.bound⟩⟩
    | error er => exact ⟨hr, fun _ => nofun⟩
  · exact ⟨launch_procedure_waits hq rfl h hn, fun hn' => absurd hn' hn⟩

/-- Settles O46: the loop's invariant where the instruction ended or waits, read off the events it adds. -/
theorem fifoPayloadsAreTheCommand : Obligations.FifoPayloadsAreTheCommand := by
  intro s t evs _ _ hlen h htr
  obtain ⟨⟨k, hk, hreads⟩, hdone⟩ := exec_fifoWriteBody_sends hlen h
  rw [htr, cmdReads_append, List.append_right_inj] at hreads
  have hsource (k : Nat) : s.chunkReads s.args.src 0 k = match s.args.src with
      | .cmdbuf => indexed 0 (memBytes s.cmdbuf 0 k)
      | .shutdownCmd => [] := by cases s.args.src <;> rfl
  refine ⟨⟨k, hk, hreads.trans (hsource k)⟩, fun hn hret => ?_⟩
  obtain ⟨⟨_, _, hall, tr, hsends, hemit⟩, hsent, _⟩ := hdone hn hret
  have hbus := hemit.bus
  rw [htr, cmdReads_append, List.append_right_inj] at hall
  rw [htr, busTrace_append, List.append_right_inj] at hbus
  refine ⟨?_, ?_, fun hsrc => ?_⟩
  · rw [← fifoSent_busTrace, hbus]
    exact hsends.eq
  · rw [← hsent, BitVec.ofNat_toNat, BitVec.setWidth_eq]
  · rw [hall, hsource, hsrc]

end Sys2Proof.Machine
end

section
/-! PROOF. What a FIFO_READ_BODY that succeeds has put into RSPBUF, whatever the environment answered
(43_fifo_transfer.md R224, R226): an invariant of its loop over the chunks. -/

namespace Sys2Proof.Machine

variable {α : Type} {c : Cfg} {e m t : Engine} {s : State} {q : P α} {cap i k n : Nat} {mask : Byte}
  {v : Half × Byte} {d first got w : List Byte} {others : List (List Byte)} {r : Received}

/-! ### The bytes that stand in a buffer -/

theorem memBytes_memSetAll (b : Memory) (hb : Memory.wf b = true) (bs : List Byte) :
    memBytes (memSetAll b 0 bs) 0 bs.length = bs := by
  refine List.ext_getElem (memBytes_length ..) fun k _ hk => ?_
  have hin := memGet_memSetAll_inside bs b 0 k hb hk
  simpa [memBytes, byteAt, hk] using hin

theorem memBytes_take (b : Memory) (h : i ≤ k) : memBytes b 0 i = (memBytes b 0 k).take i := by
  obtain ⟨j, rfl⟩ := Nat.exists_eq_add_of_le h
  rw [memBytes_add, List.take_left' (memBytes_length ..)]

/-- The declared length stands in the first six bytes (R85). -/
theorem declaredLength_take {bs : List Byte} (h : 6 ≤ bs.length) :
    declaredLength (bs.take 6) = declaredLength bs := by
  have hbyte (k : Nat) (hk : k < 6) : byteAt (bs.take 6) k = byteAt bs k := by
    have hlt : k < bs.length := by omega
    simp [byteAt, hk, hlt]
  simp only [declaredLength, hbyte 2 (by decide), hbyte 3 (by decide), hbyte 4 (by decide),
    hbyte 5 (by decide)]

/-! ### The steps of the body, where they return -/

theorem poll_of_ok (h : getBurstAndStatus mask e = .ok v t) :
    Touches {.status, .burst, .t0, .t1} e t ∧ StsRead e.cfg e t ∧ 1 ≤ v.1.toNat :=
  ⟨(on_getBurstAndStatus mask).touches.of_ok rfl h, (runs_poll_stsRead mask).of_ok rfl h,
    (returns_getBurstAndStatus mask).of_ok trivial h⟩

theorem readFifo_of_ok (h : regRead .dataFifo n e = .ok d t) :
    Touches {.t1} e t ∧ Went e.cfg (.read .dataFifo n) e (.busRead d) t ∧ d.length = n :=
  ⟨((made_regRead .dataFifo n).touches_of_port (by decide)).of_ok rfl h,
    (completes_regRead .dataFifo n e rfl).of_ok rfl h, (returns_regRead .dataFifo n).of_ok trivial h⟩

theorem offBus_memWriteAll : ∀ (d : List Byte) (k : Nat), OffBus (memWriteAll k d)
  | [], _ => offBus_pure ()
  | v :: vs, k => offBus_bind (offBus_memWrite k v) fun _ => offBus_memWriteAll vs (k + 1)

theorem store_of_ok (h : memWriteAll k d e = .ok () t) : Stored e k d t ∧ Emitted e [] t := by
  have hl := lands_memWriteAll (X := fun _ _ => True) (W := fun _ => True) d k e
  rw [h] at hl
  exact ⟨hl, (offBus_memWriteAll d k e []).of_ok (.refl e) h⟩

/-! ### The loop over the chunks (R224) -/

/-- Since `e` the chunks `bss` have come from DATA_FIFO. -/
def Delivered (e : Engine) (bss : List (List Byte)) (t : Engine) : Prop :=
  ∃ tr, Receives e.cfg tr bss ∧ Emitted e tr t

theorem Delivered.refl (e : Engine) : Delivered e [] e := ⟨[], .nil, .refl e⟩

section Delivered

variable {bss : List (List Byte)} (h : Delivered e bss m)
include h

theorem Delivered.cfg : m.cfg = e.cfg := h.elim fun _ hm => hm.2.cfg

theorem Delivered.off (hoff : Emitted m [] t) : Delivered e bss t :=
  h.imp fun _ ⟨hr, hm⟩ => ⟨hr, hm.off hoff⟩

theorem Delivered.setX (x : Regs) : Delivered e bss (m.setX x) := h.off ⟨rfl, (List.append_nil _).symm⟩

theorem Delivered.poll (hmap : e.cfg.map = .standard) (hpoll : StsRead m.cfg m t) : Delivered e bss t := by
  obtain ⟨tr, hr, hm⟩ := h
  obtain ⟨tr', hr', ht⟩ := (hm.cfg ▸ hpoll).receives hmap
  exact ⟨_, List.append_nil bss ▸ hr.append hr', hm.trans ht⟩

theorem Delivered.read (hread : Went m.cfg (.read .dataFifo n) m (.busRead d) t) :
    Delivered e (bss ++ [d]) t := by
  obtain ⟨tr, hr, hm⟩ := h
  obtain ⟨tr', hr', ht⟩ := hread
  exact ⟨_, hr.append (receives_of_completed (hm.cfg ▸ hr')), hm.trans ht⟩

end Delivered

/-- Since `e` the chunk `first` and then `others` have come from DATA_FIFO and stand in RSPBUF, as many bytes
as `x[cur]` counts; there is no other chunk unless they fit the declared length. -/
structure Assembled (cap : Nat) (e : Engine) (first : List Byte) (others : List (List Byte)) (t : Engine) :
    Prop where
  receiving : Receiving cap e (first :: others).flatten t
  delivered : Delivered e (first :: others) t
  expected : t.x.expected = declaredLength first
  capped : others = [] ∨ (first :: others).flatten.length ≤ (declaredLength first).toNat

theorem Assembled.poll (h : Assembled cap e first others m) (hmap : e.cfg.map = .standard)
    (hpoll : getBurstAndStatus mask m = .ok v t) : Assembled cap e first others t := by
  obtain ⟨ht, hsts, _⟩ := poll_of_ok hpoll
  exact ⟨h.receiving.touches ht (by decide) (by decide) (by decide), h.delivered.poll hmap hsts,
    (ht.regs .expected (by decide)).trans h.expected, h.capped⟩

/-- A turn that goes on has brought one more chunk. -/
theorem Assembled.turn (h : Assembled cap e first others m) (hmap : e.cfg.map = .standard)
    (hturn : recvTurn (first :: others).flatten m = .ok (.inl w) t) :
    ∃ d, w = (first :: (others ++ [d])).flatten ∧ Assembled cap e first (others ++ [d]) t := by
  have hcur := h.receiving.cur
  rw [recvTurn, bind_of_ok (look_apply m)] at hturn
  split at hturn
  case isFalse => cases hturn
  case isTrue hlt =>
    obtain ⟨v, m1, hpoll, hturn⟩ := bind_eq_ok.mp hturn
    rw [bind_of_ok (onX_apply _ m1)] at hturn
    obtain ⟨d, m3, hread, hturn⟩ := bind_eq_ok.mp hturn
    obtain ⟨_, m4, hstore, hturn⟩ := bind_eq_ok.mp hturn
    rw [bind_of_ok (onX_apply _ m4)] at hturn
    cases hturn
    obtain ⟨ht, hwent, hd⟩ := readFifo_of_ok hread
    have h1 := h.poll hmap hpoll
    have hexp : m1.x.expected = m.x.expected := h1.expected.trans h.expected.symm
    have hfits : (first :: others).flatten.length + recvChunk v.1 m.x.expected m.x.cur ≤
        m1.x.expected.toNat := by
      rw [hexp, ← hcur, recvChunk]
      omega
    have hmoving : Moving cap e (first :: others).flatten (recvChunk v.1 m.x.expected m.x.cur)
        (m1.setX { m1.x with n := BitVec.ofNat 32 (recvChunk v.1 m.x.expected m.x.cur) }) :=
      ⟨⟨h1.receiving.filled.setX _, h1.receiving.bound, h1.receiving.cur, h1.receiving.expected⟩, rfl, hfits⟩
    have hflat : (first :: (others ++ [d])).flatten = (first :: others).flatten ++ d := by simp
    rw [hcur] at hstore
    have hstored := (filling_storeChunk hd).of_ok (hmoving.touches ht) hstore
    obtain ⟨hm4, hoff⟩ := store_of_ok hstore
    refine ⟨d, hflat.symm, hflat ▸ hstored, ?_, ?_, ?_⟩
    · exact (((h1.delivered.setX _).read hwent).off hoff).setX _
    · change m4.x.expected = _
      rw [hm4.x, ht.regs .expected (by decide)]
      exact h1.expected
    · rw [hflat, List.length_append, hd, ← h1.expected]
      exact .inr hfits

/-- A turn that ends the loop has found the declared length reached. -/
theorem recvTurn_ends (h : recvTurn got m = .ok (.inr w) t) :
    w = got ∧ t = m ∧ m.x.expected.toNat ≤ m.x.cur.toNat := by
  have hends : Ends (fun u => u = m) (recvTurn got) fun o u =>
      ∀ w, o = .inr w → w = got ∧ u = m ∧ m.x.expected.toNat ≤ m.x.cur.toNat := by
    refine meets_look fun u hu => ?_
    subst hu
    split
    · refine meets_bind (meets_trivial _) fun v => meets_bind (meets_trivial _) fun _ =>
        meets_bind (meets_trivial _) fun d => meets_bind (meets_trivial _) fun _ =>
          meets_bind (meets_trivial _) fun _ => meets_pure fun _ _ => nofun
    · rename_i hle
      refine meets_pure fun z hz w hw => ?_
      cases hw
      exact ⟨rfl, hz, not_lt.mp hle⟩
  exact hends.of_ok rfl h w rfl

/-- The loop ends where the declared length has come. -/
theorem Assembled.loop (hmap : e.cfg.map = .standard) (h : Assembled cap e first [] m)
    (hloop : repeatFrom recvTurn first m = .ok got t) :
    ∃ others, got = (first :: others).flatten ∧ Assembled cap e first others t ∧
      (declaredLength first).toNat ≤ t.x.cur.toNat := by
  refine repeatFrom_induction (body := recvTurn)
    (I := fun got m => ∃ others, got = (first :: others).flatten ∧ Assembled cap e first others m)
    (Q := fun o => ∀ got t, o = .ok got t → ∃ others, got = (first :: others).flatten ∧
      Assembled cap e first others t ∧ (declaredLength first).toNat ≤ t.x.cur.toNat)
    consumes_recvTurn ?_ ?_ (fun _ _ _ _ _ _ _ _ => nofun) first m ⟨[], by simp, h⟩ got t hloop
  · rintro _ w m t ⟨others, rfl, hm⟩ hturn
    obtain ⟨d, hw, ht⟩ := hm.turn hmap hturn
    exact ⟨_, hw, ht⟩
  · rintro _ m t got ⟨others, rfl, hm⟩ hturn _ _ ⟨⟩
    obtain ⟨rfl, rfl, hle⟩ := recvTurn_ends hturn
    exact ⟨others, rfl, hm, hm.expected ▸ hle⟩

/-- After the loop a poll looks once more, and the count is returned (R224). -/
theorem Assembled.rest (hmap : e.cfg.map = .standard) (h : Assembled cap e first [] m)
    (hrest : recvRest first m = .ok r t) :
    ∃ others, Assembled cap e first others t ∧ (declaredLength first).toNat ≤ t.x.cur.toNat ∧
      r.count = t.x.cur := by
  obtain ⟨got, m1, hloop, hrest⟩ := bind_eq_ok.mp hrest
  obtain ⟨others, rfl, h1, hle⟩ := h.loop hmap hloop
  rw [bind_of_ok (look_apply m1)] at hrest
  obtain ⟨v, m2, hpoll, hrest⟩ := bind_eq_ok.mp hrest
  obtain ⟨ht, _, _⟩ := poll_of_ok hpoll
  have hcur : m2.x.cur = m1.x.cur := ht.regs .cur (by decide)
  cases hmore : dataAvail m1.cfg.map v.2 with
  | true =>
    rw [hmore] at hrest
    cases hrest
  | false =>
    rw [hmore] at hrest
    cases hrest
    exact ⟨others, h1.poll hmap hpoll, hcur ▸ hle, hcur.symm⟩

/-- The first chunk in RSPBUF, with the declared length and the count noted. -/
theorem assembled_first {m1 m2 m3 : Engine} (hmap : e.cfg.map = .standard)
    (hpoll : getBurstAndStatus mask e = .ok v m1) (hv : v.1.toNat ≤ cap)
    (hread : regRead .dataFifo v.1.toNat m1 = .ok d m2) (hstore : memWriteAll 0 d m2 = .ok () m3)
    (hcap : (declaredLength d).toNat ≤ cap) :
    Assembled cap e d [] (m3.setX { m3.x with expected := declaredLength d, cur := v.1.setWidth 32 }) := by
  obtain ⟨hp, hsts, _⟩ := poll_of_ok hpoll
  obtain ⟨ht, hwent, hd⟩ := readFifo_of_ok hread
  obtain ⟨hs, hoff⟩ := store_of_ok hstore
  have hnone : Filled e [] m2 := ((Filled.refl e).touches hp (by decide)).touches ht (by decide)
  have hone : [d].flatten = d := List.flatten_singleton
  refine ⟨⟨hone.symm ▸ (hnone.stored hs).setX _, hone.symm ▸ hd.trans_le hv, ?_, hcap⟩, ?_, rfl, .inl rfl⟩
  · have := v.1.isLt
    rw [hone, hd, Engine.setX_x, BitVec.toNat_setWidth]
    omega
  · exact ((((Delivered.refl e).poll hmap hsts).read hwent).off hoff).setX _

/-- What FIFO_READ_BODY returns counts what it has assembled, from a first chunk that is a header at least. -/
theorem assembled_of_fifoReadBody (hmap : e.cfg.map = .standard) (h : fifoReadBody cap e = .ok r t) :
    ∃ first others, Assembled cap e first others t ∧ (declaredLength first).toNat ≤ t.x.cur.toNat ∧
      r.count = t.x.cur ∧ e.cfg.hdrSize ≤ first.length := by
  rw [fifoReadBody, bind_of_ok (look_apply e)] at h
  obtain ⟨v, m1, hpoll, h⟩ := bind_eq_ok.mp h
  cases hv : badFirstBurst e.cfg.hdrSize cap v.1 with
  | true =>
    rw [hv] at h
    cases h
  | false =>
    rw [hv] at h
    obtain ⟨d, m2, hread, h⟩ := bind_eq_ok.mp h
    obtain ⟨_, m3, hstore, h⟩ := bind_eq_ok.mp h
    rw [bind_of_ok (onX_apply _ m3)] at h
    split at h
    · cases h
    · rename_i hcap
      rw [bind_of_ok (onX_apply _ _)] at h
      have hfirst := assembled_first hmap hpoll (le_of_badFirstBurst hv) hread hstore (not_lt.mp hcap)
      obtain ⟨others, hall, hle, hcount⟩ := hfirst.rest hmap h
      obtain ⟨_, _, hd⟩ := readFifo_of_ok hread
      simp only [badFirstBurst, Bool.or_eq_false_iff, decide_eq_false_iff_not] at hv
      exact ⟨d, others, hall, hle, hcount, by omega⟩

/-! ### The instruction -/

/-- Where a procedure returned is where it returns. -/
theorem ends_self : Ends (fun m => m = e) q fun a t => q e = .ok a t := by
  rintro m rfl
  rcases hm : q m with ⟨_, _⟩ | ⟨_ | _ | _, _⟩
  · exact rfl
  · trivial
  · trivial
  · trivial

/-- An Ok left by FIFO_READ_BODY is that of its procedure. -/
theorem exec_fifoReadBody_returned {t : State} {c : Word} (h : exec .fifoReadBody s = .next t)
    (hn : t.running = none) (hret : t.ret = .ok (.count c)) :
    ∃ r m, fifoReadBody s.args.cap s.toEngine = .ok r m ∧ r.count = c ∧
      t.toEngine = m.setRet (.ok (.count c)) := by
  have hq : Ends (fun m => m = s.toEngine) (asCount (fifoReadBody s.args.cap)) fun v m =>
      ∃ r, fifoReadBody s.args.cap s.toEngine = .ok r m ∧ v = .count r.count :=
    meets_bind ends_self fun r => meets_pure fun _ h => ⟨r, h, rfl⟩
  obtain ⟨o, m, hm, ho⟩ := launch_procedure_lands hq rfl h hn
  rw [hm] at hret
  cases o with
  | ok v =>
    obtain ⟨r, hbody, rfl⟩ := ho
    cases hret
    exact ⟨r, m, hbody, rfl, hm⟩
  | error er => cases hret

/-- Settles O50: the bytes assembled where the body returned, read off RSPBUF and off the events it adds. -/
theorem responseIsReconstructed : Obligations.ResponseIsReconstructed := by
  intro s t evs c hmap _ hhdr hwf h hn htr hret
  obtain ⟨r, m, hbody, rfl, hm⟩ := exec_fifoReadBody_returned h hn hret
  obtain ⟨first, others, hall, hle, hcount, hfirst⟩ := assembled_of_fifoReadBody hmap hbody
  have htx : t.x = m.x := (congrArg Engine.x hm :)
  have hrsp : t.rspbuf = memSetAll s.rspbuf 0 (first :: others).flatten :=
    (congrArg Engine.rspbuf hm).trans hall.receiving.filled.rspbuf
  have hlen : r.count.toNat = (first :: others).flatten.length := hcount ▸ hall.receiving.cur
  have hbytes : memBytes t.rspbuf 0 r.count.toNat = (first :: others).flatten := by
    rw [hrsp, hlen, memBytes_memSetAll _ hwf]
  have hdeclared : declaredLength (memBytes t.rspbuf 0 6) = declaredLength first := by
    have hsix : 6 ≤ first.length := hhdr.trans hfirst
    rw [memBytes_take _ (k := r.count.toNat) (by simp [hlen]; omega), hbytes, List.flatten_cons,
      List.take_append_of_le_length hsix, declaredLength_take hsix]
  obtain ⟨tr, hreceives, hemit⟩ := hall.delivered
  refine ⟨first, others, ?_, hbytes.symm, hcount.trans (htx ▸ rfl), hlen ▸ hall.receiving.bound, hfirst, ?_⟩
  · have hbus := hemit.bus
    rw [← show t.trace = m.trace from (congrArg Engine.trace hm :), htr, busTrace_append,
      List.append_right_inj] at hbus
    rw [← fifoReceived_busTrace, hbus]
    exact hreceives.eq
  · rw [hdeclared]
    have hfull : (first :: others).flatten.length = first.length + others.flatten.length := by simp
    rw [← hcount] at hle
    refine ⟨fun hfits => BitVec.eq_of_toNat_eq ?_, fun hlonger => ?_⟩
    · rcases hall.capped with rfl | hcapped
      · rw [List.flatten_singleton] at hlen
        omega
      · omega
    · obtain rfl : others = [] := hall.capped.resolve_right (by omega)
      exact ⟨rfl, hlen.trans (by simp)⟩

end Sys2Proof.Machine
end

section
/-! PROOF. WAIT_COMMAND_READY and CLEANUP (43_fifo_transfer.md R220, R225; 60_exceptions.md R303 (e)). -/

namespace Sys2Proof.Machine

variable {e m t : Engine} {s : State} {o o' : Except Err (List Byte)} {w w' : Except Err Unit}
  {st : Byte} {n l : Answer} {as as' ra wa rest : List Answer} {tr tr' rt wt : List Event}

/-! ### READ_STATUS and SET_READY as steps -/

theorem statusOf_ok (b : List Byte) : statusOf (.ok b) = snapStatus b := rfl

/-- The engine that has noted the flags of a status read (R202). -/
def Engine.statused (e : Engine) (o : Except Err (List Byte)) : Engine :=
  e.setX { e.x with status := statusOf o }

theorem Engine.Serves.statused (h : e.Serves) (o : Except Err (List Byte)) : (e.statused o).Serves :=
  ⟨h.cfg_ok, h.wide, h.live⟩

theorem Moved.statused (h : Moved e t rest tr) (o : Except Err (List Byte)) :
    Moved (e.statused o) (t.statused o) rest tr :=
  h.onX fun x => { x with status := statusOf o }

theorem readStatus_of_done (hs : e.Serves) (hi : e.inbox = as ++ rest) (ho : ReadDone e.cfg .sts 4 o as tr) :
    ∃ t, readStatus e = .ok (statusOf o) t ∧ Moved (e.statused o) t rest tr ∧
      t.clock = e.clock + ticksOf as := by
  obtain ⟨m, hread, hm, hclock⟩ := attempt_readSts hs hi ho
  exact ⟨_, readStatus_of_read hread, hm.statused o, hclock⟩

theorem setReady_of_done (hs : e.Serves) (hi : e.inbox = as ++ rest)
    (hw : WriteDone e.cfg .sts (stsReadyBytes e.cfg.map) w as tr) :
    ∃ t, setReady e = .ok () t ∧ Moved e t rest tr := by
  obtain ⟨t, hwrite, hm⟩ := attempt_regWrite_of_done hs hi hw (Nat.le_add_left 1 3) hs.wide
  exact ⟨t, (bind_of_ok (look_apply e)).trans (bind_of_ok hwrite), hm⟩

/-! ### WAIT_COMMAND_READY (R220) -/

/-- The engine after a look at the clock. -/
def Engine.looked (e : Engine) (l : Answer) (rest : List Answer) : Engine :=
  (e.settle l rest).log (.now (e.clock + l.ticks))

theorem Moved.looked (h : Moved e t (l :: rest) tr) : Moved e (t.looked l rest) rest tr :=
  List.append_nil tr ▸ h.trans (Moved.event t l rest (.now _) rfl)

theorem commandReadyTurn_of_ready (h : readStatus e = .ok st m) (hready : cmdReady m.cfg.map st = true) :
    commandReadyTurn e = .ok (some ()) m := by
  rw [commandReadyTurn, bind_of_ok h, bind_of_ok (look_apply m), hready]
  rfl

/-- The deadline is tested before the write (R303 (e)). -/
theorem commandReadyTurn_of_waiting (h : readStatus e = .ok st m) (hready : cmdReady m.cfg.map st = false)
    (hi : m.inbox = l :: rest) :
    commandReadyTurn e =
      (if m.cfg.tLong * m.cfg.clkPerMs ≤ m.clock + l.ticks - m.x.t0 then raise (.timeout .commandReady)
        else setReady >>= fun _ => pure none) (m.looked l rest) := by
  rw [commandReadyTurn, bind_of_ok h, bind_of_ok (look_apply m), hready]
  refine (bind_of_ok (expired_ok hi)).trans ?_
  split
  next hlate => rw [decide_eq_true hlate]; rfl
  next hlate => rw [decide_eq_false hlate]; rfl

section Wait

variable (hs : e.Serves)
include hs

theorem commandReady_of_ready (hi : e.inbox = as ++ rest) (ho : ReadDone e.cfg .sts 4 o as tr)
    (hready : cmdReady e.cfg.map (statusOf o) = true) :
    ∃ t, repeatP commandReadyTurn e = .ok () t ∧ Moved (e.statused o) t rest tr := by
  obtain ⟨t, hread, hm, _⟩ := readStatus_of_done hs hi ho
  have hcfg : t.cfg = e.cfg := hm.cfg
  exact ⟨t, repeatP_done (commandReadyTurn_of_ready hread (hcfg ▸ hready)), hm⟩

/-- The wait begins: its start is noted. -/
theorem waitCommandReady_begins (hi : e.inbox = n :: rest) :
    ∃ m, waitCommandReady e = repeatP commandReadyTurn m ∧ Moved (e.polling n) m rest [] ∧
      m.clock = e.clock + n.ticks ∧ m.Serves := by
  have hm := (Moved.event e n rest (.now (e.clock + n.ticks)) rfl).onX
    fun x => { x with t0 := e.clock + n.ticks }
  exact ⟨_, (bind_of_ok (now_ok hi)).trans (bind_of_ok (onX_apply _ _)), hm, rfl,
    hm.serves ⟨hs.cfg_ok, hs.wide, hs.live⟩⟩

theorem waitCommandReady_of_ready (hi : e.inbox = n :: as ++ rest) (ho : ReadDone e.cfg .sts 4 o as tr)
    (hready : cmdReady e.cfg.map (statusOf o) = true) :
    ∃ t, waitCommandReady e = .ok () t ∧ Moved ((e.polling n).statused o) t rest tr := by
  obtain ⟨m, hwait, hm, _, hsm⟩ := waitCommandReady_begins hs hi
  have hcfg : m.cfg = e.cfg := hm.cfg
  obtain ⟨t, hdone, ht⟩ := commandReady_of_ready hsm hm.inbox (hcfg ▸ ho) (hcfg ▸ hready)
  exact ⟨t, hwait.trans hdone, (hm.statused o).trans ht⟩

/-- A first read without COMMAND_READY: the deadline decides between the timeout and SET_READY with another
turn. -/
theorem waitCommandReady_of_waiting (hi : e.inbox = n :: as ++ l :: rest)
    (ho : ReadDone e.cfg .sts 4 o as tr) (hready : cmdReady e.cfg.map (statusOf o) = false) :
    ∃ m u, waitCommandReady e = repeatP commandReadyTurn m ∧ Moved ((e.polling n).statused o) u rest tr ∧
      commandReadyTurn m =
        (if e.cfg.tLong * e.cfg.clkPerMs ≤ ticksOf as + l.ticks then raise (.timeout .commandReady)
          else setReady >>= fun _ => pure none) u := by
  obtain ⟨m, hwait, hm, hclock, hsm⟩ := waitCommandReady_begins hs hi
  have hcfg : m.cfg = e.cfg := hm.cfg
  obtain ⟨u, hread, hu, huclock⟩ := readStatus_of_done hsm hm.inbox (hcfg ▸ ho)
  have hmu := (hm.statused o).trans hu
  have hucfg : u.cfg = e.cfg := hmu.cfg
  have ht0 : u.x.t0 = e.clock + n.ticks := by rw [hmu.x]; rfl
  have hturn := commandReadyTurn_of_waiting hread (hucfg ▸ hready) hu.inbox
  rw [hucfg, show u.clock + l.ticks - u.x.t0 = ticksOf as + l.ticks by omega] at hturn
  exact ⟨m, _, hwait, hmu.looked, hturn⟩

theorem waitCommandReady_of_timeout (hi : e.inbox = n :: as ++ l :: rest)
    (ho : ReadDone e.cfg .sts 4 o as tr) (hready : cmdReady e.cfg.map (statusOf o) = false)
    (hlate : e.cfg.tLong * e.cfg.clkPerMs ≤ ticksOf as + l.ticks) :
    ∃ t, waitCommandReady e = .error (.raised (.timeout .commandReady)) t ∧
      Moved ((e.polling n).statused o) t rest tr := by
  obtain ⟨m, u, hwait, hu, hturn⟩ := waitCommandReady_of_waiting hs hi ho hready
  rw [if_pos hlate] at hturn
  exact ⟨u, hwait.trans (repeatP_error hturn), hu⟩

/-- With time left SET_READY is written, and a second read that has COMMAND_READY ends the wait. -/
theorem waitCommandReady_of_retry (hi : e.inbox = n :: as ++ l :: (wa ++ as' ++ rest))
    (ho : ReadDone e.cfg .sts 4 o as tr) (hready : cmdReady e.cfg.map (statusOf o) = false)
    (htime : ticksOf as + l.ticks < e.cfg.tLong * e.cfg.clkPerMs)
    (hw : WriteDone e.cfg .sts (stsReadyBytes e.cfg.map) w wa wt)
    (ho' : ReadDone e.cfg .sts 4 o' as' tr') (hready' : cmdReady e.cfg.map (statusOf o') = true) :
    ∃ t, waitCommandReady e = .ok () t ∧
      Moved (((e.polling n).statused o).statused o') t rest (tr ++ wt ++ tr') := by
  obtain ⟨m, u, hwait, hu, hturn⟩ := waitCommandReady_of_waiting hs hi ho hready
  have hsu : u.Serves := hu.serves ⟨hs.cfg_ok, hs.wide, hs.live⟩
  have hucfg : u.cfg = e.cfg := hu.cfg
  obtain ⟨v, hset, hv⟩ := setReady_of_done hsu (hu.inbox.trans (List.append_assoc ..)) (hucfg ▸ hw)
  have huv := hu.trans hv
  have hvcfg : v.cfg = e.cfg := huv.cfg
  rw [if_neg htime.not_ge, bind_of_ok hset] at hturn
  obtain ⟨t, hdone, ht⟩ := commandReady_of_ready (hv.serves hsu) hv.inbox (hvcfg ▸ ho') (hvcfg ▸ hready')
  exact ⟨t, hwait.trans ((repeatP_again consumes_commandReadyTurn hturn).trans hdone),
    (huv.statused o').trans ht⟩

end Wait

/-- Settles O44: the wait of one turn, and one whose first turn meets the deadline or is followed by a second. -/
theorem waitCommandReadyResult : Obligations.WaitCommandReadyResult := by
  intro s n b as hs hlen ha
  have ho : ReadDone s.cfg .sts 4 (.ok b) as (readTraffic s.cfg .sts b) := ⟨hlen, ha, rfl⟩
  refine ⟨fun rest hi hready => ?_, fun l rest hi hready => ⟨fun hlate => ?_, ?_⟩⟩
  · obtain ⟨t, hwait, hm⟩ := waitCommandReady_of_ready hs hi ho hready
    exact ⟨_, launch_asUnit (attempt_of_ok hwait), hm.finished_since rfl _, rfl, hm.x⟩
  · obtain ⟨t, hwait, hm⟩ := waitCommandReady_of_timeout hs hi ho hready hlate
    exact ⟨_, launch_asUnit (attempt_of_raised hwait), hm.finished_since rfl _, rfl⟩
  · rintro htime w as' rest' b' rfl hlen' hw ha' hready'
    obtain ⟨t, hwait, hm⟩ := waitCommandReady_of_retry (w := .ok ()) (o' := .ok b') hs hi ho hready htime
      ⟨hw, rfl⟩ ⟨hlen', ha', rfl⟩ hready'
    exact ⟨_, launch_asUnit (attempt_of_ok hwait), hm.finished_since rfl _, rfl⟩

/-! ### CLEANUP (R225) -/

/-- After the status read, with SET_READY where it showed COMMAND_READY, a forced release is all that is left. -/
theorem cleanup_releases (hs : e.Serves) (hi : e.inbox = ra ++ wa ++ rest)
    (ho : ReadDone e.cfg .sts 4 o ra rt)
    (hw : if cmdReady e.cfg.map (statusOf o) = true
      then WriteDone e.cfg .sts (stsReadyBytes e.cfg.map) w wa wt else wa = [] ∧ wt = []) :
    ∃ m, cleanup e = releaseLocality true m ∧ Moved (e.statused o) m rest (rt ++ wt) := by
  obtain ⟨m, hread, hm, _⟩ := readStatus_of_done hs (hi.trans (List.append_assoc ..)) ho
  have hcfg : m.cfg = e.cfg := hm.cfg
  have hclean : cleanup e =
      (onlyIf (cmdReady e.cfg.map (statusOf o)) setReady >>= fun _ => releaseLocality true) m := by
    rw [cleanup, bind_of_ok hread, bind_of_ok (look_apply m), hcfg]
  split at hw
  next hready =>
    obtain ⟨t, hset, ht⟩ := setReady_of_done (hm.serves (hs.statused o)) hm.inbox (hcfg ▸ hw)
    rw [hready, onlyIf_true, bind_of_ok hset] at hclean
    exact ⟨t, hclean, hm.trans ht⟩
  next hready =>
    obtain ⟨rfl, rfl⟩ := hw
    rw [Bool.eq_false_iff.mpr hready] at hclean
    exact ⟨m, hclean, (List.append_nil rt).symm ▸ hm⟩

/-- A cleanup whose release reads ACCESS and writes it. -/
theorem exec_cleanup_of_done {fa aa : List Answer} {ft : List Event} {b : Byte} (hs : s.toEngine.Serves)
    (hi : s.inbox = ra ++ wa ++ (aa ++ fa ++ rest)) (ho : ReadDone s.cfg .sts 4 o ra rt)
    (hw : if cmdReady s.cfg.map (statusOf o) = true
      then WriteDone s.cfg .sts (stsReadyBytes s.cfg.map) w wa wt else wa = [] ∧ wt = [])
    (ha : AnswersRead s.cfg.transport [b] aa)
    (hrel : WriteDone s.cfg .access (accessRelBytes s.cfg.map) w' fa ft) :
    ∃ t, exec .cleanup s = .next t ∧
      Finished s t rest (rt ++ wt ++ readTraffic s.cfg .access [b] ++ ft) ∧ t.ret = .ok .unit ∧
      t.x = { s.x with status := statusOf o, access := b, t1 := t.x.t1 } := by
  obtain ⟨m, hclean, hm⟩ := cleanup_releases hs hi ho hw
  have hcfg : m.cfg = s.cfg := hm.cfg
  obtain ⟨t, hrelease, ht⟩ := releaseLocality_with_write (force := true) (hm.serves (hs.statused o))
    (readDone_of_answers (hcfg ▸ ha)) hm.inbox rfl (hcfg ▸ hrel)
  rw [hcfg] at ht
  have hall := (hm.noted (.ok [b])).trans ht
  exact ⟨_, launch_asUnit (attempt_of_ok (hclean.trans hrelease)),
    by simpa using hall.finished_since rfl _, rfl, hall.x⟩

/-- Settles O51: CLEANUP with and without its SET_READY; it raises nothing. -/
theorem cleanupResult : Obligations.CleanupResult := by
  refine ⟨fun s b a as w as2 w2 rest hs hlen ha ha2 hw2 => ⟨fun hready hw hi => ?_, fun hready hi => ?_⟩,
    fun s t h ht => ret_of_silent silent_cleanup h ht⟩
  · exact exec_cleanup_of_done (o := .ok b) (w := .ok ()) (w' := .ok ()) hs (by simpa using hi)
      ⟨hlen, ha, rfl⟩ ((if_pos hready).mpr ⟨hw, rfl⟩) ha2 ⟨hw2, rfl⟩
  · have hdone := exec_cleanup_of_done (o := .ok b) (w := .ok ()) (w' := .ok ()) (wa := []) (wt := []) hs
      (by simpa using hi) ⟨hlen, ha, rfl⟩ ((if_neg (Bool.eq_false_iff.mp hready)).mpr ⟨rfl, rfl⟩)
      ha2 ⟨hw2, rfl⟩
    simpa [statusOf_ok] using hdone

end Sys2Proof.Machine
end

section
/-! PROOF. Polls, accesses and copies that go through, and FIFO_WRITE_BODY of no chunk, one or two
(43_fifo_transfer.md R221). -/

namespace Sys2Proof.Machine

variable {α : Type} {e m t : Engine} {s : State} {q : P α} {src : Src} {j k len n : Nat} {mask : Byte}
  {S T : Finset Part} {b d p : List Byte} {as rest rest' : List Answer} {tr tr' : List Event}

/-! ### Steps that went through -/

theorem Touches.mono (hST : S ⊆ T) (h : Touches S e t) : Touches T e t where
  cfg := h.cfg
  regs r hr := h.regs r fun hS => hr (hST hS)
  rspbuf hr := h.rspbuf fun hS => hr (hST hS)
  rspReads := h.rspReads
  clock := h.clock

/-- Since `e` the engine has touched only the parts `S`; it has left the answers `rest`, and the bus has
carried `tr`. -/
structure Passed (S : Finset Part) (e t : Engine) (rest : List Answer) (tr : List Event) : Prop where
  frame : Frame e t
  touches : Touches S e t
  inbox : t.inbox = rest
  traffic : busTrace t.trace = busTrace e.trace ++ tr

theorem Passed.refl (S : Finset Part) (e : Engine) : Passed S e e e.inbox [] :=
  ⟨.refl e, .refl S e, rfl, (List.append_nil _).symm⟩

theorem Passed.trans (h : Passed S e m rest tr) (k : Passed S m t rest' tr') :
    Passed S e t rest' (tr ++ tr') :=
  ⟨h.frame.trans k.frame, h.touches.trans k.touches, k.inbox, by
    rw [k.traffic, h.traffic, List.append_assoc]⟩

theorem Passed.mono (hST : S ⊆ T) (h : Passed S e t rest tr) : Passed T e t rest tr :=
  ⟨h.frame, h.touches.mono hST, h.inbox, h.traffic⟩

/-- What FIFO_WRITE_BODY writes (R221). -/
def writeBodyParts : Finset Part := {.status, .burst, .sent, .limit, .t0, .t1}

/-- An update of working registers, each of them among `S`: register by register. -/
theorem Passed.setX (h : Passed S e t rest tr) (f : Regs → Regs)
    (hf : WritesIn S f := by
      intro x r hr; cases r <;> simp_all [Part.SameIn, writeBodyParts, recvParts]) :
    Passed S e (t.setX (f t.x)) rest tr :=
  ⟨h.frame.trans (frame_closed.setX t _), h.touches.trans (touches_setX hf), h.inbox, h.traffic⟩

theorem Passed.serves (h : Passed S e t rest tr) (hs : e.Serves) : t.Serves where
  cfg_ok := h.frame.cfg ▸ hs.cfg_ok
  wide := h.frame.cfg ▸ hs.wide
  live := by rw [h.frame.cfg, h.frame.readyPath]; exact hs.live

theorem Passed.finished (h : Passed S s.toEngine t rest tr) (r : Ret) :
    Finished s { s with toEngine := t.setRet r, running := none } rest tr :=
  ⟨rfl, h.inbox, h.traffic⟩

/-- What is known of a procedure that went through beside its answers and its traffic. -/
theorem passed_of_ok {a : α} (h : q e = .ok a t) (hframe : Along Frame q) (htouches : OnlyTouches e.cfg S q)
    (hi : t.inbox = rest) (htr : busTrace t.trace = busTrace e.trace ++ tr) : Passed S e t rest tr := by
  have hf := hframe e
  rw [h] at hf
  exact ⟨hf, htouches.of_ok rfl h, hi, htr⟩

/-- What a poll writes. -/
def pollParts : Finset Part := {.status, .burst, .t0, .t1}

theorem Engine.busTrace_refused (e : Engine) (n : Answer) (o : Except Err (List Byte)) :
    busTrace (e.refused n o).trace = busTrace e.trace := by
  simp [Engine.refused, Engine.polling, Engine.snapped, busTrace, Event.onBus]

/-- A poll with the mask, of one turn or of two (R200). -/
theorem poll_of_done (hs : e.Serves) (hp : PollDone e.cfg mask b as tr) (hi : e.inbox = as ++ rest) :
    ∃ t, getBurstAndStatus mask e = .ok (snapBurst b, snapStatus b) t ∧ Passed pollParts e t rest tr := by
  suffices h : ∃ t, getBurstAndStatus mask e = .ok (snapBurst b, snapStatus b) t ∧ t.inbox = rest ∧
      busTrace t.trace = busTrace e.trace ++ tr by
    obtain ⟨t, hpoll, hinbox, htr⟩ := h
    exact ⟨t, hpoll, passed_of_ok hpoll (along_getBurstAndStatus frame_closed.toClosed mask)
      (on_getBurstAndStatus mask).touches hinbox htr⟩
  obtain ⟨n, pa, hlen, ha, haccept, ⟨rfl, rfl⟩ | ⟨o, ra, rt, q, l, ho, hno, htime, rfl, rfl⟩⟩ := hp
  · obtain ⟨t, hpoll, hm⟩ := getBurstAndStatus_of_accepted (o := .ok b) hs hi ⟨hlen, ha, rfl⟩
      (pollOutcome_of_accept haccept)
    exact ⟨t, hpoll, hm.inbox, hm.traffic⟩
  · have hrefused : pollOutcome e.cfg mask o = none := by
      cases o with
      | error er => rfl
      | ok b0 => exact if_neg (Bool.eq_false_iff.mp (hno b0 rfl))
    obtain ⟨t, hpoll, hm⟩ := getBurstAndStatus_of_retry (o' := .ok b) hs (by simpa using hi) ho hrefused htime
      ⟨hlen, ha, rfl⟩ (pollOutcome_of_accept haccept)
    exact ⟨t, hpoll, hm.inbox, hm.traffic.trans (congrArg (· ++ _) (e.busTrace_refused n o))⟩

/-- The burst accepted fits a transaction, beside one byte (R10 (c), R201). -/
theorem burst_le_of_pollDone (hs : e.Serves) (hp : PollDone e.cfg mask b as tr) :
    (snapBurst b).toNat ≤ e.cfg.maxXfer := by
  obtain ⟨_, _, _, _, haccept, _⟩ := hp
  obtain ⟨_, _, hle⟩ := accept_iff.mp haccept
  obtain ⟨_, _, hcap, _⟩ := (Cfg.ok_iff e.cfg).mp hs.cfg_ok
  omega

theorem writeFifo_of_answers (hs : e.Serves) (hi : e.inbox = as ++ rest)
    (ha : AnswersWrite e.cfg.transport as) (h1 : 1 ≤ p.length) (hw : p.length ≤ e.cfg.maxXfer) :
    ∃ t, regWrite .dataFifo p e = .ok () t ∧ Passed {.t1} e t rest (writeTraffic e.cfg .dataFifo p) := by
  obtain ⟨t, h, hm, _⟩ := regWrite_of_answers (kind := .dataFifo) hs hi ha (.inl h1) hw
  exact ⟨t, h, passed_of_ok h (along_regWrite frame_closed.toClosed _ _)
    ((made_regWrite _ _).touches_of_port (by decide)) hm.inbox hm.traffic⟩

theorem readFifo_of_answers (hs : e.Serves) (hi : e.inbox = as ++ rest)
    (ha : AnswersRead e.cfg.transport d as) (h1 : 1 ≤ d.length) (hw : d.length ≤ e.cfg.maxXfer) :
    ∃ t, regRead .dataFifo d.length e = .ok d t ∧
      Passed {.t1} e t rest (readTraffic e.cfg .dataFifo d) := by
  obtain ⟨t, h, hm, _⟩ := regRead_of_answers (kind := .dataFifo) hs hi ha h1 hw rfl
  exact ⟨t, h, passed_of_ok h (along_regRead frame_closed.toClosed _ _)
    ((made_regRead _ _).touches_of_port (by decide)) hm.inbox hm.traffic⟩

theorem load_of_fits (e : Engine) (hjk : j + k ≤ sourceSize src) :
    ∃ t, srcBytes src j k e = .ok (e.chunk src j k) t ∧ Passed ∅ e t e.inbox [] := by
  have h := srcBytes_of_fits k j e hjk
  exact ⟨_, h, passed_of_ok h (along_srcBytes frame_closed.toClosed _ _ _) (on_srcBytes src k j).touches rfl
    (emitted_loaded e src j k).bus⟩

theorem memWriteAll_of_fits (d : List Byte) (k : Nat) (e : Engine) (hk : k + d.length ≤ bufSize) :
    ∃ t, memWriteAll k d e = .ok () t ∧ t.inbox = e.inbox := by
  induction d generalizing k e with
  | nil => exact ⟨e, rfl, rfl⟩
  | cons v vs ih =>
    rw [List.length_cons] at hk
    obtain ⟨t, h, hi⟩ := ih (k + 1) ((e.setRsp k v).log (.memWrite k v)) (by omega)
    exact ⟨t, (bind_of_ok (memWrite_ok (by omega) v e)).trans h, hi⟩

theorem store_of_fits (e : Engine) (hk : k + d.length ≤ bufSize) :
    ∃ t, memWriteAll k d e = .ok () t ∧ Passed {.rspbuf} e t e.inbox [] ∧
      t.rspbuf = memSetAll e.rspbuf k d := by
  obtain ⟨t, h, hi⟩ := memWriteAll_of_fits d k e hk
  obtain ⟨hs, hoff⟩ := store_of_ok h
  exact ⟨t, h, passed_of_ok h (along_memWriteAll frame_closed.toClosed d k)
    (on_memWriteAll (by decide) d k).touches hi hoff.bus, hs.rspbuf⟩

/-! ### FIFO_WRITE_BODY (R221) -/

section Write

variable {f : List Byte} {pa wa fa : List Answer} {ptr ftr : List Event}

theorem Passed.chunk_eq (h : Passed S e t rest tr) (src : Src) (j k : Nat) :
    t.chunk src j k = e.chunk src j k := by
  cases src <;> simp [Engine.chunk, h.frame.cmdbuf]

/-- The next `k` bytes of the source are read and written to DATA_FIFO. -/
theorem ship_of_answers (hs : e.Serves) (hi : e.inbox = wa ++ rest) (ha : AnswersWrite e.cfg.transport wa)
    (h1 : 1 ≤ k) (hw : k ≤ e.cfg.maxXfer) (hfits : j + k ≤ sourceSize src) :
    ∃ t, (∀ q : P α, (srcBytes src j k >>= fun p => regWrite .dataFifo p >>= fun _ => q) e = q t) ∧
      Passed {.t1} e t rest (writeTraffic e.cfg .dataFifo (e.chunk src j k)) := by
  obtain ⟨m, hload, hm⟩ := load_of_fits e hfits
  have hcfg := hm.frame.cfg
  have hlen := e.chunk_length hfits
  obtain ⟨t, hwrite, ht⟩ := writeFifo_of_answers (p := e.chunk src j k) (hm.serves hs) (hm.inbox.trans hi)
    (hcfg ▸ ha) (h1.trans_eq hlen.symm) (hlen.trans_le (hcfg ▸ hw))
  exact ⟨t, fun q => by rw [bind_of_ok hload, bind_of_ok hwrite],
    hcfg ▸ (hm.mono (Finset.empty_subset _)).trans ht⟩

/-- A turn whose poll and write are answered: the next `k` bytes go out. -/
theorem sendTurn_of_done (hs : e.Serves) (hj : e.x.sent.toNat = j) (hlen : len ≤ sourceSize src)
    (hp : PollDone e.cfg (sendMask e.cfg.map e.x.sent) b pa ptr) (hk : sendChunk (snapBurst b) len e.x.sent = k)
    (h1 : 1 ≤ k) (ha : AnswersWrite e.cfg.transport wa) (hi : e.inbox = pa ++ wa ++ rest) :
    ∃ t, sendTurn src len e = .ok none t ∧
      Passed writeBodyParts e t rest (ptr ++ writeTraffic e.cfg .dataFifo (e.chunk src j k)) ∧
      t.x.sent = e.x.sent + BitVec.ofNat 32 k ∧ t.x.limit = BitVec.ofNat 32 k := by
  have hburst := burst_le_of_pollDone hs hp
  have hbounds : k ≤ (snapBurst b).toNat ∧ j < len ∧ j + k ≤ sourceSize src := by
    rw [sendChunk, hj] at hk
    omega
  obtain ⟨hkb, hlt, hfits⟩ := hbounds
  obtain ⟨m, hpoll, hm⟩ := poll_of_done hs hp (hi.trans (List.append_assoc ..))
  have hml := (hm.mono (T := writeBodyParts) (by decide)).setX
    fun x => { x with limit := BitVec.ofNat 32 k }
  obtain ⟨t, hship, ht⟩ := ship_of_answers (α := Option Unit) (hml.serves hs) hml.inbox
    (hml.frame.cfg ▸ ha) h1 (hml.frame.cfg ▸ hkb.trans hburst) hfits
  have hsent : t.x.sent = e.x.sent :=
    (ht.touches.regs .sent (by decide)).trans (hm.touches.regs .sent (by decide))
  have hlimit : t.x.limit = BitVec.ofNat 32 k := ht.touches.regs .limit (by decide)
  have hturn : sendTurn src len e = .ok none (t.setX { t.x with sent := t.x.sent + t.x.limit }) := by
    rw [sendTurn, bind_of_ok (look_apply e), if_pos (hj ▸ hlt), bind_of_ok hpoll]
    simp only [hk, hj]
    rw [bind_of_ok (onX_apply _ _), hship]
    rfl
  refine ⟨_, hturn, passed_of_ok hturn (along_sendTurn frame_closed.toClosed src len)
    (on_sendTurn src len).touches ht.inbox ?_, congrArg₂ (· + ·) hsent hlimit, hlimit⟩
  rw [hml.chunk_eq, hml.frame.cfg] at ht
  exact (hml.trans (ht.mono (by decide))).traffic

/-- FIFO_WRITE_BODY at the start of its loop. -/
def Engine.unsent (e : Engine) : Engine := e.setX { e.x with sent := 0 }

theorem passed_unsent (e : Engine) : Passed writeBodyParts e e.unsent e.inbox [] :=
  (Passed.refl writeBodyParts e).setX fun x => { x with sent := 0 }

theorem sentCount_toNat (h : n ≤ 2 ^ 24) : (BitVec.ofNat 32 n).toNat = n := by
  rw [BitVec.toNat_ofNat]
  omega

/-- The first turn polls with mask VALID. -/
theorem sendTurn_first (hs : e.Serves) (hlen : len ≤ sourceSize src)
    (hp : PollDone e.cfg (maskValid e.cfg.map) b pa ptr) (hk : min ((snapBurst b).toNat - 1) len = k)
    (h1 : 1 ≤ k) (ha : AnswersWrite e.cfg.transport wa) (hi : e.inbox = pa ++ wa ++ rest) :
    ∃ t, sendTurn src len e.unsent = .ok none t ∧
      Passed writeBodyParts e t rest (ptr ++ writeTraffic e.cfg .dataFifo (e.chunk src 0 k)) ∧
      t.x.sent = BitVec.ofNat 32 k ∧ t.x.limit = BitVec.ofNat 32 k := by
  have h0 := passed_unsent e
  obtain ⟨t, hturn, ht, hsent, hlimit⟩ := sendTurn_of_done (j := 0) (h0.serves hs) rfl hlen hp hk h1 ha
    (h0.inbox.trans hi)
  rw [h0.chunk_eq] at ht
  exact ⟨t, hturn, h0.trans ht, hsent.trans (BitVec.zero_add _), hlimit⟩

/-- A later turn polls with mask VALID|DATA_EXPECT. -/
theorem sendTurn_next (hs : e.Serves) (hsent : e.x.sent = BitVec.ofNat 32 j) (hj : 1 ≤ j)
    (hlen : len ≤ sourceSize src) (hp : PollDone e.cfg (maskValidExpect e.cfg.map) b pa ptr)
    (hk : min ((snapBurst b).toNat - 1) (len - j) = k) (h1 : 1 ≤ k) (ha : AnswersWrite e.cfg.transport wa)
    (hi : e.inbox = pa ++ wa ++ rest) :
    ∃ t, sendTurn src len e = .ok none t ∧
      Passed writeBodyParts e t rest (ptr ++ writeTraffic e.cfg .dataFifo (e.chunk src j k)) ∧
      t.x.sent = BitVec.ofNat 32 (j + k) ∧ t.x.limit = BitVec.ofNat 32 k := by
  have hsize := sourceSize_le src
  have hj' : e.x.sent.toNat = j := hsent ▸ sentCount_toNat (by omega)
  have hne : e.x.sent ≠ 0 := fun h => by
    rw [h] at hj'
    exact absurd (hj'.symm.trans (BitVec.toNat_zero)) (by omega)
  obtain ⟨t, hturn, ht, hsent', hlimit⟩ := sendTurn_of_done hs hj' hlen
    (by rwa [sendMask, if_neg hne]) (by rwa [sendChunk, hj']) h1 ha hi
  exact ⟨t, hturn, ht, by rw [hsent', hsent, BitVec.ofNat_add], hlimit⟩

theorem sendLoop_done (hsent : e.x.sent = BitVec.ofNat 32 len) (hlen : len ≤ sourceSize src) :
    repeatP (sendTurn src len) e = .ok () e := by
  refine repeatP_done ?_
  rw [sendTurn, bind_of_ok (look_apply e), hsent, sentCount_toNat (hlen.trans (sourceSize_le src)),
    if_neg (lt_irrefl _)]
  rfl

theorem sendLoop_again (h : sendTurn src len e = .ok none m) :
    repeatP (sendTurn src len) e = repeatP (sendTurn src len) m :=
  repeatP_again (consumes_sendTurn src len) h

/-- Once the loop is done, the final poll decides by DATA_EXPECT. -/
theorem exec_fifoWriteBody_of_sent (hs : s.toEngine.Serves)
    (hloop : repeatP (sendTurn s.args.src s.args.len) s.unsent = .ok () m)
    (hm : Passed writeBodyParts s.toEngine m (fa ++ rest) tr)
    (hp : PollDone s.cfg (maskValid s.cfg.map) f fa ftr) :
    ∃ t, exec .fifoWriteBody s = .next t ∧ Finished s t rest (tr ++ ftr) ∧ t.x.sent = m.x.sent ∧
      t.x.limit = m.x.limit ∧ t.ret = if dataExpect s.cfg.map (snapStatus f) then
        .err (.protocolViolation .dataStillExpected) else .ok .unit := by
  have hcfg := hm.frame.cfg
  obtain ⟨t, hpoll, ht⟩ := poll_of_done (hm.serves hs) (hcfg ▸ hp) hm.inbox
  have hbody : fifoWriteBody s.args.src s.args.len s.toEngine = _ :=
    (bind_of_ok (onX_apply _ _)).trans <| (bind_of_ok hloop).trans <|
      (bind_of_ok (look_apply m)).trans (bind_of_ok hpoll)
  have hfinished := hm.trans (ht.mono (T := writeBodyParts) (by decide))
  have hsent := ht.touches.regs .sent (by decide)
  have hlimit := ht.touches.regs .limit (by decide)
  rw [← hcfg]
  cases hdata : dataExpect m.cfg.map (snapStatus f) with
  | true =>
    simp only [hdata] at hbody
    exact ⟨_, launch_asUnit (attempt_of_raised hbody), hfinished.finished _, hsent, hlimit, rfl⟩
  | false =>
    simp only [hdata] at hbody
    exact ⟨_, launch_asUnit (attempt_of_ok hbody), hfinished.finished _, hsent, hlimit, rfl⟩

end Write

/-- Settles O45: the loop of no turn, of one and of two, and the final poll. -/
theorem fifoWriteBodyResult : Obligations.FifoWriteBodyResult := by
  intro s f fa rest ftr hs hf hlen
  refine ⟨fun hzero hi => ?_, fun p pa w ptr hp hw hpos => ⟨fun hroom hi => ?_, ?_⟩⟩
  · obtain ⟨t, h, hfin, hsent, _, hret⟩ := exec_fifoWriteBody_of_sent hs
      (sendLoop_done (hzero ▸ rfl) hlen) (hi ▸ passed_unsent s.toEngine) hf
    exact ⟨t, h, hfin, hsent, hret⟩
  · obtain ⟨m, hturn, hm, hsent, hlimit⟩ := sendTurn_first (k := s.args.len) (rest := fa ++ rest) hs hlen hp
      (by omega) hpos hw (by simpa using hi)
    obtain ⟨t, h, hfin, hsent', hlimit', hret⟩ := exec_fifoWriteBody_of_sent hs
      ((sendLoop_again hturn).trans (sendLoop_done hsent hlen)) hm hf
    rw [Engine.chunk_zero] at hfin
    exact ⟨t, h, hfin, hsent'.trans hsent, hlimit'.trans hlimit, hret⟩
  · intro k p2 pa2 w2 ptr2 hburst hk hlt hp2 hw2 hroom hi
    obtain ⟨m, hturn, hm, hsent, -⟩ := sendTurn_first (k := k) (rest := pa2 ++ w2 ++ (fa ++ rest)) hs hlen hp
      (by omega) hk hw (by simpa using hi)
    have hcfg : m.cfg = s.cfg := hm.frame.cfg
    obtain ⟨u, hturn', hu, husent, hulimit⟩ := sendTurn_next (k := s.args.len - k) (hm.serves hs) hsent hk
      hlen (hcfg ▸ hp2) (by omega) (by omega) (hcfg ▸ hw2) hm.inbox
    rw [Nat.add_sub_of_le hlt.le] at husent
    obtain ⟨t, h, hfin, hsent', hlimit', hret⟩ := exec_fifoWriteBody_of_sent hs
      ((sendLoop_again hturn).trans <| (sendLoop_again hturn').trans <| sendLoop_done husent hlen)
      (hm.trans hu) hf
    have hsplit : s.source s.args.src s.args.len =
        s.chunk s.args.src 0 k ++ s.chunk s.args.src k (s.args.len - k) := by
      rw [Engine.chunk_zero, ← Engine.source_add, Nat.add_sub_of_le hlt.le]
    have hlength := s.chunk_length (src := s.args.src) (i := 0) (k := k) (by omega)
    refine ⟨t, h, ?_, hsent'.trans husent, hlimit'.trans hulimit, hret⟩
    rw [hsplit, List.take_left' hlength, List.drop_left' hlength]
    simpa [hm.chunk_eq, hcfg] using hfin

end Sys2Proof.Machine
end

section
/-! PROOF. FIFO_READ_BODY of one or two chunks, and the two checks on its first (43_fifo_transfer.md R224;
60_exceptions.md R303 (d)). -/

namespace Sys2Proof.Machine

variable {α : Type} {e m t : Engine} {s : State} {k cap : Nat} {declared : Word} {er : Err} {r : Received}
  {b d f p got first : List Byte} {pa da fa rest : List Answer} {tr ptr ftr : List Event}

theorem launch_asCount_of_ok {i : Instr} {q : P Received} (h : q s.toEngine = .ok r t) :
    launch i (procedure (asCount q)) s =
      .next { s with toEngine := t.setRet (.ok (.count r.count)), running := none } :=
  launch_procedure_of_ok (bind_of_ok h)

theorem launch_asCount_of_raised {i : Instr} {q : P Received} (h : q s.toEngine = .error (.raised er) t) :
    launch i (procedure (asCount q)) s = .next { s with toEngine := t.setRet (.err er), running := none } :=
  launch_procedure_of_raised (bind_of_error h)

/-- A chunk is read from DATA_FIFO and stored in RSPBUF from `k` on. -/
theorem fetch_of_answers (hs : e.Serves) (hi : e.inbox = da ++ rest) (ha : AnswersRead e.cfg.transport d da)
    (h1 : 1 ≤ d.length) (hw : d.length ≤ e.cfg.maxXfer) (hk : k + d.length ≤ bufSize) :
    ∃ t, (∀ q : List Byte → P α,
        (regRead .dataFifo d.length >>= fun d => memWriteAll k d >>= fun _ => q d) e = q d t) ∧
      Passed {.t1, .rspbuf} e t rest (readTraffic e.cfg .dataFifo d) ∧
      t.rspbuf = memSetAll e.rspbuf k d := by
  obtain ⟨m, hread, hm⟩ := readFifo_of_answers hs hi ha h1 hw
  obtain ⟨t, hstore, ht, hrsp⟩ := store_of_fits m hk
  have hkept : m.rspbuf = e.rspbuf := (hm.touches.rspbuf (by decide)).1
  refine ⟨t, fun q => by rw [bind_of_ok hread, bind_of_ok hstore], ?_, hkept ▸ hrsp⟩
  simpa [hm.inbox] using (hm.mono (by decide)).trans (ht.mono (by decide))

/-! ### The first chunk -/

/-- A first burst out of bounds ends it before any read of DATA_FIFO. -/
theorem fifoReadBody_of_badBurst (hs : e.Serves) (hp : PollDone e.cfg (maskValidAvail e.cfg.map) p pa ptr)
    (hi : e.inbox = pa ++ rest) (hbad : badFirstBurst e.cfg.hdrSize cap (snapBurst p) = true) :
    ∃ t, fifoReadBody cap e = .error (.raised (.protocolViolation .badFirstBurst)) t ∧
      Passed pollParts e t rest ptr := by
  obtain ⟨t, hpoll, ht⟩ := poll_of_done hs hp hi
  refine ⟨t, ?_, ht⟩
  rw [fifoReadBody, bind_of_ok (look_apply e), bind_of_ok hpoll]
  simp only [hbad]
  rfl

/-- Since `e` the bytes `got` have come to RSPBUF, of a response with the declared length. -/
structure Gathered (e : Engine) (got : List Byte) (declared : Word) (t : Engine) (rest : List Answer)
    (tr : List Event) : Prop where
  passed : Passed recvParts e t rest tr
  rspbuf : t.rspbuf = memSetAll e.rspbuf 0 got
  expected : t.x.expected = declared
  cur : t.x.cur = BitVec.ofNat 32 got.length

/-- A poll keeps what has come. -/
theorem Gathered.poll {rest' : List Answer} (h : Gathered e got declared m rest tr)
    (ht : Passed pollParts m t rest' ptr) : Gathered e got declared t rest' (tr ++ ptr) where
  passed := h.passed.trans (ht.mono (by decide))
  rspbuf := (ht.touches.rspbuf (by decide)).1.trans h.rspbuf
  expected := (ht.touches.regs .expected (by decide)).trans h.expected
  cur := (ht.touches.regs .cur (by decide)).trans h.cur

section First

variable (hs : e.Serves) (hp : PollDone e.cfg (maskValidAvail e.cfg.map) p pa ptr)
  (hi : e.inbox = pa ++ da ++ rest) (hhdr : e.cfg.hdrSize ≤ (snapBurst p).toNat)
  (hcap : (snapBurst p).toNat ≤ cap) (hbuf : cap ≤ bufSize) (hd : d.length = (snapBurst p).toNat)
  (ha : AnswersRead e.cfg.transport d da)
include hs hp hi hhdr hcap hbuf hd ha

/-- The first chunk is in RSPBUF before the declared length is tested. -/
theorem fifoReadBody_first :
    ∃ m, fifoReadBody cap e =
        (if cap < (declaredLength d).toNat then raise (.bufferTooSmall (declaredLength d) cap)
          else onX (fun x => { x with cur := (snapBurst p).setWidth 32 }) >>= fun _ => recvRest d) m ∧
      Passed recvParts e m rest (ptr ++ readTraffic e.cfg .dataFifo d) ∧
      m.rspbuf = memSetAll e.rspbuf 0 d ∧ m.x.expected = declaredLength d := by
  have hburst := burst_le_of_pollDone hs hp
  obtain ⟨u, hpoll, hu⟩ := poll_of_done hs hp (hi.trans (List.append_assoc ..))
  have hcfg := hu.frame.cfg
  have h1 : 1 ≤ (snapBurst p).toNat := (poll_of_ok hpoll).2.2
  obtain ⟨m, hfetch, hm, hrsp⟩ := fetch_of_answers (α := Received) (k := 0) (hu.serves hs) hu.inbox
    (hcfg ▸ ha) (hd ▸ h1) (hd ▸ hcfg ▸ hburst) (by omega)
  have hgood : badFirstBurst e.cfg.hdrSize cap (snapBurst p) = false := by
    simp [badFirstBurst, hhdr, hcap]
  have hkept : u.rspbuf = e.rspbuf := (hu.touches.rspbuf (by decide)).1
  have hem := (hu.mono (T := recvParts) (by decide)).trans (hm.mono (by decide))
  refine ⟨m.setX { m.x with expected := declaredLength d }, ?_, hcfg ▸ hem.setX
    fun x => { x with expected := declaredLength d }, hkept ▸ hrsp, rfl⟩
  rw [fifoReadBody, bind_of_ok (look_apply e), bind_of_ok hpoll]
  simp only [hgood]
  rw [← hd, hfetch]
  exact bind_of_ok (onX_apply _ _)

theorem fifoReadBody_gathers (hdeclared : (declaredLength d).toNat ≤ cap) :
    ∃ m, fifoReadBody cap e = recvRest d m ∧
      Gathered e d (declaredLength d) m rest (ptr ++ readTraffic e.cfg .dataFifo d) := by
  obtain ⟨m, hbody, hm, hrsp, hexp⟩ := fifoReadBody_first hs hp hi hhdr hcap hbuf hd ha
  rw [if_neg hdeclared.not_gt, bind_of_ok (onX_apply _ _)] at hbody
  refine ⟨_, hbody, hm.setX fun x => { x with cur := (snapBurst p).setWidth 32 }, hrsp, hexp, ?_⟩
  rw [hd, BitVec.ofNat_toNat]
  rfl

end First

/-! ### The loop and the final check -/

theorem recvLoop_done (h : Gathered e got declared m rest tr) (hgot : got.length < 2 ^ 32)
    (hall : declared.toNat ≤ got.length) : repeatFrom recvTurn got m = .ok got m := by
  have hturn : recvTurn got m = .ok (.inr got) m := by
    rw [recvTurn, bind_of_ok (look_apply m), h.cur, h.expected, BitVec.toNat_ofNat, Nat.mod_eq_of_lt hgot,
      if_neg hall.not_gt]
    rfl
  rw [repeatFrom_cases consumes_recvTurn, hturn]

theorem recvLoop_again {w : List Byte} (h : recvTurn got m = .ok (.inl w) t) :
    repeatFrom recvTurn got m = repeatFrom recvTurn w t := by
  rw [repeatFrom_cases consumes_recvTurn, h]

/-- A turn whose poll and read are answered brings what the burst and the declared length leave. -/
theorem recvTurn_of_done (hs : e.Serves) (h : Gathered e got declared m (pa ++ da ++ rest) tr)
    (hp : PollDone e.cfg (maskValidAvail e.cfg.map) p pa ptr) (hd1 : 1 ≤ d.length)
    (hd : min (snapBurst p).toNat (declared.toNat - got.length) = d.length)
    (hbuf : got.length + d.length ≤ bufSize) (ha : AnswersRead e.cfg.transport d da) :
    ∃ t, recvTurn got m = .ok (.inl (got ++ d)) t ∧
      Gathered e (got ++ d) declared t rest (tr ++ ptr ++ readTraffic e.cfg .dataFifo d) := by
  have hcfg := h.passed.frame.cfg
  have hsize : bufSize < 2 ^ 32 := by decide
  have hcur : m.x.cur.toNat = got.length := by
    rw [h.cur, BitVec.toNat_ofNat, Nat.mod_eq_of_lt (by omega)]
  have hlt : m.x.cur.toNat < m.x.expected.toNat := by rw [hcur, h.expected]; omega
  have hchunk : recvChunk (snapBurst p) m.x.expected m.x.cur = d.length := by
    rw [recvChunk, hcur, h.expected, hd]
  have hburst := burst_le_of_pollDone hs hp
  obtain ⟨u, hpoll, hu⟩ := poll_of_done (h.passed.serves hs) (hcfg ▸ hp)
    (h.passed.inbox.trans (List.append_assoc ..))
  have hgot := h.poll hu
  have hn := hgot.passed.setX fun x => { x with n := BitVec.ofNat 32 d.length }
  obtain ⟨t, hfetch, ht, hrsp⟩ := fetch_of_answers (α := List Byte ⊕ List Byte) (k := got.length)
    (hn.serves hs) hn.inbox (hn.frame.cfg ▸ ha) hd1 (hn.frame.cfg ▸ (by omega)) hbuf
  rw [hn.frame.cfg] at ht
  have hturn : recvTurn got m = .ok (.inl (got ++ d)) (t.setX { t.x with cur := t.x.cur + t.x.n }) := by
    rw [recvTurn, bind_of_ok (look_apply m), if_pos hlt, bind_of_ok hpoll]
    simp only [hchunk, hcur]
    rw [bind_of_ok (onX_apply _ _), hfetch]
    rfl
  have htcur : t.x.cur = BitVec.ofNat 32 got.length := (ht.touches.regs .cur (by decide)).trans hgot.cur
  have htn : t.x.n = BitVec.ofNat 32 d.length := ht.touches.regs .n (by decide)
  refine ⟨_, hturn, (hn.trans (ht.mono (by decide))).setX fun x => { x with cur := x.cur + x.n }, ?_,
    (ht.touches.regs .expected (by decide)).trans hgot.expected, ?_⟩
  · rw [memSetAll_append, ← hgot.rspbuf, Nat.zero_add]
    exact hrsp
  · rw [List.length_append, BitVec.ofNat_add]
    exact congrArg₂ (· + ·) htcur htn

/-- Once the loop is done, the final poll decides by DATA_AVAIL. -/
theorem exec_fifoReadBody_of_gathered {m0 : Engine} (hs : s.toEngine.Serves)
    (hbody : fifoReadBody s.args.cap s.toEngine = recvRest first m0)
    (hloop : repeatFrom recvTurn first m0 = .ok got m)
    (hm : Gathered s.toEngine got declared m (fa ++ rest) tr)
    (hp : PollDone s.cfg (maskValid s.cfg.map) f fa ftr) :
    ∃ t, exec .fifoReadBody s = .next t ∧ Finished s t rest (tr ++ ftr) ∧
      t.rspbuf = memSetAll s.rspbuf 0 got ∧ t.x.expected = declared ∧ t.x.cur = BitVec.ofNat 32 got.length ∧
      t.ret = if dataAvail s.cfg.map (snapStatus f) then
        .err (.protocolViolation .dataStillAvailable) else .ok (.count (BitVec.ofNat 32 got.length)) := by
  have hcfg := hm.passed.frame.cfg
  obtain ⟨t, hpoll, ht⟩ := poll_of_done (hm.passed.serves hs) (hcfg ▸ hp) hm.passed.inbox
  have hbody := hbody.trans <| (bind_of_ok hloop).trans <|
    (bind_of_ok (look_apply m)).trans (bind_of_ok hpoll)
  have hgot := hm.poll ht
  have hfinished := hgot.passed.finished (s := s)
  rw [← hcfg]
  cases hdata : dataAvail m.cfg.map (snapStatus f) with
  | true =>
    simp only [hdata] at hbody
    exact ⟨_, launch_asCount_of_raised hbody, hfinished _, hgot.rspbuf, hgot.expected, hgot.cur, rfl⟩
  | false =>
    simp only [hdata, hm.cur] at hbody
    exact ⟨_, launch_asCount_of_ok hbody, hfinished _, hgot.rspbuf, hgot.expected, hgot.cur, rfl⟩

/-! ### The obligations -/

/-- Settles O49: the check before the first read, and the one after the first chunk is stored. -/
theorem fifoReadBodyFirstChunkChecks : Obligations.FifoReadBodyFirstChunkChecks := by
  intro s p pa ptr hs hp
  refine ⟨fun hbad rest hi => ?_, fun hhdr hcap hbuf d da rest hi hd ha hsmall => ?_⟩
  · obtain ⟨t, hbody, ht⟩ := fifoReadBody_of_badBurst (cap := s.args.cap) hs hp hi (by simpa [badFirstBurst])
    exact ⟨_, launch_asCount_of_raised hbody, ht.finished _, rfl, (ht.touches.rspbuf (by decide)).1⟩
  · obtain ⟨t, hbody, ht, hrsp, -⟩ := fifoReadBody_first hs hp hi hhdr hcap hbuf hd ha
    rw [if_pos hsmall] at hbody
    exact ⟨_, launch_asCount_of_raised hbody, ht.finished _, rfl, hrsp⟩

/-- Settles O48: the first chunk alone, and with a second. -/
theorem fifoReadBodyResult : Obligations.FifoReadBodyResult := by
  intro s p d f pa da fa rest ptr ftr hs hp hhdr hcap hbuf hd ha hdeclared hf
  have hsize : bufSize < 2 ^ 32 := by decide
  refine ⟨fun hshort hi => ?_, fun p2 d2 pa2 da2 ptr2 hlong hi hp2 hburst hd2 ha2 => ?_⟩
  · obtain ⟨m, hbody, hm⟩ := fifoReadBody_gathers (rest := fa ++ rest) hs hp (by simpa using hi) hhdr hcap
      hbuf hd ha hdeclared
    obtain ⟨t, h, hfin, hrsp, hexp, -, hret⟩ := exec_fifoReadBody_of_gathered hs hbody
      (recvLoop_done hm (by omega) hshort) hm hf
    exact ⟨t, h, hfin, hrsp, hexp, hret⟩
  · obtain ⟨m, hbody, hm⟩ := fifoReadBody_gathers (rest := pa2 ++ da2 ++ (fa ++ rest)) hs hp (by simpa using hi)
      hhdr hcap hbuf hd ha hdeclared
    obtain ⟨u, hturn, hu⟩ := recvTurn_of_done hs hm hp2 (by omega) (by omega) (by omega) ha2
    have hlen : (d ++ d2).length = (declaredLength d).toNat := by rw [List.length_append]; omega
    obtain ⟨t, h, hfin, hrsp, -, hcur, hret⟩ := exec_fifoReadBody_of_gathered hs hbody
      ((recvLoop_again hturn).trans (recvLoop_done hu (by omega) hlen.ge)) hu hf
    rw [hlen, BitVec.ofNat_toNat, BitVec.setWidth_eq] at hcur hret
    exact ⟨t, h, by simpa using hfin, hrsp, hcur, hret⟩

end Sys2Proof.Machine
end

section
/-! SUPPORT. A host command from its exchange to its end: what it records where the exchange went through, and
the abort path where it raised an error (44_session.md R261 to R265; 60_exceptions.md R304, R305). -/

namespace Sys2Proof.Machine

variable {α : Type} {R : Engine → Engine → Prop} {e e0 e1 m t : Engine} {s : State} {i : Instr} {er : Err}
  {p : P HostVal} {path : P Unit} {r : Except Err HostVal} {got : Received} {v : HostVal} {len cap : Nat}

/-! ### Where a procedure stopped -/

theorem Along.of_ok {q : P α} {a : α} (hq : Along R q) (h : q e = .ok a t) : R e t := by
  have hR := hq e
  rwa [h] at hR

theorem Along.of_error {q : P α} {x : Stop} (hq : Along R q) (h : q e = .error x t) : R e t := by
  have hR := hq e
  rwa [h] at hR

theorem Frame.serves (h : Frame e t) (hs : e.Serves) : t.Serves where
  cfg_ok := h.cfg ▸ hs.cfg_ok
  wide := h.cfg ▸ hs.wide
  live := by rw [h.cfg, h.readyPath]; exact hs.live

/-! ### The end of a host command (R35, R37) -/

/-- The machine in which a host command has ended, its procedure at `t` with the outcome `r`. -/
def State.concluded (s : State) (t : Engine) (r : Except Err HostVal) : State :=
  { s with toEngine := (t.setResult (hostResultOf r)).setBusy false, running := none }

theorem launch_hostCommand_of_attempt (h : attempt p (s.toEngine.setBusy true) = .ok r t) :
    launch i (hostCommand p) s = .next (s.concluded t r) :=
  launch_of_ok (hostCommand_of_attempt h)

theorem launchHost_of_attempt {allowed : Bool} (hbusy : s.busy = false) (hallowed : allowed = true)
    (h : attempt p (s.toEngine.setBusy true) = .ok r t) :
    launchHost i allowed p s = .next (s.concluded t r) := by
  rw [launchHost, hbusy, if_neg Bool.false_ne_true, if_pos hallowed, launch_hostCommand_of_attempt h]

theorem launchHost_of_ok {allowed : Bool} (hbusy : s.busy = false) (hallowed : allowed = true)
    (h : p (s.toEngine.setBusy true) = .ok v t) :
    launchHost i allowed p s = .next (s.concluded t (.ok v)) :=
  launchHost_of_attempt hbusy hallowed (attempt_of_ok h)

/-- A host command that ended with an error has left the session IDLE (R267 (c), R305). -/
theorem exec_idle_of_err {t : State} (hi : isHostCommand i = true) (h : exec i s = .next t)
    (ht : t.running = none) (her : t.result = .err er) : t.sess = .idle := by
  obtain ⟨r, hr, hleaves⟩ := exec_leaves hi h ht
  cases r with
  | ok v =>
    rw [hr] at her
    cases her
  | error er' =>
    obtain ⟨hidle, _⟩ := idle_of_leaves_error hleaves
    exact hidle

/-! ### The abort (R304) -/

/-- An abort whose path returns ends with the error saved, whatever the path met. -/
theorem abort_of_path (h : path (e.setPending (some er)) = .ok () m) :
    (abort er path : P α) e = .error (.raised er) (m.setPending none) :=
  (bind_of_ok (change_apply _ e)).trans <| (bind_of_ok h).trans (bind_of_ok (change_apply _ m))

theorem launchHost_of_abort {allowed : Bool} (hbusy : s.busy = false) (hallowed : allowed = true)
    (hp : p (s.toEngine.setBusy true) = abort er path e1) (h : path (e1.setPending (some er)) = .ok () m) :
    launchHost i allowed p s = .next (s.concluded (m.setPending none) (.error er)) :=
  launchHost_of_attempt hbusy hallowed (attempt_of_raised (hp.trans (abort_of_path h)))

/-- A command that has ended after an error has run its abort path, one that raises nothing, to the end. -/
theorem ended_of_abort {t : State} (h : launch i (hostCommand p) s = .next t) (ht : t.running = none)
    (hp : p (s.toEngine.setBusy true) = abort er path e1) (hsilent : Silent path) :
    ∃ m, path (e1.setPending (some er)) = .ok () m ∧ t = s.concluded (m.setPending none) (.error er) := by
  have hpath := hsilent (e1.setPending (some er)) trivial
  have hstop {x : Stop} {u : Engine} (hx : path (e1.setPending (some er)) = .error x u) :
      p (s.toEngine.setBusy true) = .error x u :=
    hp.trans ((bind_of_ok (change_apply _ e1)).trans (bind_of_error hx))
  rcases hrun : path (e1.setPending (some er)) with ⟨_, u⟩ | ⟨er' | w | f, u⟩
  · rw [launch_hostCommand_of_attempt (attempt_of_raised (hp.trans (abort_of_path hrun)))] at h
    cases h
    exact ⟨u, rfl, rfl⟩
  · rw [hrun] at hpath
    exact hpath.elim
  · have hblocked : hostCommand p s.toEngine = .error (.blocked w) u :=
      (bind_of_ok (change_apply _ s.toEngine)).trans (bind_of_error (attempt_of_blocked (hstop hrun)))
    rw [launch_of_blocked hblocked] at h
    cases h
    cases ht
  · have hfault : hostCommand p s.toEngine = .error (.faulted f) u :=
      (bind_of_ok (change_apply _ s.toEngine)).trans (bind_of_error (by rw [attempt, hstop hrun]))
    rw [launch, hfault] at h
    cases h

/-! ### From the exchange to its command -/

theorem sendCommand_of_sent (h : sendCore .cmdbuf len e = .ok () t) :
    sendCommand len e = .ok .unit (t.setSess .started) :=
  (bind_of_ok (attempt_of_ok h)).trans (bind_of_ok (setSess_apply .started t))

theorem sendCommand_of_raised (h : sendCore .cmdbuf len e = .error (.raised er) t) :
    sendCommand len e = abort er sessionAbort t :=
  bind_of_ok (attempt_of_raised h)

theorem recvCommand_of_received (h : recvCore cap e = .ok got t) :
    recvCommand cap e = .ok (.count got.count) t :=
  bind_of_ok (attempt_of_ok h)

theorem recvCommand_of_raised (h : recvCore cap e = .error (.raised er) t) :
    recvCommand cap e = abort er sessionAbort t :=
  bind_of_ok (attempt_of_raised h)

theorem probeCommand_of_identified (h : probeCore e = .ok v t) : probeCommand e = .ok v t :=
  bind_of_ok (attempt_of_ok h)

theorem probeCommand_of_raised (h : probeCore e = .error (.raised er) t) :
    probeCommand e = abort er (releaseLocality true) t :=
  bind_of_ok (attempt_of_raised h)

theorem shutdownCommand_of_unsent (h : sendCore .shutdownCmd 12 e = .error (.raised er) t) :
    shutdownCommand e = abort er shutdownAbort t :=
  bind_of_ok (attempt_of_raised h)

theorem shutdownCommand_of_unreceived (h : sendCore .shutdownCmd 12 e = .ok () e0)
    (hr : recvCore 10 (e0.setSess .started) = .error (.raised er) t) :
    shutdownCommand e = abort er shutdownAbort t :=
  (bind_of_ok (attempt_of_ok h)).trans <|
    (bind_of_ok (setSess_apply .started e0)).trans (bind_of_ok (attempt_of_raised hr))

theorem shutdownCommand_of_received (h : sendCore .shutdownCmd 12 e = .ok () e0)
    (hr : recvCore 10 (e0.setSess .started) = .ok got t) : shutdownCommand e = shutdownFinish got t :=
  (bind_of_ok (attempt_of_ok h)).trans <|
    (bind_of_ok (setSess_apply .started e0)).trans (bind_of_ok (attempt_of_ok hr))

/-! ### The first error is the command's result (R266, R304, R305) -/

theorem silent_sessionAbort : Silent sessionAbort := silent_bind silent_cleanup fun _ _ _ => trivial

theorem silent_shutdownAbort : Silent shutdownAbort :=
  silent_bind silent_sessionAbort fun _ => silent_releaseLocality true

/-- Whatever the abort path met, the command ends with the error it began with, at rest. -/
theorem firstError_of_abort {t : State} (hi : isHostCommand i = true) (h : exec i s = .next t)
    (hwork : work s.args i = .command p) (ht : t.running = none)
    (hp : p (s.toEngine.setBusy true) = abort er path e1) (hsilent : Silent path)
    (hframe : Along Frame path) :
    t.result = .err er ∧ t.sess = .idle ∧ t.busy = false ∧ t.pending = none ∧ e1.trace <+: t.trace := by
  have hrun := (exec_next h).launch
  rw [hwork] at hrun
  obtain ⟨m, hm, rfl⟩ := ended_of_abort hrun ht hp hsilent
  exact ⟨rfl, exec_idle_of_err hi h ht rfl, rfl, rfl, (hframe.of_ok hm).trace⟩

/-- Settles O58: after each of the five exchanges the command is an abort with the exchange's error. -/
theorem firstErrorWins : Obligations.FirstErrorWins := by
  intro s t er e0 e1 _ ht hexchange
  have hF := frame_closed.toClosedSession
  obtain ⟨len, _, hraised, h⟩ | ⟨cap, _, hraised, h⟩ | ⟨_, hraised, h⟩ | ⟨_, hsent, hraised, h⟩ |
    ⟨_, hraised, h⟩ := hexchange
  · exact firstError_of_abort rfl h rfl ht (sendCommand_of_raised hraised) silent_sessionAbort
      (along_sessionAbort hF)
  · exact firstError_of_abort rfl h rfl ht (recvCommand_of_raised hraised) silent_sessionAbort
      (along_sessionAbort hF)
  · exact firstError_of_abort rfl h rfl ht (shutdownCommand_of_unsent hraised) silent_shutdownAbort
      (along_shutdownAbort hF)
  · exact firstError_of_abort rfl h rfl ht (shutdownCommand_of_unreceived hsent hraised)
      silent_shutdownAbort (along_shutdownAbort hF)
  · exact firstError_of_abort rfl h rfl ht (probeCommand_of_raised hraised)
      (silent_releaseLocality true) (along_releaseLocality hF.toClosed true)

end Sys2Proof.Machine
end

section
/-! PROOF. Releases and cleanups that run to their end, whatever becomes of their accesses, and the abort
paths made of them (41_locality.md R182; 43_fifo_transfer.md R225; 60_exceptions.md R304). -/

namespace Sys2Proof.Machine

variable {e e1 t : Engine} {s : State} {i : Instr} {er : Err} {p : P HostVal} {path : P Unit}
  {S : Finset Part} {a : Byte} {force : Bool} {as aa ca ra wa rest : List Answer} {tr ctr rtr : List Event}

/-! ### The fields of the session -/

/-- An update of the session's fields is a step without answers or traffic. -/
theorem passed_of_session (hframe : Frame e t) (hx : t.x = e.x) (hrsp : t.rspbuf = e.rspbuf)
    (hinbox : t.inbox = e.inbox) (htrace : t.trace = e.trace) (hclock : t.clock = e.clock) :
    Passed S e t e.inbox [] :=
  ⟨hframe, touches_of_silent hframe.cfg (fun r _ => hx ▸ r.sameIn_refl e.x) hrsp htrace hclock.ge, hinbox,
    by rw [htrace, List.append_nil]⟩

theorem passed_setSess (e : Engine) (v : Sess) : Passed S e (e.setSess v) e.inbox [] :=
  passed_of_session (frame_closed.setSess e v) rfl rfl rfl rfl rfl

theorem passed_setPending (e : Engine) (o : Option Err) : Passed S e (e.setPending o) e.inbox [] :=
  passed_of_session (frame_closed.setPending e o) rfl rfl rfl rfl rfl

theorem Passed.setSess (h : Passed S e t rest tr) (v : Sess) : Passed S e (t.setSess v) rest tr := by
  simpa [h.inbox] using h.trans (passed_setSess t v)

theorem Passed.setPending (h : Passed S e t rest tr) (o : Option Err) :
    Passed S e (t.setPending o) rest tr := by
  simpa [h.inbox] using h.trans (passed_setPending t o)

/-- What a host command has put on the bus once it has ended. -/
theorem Passed.concluded (h : Passed S (s.toEngine.setBusy true) t rest tr) (r : Except Err HostVal) :
    Finished s (s.concluded t r) rest tr :=
  ⟨rfl, h.inbox, h.traffic⟩

/-! ### RELEASE_LOCALITY and CLEANUP -/

/-- A release, with its write or without (R182). -/
theorem release_of_done (hs : e.Serves) (hr : ReleaseDone e.cfg force as tr) (hi : e.inbox = as ++ rest) :
    ∃ t, releaseLocality force e = .ok () t ∧ Passed {.access, .t1} e t rest tr := by
  suffices h : ∃ o t, releaseLocality force e = .ok () t ∧ Moved (e.noted o) t rest tr by
    obtain ⟨o, t, hrelease, hm⟩ := h
    exact ⟨t, hrelease, passed_of_ok hrelease (along_releaseLocality frame_closed.toClosed force)
      (on_releaseLocality force).touches hm.inbox hm.traffic⟩
  obtain ⟨o, w, ra, wa, rt, wt, ho, rfl, rfl, hw⟩ := hr
  change if releaseWrites e.cfg force o = true then _ else _ at hw
  split at hw
  next hwrites => exact ⟨o, releaseLocality_with_write hs ho hi hwrites hw⟩
  next hwrites =>
    obtain ⟨rfl, rfl⟩ := hw
    rw [List.append_nil] at hi ⊢
    exact ⟨o, releaseLocality_without_write hs ho hi (Bool.eq_false_iff.mpr hwrites)⟩

/-- A release whose read brings `a` and whose write goes through. -/
theorem releaseDone_of_write {c : Cfg} (ha : AnswersRead c.transport [a] aa)
    (hwrites : (force || releaseWanted c.map a) = true) (hw : AnswersWrite c.transport wa) :
    ReleaseDone c force (aa ++ wa)
      (readTraffic c .access [a] ++ writeTraffic c .access (accessRelBytes c.map)) :=
  ⟨.ok [a], .ok (), aa, wa, _, _, readDone_of_answers ha, rfl, rfl, (if_pos hwrites).mpr ⟨hw, rfl⟩⟩

/-- A release whose read brings `a`, and no write. -/
theorem releaseDone_of_read {c : Cfg} (ha : AnswersRead c.transport [a] aa)
    (hno : (force || releaseWanted c.map a) = false) :
    ReleaseDone c force aa (readTraffic c .access [a]) :=
  ⟨.ok [a], .ok (), aa, [], _, [], readDone_of_answers ha, (List.append_nil aa).symm,
    (List.append_nil _).symm, (if_neg (Bool.eq_false_iff.mp hno)).mpr ⟨rfl, rfl⟩⟩

/-- A cleanup: its status read, its SET_READY if the read shows COMMAND_READY, its release (R225). -/
theorem cleanup_of_done (hs : e.Serves) (hc : CleanupDone e.cfg as tr) (hi : e.inbox = as ++ rest) :
    ∃ t, cleanup e = .ok () t ∧ Passed {.status, .access, .t1} e t rest tr := by
  obtain ⟨o, w, ra, wa, fa, rt, wt, ft, ho, hrelease, rfl, rfl, hw⟩ := hc
  obtain ⟨m, hclean, hm⟩ := cleanup_releases hs (rest := fa ++ rest) (by simpa using hi) ho hw
  have hcfg : m.cfg = e.cfg := hm.cfg
  obtain ⟨t, ht, hpassed⟩ := release_of_done (hm.serves (hs.statused o)) (hcfg ▸ hrelease) hm.inbox
  have hdone := hclean.trans ht
  exact ⟨t, hdone, passed_of_ok hdone (along_cleanup frame_closed.toClosed) on_cleanup.touches
    hpassed.inbox (hpassed.traffic.trans (by rw [hm.traffic, List.append_assoc]; rfl))⟩

/-! ### The abort paths (R261 to R265, R304) -/

theorem sessionAbort_of_done (hs : e.Serves) (hc : CleanupDone e.cfg ca ctr) (hi : e.inbox = ca ++ rest) :
    ∃ t, sessionAbort e = .ok () t ∧ Passed {.status, .access, .t1} e t rest ctr := by
  obtain ⟨m, hclean, hm⟩ := cleanup_of_done hs hc hi
  exact ⟨_, (bind_of_ok hclean).trans (setSess_apply .idle m), hm.setSess .idle⟩

theorem shutdownAbort_of_done (hs : e.Serves) (hc : CleanupDone e.cfg ca ctr)
    (hr : ReleaseDone e.cfg true ra rtr) (hi : e.inbox = ca ++ ra ++ rest) :
    ∃ t, shutdownAbort e = .ok () t ∧ Passed {.status, .access, .t1} e t rest (ctr ++ rtr) := by
  obtain ⟨m, habort, hm⟩ := sessionAbort_of_done hs hc (hi.trans (List.append_assoc ..))
  obtain ⟨t, hrelease, ht⟩ := release_of_done (hm.serves hs) (hm.frame.cfg ▸ hr) hm.inbox
  exact ⟨t, (bind_of_ok habort).trans hrelease, hm.trans (ht.mono (by decide))⟩

/-- The command whose exchange raised an error at `e1` ends with it after its abort path. -/
theorem exec_of_abort {allowed : Bool} (hi : isHostCommand i = true) (hs : s.toEngine.Serves)
    (hbusy : s.busy = false) (hexec : exec i s = launchHost i allowed p s) (hallowed : allowed = true)
    (hp : p (s.toEngine.setBusy true) = abort er path e1) (hframe : Frame (s.toEngine.setBusy true) e1)
    (hpath : ∀ e : Engine, e.Serves → e.cfg = s.cfg → e.inbox = e1.inbox →
      ∃ m, path e = .ok () m ∧ Passed S e m rest tr) :
    ∃ t, exec i s = .next t ∧ t.running = none ∧ t.inbox = rest ∧
      busTrace t.trace = busTrace e1.trace ++ tr ∧ t.result = .err er ∧ t.sess = .idle := by
  have hpending := hframe.trans (frame_closed.setPending e1 (some er))
  obtain ⟨m, hrun, hm⟩ := hpath _ (hpending.serves ⟨hs.cfg_ok, hs.wide, hs.live⟩) hpending.cfg rfl
  have h := hexec.trans (launchHost_of_abort hbusy hallowed hp hrun)
  exact ⟨_, h, rfl, hm.inbox, hm.traffic, rfl, exec_idle_of_err hi h rfl rfl⟩

/-- Settles O59: the abort path of each exchange, from the engine in which the exchange raised its error. -/
theorem abortPathRuns : Obligations.AbortPathRuns := by
  intro s er e0 e1 ca ra rest ctr rtr hs hbusy hc hr
  have hF := frame_closed.toClosedSession
  refine ⟨fun len hidle hraised hi => ?_, fun cap hstarted hraised hi => ?_, fun hidle hi hexchange => ?_,
    fun hidle hraised hi => ?_⟩
  · exact exec_of_abort rfl hs hbusy rfl (beq_iff_eq.mpr hidle) (sendCommand_of_raised hraised)
      ((along_sendCore hF _ _).of_error hraised) fun e he hcfg hinbox =>
        sessionAbort_of_done he (hcfg ▸ hc) (hinbox.trans hi)
  · exact exec_of_abort rfl hs hbusy rfl (beq_iff_eq.mpr hstarted) (recvCommand_of_raised hraised)
      ((along_recvCore hF cap).of_error hraised) fun e he hcfg hinbox =>
        sessionAbort_of_done he (hcfg ▸ hc) (hinbox.trans hi)
  · have hshutdown : shutdownCommand (s.toEngine.setBusy true) = abort er shutdownAbort e1 ∧
        Frame (s.toEngine.setBusy true) e1 := by
      rcases hexchange with hraised | ⟨hsent, hraised⟩
      · exact ⟨shutdownCommand_of_unsent hraised, (along_sendCore hF _ _).of_error hraised⟩
      · exact ⟨shutdownCommand_of_unreceived hsent hraised,
          ((along_sendCore hF _ _).of_ok hsent).trans <|
            (frame_closed.setSess e0 .started).trans ((along_recvCore hF 10).of_error hraised)⟩
    obtain ⟨hp, hframe⟩ := hshutdown
    rw [List.append_assoc (busTrace e1.trace)]
    exact exec_of_abort rfl hs hbusy rfl (beq_iff_eq.mpr hidle) hp hframe fun e he hcfg hinbox =>
      shutdownAbort_of_done he (hcfg ▸ hc) (hcfg ▸ hr) (hinbox.trans hi)
  · exact exec_of_abort rfl hs hbusy rfl (beq_iff_eq.mpr hidle) (probeCommand_of_raised hraised)
      ((along_probeCore hF.toClosed).of_error hraised) fun e he hcfg hinbox =>
        release_of_done he (hcfg ▸ hr) (hinbox.trans hi)

end Sys2Proof.Machine
end

section
/-! SUPPORT. Procedures whose accesses all go through, one after the other: the steps of an exchange
(41_locality.md R181, R182; 43_fifo_transfer.md R220, R221, R223, R224). -/

namespace Sys2Proof.Machine

variable {α β : Type} {e t : Engine} {src : Src} {S T : Finset Part} {a : Byte}
  {len cap : Nat} {st p d f : List Byte} {n0 : Answer} {as as' aa sa pa wa da fa ga ra rest : List Answer}
  {tr tr' : List Event}

/-! ### One step after another -/

/-- Since `e` only the parts `S` have been touched: on the answers `as` the procedure goes on to return `v`,
with the traffic `tr`. -/
def Passes (e : Engine) (S : Finset Part) (as : List Answer) (tr : List Event) (q : P α) (v : α) : Prop :=
  ∀ m rest tr0, Passed S e m (as ++ rest) tr0 → ∃ t, q m = .ok v t ∧ Passed S e t rest (tr0 ++ tr)

theorem Passes.run {q : P α} {v : α} (h : Passes e S as tr q v) (hi : e.inbox = as ++ rest) :
    ∃ t, q e = .ok v t ∧ Passed S e t rest tr :=
  h e rest [] (hi ▸ Passed.refl S e)

/-- What goes through from every engine that serves goes through from those since `e`. -/
theorem passes_of {q : P α} {v : α} (hs : e.Serves) (hTS : T ⊆ S)
    (h : ∀ m rest, Frame e m → m.Serves → m.inbox = as ++ rest → ∃ t, q m = .ok v t ∧ Passed T m t rest tr) :
    Passes e S as tr q v := by
  intro m rest tr0 hm
  obtain ⟨t, hq, ht⟩ := h m rest hm.frame (hm.serves hs) hm.inbox
  exact ⟨t, hq, hm.trans (ht.mono hTS)⟩

theorem passes_bind {q : P α} {k : α → P β} {v : α} {w : β} (hq : Passes e S as tr q v)
    (hk : Passes e S as' tr' (k v) w) : Passes e S (as ++ as') (tr ++ tr') (q >>= k) w := by
  intro m rest tr0 hm
  obtain ⟨m1, h1, hm1⟩ := hq m (as' ++ rest) tr0 (List.append_assoc as as' rest ▸ hm)
  obtain ⟨t, h2, ht⟩ := hk m1 rest _ hm1
  exact ⟨t, (bind_of_ok h1).trans h2, List.append_assoc tr0 tr tr' ▸ ht⟩

/-- A step that takes no answer and puts nothing on the bus. -/
theorem passes_off {q : P α} {k : α → P β} {v : α} {w : β} (hq : Passes e S [] [] q v)
    (hk : Passes e S as tr (k v) w) : Passes e S as tr (q >>= k) w :=
  passes_bind hq hk

theorem passes_pure (v : α) : Passes e S [] [] (pure v) v :=
  fun m _ tr0 hm => ⟨m, rfl, (List.append_nil tr0).symm ▸ hm⟩

theorem passes_setSess (v : Sess) : Passes e S [] [] (setSess v) () :=
  fun m _ tr0 hm => ⟨_, setSess_apply v m, (List.append_nil tr0).symm ▸ hm.setSess v⟩

/-! ### Accesses and polls answered at once -/

theorem pollDone_of_answers {c : Cfg} {mask : Byte} (n : Answer) (hlen : p.length = 4)
    (ha : AnswersRead c.transport p pa)
    (haccept : accept c.burstCap mask (snapStatus p) (snapBurst p) = true) :
    PollDone c mask p (n :: pa) (readTraffic c .sts p) :=
  ⟨n, pa, hlen, ha, haccept, .inl ⟨rfl, rfl⟩⟩

/-- Where the first check passes, the locality is had. -/
theorem requestLocality_of_answers (hs : e.Serves) (ha : AnswersRead e.cfg.transport [a] aa)
    (hok : localityOk e.cfg.map a = true) (hi : e.inbox = aa ++ rest) :
    ∃ t, requestLocality e = .ok () t ∧
      Passed {.access, .tries, .t1} e t rest (readTraffic e.cfg .access [a]) := by
  obtain ⟨t, h, hm⟩ := requestLocality_of_passes hs hi (readDone_of_answers ha) hok
  exact ⟨t, h, passed_of_ok h (along_requestLocality frame_closed.toClosed) on_requestLocality.touches
    hm.inbox hm.traffic⟩

theorem waitCommandReady_of_answers (hs : e.Serves) (hlen : st.length = 4)
    (ha : AnswersRead e.cfg.transport st sa) (hready : cmdReady e.cfg.map (snapStatus st) = true)
    (hi : e.inbox = n0 :: sa ++ rest) :
    ∃ t, waitCommandReady e = .ok () t ∧ Passed {.status, .t0, .t1} e t rest (readTraffic e.cfg .sts st) := by
  obtain ⟨t, h, hm⟩ := waitCommandReady_of_ready (o := .ok st) hs hi ⟨hlen, ha, rfl⟩ hready
  exact ⟨t, h, passed_of_ok h (along_waitCommandReady frame_closed.toClosed) on_waitCommandReady.touches
    hm.inbox hm.traffic⟩

theorem writeGo_of_answers (hs : e.Serves) (ha : AnswersWrite e.cfg.transport ga)
    (hi : e.inbox = ga ++ rest) :
    ∃ t, writeGo e = .ok () t ∧ Passed {.t1} e t rest (writeTraffic e.cfg .sts (stsGoBytes e.cfg.map)) := by
  obtain ⟨t, hwrite, hm, _⟩ := regWrite_of_answers (kind := .sts) (p := stsGoBytes e.cfg.map) hs hi ha
    (.inl (Nat.le_add_left 1 3)) hs.wide
  have h : writeGo e = .ok () t := (bind_of_ok (look_apply e)).trans hwrite
  exact ⟨t, h, passed_of_ok h (along_writeGo frame_closed.toClosed) on_writeGo.touches hm.inbox hm.traffic⟩

/-! ### SEND_CORE of one chunk (R261) -/

/-- The answers to a SEND_CORE of `len` bytes that go out in one chunk: the locality is active and the TPM
ready, the burst has room, and the TPM expects nothing more. -/
structure SendAnswers (c : Cfg) (len : Nat) (a : Byte) (st p f : List Byte)
    (aa sa pa wa fa ga : List Answer) : Prop where
  access : AnswersRead c.transport [a] aa
  active : localityOk c.map a = true
  length : st.length = 4
  status : AnswersRead c.transport st sa
  ready : cmdReady c.map (snapStatus st) = true
  poll : PollDone c (maskValid c.map) p pa (readTraffic c .sts p)
  room : len + 1 ≤ (snapBurst p).toNat
  data : AnswersWrite c.transport wa
  last : PollDone c (maskValid c.map) f fa (readTraffic c .sts f)
  taken : dataExpect c.map (snapStatus f) = false
  go : AnswersWrite c.transport ga

/-- FIFO_WRITE_BODY of one chunk that the TPM takes (R221). -/
theorem fifoWriteBody_of_chunk (hs : e.Serves) (hpos : 0 < len) (hlen : len ≤ sourceSize src)
    (h : SendAnswers e.cfg len a st p f aa sa pa wa fa ga) (hi : e.inbox = pa ++ wa ++ fa ++ rest) :
    ∃ t, fifoWriteBody src len e = .ok () t ∧ Passed writeBodyParts e t rest
      (readTraffic e.cfg .sts p ++ writeTraffic e.cfg .dataFifo (e.source src len) ++
        readTraffic e.cfg .sts f) := by
  have hroom := h.room
  obtain ⟨m, hturn, hm, hsent, _⟩ := sendTurn_first (src := src) (k := len) (rest := fa ++ rest) hs hlen
    h.poll (by omega) hpos h.data (by simpa using hi)
  have hcfg := hm.frame.cfg
  obtain ⟨t, hpoll, ht⟩ := poll_of_done (hm.serves hs) (hcfg ▸ h.last) hm.inbox
  have hpassed := hm.trans (ht.mono (T := writeBodyParts) (by decide))
  rw [hcfg, e.chunk_zero] at hpassed
  refine ⟨t, ?_, hpassed⟩
  rw [fifoWriteBody, bind_of_ok (onX_apply _ e)]
  refine (bind_of_ok ((sendLoop_again hturn).trans (sendLoop_done hsent hlen))).trans ?_
  rw [bind_of_ok (look_apply m), bind_of_ok hpoll, hcfg, h.taken]
  rfl

theorem sendCore_of_answers (hs : e.Serves) (hpos : 0 < len) (hlen : len ≤ sourceSize src)
    (h : SendAnswers e.cfg len a st p f aa sa pa wa fa ga)
    (hi : e.inbox = aa ++ n0 :: sa ++ pa ++ wa ++ fa ++ ga ++ rest) :
    ∃ t, sendCore src len e = .ok () t ∧ Passed sendParts e t rest
      (readTraffic e.cfg .access [a] ++ readTraffic e.cfg .sts st ++ readTraffic e.cfg .sts p ++
        writeTraffic e.cfg .dataFifo (e.source src len) ++ readTraffic e.cfg .sts f ++
        writeTraffic e.cfg .sts (stsGoBytes e.cfg.map)) := by
  have hsource {m : Engine} (hm : Frame e m) : m.source src len = e.source src len := by
    cases src
    · exact congrArg (memBytes · 0 len) hm.cmdbuf
    · rfl
  have hrequest : Passes e sendParts aa (readTraffic e.cfg .access [a]) requestLocality () :=
    passes_of hs (by decide) fun m _ hm hsm hi =>
      hm.cfg ▸ requestLocality_of_answers hsm (hm.cfg ▸ h.access) (hm.cfg ▸ h.active) hi
  have hready : Passes e sendParts (n0 :: sa) (readTraffic e.cfg .sts st) waitCommandReady () :=
    passes_of hs (by decide) fun m _ hm hsm hi =>
      hm.cfg ▸ waitCommandReady_of_answers hsm h.length (hm.cfg ▸ h.status) (hm.cfg ▸ h.ready) hi
  have hbody : Passes e sendParts (pa ++ wa ++ fa) (readTraffic e.cfg .sts p ++
      writeTraffic e.cfg .dataFifo (e.source src len) ++ readTraffic e.cfg .sts f)
      (fifoWriteBody src len) () :=
    passes_of hs (by decide) fun m _ hm hsm hi =>
      hm.cfg ▸ hsource hm ▸ fifoWriteBody_of_chunk hsm hpos hlen (hm.cfg ▸ h) hi
  have hgo : Passes e sendParts ga (writeTraffic e.cfg .sts (stsGoBytes e.cfg.map)) writeGo () :=
    passes_of hs (by decide) fun m _ hm hsm hi => hm.cfg ▸ writeGo_of_answers hsm (hm.cfg ▸ h.go) hi
  have hcore : Passes e sendParts _ _ (sendCore src len) () :=
    passes_off (passes_setSess .localityRequested) <| passes_bind hrequest <|
    passes_off (passes_setSess .commandReadyWait) <| passes_bind hready <|
      passes_off (passes_setSess .sending) <| passes_bind hbody hgo
  simpa using hcore.run (rest := rest) (by simpa using hi)

/-! ### RECV_CORE of one chunk (R262) -/

/-- The answers to a FIFO_READ_BODY whose response `d` comes in one chunk: the burst is a header at least and
fits the capacity, the declared length is reached, and no data is left. -/
structure RecvAnswers (c : Cfg) (cap : Nat) (p d f : List Byte) (pa da fa : List Answer) : Prop where
  poll : PollDone c (maskValidAvail c.map) p pa (readTraffic c .sts p)
  header : c.hdrSize ≤ (snapBurst p).toNat
  fits : (snapBurst p).toNat ≤ cap
  small : cap ≤ bufSize
  length : d.length = (snapBurst p).toNat
  data : AnswersRead c.transport d da
  declared : (declaredLength d).toNat ≤ d.length
  last : PollDone c (maskValid c.map) f fa (readTraffic c .sts f)
  empty : dataAvail c.map (snapStatus f) = false

theorem fifoReadBody_of_chunk (hs : e.Serves) (h : RecvAnswers e.cfg cap p d f pa da fa)
    (hi : e.inbox = pa ++ da ++ fa ++ rest) :
    ∃ t, fifoReadBody cap e = .ok ⟨BitVec.ofNat 32 d.length, d⟩ t ∧ Passed recvParts e t rest
      (readTraffic e.cfg .sts p ++ readTraffic e.cfg .dataFifo d ++ readTraffic e.cfg .sts f) := by
  have hsize : bufSize < 2 ^ 32 := by decide
  obtain ⟨hpoll, hhdr, hcap, hbuf, hlen, hdata, hdeclared, hlast, hempty⟩ := h
  obtain ⟨m, hbody, hm⟩ := fifoReadBody_gathers (rest := fa ++ rest) hs hpoll (by simpa using hi) hhdr hcap
    hbuf hlen hdata (by omega)
  have hcfg := hm.passed.frame.cfg
  obtain ⟨t, hfinal, ht⟩ := poll_of_done (hm.passed.serves hs) (hcfg ▸ hlast) hm.passed.inbox
  refine ⟨t, hbody.trans ?_, hcfg ▸ (hm.poll ht).passed⟩
  rw [recvRest, bind_of_ok (recvLoop_done hm (by omega) hdeclared), bind_of_ok (look_apply m),
    bind_of_ok hfinal, hcfg, hempty, hm.cur]
  rfl

theorem recvCore_of_answers (hs : e.Serves) (h : RecvAnswers e.cfg cap p d f pa da fa)
    (hr : ReleaseDone e.cfg false ra tr) (hi : e.inbox = pa ++ da ++ fa ++ ra ++ rest) :
    ∃ t, recvCore cap e = .ok ⟨BitVec.ofNat 32 d.length, d⟩ t ∧ Passed recvCoreParts e t rest
      (readTraffic e.cfg .sts p ++ readTraffic e.cfg .dataFifo d ++ readTraffic e.cfg .sts f ++ tr) := by
  have hbody : Passes e recvCoreParts (pa ++ da ++ fa) (readTraffic e.cfg .sts p ++
      readTraffic e.cfg .dataFifo d ++ readTraffic e.cfg .sts f) (fifoReadBody cap)
      ⟨BitVec.ofNat 32 d.length, d⟩ :=
    passes_of hs (by decide) fun m _ hm hsm hi => hm.cfg ▸ fifoReadBody_of_chunk hsm (hm.cfg ▸ h) hi
  have hrelease : Passes e recvCoreParts ra tr (releaseLocality false) () :=
    passes_of hs (by decide) fun m _ hm hsm hi => release_of_done hsm (hm.cfg ▸ hr) hi
  have hcore : Passes e recvCoreParts _ _ (recvCore cap) _ :=
    passes_off (passes_setSess .receiving) <| passes_bind hbody <|
    passes_off (passes_setSess .localityReleased) <| passes_bind hrelease <|
      passes_off (passes_setSess .idle) (passes_pure _)
  simpa using hcore.run (rest := rest) (by simpa using hi)

end Sys2Proof.Machine
end

section
/-! PROOF. What FIFO_READ_BODY and RECV_CORE give their caller where they return, whatever the environment
answered: the bytes they have put into RSPBUF (43_fifo_transfer.md R224; 44_session.md R262). -/

namespace Sys2Proof.Machine

variable {e m t : Engine} {S : Finset Part} {cap : Nat} {first got d w : List Byte} {r : Received}

theorem Touches.then_filled (h : Touches S e m) (hS : .rspbuf ∉ S) (k : Filled m got t) : Filled e got t := by
  obtain ⟨hrsp, hwrites⟩ := h.rspbuf hS
  exact ⟨k.cfg.trans h.cfg, hrsp ▸ k.rspbuf, hwrites ▸ k.writes, k.reads.trans h.rspReads⟩

/-! ### The loop over the chunks, with the bytes it carries -/

/-- The bytes that stand in RSPBUF begin with the first chunk, whose declared length is in `x[expected]`. -/
structure Collected (cap : Nat) (e : Engine) (first got : List Byte) (t : Engine) : Prop
    extends Receiving cap e got t where
  begins : first <+: got
  header : t.x.expected = declaredLength first

/-- A turn that goes on has put more bytes behind those that stand there. -/
theorem recvTurn_goes (h : recvTurn got m = .ok (.inl w) t) : got <+: w ∧ t.x.expected = m.x.expected := by
  rw [recvTurn, bind_of_ok (look_apply m)] at h
  split at h
  case isFalse => cases h
  case isTrue =>
    obtain ⟨v, m1, hpoll, h⟩ := bind_eq_ok.mp h
    rw [bind_of_ok (onX_apply _ m1)] at h
    obtain ⟨d, m3, hread, h⟩ := bind_eq_ok.mp h
    obtain ⟨_, m4, hstore, h⟩ := bind_eq_ok.mp h
    rw [bind_of_ok (onX_apply _ m4)] at h
    cases h
    obtain ⟨hpolled, _, _⟩ := poll_of_ok hpoll
    obtain ⟨hgot, _, _⟩ := readFifo_of_ok hread
    obtain ⟨hstored, _⟩ := store_of_ok hstore
    have hexpected : m4.x.expected = m1.x.expected :=
      (congrArg Regs.expected hstored.x).trans (hgot.regs .expected (by decide))
    exact ⟨List.prefix_append got d, hexpected.trans (hpolled.regs .expected (by decide))⟩

/-- The loop goes on with more of the response, and ends where the declared length has come. -/
theorem collects_recvTurn (e : Engine) (first got : List Byte) :
    Ends (Collected cap e first got) (recvTurn got) (TurnedFrom (Collected cap e first) fun got t =>
      Collected cap e first got t ∧ (declaredLength first).toNat ≤ got.length) := by
  intro m hm
  have hreceived := filling_recvTurn e got m hm.toReceiving
  rcases hturn : recvTurn got m with ⟨w | w, t⟩ | ⟨_ | _ | _, t⟩ <;> rw [hturn] at hreceived
  · obtain ⟨hmore, hexpected⟩ := recvTurn_goes hturn
    exact ⟨hreceived, hm.begins.trans hmore, hexpected.trans hm.header⟩
  · obtain ⟨rfl, rfl, hle⟩ := recvTurn_ends hturn
    exact ⟨hm, by rwa [hm.header, hm.cur] at hle⟩
  all_goals trivial

/-! ### What the body returns -/

/-- Since `e` the bytes of the response have been written to RSPBUF from index 0 on, as many as it counts, no
more than the capacity and no fewer than the first chunk declares. -/
structure Response (cap : Nat) (e : Engine) (r : Received) (t : Engine) : Prop where
  filled : Filled e r.bytes t
  count : r.count.toNat = r.bytes.length
  bound : r.bytes.length ≤ cap
  declared : ∃ first, first <+: r.bytes ∧ e.cfg.hdrSize ≤ first.length ∧
    (declaredLength first).toNat ≤ r.bytes.length

/-- What leaves RSPBUF alone, before the response and after it. -/
theorem Touches.then_response (h : Touches S e m) (hS : .rspbuf ∉ S) (k : Response cap m r t) :
    Response cap e r t where
  filled := h.then_filled hS k.filled
  count := k.count
  bound := k.bound
  declared := h.cfg ▸ k.declared

theorem Response.touches (h : Response cap e r m) (k : Touches S m t) (hS : .rspbuf ∉ S) :
    Response cap e r t :=
  { h with filled := h.filled.touches k hS }

theorem response_of_recvRest (hm : Collected cap e first first m) (hhdr : e.cfg.hdrSize ≤ first.length)
    (h : recvRest first m = .ok r t) : Response cap e r t := by
  obtain ⟨got, m1, hloop, h⟩ := bind_eq_ok.mp h
  obtain ⟨hm1, hdeclared⟩ := (meets_repeatFrom (fun _ _ _ => trivial) (collects_recvTurn e first) first).of_ok
    hm hloop
  rw [bind_of_ok (look_apply m1)] at h
  obtain ⟨v, m2, hpoll, h⟩ := bind_eq_ok.mp h
  obtain ⟨hpolled, _, _⟩ := poll_of_ok hpoll
  cases hmore : dataAvail m1.cfg.map v.2 with
  | true =>
    rw [hmore] at h
    cases h
  | false =>
    rw [hmore] at h
    cases h
    exact ⟨hm1.filled.touches hpolled (by decide), hm1.cur, hm1.bound, first, hm1.begins, hhdr, hdeclared⟩

/-- The first chunk in RSPBUF, with the declared length and the count noted. -/
theorem collected_first {m1 m2 m3 : Engine} {mask : Byte} {v : Half × Byte}
    (hpoll : getBurstAndStatus mask e = .ok v m1) (hv : v.1.toNat ≤ cap)
    (hread : regRead .dataFifo v.1.toNat m1 = .ok d m2) (hstore : memWriteAll 0 d m2 = .ok () m3)
    (hcap : (declaredLength d).toNat ≤ cap) :
    Collected cap e d d (m3.setX { m3.x with expected := declaredLength d, cur := v.1.setWidth 32 }) := by
  obtain ⟨hpolled, _, _⟩ := poll_of_ok hpoll
  obtain ⟨hgot, _, hd⟩ := readFifo_of_ok hread
  obtain ⟨hstored, _⟩ := store_of_ok hstore
  have hnone : Filled e [] m2 := ((Filled.refl e).touches hpolled (by decide)).touches hgot (by decide)
  refine ⟨⟨(hnone.stored hstored).setX _, hd.trans_le hv, ?_, hcap⟩, List.prefix_refl d, rfl⟩
  have hwidth := v.1.isLt
  rw [hd, Engine.setX_x, BitVec.toNat_setWidth]
  omega

theorem response_of_fifoReadBody (h : fifoReadBody cap e = .ok r t) : Response cap e r t := by
  rw [fifoReadBody, bind_of_ok (look_apply e)] at h
  obtain ⟨v, m1, hpoll, h⟩ := bind_eq_ok.mp h
  cases hv : badFirstBurst e.cfg.hdrSize cap v.1 with
  | true =>
    rw [hv] at h
    cases h
  | false =>
    rw [hv] at h
    obtain ⟨d, m2, hread, h⟩ := bind_eq_ok.mp h
    obtain ⟨_, m3, hstore, h⟩ := bind_eq_ok.mp h
    rw [bind_of_ok (onX_apply _ m3)] at h
    split at h
    case isTrue => cases h
    case isFalse hcap =>
      rw [bind_of_ok (onX_apply _ _)] at h
      obtain ⟨_, _, hd⟩ := readFifo_of_ok hread
      have hfirst := collected_first hpoll (le_of_badFirstBurst hv) hread hstore (not_lt.mp hcap)
      simp only [badFirstBurst, Bool.or_eq_false_iff, decide_eq_false_iff_not] at hv
      exact response_of_recvRest hfirst (by omega) h

theorem response_of_recvCore (h : recvCore cap e = .ok r t) : Response cap e r t := by
  rw [recvCore, bind_of_ok (setSess_apply .receiving e)] at h
  obtain ⟨got, m1, hbody, h⟩ := bind_eq_ok.mp h
  rw [bind_of_ok (setSess_apply .localityReleased m1)] at h
  obtain ⟨_, m2, hrelease, h⟩ := bind_eq_ok.mp h
  rw [bind_of_ok (setSess_apply .idle m2)] at h
  cases h
  have hreleased := (passed_setSess m1 .localityReleased).touches.trans
    ((on_releaseLocality false).touches.of_ok rfl hrelease)
  exact ((passed_setSess e .receiving).touches.then_response (S := ∅) (by decide)
    (response_of_fifoReadBody hbody)).touches (hreleased.trans (passed_setSess m2 .idle).touches) (by decide)

end Sys2Proof.Machine
end

section
/-! PROOF. SEND, RECV, PROBE and RELEASE whose exchange goes through (44_session.md R261 to R264). -/

namespace Sys2Proof.Machine

variable {e m t : Engine} {s : State} {fam : Family} {a : Byte} {cap : Nat} {p d f : List Byte}
  {aa pa da fa ra rest : List Answer} {tr : List Event}

theorem Engine.Serves.setBusy (h : e.Serves) (b : Bool) : (e.setBusy b).Serves := ⟨h.cfg_ok, h.wide, h.live⟩

/-! ### SEND (R261) -/

/-- A SEND_CORE saves no error and drops none. -/
theorem sendCore_keeps_pending {src : Src} {len : Nat} (h : sendCore src len e = .ok () t) :
    t.pending = e.pending :=
  (keeps_sendCore (writing_sessionIs fun _ _ p => p = e.pending) (fun _ _ h => h) src len).of_ok rfl h

/-- Settles O52. -/
theorem sendResult : Obligations.SendResult := by
  intro s len a st p f n0 n1 n2 aa sa pa wa fa ga rest hs hbusy hidle hpos hlen hi haccess hactive hst hsa
    hready hp hpa hpoll hroom hwa hf hfa hlast htaken hga
  obtain ⟨t, hsent, hpassed⟩ := sendCore_of_answers (src := .cmdbuf) (hs.setBusy true) hpos
    (Nat.le_sub_one_of_lt hlen)
    ⟨haccess, hactive, hst, hsa, hready, pollDone_of_answers n1 hp hpa hpoll, hroom, hwa,
      pollDone_of_answers n2 hf hfa hlast, htaken, hga⟩ hi
  exact ⟨_, launchHost_of_ok hbusy (beq_iff_eq.mpr hidle) (sendCommand_of_sent hsent),
    (hpassed.setSess .started).concluded _, rfl, rfl, rfl, (sendCore_keeps_pending hsent :)⟩

/-! ### RECV (R262) -/

/-- A RECV of one chunk and its release, with its write or without. -/
theorem exec_recv_of_answers (hs : s.toEngine.Serves) (hbusy : s.busy = false) (hstarted : s.sess = .started)
    (h : RecvAnswers s.cfg cap p d f pa da fa) (hr : ReleaseDone s.cfg false ra tr)
    (hi : s.inbox = pa ++ da ++ fa ++ ra ++ rest) :
    ∃ t, exec (.recv cap) s = .next t ∧
      Finished s t rest (readTraffic s.cfg .sts p ++ readTraffic s.cfg .dataFifo d ++
        readTraffic s.cfg .sts f ++ tr) ∧
      t.sess = .idle ∧ t.busy = false ∧ t.result = .ok (.count (BitVec.ofNat 32 d.length)) ∧
      t.rspbuf = memSetAll s.rspbuf 0 d := by
  obtain ⟨t, hreceived, hpassed⟩ := recvCore_of_answers (hs.setBusy true) h hr hi
  exact ⟨_, launchHost_of_ok hbusy (beq_iff_eq.mpr hstarted) (recvCommand_of_received hreceived),
    hpassed.concluded _, ((recvCore_idle cap).of_ok trivial hreceived :), rfl, rfl,
    ((response_of_recvCore hreceived).filled.rspbuf :)⟩

/-- Settles O53: the release writes where the ACCESS byte asks for it. -/
theorem recvResult : Obligations.RecvResult := by
  intro s cap n1 n2 p d f a pa da fa aa wa rest hs hbusy hstarted hcap hp hpa hpoll hhdr hfits hd hda
    hdeclared hf hfa hlast hempty haccess
  have hreceive : RecvAnswers s.cfg cap p d f (n1 :: pa) da (n2 :: fa) :=
    ⟨pollDone_of_answers n1 hp hpa hpoll, hhdr, hfits, Nat.le_sub_one_of_lt hcap, hd, hda, hdeclared,
      pollDone_of_answers n2 hf hfa hlast, hempty⟩
  refine ⟨fun hno hi => ?_, fun hwanted hwa hi => ?_⟩
  · exact exec_recv_of_answers hs hbusy hstarted hreceive (releaseDone_of_read haccess hno) hi
  · simpa using exec_recv_of_answers (rest := rest) hs hbusy hstarted hreceive
      (releaseDone_of_write haccess hwanted hwa) (by simpa using hi)

/-! ### PROBE (R263, R87) -/

theorem le32_toNat (a b c d : Byte) :
    (le32 a b c d).toNat = a.toNat + 256 * (b.toNat + 256 * (c.toNat + 256 * d.toNat)) := by
  have hreverse (w x y z : Word) : w ||| x ||| y ||| z = z ||| y ||| x ||| w := by
    rw [BitVec.or_comm (w ||| x ||| y), BitVec.or_comm (w ||| x), BitVec.or_comm w, ← BitVec.or_assoc,
      ← BitVec.or_assoc]
  rw [le32, hreverse, ← be32, be32_toNat]
  omega

/-- The engine that has noted the chip's identification. -/
def Engine.identified (e : Engine) (d : List Byte) : Engine := e.setX { e.x with id := didVidValue d }

theorem Passed.identified (h : Passed probeParts e t rest tr) (d : List Byte) :
    Passed probeParts e (t.identified d) rest tr :=
  h.setX (fun x => { x with id := didVidValue d }) fun x r hr => by
    cases r <;> simp_all [Part.SameIn, probeParts]

theorem probeIdentify_of_family (h : regRead .didVid 4 e = .ok d m)
    (hfam : familyOf m.cfg.map (didVidValue d) = some fam) :
    probeIdentify e = .ok (.family fam) (m.identified d) := by
  rw [probeIdentify, bind_of_ok h, bind_of_ok (onX_apply _ m), bind_of_ok (look_apply _),
    Engine.setX_cfg, hfam]
  rfl

theorem probeIdentify_of_stranger (h : regRead .didVid 4 e = .ok d m)
    (hfam : familyOf m.cfg.map (didVidValue d) = none) :
    probeIdentify e = .error (.raised (.unsupportedDevice (didVidValue d))) (m.identified d) := by
  rw [probeIdentify, bind_of_ok h, bind_of_ok (onX_apply _ m), bind_of_ok (look_apply _),
    Engine.setX_cfg, hfam]
  rfl

/-- With the locality active PROBE comes to identify the chip by its DID_VID. -/
theorem probeCore_identifies (hs : e.Serves) (ha : AnswersRead e.cfg.transport [a] aa)
    (hok : localityOk e.cfg.map a = true) (hd : d.length = 4) (hda : AnswersRead e.cfg.transport d da)
    (hi : e.inbox = aa ++ da ++ rest) :
    ∃ m u, probeCore e = probeIdentify m ∧ regRead .didVid 4 m = .ok d u ∧
      Passed probeParts e (u.identified d) rest
        (readTraffic e.cfg .access [a] ++ readTraffic e.cfg .didVid d) := by
  obtain ⟨m, hrequest, hm⟩ := requestLocality_of_answers hs ha hok (hi.trans (List.append_assoc ..))
  have hcfg := hm.frame.cfg
  obtain ⟨u, hread, hu, _⟩ := regRead_of_answers (kind := .didVid) (hm.serves hs) hm.inbox (hcfg ▸ hda)
    (by decide) (hm.serves hs).wide hd
  rw [hcfg] at hu
  have hpassed : Passed {.t1} m u rest (readTraffic e.cfg .didVid d) :=
    passed_of_ok hread (along_regRead frame_closed.toClosed _ _)
      ((made_regRead .didVid 4).touches_of_port (by decide)) hu.inbox hu.traffic
  exact ⟨m, u, bind_of_ok hrequest, hread,
    ((hm.mono (T := probeParts) (by decide)).trans (hpassed.mono (by decide))).identified d⟩

theorem familyOf_eq_some {map : TpmMap} {id : Word} (h : (id = map.didVidCr50 ∧ fam = .cr50) ∨
    (id ≠ map.didVidCr50 ∧ id = map.didVidTi50 ∧ fam = .ti50)) : familyOf map id = some fam := by
  obtain ⟨hid, rfl⟩ | ⟨hne, hid, rfl⟩ := h
  · rw [familyOf, if_pos hid]
  · rw [familyOf, if_neg hne, if_pos hid]

theorem familyOf_eq_none {map : TpmMap} {id : Word} (hcr : id ≠ map.didVidCr50) (hti : id ≠ map.didVidTi50) :
    familyOf map id = none := by
  rw [familyOf, if_neg hcr, if_neg hti]

/-- Settles O54: a known DID_VID ends the exchange well, any other ends it with an error and an abort. -/
theorem probeResult : Obligations.ProbeResult := by
  intro s a d aa da hs hbusy hidle haccess hactive hd hda
  refine ⟨fun fam rest hi hfam => ?_, fun b ba wa rest hi hcr hti hb hw => ?_⟩
  · obtain ⟨m, u, hcore, hread, hu⟩ := probeCore_identifies (hs.setBusy true) haccess hactive hd hda hi
    have hmap : u.cfg = s.cfg := hu.frame.cfg
    have h : exec .probe s = .next (s.concluded (u.identified d) (.ok (.family fam))) :=
      launchHost_of_ok hbusy (beq_iff_eq.mpr hidle) <| probeCommand_of_identified <|
        hcore.trans (probeIdentify_of_family hread (hmap ▸ familyOf_eq_some hfam))
    exact ⟨_, h, hu.concluded _, rfl, rfl, le32_toNat ..,
      (exec_sess_of_keeping (.inl rfl) h).trans hidle, rfl⟩
  · obtain ⟨m, u, hcore, hread, hu⟩ := probeCore_identifies (rest := ba ++ wa ++ rest) (hs.setBusy true)
      haccess hactive hd hda (by simpa using hi)
    have hmap : u.cfg = s.cfg := hu.frame.cfg
    have habort := probeCommand_of_raised <|
      hcore.trans (probeIdentify_of_stranger hread (hmap ▸ familyOf_eq_none hcr hti))
    have hpending := hu.setPending (some (.unsupportedDevice (didVidValue d)))
    obtain ⟨t, hrelease, ht⟩ := release_of_done (hpending.serves (hs.setBusy true))
      (hpending.frame.cfg ▸ releaseDone_of_write (force := true) hb rfl hw) hpending.inbox
    have h : exec .probe s = .next _ :=
      launchHost_of_abort hbusy (beq_iff_eq.mpr hidle) habort hrelease
    rw [hpending.frame.cfg] at ht
    have hpassed := (hpending.trans (ht.mono (by decide))).setPending none
    refine ⟨_, h, by simpa using hpassed.concluded _, rfl, exec_idle_of_err rfl h rfl rfl, rfl⟩

/-! ### RELEASE (R264) -/

theorem exec_release_of_released {force : Bool} (hbusy : s.busy = false)
    (h : releaseLocality force (s.toEngine.setBusy true) = .ok () t) :
    exec (.release force) s = .next (s.concluded t (.ok .unit)) :=
  launchHost_of_ok hbusy rfl (bind_of_ok h)

/-- Settles O55. -/
theorem releaseResult : Obligations.ReleaseResult := by
  intro s force a aa wa rest hs hbusy haccess
  refine ⟨fun hwrites hw hi => ?_, fun hno hi => ?_⟩
  · obtain ⟨t, hrelease, hm⟩ := releaseLocality_with_write (w := .ok ()) (hs.setBusy true)
      (readDone_of_answers haccess) hi hwrites ⟨hw, rfl⟩
    exact ⟨_, exec_release_of_released hbusy hrelease, ⟨rfl, hm.inbox, hm.traffic⟩, rfl, hm.sess, rfl, hm.x⟩
  · obtain ⟨t, hrelease, hm⟩ := releaseLocality_without_write (hs.setBusy true)
      (readDone_of_answers haccess) hi hno
    exact ⟨_, exec_release_of_released hbusy hrelease, ⟨rfl, hm.inbox, hm.traffic⟩, rfl, hm.sess, rfl, hm.x⟩

end Sys2Proof.Machine
end

section
/-! PROOF. Which errors the exchanges of SEND, RECV and SHUTDOWN can raise (60_exceptions.md R301). -/

namespace Sys2Proof.Machine

variable {α : Type} {E E' : Err → Prop} {p : P α}

/-! ### Procedures that raise only given errors -/

/-- Wherever the procedure raises an error, that is one of `E`. -/
abbrev Raises (E : Err → Prop) (p : P α) : Prop := Keeps (exits fun er _ => E er) p

theorem Raises.mono (h : Raises E p) (hE : ∀ er, E er → E' er) : Raises E' p :=
  keeps_exits_imp h fun er _ => hE er

theorem Silent.raises (h : Silent p) : Raises E p := keeps_exits_of_silent h

theorem raises_raise {er : Err} (h : E er) : Raises E (raise er : P α) := keeps_raise fun _ _ => h

theorem raises_repeatFrom {σ : Type} {body : σ → P (σ ⊕ α)} (h : ∀ v, Raises E (body v)) (v : σ) :
    Raises E (repeatFrom body v) :=
  meets_repeatFrom (I := fun _ _ => True) (fun _ _ _ => trivial)
    (fun v => Meets.imp (h v) (fun _ h => h) (fun o _ _ => by cases o <;> trivial) fun _ _ h => h) v

theorem silent_memRead (buf : HostBuf) (k : Nat) : Silent (memRead buf k) := by
  unfold memRead
  split
  · exact silent_look fun _ => silent_bind (silent_record _) fun _ => silent_pure _
  · exact meets_stopFault

theorem silent_srcByte (src : Src) (k : Nat) : Silent (srcByte src k) := by
  cases src with
  | cmdbuf => exact silent_memRead _ k
  | shutdownCmd =>
    unfold srcByte
    dsimp only
    split
    · exact silent_pure _
    · exact meets_stopFault

theorem silent_srcBytes (src : Src) : ∀ k j : Nat, Silent (srcBytes src j k)
  | 0, _ => silent_pure _
  | k + 1, j => silent_bind (silent_srcByte src j) fun _ =>
      silent_bind (silent_srcBytes src k (j + 1)) fun _ => silent_pure _

theorem silent_memWriteAll (d : List Byte) (k : Nat) : Silent (memWriteAll k d) :=
  fun e _ => (lands_memWriteAll d k e).imp (fun _ _ _ => trivial) fun _ _ h => h

/-! ### Accesses, polls and checks -/

/-- The errors of a register access, on either bus (R150). -/
def Err.OfAccess (er : Err) : Prop := ∃ b, er.OfBus b

theorem raises_regRead (kind : Kind) (n : Nat) : Raises Err.OfAccess (regRead kind n) :=
  keeps_look fun e => by
    cases e.cfg.transport
    · exact keeps_exits_imp (i2cRead_exits _ _ _) fun _ _ h => ⟨_, h.1⟩
    · exact keeps_exits_imp (spiXfer_exits _ _ _ _ _) fun _ _ h => ⟨_, h.1⟩

theorem raises_regWrite (kind : Kind) (bs : List Byte) : Raises Err.OfAccess (regWrite kind bs) :=
  keeps_look fun e => by
    cases e.cfg.transport
    · exact keeps_exits_imp (i2cWrite_exits _ _ _) fun _ _ h => ⟨_, h.1⟩
    · exact keeps_exits_imp (keeps_spiWrite spiXfer_exits _ _ _) fun _ _ h => ⟨_, h.1⟩

theorem silent_noteSnapshot (mask : Byte) (r : Except Err (List Byte)) : Silent (noteSnapshot mask r) :=
  fun e _ => by
    rw [noteSnapshot_apply]
    trivial

/-- A failed read is retried; only the poll's own deadline ends it with an error (R200, R302 (a)). -/
theorem raises_getBurstAndStatus (mask : Byte) :
    Raises (· = .timeout .status) (getBurstAndStatus mask) :=
  keeps_bind silent_now.raises fun _ => keeps_bind (silent_onX _).raises fun _ =>
    keeps_exits_repeatP <| keeps_bind (silent_attempt _).raises fun r =>
      keeps_bind (silent_noteSnapshot mask r).raises fun v => by
        cases v with
        | some v => exact keeps_pure _
        | none =>
          refine keeps_look fun _ => keeps_bind (silent_sleep _).raises fun _ =>
            keeps_bind (silent_expired _ _).raises fun late => ?_
          cases late
          · exact keeps_pure _
          · exact raises_raise rfl

/-- READ_STATUS and SET_READY never fail (R220). -/
theorem raises_waitCommandReady : Raises (· = .timeout .commandReady) waitCommandReady :=
  keeps_bind silent_now.raises fun _ => keeps_bind (silent_onX _).raises fun _ =>
    keeps_exits_repeatP <| keeps_bind silent_readStatus.raises fun st => keeps_look fun e => by
      cases cmdReady e.cfg.map st
      · refine keeps_bind (silent_expired _ _).raises fun late => ?_
        cases late
        · exact (silent_bind silent_setReady fun _ => silent_pure _).raises
        · exact raises_raise rfl
      · exact keeps_pure _

theorem raises_requestChecks : ∀ k, Raises (· = .timeout .locality) (requestChecks k)
  | 0 => raises_raise rfl
  | k + 1 => keeps_look fun _ => keeps_bind (silent_onX _).raises fun _ =>
      keeps_bind (silent_attempt _).raises fun r => by
        cases r
        · exact keeps_bind (silent_onlyIf _ (silent_sleep _)).raises fun _ => raises_requestChecks k
        · exact keeps_pure _

/-! ### SEND_CORE -/

/-- The errors of a SEND_CORE (R301). -/
def Err.OfSend (er : Err) : Prop :=
  er.OfAccess ∨ er = .timeout .locality ∨ er = .timeout .commandReady ∨ er = .timeout .status ∨
    er = .protocolViolation .dataStillExpected

theorem Err.ofSend_of_access {er : Err} (h : er.OfAccess) : er.OfSend := .inl h

theorem raises_poll_ofSend (mask : Byte) : Raises Err.OfSend (getBurstAndStatus mask) :=
  (raises_getBurstAndStatus mask).mono fun _ h => .inr (.inr (.inr (.inl h)))

/-- The check before the write may fail; its error is caught (R181). -/
theorem raises_requestLocality : Raises Err.OfSend requestLocality :=
  keeps_bind (silent_attempt _).raises fun r => by
    cases r
    · exact keeps_look fun _ => keeps_bind ((raises_regWrite _ _).mono fun _ => Err.ofSend_of_access) fun _ =>
        (raises_requestChecks _).mono fun _ h => .inr (.inl h)
    · exact keeps_pure _

theorem raises_sendTurn (src : Src) (len : Nat) : Raises Err.OfSend (sendTurn src len) :=
  keeps_look fun e => by
    split
    · exact keeps_bind (raises_poll_ofSend _) fun _ => keeps_bind (silent_onX _).raises fun _ =>
        keeps_bind (silent_srcBytes _ _ _).raises fun _ =>
          keeps_bind ((raises_regWrite _ _).mono fun _ => Err.ofSend_of_access) fun _ =>
            keeps_bind (silent_onX _).raises fun _ => keeps_pure _
    · exact keeps_pure _

theorem raises_fifoWriteBody (src : Src) (len : Nat) : Raises Err.OfSend (fifoWriteBody src len) :=
  keeps_bind (silent_onX _).raises fun _ =>
    keeps_bind (keeps_exits_repeatP (raises_sendTurn src len)) fun _ => keeps_look fun e =>
      keeps_bind (raises_poll_ofSend _) fun v => by
        cases dataExpect e.cfg.map v.2
        · exact keeps_pure _
        · exact raises_raise (.inr (.inr (.inr (.inr rfl))))

theorem silent_setSess (v : Sess) : Silent (setSess v) := meets_change fun _ _ => trivial

theorem raises_sendCore (src : Src) (len : Nat) : Raises Err.OfSend (sendCore src len) :=
  keeps_bind (silent_setSess _).raises fun _ => keeps_bind raises_requestLocality fun _ =>
    keeps_bind (silent_setSess _).raises fun _ =>
      keeps_bind (raises_waitCommandReady.mono fun _ h => .inr (.inr (.inl h))) fun _ =>
        keeps_bind (silent_setSess _).raises fun _ => keeps_bind (raises_fifoWriteBody src len) fun _ =>
          keeps_look fun _ => (raises_regWrite _ _).mono fun _ => Err.ofSend_of_access

/-! ### RECV_CORE -/

/-- The errors of a RECV_CORE with its capacity (R301). -/
def Err.OfRecv (cap : Nat) (er : Err) : Prop :=
  er.OfAccess ∨ er = .timeout .status ∨ er = .protocolViolation .badFirstBurst ∨
    er = .protocolViolation .dataStillAvailable ∨ ∃ w, er = .bufferTooSmall w cap

section Recv

variable (cap : Nat)

theorem raises_poll_ofRecv (mask : Byte) : Raises (Err.OfRecv cap) (getBurstAndStatus mask) :=
  (raises_getBurstAndStatus mask).mono fun _ h => .inr (.inl h)

theorem raises_read_ofRecv (kind : Kind) (n : Nat) : Raises (Err.OfRecv cap) (regRead kind n) :=
  (raises_regRead kind n).mono fun _ h => .inl h

theorem raises_recvTurn (got : List Byte) : Raises (Err.OfRecv cap) (recvTurn got) :=
  keeps_look fun e => by
    split
    · exact keeps_bind (raises_poll_ofRecv cap _) fun _ => keeps_bind (silent_onX _).raises fun _ =>
        keeps_bind (raises_read_ofRecv cap _ _) fun d => keeps_bind (silent_memWriteAll d _).raises fun _ =>
          keeps_bind (silent_onX _).raises fun _ => keeps_pure _
    · exact keeps_pure _

theorem raises_recvRest (first : List Byte) : Raises (Err.OfRecv cap) (recvRest first) :=
  keeps_bind (raises_repeatFrom (raises_recvTurn cap) first) fun _ => keeps_look fun e =>
    keeps_bind (raises_poll_ofRecv cap _) fun v => by
      cases dataAvail e.cfg.map v.2
      · exact keeps_pure _
      · exact raises_raise (.inr (.inr (.inr (.inl rfl))))

theorem raises_fifoReadBody : Raises (Err.OfRecv cap) (fifoReadBody cap) :=
  keeps_look fun e => keeps_bind (raises_poll_ofRecv cap _) fun v => by
    cases badFirstBurst e.cfg.hdrSize cap v.1
    · refine keeps_bind (raises_read_ofRecv cap _ _) fun d =>
        keeps_bind (silent_memWriteAll d _).raises fun _ => keeps_bind (silent_onX _).raises fun _ => ?_
      split
      · exact raises_raise (.inr (.inr (.inr (.inr ⟨_, rfl⟩))))
      · exact keeps_bind (silent_onX _).raises fun _ => raises_recvRest cap d
    · exact raises_raise (.inr (.inr (.inl rfl)))

theorem raises_recvCore : Raises (Err.OfRecv cap) (recvCore cap) :=
  keeps_bind (silent_setSess _).raises fun _ => keeps_bind (raises_fifoReadBody cap) fun _ =>
    keeps_bind (silent_setSess _).raises fun _ => keeps_bind (silent_releaseLocality false).raises fun _ =>
      keeps_bind (silent_setSess _).raises fun _ => keeps_pure _

end Recv

end Sys2Proof.Machine
end

section
/-! PROOF. SHUTDOWN: the exchange that goes through, and what its result says of RSPBUF however the exchange
went (44_session.md R265; 30_encoding.md R122). -/

namespace Sys2Proof.Machine

variable {e m t : Engine} {s : State} {i : Instr} {p : P HostVal} {got : Received}

/-! ### The comparison (R122, R265) -/

/-- RSPBUF begins with the fixed response. -/
def HoldsFixedRsp (t : Engine) : Prop := memBytes t.rspbuf 0 10 = shutdownRsp

/-- RSPBUF begins with the fixed response exactly after a response that is the fixed one: a shorter response
of those bytes would declare ten of them in its header. -/
theorem Response.matches_iff (h : Response 10 e got t) (hwf : Memory.wf e.rspbuf = true)
    (hhdr : 6 ≤ e.cfg.hdrSize) : shutdownMatches got = true ↔ HoldsFixedRsp t := by
  obtain ⟨hfilled, hcount, hbound, first, hprefix, hfirst, hdeclared⟩ := h
  have hbytes : memBytes t.rspbuf 0 got.bytes.length = got.bytes := by
    rw [hfilled.rspbuf, memBytes_memSetAll _ hwf]
  have hmatches : shutdownMatches got = true ↔ got.count = 10 ∧ got.bytes = shutdownRsp := by
    simp [shutdownMatches]
  rw [hmatches, HoldsFixedRsp]
  refine ⟨fun ⟨_, hrsp⟩ => ?_, fun hmem => ?_⟩
  · rwa [hrsp] at hbytes
  · rw [memBytes_take _ hbound, hmem] at hbytes
    have hfixed : first.take 6 = shutdownRsp.take 6 := by
      obtain ⟨more, hmore⟩ := hprefix.trans (hbytes ▸ List.take_prefix _ shutdownRsp)
      rw [← hmore, List.take_append_of_le_length (hhdr.trans hfirst)]
    have hten : declaredLength first = 10 := by
      rw [← declaredLength_take (hhdr.trans hfirst), hfixed]
      decide
    have hlength : got.bytes.length = 10 := by
      rw [hten] at hdeclared
      exact le_antisymm hbound hdeclared
    rw [hlength] at hcount hbytes
    exact ⟨BitVec.eq_of_toNat_eq hcount, hbytes.symm⟩

/-! ### However the exchange went -/

/-- The procedure returns only where RSPBUF begins with the fixed response, and raises shutdown_mismatch only
where it does not. -/
abbrev TellsRsp (I : Engine → Prop) (p : P HostVal) : Prop :=
  Meets I p (fun _ => HoldsFixedRsp)
    (fun er t => er = .protocolViolation .shutdownMismatch → ¬ HoldsFixedRsp t) fun _ => True

/-- An abort returns nothing, and raises the error it has saved. -/
theorem abort_tellsRsp {I : Engine → Prop} {er : Err} {path : P Unit} (hpath : Silent path)
    (her : er ≠ .protocolViolation .shutdownMismatch) : TellsRsp I (abort er path) :=
  meets_bind (J := fun _ _ => True) (meets_change fun _ _ => trivial) fun _ =>
    meets_bind (J := fun _ _ => True) (hpath.imp (fun _ h => h) (fun _ _ h => h) fun _ _ h => h.elim) fun _ =>
      meets_bind (J := fun _ _ => True) (meets_change fun _ _ => trivial) fun _ =>
        meets_raise fun _ _ h => (her h).elim

theorem Err.OfAccess.ne_violation {er : Err} {v : ViolationKind} (h : er.OfAccess) :
    er ≠ .protocolViolation v := by
  obtain ⟨b, ⟨n, rfl⟩ | ⟨n, rfl⟩ | ⟨rfl, _⟩ | ⟨rfl, _⟩⟩ := h <;> nofun

theorem Err.OfSend.ne_mismatch {er : Err} (h : er.OfSend) : er ≠ .protocolViolation .shutdownMismatch := by
  obtain h | rfl | rfl | rfl | rfl := h
  · exact h.ne_violation
  all_goals nofun

theorem Err.OfRecv.ne_mismatch {cap : Nat} {er : Err} (h : er.OfRecv cap) :
    er ≠ .protocolViolation .shutdownMismatch := by
  obtain h | rfl | rfl | rfl | ⟨w, rfl⟩ := h
  · exact h.ne_violation
  all_goals nofun

/-- The last release leaves RSPBUF alone. -/
theorem shutdownFinish_tellsRsp (hwf : Memory.wf e.rspbuf = true) (hhdr : 6 ≤ e.cfg.hdrSize) :
    TellsRsp (Response 10 e got) (shutdownFinish got) := by
  have hrelease : Meets (Response 10 e got) (releaseLocality true) (fun _ => Response 10 e got)
      (fun _ _ => False) fun _ => True :=
    Meets.of_silent (Meets.each fun m hm => ((on_releaseLocality true).touches.at rfl).weaken
      (fun _ _ ht => hm.touches ht (by decide)) (fun _ _ _ => trivial) fun _ _ => trivial)
      (silent_releaseLocality true)
  refine meets_bind (hrelease.imp (fun _ h => h) (fun _ _ h => h) fun _ _ h => h.elim) fun _ => ?_
  cases hmatch : shutdownMatches got with
  | true => exact meets_pure fun _ h => (h.matches_iff hwf hhdr).mp hmatch
  | false =>
    exact meets_raise fun _ h _ hfixed =>
      Bool.false_ne_true (hmatch.symm.trans ((h.matches_iff hwf hhdr).mpr hfixed))

/-- The receive part has put its response into RSPBUF, which the send part left alone. -/
theorem recvCore_responds : Meets (Touches sendParts e) (recvCore 10) (fun got => Response 10 e got)
    (fun er _ => er.OfRecv 10) fun _ => True :=
  Meets.each fun m hm => ((ends_self (e := m)).and ((raises_recvCore 10).pre fun _ _ => trivial)).weaken
    (fun _ _ h => hm.then_response (by decide) (response_of_recvCore h.1)) (fun _ _ h => h.2)
    fun _ _ => trivial

theorem shutdownCommand_tellsRsp (hwf : Memory.wf e.rspbuf = true) (hhdr : 6 ≤ e.cfg.hdrSize) :
    TellsRsp (fun m => m = e) shutdownCommand := by
  have hsend : Meets (fun m => m = e) (sendCore .shutdownCmd 12) (fun _ => Touches sendParts e)
      (fun er _ => er.OfSend) fun _ => True :=
    (((on_sendCore .shutdownCmd 12).touches.at rfl).and ((raises_sendCore _ _).pre fun _ _ => trivial)).weaken
      (fun _ _ h => h.1) (fun _ _ h => h.2) fun _ _ => trivial
  have habort {E : Err → Prop} (hE : ∀ er, E er → er ≠ .protocolViolation .shutdownMismatch) (er : Err) :
      TellsRsp (fun _ => E er) (abort er shutdownAbort) := fun m hm =>
    abort_tellsRsp (I := fun _ => True) silent_shutdownAbort (hE er hm) m trivial
  refine meets_attempt_bind hsend (fun _ => ?_) (habort fun _ => Err.OfSend.ne_mismatch)
  refine meets_bind (J := fun _ => Touches sendParts e)
    (meets_change fun m hm => hm.trans (passed_setSess m .started).touches) fun _ => ?_
  exact meets_attempt_bind recvCore_responds (fun _ => shutdownFinish_tellsRsp hwf hhdr)
    (habort fun _ => Err.OfRecv.ne_mismatch)

/-- A host command that has ended has recorded its procedure's outcome. -/
theorem launch_hostCommand_lands {I W : Engine → Prop} {J : HostVal → Engine → Prop}
    {X : Err → Engine → Prop} {t : State} (hp : Meets I p J X W) (hs : I (s.toEngine.setBusy true))
    (h : launch i (hostCommand p) s = .next t) (ht : t.running = none) :
    ∃ r m, t.toEngine = (m.setResult (hostResultOf r)).setBusy false ∧ Caught J X r m := by
  have hbody : Meets (fun e => I (e.setBusy true)) (hostCommand p)
      (fun _ t => ∃ r m, t = (m.setResult (hostResultOf r)).setBusy false ∧ Caught J X r m)
      (fun _ _ => False) W :=
    meets_bind (J := fun _ => I) (meets_change fun _ h => h) fun _ =>
      meets_bind (meets_attempt hp) fun r => meets_change fun m hr => ⟨r, m, rfl, hr⟩
  rcases (launch_lands h hbody hs).1 ht with hdone | ⟨_, hf⟩
  · exact hdone
  · exact hf.elim

/-! ### The exchange that goes through -/

/-- Among the events since, the bytes written to RSPBUF; none was read there (R48). -/
theorem Filled.events {d : List Byte} {evs : List Event} (h : Filled e d t)
    (hevs : e.trace ++ evs = t.trace) :
    rspWrites evs = indexed 0 d ∧ rspReads evs = [] := by
  have hwrites := h.writes
  have hreads := h.reads
  rw [← hevs, rspWrites_append] at hwrites
  rw [← hevs, rspReads_append] at hreads
  exact ⟨List.append_cancel_left hwrites, List.append_right_eq_self.mp hreads⟩

theorem shutdownMatches_of_ten {d : List Byte} (hd : d.length = 10) :
    shutdownMatches ⟨BitVec.ofNat 32 d.length, d⟩ = true ↔ d = shutdownRsp := by
  simp [shutdownMatches, hd]

/-- The outcome after the last release. -/
theorem attempt_shutdownFinish (h : releaseLocality true e = .ok () t) :
    attempt (shutdownFinish got) e = .ok (if shutdownMatches got then .ok .unit
      else .error (.protocolViolation .shutdownMismatch)) t := by
  rw [shutdownFinish, attempt_congr (bind_of_ok h)]
  cases shutdownMatches got <;> rfl

/-- The send part, the receive part with its release, and the forced release, each answered. -/
theorem shutdownCommand_of_answers {a : Byte} {st p f p2 d f2 : List Byte} {n0 : Answer}
    {aa sa pa wa fa ga pa2 da fa2 ra xa rest : List Answer} {rtr xtr : List Event} (hs : e.Serves)
    (hsend : SendAnswers e.cfg 12 a st p f aa sa pa wa fa ga)
    (hrecv : RecvAnswers e.cfg 10 p2 d f2 pa2 da fa2)
    (hr : ReleaseDone e.cfg false ra rtr) (hx : ReleaseDone e.cfg true xa xtr)
    (hi : e.inbox = aa ++ n0 :: sa ++ pa ++ wa ++ fa ++ ga ++ (pa2 ++ da ++ fa2 ++ ra ++ (xa ++ rest))) :
    ∃ t, attempt shutdownCommand e = .ok (if shutdownMatches ⟨BitVec.ofNat 32 d.length, d⟩ then .ok .unit
        else .error (.protocolViolation .shutdownMismatch)) t ∧ Filled e d t ∧
      Passed (sendParts ∪ recvCoreParts) e t rest
        (readTraffic e.cfg .access [a] ++ readTraffic e.cfg .sts st ++ readTraffic e.cfg .sts p ++
          writeTraffic e.cfg .dataFifo shutdownCmd ++ readTraffic e.cfg .sts f ++
          writeTraffic e.cfg .sts (stsGoBytes e.cfg.map) ++
          (readTraffic e.cfg .sts p2 ++ readTraffic e.cfg .dataFifo d ++ readTraffic e.cfg .sts f2 ++ rtr) ++
          xtr) := by
  obtain ⟨m0, hsent, hpassed⟩ := sendCore_of_answers (src := .shutdownCmd) hs (by decide) le_rfl hsend hi
  have h0 := hpassed.setSess .started
  have hcfg0 := h0.frame.cfg
  obtain ⟨m1, hreceived, h1⟩ := recvCore_of_answers (h0.serves hs) (hcfg0 ▸ hrecv) (hcfg0 ▸ hr) h0.inbox
  rw [hcfg0] at h1
  have h01 := (h0.mono (T := sendParts ∪ recvCoreParts) (by decide)).trans (h1.mono (by decide))
  obtain ⟨t, hreleased, h2⟩ := release_of_done (h01.serves hs) (h01.frame.cfg ▸ hx) h01.inbox
  have hfilled := (response_of_recvCore hreceived).filled.touches h2.touches (by decide)
  refine ⟨t, ?_, h0.touches.then_filled (by decide) hfilled, h01.trans (h2.mono (by decide))⟩
  rw [attempt_congr (shutdownCommand_of_received hsent hreceived), attempt_shutdownFinish hreleased]

/-- However the exchange went, the result tells whether RSPBUF begins with the fixed response. -/
theorem exec_shutdown_tellsRsp {t : State} (hhdr : 6 ≤ s.cfg.hdrSize) (hwf : Memory.wf s.rspbuf = true)
    (h : exec .shutdown s = .next t) (ht : t.running = none) :
    (t.result = .ok .unit → HoldsFixedRsp t.toEngine) ∧
      (t.result = .err (.protocolViolation .shutdownMismatch) → ¬ HoldsFixedRsp t.toEngine) := by
  obtain ⟨r, m, hm, hr⟩ := launch_hostCommand_lands
    (shutdownCommand_tellsRsp (e := s.toEngine.setBusy true) hwf hhdr) rfl (exec_next h).launch ht
  rw [hm]
  cases r with
  | ok v => exact ⟨fun _ => hr, nofun⟩
  | error er =>
    refine ⟨nofun, fun her => hr ?_⟩
    cases her
    rfl

/-- Settles O56: the three parts one after the other, and what the result tells of RSPBUF. -/
theorem shutdownResult : Obligations.ShutdownResult := by
  refine ⟨?_, fun _ _ => exec_shutdown_tellsRsp⟩
  intro s a a2 a3 st p f p2 d f2 n0 n1 n2 n3 n4 aa sa pa wa fa ga pa2 da fa2 aa2 aa3 wa3 rest hs hbusy hidle
    hhdr hi haccess hactive hst hsa hready hp hpa hpoll hroom hwa hf hfa hlast htaken hga hp2 hpa2 hpoll2
    hten hd hda hdeclared hf2 hfa2 hlast2 hempty ha2 hunwanted ha3 hwa3 _
  have hsend : SendAnswers s.cfg 12 a st p f aa sa (n1 :: pa) wa (n2 :: fa) ga :=
    ⟨haccess, hactive, hst, hsa, hready, pollDone_of_answers n1 hp hpa hpoll, hroom, hwa,
      pollDone_of_answers n2 hf hfa hlast, htaken, hga⟩
  have hrecv : RecvAnswers s.cfg 10 p2 d f2 (n3 :: pa2) da (n4 :: fa2) :=
    ⟨pollDone_of_answers n3 hp2 hpa2 hpoll2, hhdr.trans_le hten.ge, hten.le, by decide, hd.trans hten.symm,
      hda, hd ▸ hdeclared, pollDone_of_answers n4 hf2 hfa2 hlast2, hempty⟩
  obtain ⟨m, hrun, hfilled, hpassed⟩ := shutdownCommand_of_answers (rest := rest) (hs.setBusy true) hsend
    hrecv (releaseDone_of_read ha2 hunwanted) (releaseDone_of_write (force := true) ha3 rfl hwa3)
    (by simpa using hi)
  have h : exec .shutdown s = .next (s.concluded m _) :=
    launchHost_of_attempt hbusy (beq_iff_eq.mpr hidle) hrun
  obtain ⟨_, _, hleaves⟩ := exec_leaves rfl h rfl
  obtain ⟨evs, hevs⟩ : ∃ evs, s.trace ++ evs = m.trace := (exec_along frame_closed h).trace
  refine ⟨_, h, by simpa using hpassed.concluded _, idle_of_leaves (.inr (.inl rfl)) hleaves, rfl,
    hfilled.rspbuf, ⟨evs, hevs.symm, hfilled.events hevs⟩, ?_⟩
  change hostResultOf (if shutdownMatches ⟨BitVec.ofNat 32 d.length, d⟩ = true then _ else _) = _
  rw [apply_ite hostResultOf]
  exact if_congr (shutdownMatches_of_ten hd) rfl rfl

end Sys2Proof.Machine
end

section
/-! PROOF. Which errors reach the host: what the procedures of each host command raise, and the bus that the
transport's own timeouts belong to (60_exceptions.md R301). -/

namespace Sys2Proof.Machine

variable {α : Type} {b : Transport} {E : Err → Prop} {er : Err} {i : Instr} {cap : Nat}

/-! ### The transport's timeouts, by bus -/

/-- The ready timeout is one of I2C, the stall timeout one of SPI (R157, R153). -/
def Err.FitsBus (b : Transport) (er : Err) : Prop :=
  (er = .timeout .ready → b = .i2c) ∧ (er = .timeout .spiStall → b = .spi)

theorem Err.fitsBus_of_untimed (h : er.untimed = true) : er.FitsBus b := by
  constructor
  all_goals
    rintro rfl
    cases h

theorem Err.OfBus.fitsBus (h : er.OfBus b) : er.FitsBus b := by
  obtain ⟨n, rfl⟩ | ⟨v, rfl⟩ | ⟨rfl, rfl⟩ | ⟨rfl, rfl⟩ := h
  · exact Err.fitsBus_of_untimed rfl
  · exact Err.fitsBus_of_untimed rfl
  · exact ⟨fun _ => rfl, nofun⟩
  · exact ⟨nofun, fun _ => rfl⟩

/-- The handle is on the bus `b`, and what is raised there fits it. -/
def onBus (b : Transport) : Contract where
  inv e := e.cfg.transport = b
  raised er e := e.cfg.transport = b ∧ er.FitsBus b
  waiting _ := True

/-- A procedure never moves the handle to the other bus (R3); its errors are left to show. -/
theorem keeps_onBus {p : P α} (hframe : Along Frame p) (hraise : Raises E p) (hE : ∀ er, E er → er.FitsBus b) :
    Keeps (onBus b) p := by
  intro e he
  have hcfg := hframe e
  have herr := hraise e trivial
  rcases hp : p e with ⟨a, t⟩ | ⟨er | w | f, t⟩ <;> rw [hp] at hcfg herr
  · exact (congrArg Cfg.transport hcfg.cfg).trans he
  · exact ⟨(congrArg Cfg.transport hcfg.cfg).trans he, hE er herr⟩
  · trivial
  · trivial

/-- The same, of a transport procedure's exits. -/
theorem keeps_onBus_of_exits {p : P α} (hframe : Along Frame p) (h : Keeps (exitsOn b) p) : Keeps (onBus b) p :=
  keeps_onBus hframe (keeps_exits_imp h fun _ _ he => he.1) fun _ => Err.OfBus.fitsBus

theorem updates_onBus (b : Transport) : Updates (onBus b) where
  waits _ _ := trivial
  raises _ _ hu he := ⟨he, Err.fitsBus_of_untimed hu⟩
  settle _ _ _ he := he
  log _ _ he := he
  caught _ _ he := he.1
  clear _ he := he
  t1 _ _ he := he
  addTicks _ _ he := he
  setX _ _ he := he
  setRsp _ _ _ he := he

/-- A register transaction is one of the handle's own bus; the polls' timeouts are of neither. -/
theorem writing_onBus (b : Transport) : Writing (onBus b) where
  toUpdates := updates_onBus b
  read := keeps_regRead
    (fun _ _ _ e he ht => keeps_onBus_of_exits (along_i2cRead frame_closed.toClosed _ _ _)
      (he.symm.trans ht ▸ i2cRead_exits _ _ _) e he)
    fun _ _ _ e he ht => keeps_onBus_of_exits (along_spiXfer frame_closed.toClosed _ _ _ _ _)
      (he.symm.trans ht ▸ spiXfer_exits _ _ _ _ _) e he
  poll mask := keeps_onBus (along_getBurstAndStatus frame_closed.toClosed mask)
    (raises_getBurstAndStatus mask) fun _ h => h ▸ ⟨nofun, nofun⟩
  write := keeps_regWrite
    (fun _ _ _ e he ht => keeps_onBus_of_exits (along_i2cWrite frame_closed.toClosed _ _ _)
      (he.symm.trans ht ▸ i2cWrite_exits _ _ _) e he)
    fun _ _ _ e he ht => keeps_onBus_of_exits (along_spiWrite frame_closed.toClosed _ _ _)
      (he.symm.trans ht ▸ keeps_spiWrite spiXfer_exits _ _ _) e he
  commandReady := keeps_onBus (along_waitCommandReady frame_closed.toClosed) raises_waitCommandReady
    fun _ h => h ▸ ⟨nofun, nofun⟩

/-! ### The exchange of PROBE -/

/-- The errors of a PROBE's exchange (R301): those of the locality request (R181), and a stranger's DID_VID
(R263). -/
def Err.OfProbe (er : Err) : Prop :=
  er.OfAccess ∨ er = .timeout .locality ∨ ∃ w, er = .unsupportedDevice w

theorem raises_requestLocality_ofProbe : Raises Err.OfProbe requestLocality :=
  keeps_bind (silent_attempt _).raises fun r => by
    cases r
    · exact keeps_look fun _ => keeps_bind ((raises_regWrite _ _).mono fun _ h => .inl h) fun _ =>
        (raises_requestChecks _).mono fun _ h => .inr (.inl h)
    · exact keeps_pure _

theorem raises_probeIdentify : Raises Err.OfProbe probeIdentify :=
  keeps_bind ((raises_regRead _ _).mono fun _ h => .inl h) fun d => keeps_bind (silent_onX _).raises fun _ =>
    keeps_look fun e => by
      cases familyOf e.cfg.map (didVidValue d)
      · exact raises_raise (.inr (.inr ⟨_, rfl⟩))
      · exact keeps_pure _

theorem raises_probeCore : Raises Err.OfProbe probeCore :=
  keeps_bind raises_requestLocality_ofProbe fun _ => raises_probeIdentify

/-! ### R301's table, turned to the host commands -/

/-- The error can be the result of the host command `i` on the bus `b`. -/
def Err.ReachesHost (i : Instr) (b : Transport) : Err → Prop
  | .timeout .ready => b = .i2c
  | .timeout .spiStall => b = .spi
  | .timeout .locality => i = .probe ∨ (∃ len, i = .send len) ∨ i = .shutdown
  | .timeout .status => (∃ len, i = .send len) ∨ (∃ cap, i = .recv cap) ∨ i = .shutdown
  | .timeout .commandReady => (∃ len, i = .send len) ∨ i = .shutdown
  | .invalidDeviceState _ => False
  | .protocolViolation .badFirstBurst => (∃ cap, i = .recv cap) ∨ i = .shutdown
  | .protocolViolation .dataStillExpected => (∃ len, i = .send len) ∨ i = .shutdown
  | .protocolViolation .dataStillAvailable => (∃ cap, i = .recv cap) ∨ i = .shutdown
  | .protocolViolation .shutdownMismatch => i = .shutdown
  | .bufferTooSmall _ cap => i = .recv cap ∨ (i = .shutdown ∧ cap = 10)
  | .insufficientResources _ => True
  | .unsupportedDevice _ => i = .probe
  | .io _ => True

theorem Err.OfAccess.reachesHost (h : er.OfAccess) (hb : er.FitsBus b) : er.ReachesHost i b := by
  obtain ⟨_, ⟨n, rfl⟩ | ⟨v, rfl⟩ | ⟨rfl, _⟩ | ⟨rfl, _⟩⟩ := h
  · trivial
  · trivial
  · exact hb.1 rfl
  · exact hb.2 rfl

theorem Err.OfProbe.reachesHost (h : er.OfProbe) (hb : er.FitsBus b) : er.ReachesHost .probe b := by
  obtain h | rfl | ⟨w, rfl⟩ := h
  · exact h.reachesHost hb
  · exact .inl rfl
  · rfl

/-- SEND's exchange is also SHUTDOWN's send part (R265). -/
theorem Err.OfSend.reachesHost (hi : (∃ len, i = .send len) ∨ i = .shutdown) (h : er.OfSend)
    (hb : er.FitsBus b) : er.ReachesHost i b := by
  obtain h | rfl | rfl | rfl | rfl := h
  · exact h.reachesHost hb
  · exact .inr hi
  · exact hi
  · exact hi.imp_right .inr
  · exact hi

/-- RECV's exchange is also SHUTDOWN's receive part, at a capacity of 10 (R265). -/
theorem Err.OfRecv.reachesHost (hi : i = .recv cap ∨ (i = .shutdown ∧ cap = 10)) (h : er.OfRecv cap)
    (hb : er.FitsBus b) : er.ReachesHost i b := by
  have hcmd : (∃ cap, i = .recv cap) ∨ i = .shutdown := hi.imp (fun h => ⟨cap, h⟩) fun h => h.1
  obtain h | rfl | rfl | rfl | ⟨w, rfl⟩ := h
  · exact h.reachesHost hb
  · exact .inr hcmd
  · exact hcmd
  · exact hcmd
  · exact hi

/-! ### The commands -/

/-- On the bus `b` the procedure returns there, and raises only errors that the command `i` can end with. -/
abbrev EndsAsListed (i : Instr) (b : Transport) (p : P α) : Prop :=
  Meets (onBus b).inv p (fun _ => (onBus b).inv) (fun er _ => er.ReachesHost i b) fun _ => True

theorem endsAsListed_of_raises {p : P α} (hbus : Keeps (onBus b) p) (hraise : Raises E p)
    (hE : ∀ er, E er → er.FitsBus b → er.ReachesHost i b) : EndsAsListed i b p :=
  (Meets.and hbus (hraise.pre fun _ _ => trivial)).weaken (fun _ _ h => h.1)
    (fun er _ h => hE er h.2 h.1.2) fun _ _ => trivial

/-- An abort raises the error it has saved. -/
theorem abort_raises {J : α → Engine → Prop} {path : P Unit} (er : Err) (hpath : Silent path) :
    Meets (fun _ => E er) (abort er path) J (fun er _ => E er) fun _ => True := fun e her =>
  meets_bind (I := fun _ => True) (J := fun _ _ => True) (meets_change fun _ _ => trivial) (fun _ =>
    meets_bind (J := fun _ _ => True) (hpath.raises (E := E)) fun _ =>
      meets_bind (J := fun _ _ => True) (meets_change fun _ _ => trivial) fun _ => meets_raise fun _ _ => her)
    e trivial

theorem endsAsListed_sendCore {src : Src} {len : Nat} (hi : (∃ len, i = .send len) ∨ i = .shutdown) :
    EndsAsListed i b (sendCore src len) :=
  endsAsListed_of_raises (keeps_sendCore (writing_onBus b) (fun _ _ he => he) src len) (raises_sendCore src len)
    fun _ => Err.OfSend.reachesHost hi

theorem endsAsListed_recvCore (hi : i = .recv cap ∨ (i = .shutdown ∧ cap = 10)) :
    EndsAsListed i b (recvCore cap) :=
  endsAsListed_of_raises (keeps_recvCore (writing_onBus b) (fun _ _ he => he) cap) (raises_recvCore cap)
    fun _ => Err.OfRecv.reachesHost hi

theorem endsAsListed_releaseLocality (force : Bool) : EndsAsListed i b (releaseLocality force) :=
  endsAsListed_of_raises (E := fun _ => False) (keeps_releaseLocality (writing_onBus b) force)
    (silent_releaseLocality force).raises fun _ h => h.elim

theorem endsAsListed_shutdownFinish (got : Received) : EndsAsListed .shutdown b (shutdownFinish got) :=
  meets_bind (endsAsListed_releaseLocality true) fun _ => by
    cases shutdownMatches got
    · exact meets_raise fun _ _ => rfl
    · exact meets_pure fun _ he => he

theorem endsAsListed_shutdownCommand : EndsAsListed .shutdown b shutdownCommand :=
  have habort (er : Err) := abort_raises (E := (·.ReachesHost .shutdown b))
    (J := fun (_ : HostVal) => (onBus b).inv) er silent_shutdownAbort
  meets_attempt_bind (endsAsListed_sendCore (.inr rfl))
    (fun _ => meets_bind (J := fun _ => (onBus b).inv) (meets_change fun _ he => he) fun _ =>
      meets_attempt_bind (endsAsListed_recvCore (.inr ⟨rfl, rfl⟩)) endsAsListed_shutdownFinish habort)
    habort

theorem command_endsAsListed (a : Args) (i : Instr) : (work a i).OnCommand (EndsAsListed i b) := by
  cases i with
  | probe =>
    exact meets_attempt_bind (endsAsListed_of_raises (keeps_probeCore (writing_onBus b)) raises_probeCore
      fun _ => Err.OfProbe.reachesHost) (fun _ => meets_pure fun _ he => he)
      fun er => abort_raises er (silent_releaseLocality true)
  | send len =>
    exact meets_attempt_bind (endsAsListed_sendCore (.inl ⟨len, rfl⟩))
      (fun _ => meets_bind (J := fun _ => (onBus b).inv) (meets_change fun _ he => he) fun _ =>
        meets_pure fun _ he => he)
      fun er => abort_raises er silent_sessionAbort
  | recv cap =>
    exact meets_attempt_bind (endsAsListed_recvCore (.inl rfl)) (fun _ => meets_pure fun _ he => he)
      fun er => abort_raises er silent_sessionAbort
  | release force =>
    exact meets_bind (endsAsListed_releaseLocality force) fun _ => meets_pure fun _ he => he
  | shutdown => exact endsAsListed_shutdownCommand
  | _ => trivial

/-- The error a host command ends with is one its procedures raised. -/
theorem exec_reachesHost {s t : State} (hi : isHostCommand i = true) (h : exec i s = .next t)
    (ht : t.running = none) (her : t.result = .err er) : er.ReachesHost i s.cfg.transport := by
  have hrun := (exec_next h).launch
  have hcmd := command_endsAsListed (b := s.cfg.transport) s.args i
  obtain ⟨p, hp⟩ := work_of_isHostCommand s.args hi
  rw [hp] at hrun hcmd
  obtain ⟨r, m, hm, hr⟩ := launch_hostCommand_lands hcmd rfl hrun ht
  have hresult : hostResultOf r = .err er := (congrArg Engine.result hm).symm.trans her
  cases r with
  | ok v => cases hresult
  | error er' =>
    cases hresult
    exact hr

/-- Settles O60: each clause is one line of `Err.ReachesHost`. -/
theorem errorsReachTheHostAsListed : Obligations.ErrorsReachTheHostAsListed := by
  intro i s t er hi h ht her
  have hlisted := exec_reachesHost hi h ht her
  refine ⟨fun _ h => ?_, fun h => ?_, fun h => ?_, fun h => ?_, fun h => ?_, fun h => ?_, fun h => ?_,
    fun h => ?_, fun h => ?_, fun h => ?_, fun _ _ h => ?_, fun _ h => ?_⟩
  all_goals
    subst h
    exact hlisted

end Sys2Proof.Machine
end

section
/-! SUPPORT. Faults: which procedures can reach an index that a host buffer or a source does not have, and at
which indices (00_scope.md R15; 20_memory.md R80). -/

namespace Sys2Proof.Machine

variable {α β σ : Type} {F F' : Fault → Prop} {p : P α} {lo hi cap len j k : Nat} {e : Engine}

/-! ### Procedures that fault only as given -/

/-- A procedure that stopped with a fault stopped with one of `F`. -/
def FaultAt (F : Fault → Prop) : EStateM.Result Stop Engine α → Prop
  | .error (.faulted f) _ => F f
  | _ => True

/-- Wherever the procedure faults, the fault is one of `F`. -/
def FaultsIn (F : Fault → Prop) (p : P α) : Prop := ∀ e, FaultAt F (p e)

theorem FaultAt.bind {q : α → P β} (hp : FaultAt F (p e)) (hq : ∀ a t, p e = .ok a t → FaultAt F (q a t)) :
    FaultAt F ((p >>= q) e) := by
  rw [bind_apply]
  rcases h : p e with ⟨a, t⟩ | ⟨_ | _ | _, t⟩ <;> rw [h] at hp
  · exact hq a t h
  · trivial
  · trivial
  · exact hp

namespace FaultsIn

theorem mono (h : FaultsIn F p) (hF : ∀ f, F f → F' f) : FaultsIn F' p := by
  intro e
  have hp := h e
  rcases hpe : p e with ⟨a, t⟩ | ⟨_ | _ | _, t⟩ <;> rw [hpe] at hp
  · trivial
  · trivial
  · trivial
  · exact hF _ hp

theorem pure (a : α) : FaultsIn F (pure a : P α) := fun _ => trivial

theorem raise (er : Err) : FaultsIn F (raise er : P α) := fun _ => trivial

theorem block (w : Prim) : FaultsIn F (block w : P α) := fun _ => trivial

theorem stopFault {f : Fault} (h : F f) : FaultsIn F (stopFault f : P α) := fun _ => h

theorem change {f : Engine → Engine} : FaultsIn F (change f) := fun _ => trivial

theorem bind {q : α → P β} (hp : FaultsIn F p) (hq : ∀ a, FaultsIn F (q a)) : FaultsIn F (p >>= q) :=
  fun e => (hp e).bind fun a t _ => hq a t

/-- What follows a value may rely on what is known of every value returned. -/
theorem bind_of_returns {J : α → Prop} {q : α → P β} (hp : FaultsIn F p) (hJ : Returns J p)
    (hq : ∀ a, J a → FaultsIn F (q a)) : FaultsIn F (p >>= q) :=
  fun e => (hp e).bind fun a t h => hq a (Meets.of_ok hJ trivial h) t

theorem look {q : Engine → P β} (hq : ∀ e, FaultsIn F (q e)) : FaultsIn F (look >>= q) := fun e => hq e e

theorem attempt (hp : FaultsIn F p) : FaultsIn F (attempt p) := by
  intro e
  have h := hp e
  unfold Machine.attempt
  rcases hpe : p e with ⟨a, t⟩ | ⟨_ | _ | _, t⟩ <;> rw [hpe] at h
  · trivial
  · trivial
  · trivial
  · exact h

theorem ignore (hp : FaultsIn F p) : FaultsIn F (ignore p) := .bind (.attempt hp) fun _ => .pure ()

theorem onlyIf (c : Bool) {p : P Unit} (hp : FaultsIn F p) : FaultsIn F (onlyIf c p) := by
  cases c
  · exact .pure ()
  · exact hp

theorem ofExcept (r : Except Err α) : FaultsIn F (ofExcept r) := by
  cases r
  · exact .raise _
  · exact .pure _

theorem untilDone {body : P (Option α)} (hb : FaultsIn F body) : ∀ k, FaultsIn F (untilDone body k)
  | 0 => .block _
  | k + 1 => .bind hb fun o => by
    cases o
    · exact untilDone hb k
    · exact .pure _

theorem repeatP {body : P (Option α)} (hb : FaultsIn F body) : FaultsIn F (repeatP body) :=
  fun e => untilDone hb _ e

/-! ### Port primitives wait or fail, and have no index -/

theorem take (w : Prim) : FaultsIn F (take w) := by
  intro e
  rcases take_cases w e with ⟨_, h⟩ | ⟨a, rest, _, h⟩ <;> rw [h] <;> trivial

theorem busWrite (bs : List Byte) : FaultsIn F (busWrite bs) :=
  .bind (.take _) fun a => by
    cases a.err
    · exact .change
    · exact .bind .change fun _ => .raise _

theorem busRead (n : Nat) : FaultsIn F (busRead n) :=
  .bind (.take _) fun a => by
    cases a.err
    · exact .bind .change fun _ => .pure _
    · exact .bind .change fun _ => .raise _

theorem now : FaultsIn F now := .bind (.take _) fun _ => .look fun _ => .bind .change fun _ => .pure _

theorem sleep (ms : Nat) : FaultsIn F (sleep ms) :=
  .bind (.take _) fun _ => .bind .change fun _ => .change

theorem expired (t0 budget : Nat) : FaultsIn F (expired t0 budget) :=
  .bind .now fun _ => .look fun _ => .pure _

theorem readyFlag : FaultsIn F readyFlag :=
  .bind (.take _) fun _ => .look fun _ => .bind .change fun _ => .pure _

theorem readyAtDeadline : FaultsIn F readyAtDeadline :=
  .look fun _ => .bind (.onlyIf _ .change) fun _ => .pure _

theorem readyClear : FaultsIn F readyClear := .bind .change fun _ => .change

theorem spiLock : FaultsIn F spiLock :=
  .repeatP <| .bind (.take _) fun a => by
    cases a.lockFree
    · exact .pure _
    · exact .bind .change fun _ => .bind .change fun _ => .pure _

theorem spiUnlock : FaultsIn F spiUnlock := .bind .change fun _ => .change

/-! ### Register transport -/

theorem readyWait : FaultsIn F readyWait :=
  .bind .now fun _ => .bind .change fun _ => .repeatP <| .bind .readyFlag fun seen => by
    cases seen
    · exact .look fun _ => .bind (.expired _ _) fun late => by
        cases late
        · exact .pure _
        · exact .bind .readyAtDeadline fun set => by
            cases set
            · exact .raise _
            · exact .pure _
    · exact .pure _

theorem clearOnErr (hp : FaultsIn F p) : FaultsIn F (clearOnErr p) :=
  .bind (.attempt hp) fun r => by
    cases r
    · exact .bind .readyClear fun _ => .raise _
    · exact .pure _

theorem i2cSend (bs : List Byte) : FaultsIn F (i2cSend bs) :=
  .bind .readyClear fun _ => .bind (.clearOnErr (.busWrite bs)) fun _ => .clearOnErr .readyWait

theorem i2cRead (loc : Nat) (kind : Kind) (n : Nat) : FaultsIn F (i2cRead loc kind n) :=
  .look fun _ => by
    split
    · exact .clearOnErr (.raise _)
    · exact .bind (.i2cSend _) fun _ => .clearOnErr (.busRead n)

theorem i2cWrite (loc : Nat) (kind : Kind) (bs : List Byte) : FaultsIn F (i2cWrite loc kind bs) :=
  .look fun _ => by
    split
    · exact .clearOnErr (.raise _)
    · exact .bind .change fun _ => .look fun _ => .i2cSend _

theorem stallWait : FaultsIn F stallWait :=
  .bind .now fun _ => .bind .change fun _ => .repeatP <| .bind (.busRead 1) fun s => by
    cases notStalled (byteAt s 0)
    · exact .look fun _ => .bind (.expired _ _) fun late => by
        cases late
        · exact .pure _
        · exact .raise _
    · exact .pure _

theorem spiBody (dir : Dir) (hdr : List Byte) (n : Nat) (bs : List Byte) :
    FaultsIn F (spiBody dir hdr n bs) := by
  rw [spiBody_eq]
  refine .bind (.busWrite hdr) fun _ => .bind .stallWait fun _ => ?_
  cases dir
  · exact .busRead n
  · exact .bind (.busWrite bs) fun _ => .pure _

theorem spiXfer (dir : Dir) (loc : Nat) (kind : Kind) (n : Nat) (bs : List Byte) :
    FaultsIn F (spiXfer dir loc kind n bs) :=
  .look fun _ => by
    split
    · exact .raise _
    · exact .bind .spiLock fun _ => .bind (.attempt (.spiBody _ _ n bs)) fun r =>
        .bind .spiUnlock fun _ => .ofExcept r

theorem spiWrite (loc : Nat) (kind : Kind) (bs : List Byte) : FaultsIn F (spiWrite loc kind bs) :=
  .bind (.spiXfer _ _ _ _ _) fun _ => .pure _

theorem regRead (kind : Kind) (n : Nat) : FaultsIn F (regRead kind n) :=
  .look fun e => by
    cases e.cfg.transport
    · exact .i2cRead _ _ _
    · exact .spiXfer _ _ _ _ _

theorem regWrite (kind : Kind) (bs : List Byte) : FaultsIn F (regWrite kind bs) :=
  .look fun e => by
    cases e.cfg.transport
    · exact .i2cWrite _ _ _
    · exact .spiWrite _ _ _

/-! ### Locality Manager and Status/Burst Reader -/

theorem checkLocality : FaultsIn F checkLocality :=
  .bind (.regRead _ _) fun b => .bind .change fun _ => .look fun e => by
    cases localityOk e.cfg.map (byteAt b 0)
    · exact .raise _
    · exact .pure _

theorem requestChecks : ∀ k, FaultsIn F (requestChecks k)
  | 0 => .raise _
  | k + 1 => .look fun _ => .bind .change fun _ => .bind (.attempt .checkLocality) fun r => by
    cases r
    · exact .bind (.onlyIf _ (.sleep _)) fun _ => requestChecks k
    · exact .pure _

theorem requestLocality : FaultsIn F requestLocality :=
  .bind (.attempt .checkLocality) fun r => by
    cases r
    · exact .look fun _ => .bind (.regWrite _ _) fun _ => .requestChecks _
    · exact .pure _

theorem releaseLocality (force : Bool) : FaultsIn F (releaseLocality force) :=
  have hrelinquish : FaultsIn F relinquish := .look fun _ => .ignore (.regWrite _ _)
  .bind (.attempt (.regRead _ _)) fun r => .look fun _ => by
    cases r
    · exact .onlyIf _ hrelinquish
    · exact .bind .change fun _ => .onlyIf _ hrelinquish

theorem noteSnapshot (mask : Byte) (r : Except Err (List Byte)) : FaultsIn F (noteSnapshot mask r) :=
  fun e => by
    rw [noteSnapshot_apply]
    trivial

theorem getBurstAndStatus (mask : Byte) : FaultsIn F (getBurstAndStatus mask) :=
  .bind .now fun _ => .bind .change fun _ => .repeatP <| .bind (.attempt (.regRead _ _)) fun r =>
    .bind (.noteSnapshot mask r) fun v => by
      cases v
      · exact .look fun _ => .bind (.sleep _) fun _ => .bind (.expired _ _) fun late => by
          cases late
          · exact .pure _
          · exact .raise _
      · exact .pure _

theorem readStatus : FaultsIn F readStatus :=
  .bind (.attempt (.regRead _ _)) fun _ => .bind .change fun _ => .pure _

theorem setReady : FaultsIn F setReady := .look fun _ => .ignore (.regWrite _ _)

theorem waitCommandReady : FaultsIn F waitCommandReady :=
  .bind .now fun _ => .bind .change fun _ => .repeatP <| .bind .readStatus fun st => .look fun e => by
    cases cmdReady e.cfg.map st
    · exact .bind (.expired _ _) fun late => by
        cases late
        · exact .bind .setReady fun _ => .pure _
        · exact .raise _
    · exact .pure _

theorem cleanup : FaultsIn F cleanup :=
  .bind .readStatus fun _ => .look fun _ => .bind (.onlyIf _ .setReady) fun _ => .releaseLocality true

end FaultsIn

/-! ### The accesses that can fault -/

/-- An index below `hi` that a buffer or source of `lo` bytes does not have. -/
def Beyond (lo hi : Nat) (f : Fault) : Prop := ∃ k, f = .bufferRange k ∧ lo ≤ k ∧ k < hi

/-- A buffer or source that is long enough has every index. -/
theorem Beyond.false_of_le {f : Fault} (h : Beyond lo hi f) (hle : hi ≤ lo) : False := by
  obtain ⟨k, _, hlo, hhi⟩ := h
  omega

theorem srcByte_faultsIn (src : Src) (hj : j < hi) : FaultsIn (Beyond (sourceSize src) hi) (srcByte src j) := by
  cases src with
  | cmdbuf =>
    change FaultsIn _ (memRead .cmdbuf j)
    unfold memRead
    split
    case isTrue => exact .look fun _ => .bind .change fun _ => .pure _
    case isFalse h => exact .stopFault ⟨j, rfl, not_lt.mp h, hj⟩
  | shutdownCmd =>
    unfold srcByte
    dsimp only
    split
    case h_1 => exact .pure _
    case h_2 h => exact .stopFault ⟨j, rfl, List.getElem?_eq_none_iff.mp h, hj⟩

theorem srcBytes_faultsIn (src : Src) : ∀ {k j : Nat}, j + k ≤ hi →
    FaultsIn (Beyond (sourceSize src) hi) (srcBytes src j k)
  | 0, _, _ => .pure _
  | k + 1, _, h => .bind (srcByte_faultsIn src (by omega)) fun _ =>
      .bind (srcBytes_faultsIn src (by omega)) fun _ => .pure _

theorem memWrite_faultsIn (v : Byte) (hj : j < hi) : FaultsIn (Beyond bufSize hi) (memWrite j v) := by
  unfold memWrite
  split
  case isTrue => exact .bind .change fun _ => .change
  case isFalse h => exact .stopFault ⟨j, rfl, not_lt.mp h, hj⟩

theorem memWriteAll_faultsIn : ∀ {d : List Byte} {j : Nat}, j + d.length ≤ hi →
    FaultsIn (Beyond bufSize hi) (memWriteAll j d)
  | [], _, _ => .pure ()
  | v :: d, j, h => by
    rw [List.length_cons] at h
    exact .bind (memWrite_faultsIn v (by omega)) fun _ => memWriteAll_faultsIn (by omega)

/-! ### FIFO Transfer Engine (R221, R224) -/

/-- A chunk ends with the command's last byte at the latest. -/
theorem sendTurn_faultsIn (src : Src) (len : Nat) :
    FaultsIn (Beyond (sourceSize src) len) (sendTurn src len) :=
  .look fun e => by
    split
    case isFalse => exact .pure _
    case isTrue h =>
      refine .bind (.getBurstAndStatus _) fun v => .bind .change fun _ =>
        .bind (srcBytes_faultsIn src ?_) fun p => .bind (.regWrite _ _) fun _ =>
          .bind .change fun _ => .pure _
      simp only [sendChunk]
      omega

theorem fifoWriteBody_faultsIn (src : Src) (len : Nat) :
    FaultsIn (Beyond (sourceSize src) len) (fifoWriteBody src len) :=
  .bind .change fun _ => .bind (.repeatP (sendTurn_faultsIn src len)) fun _ => .look fun e =>
    .bind (.getBurstAndStatus _) fun v => by
      cases dataExpect e.cfg.map v.2
      · exact .pure _
      · exact .raise _

/-- A chunk ends with the declared length's last byte at the latest, which the capacity bounds. -/
theorem recvTurn_faultAt {got : List Byte} (he : e.x.expected.toNat ≤ cap) :
    FaultAt (Beyond bufSize cap) (recvTurn got e) := by
  rw [recvTurn, bind_of_ok (look_apply e)]
  split
  case isFalse => trivial
  case isTrue h =>
    refine FaultsIn.bind (.getBurstAndStatus _) (fun v => .bind .change fun _ =>
      .bind_of_returns (.regRead _ _) (returns_regRead _ _) fun d hd =>
        .bind (memWriteAll_faultsIn ?_) fun _ => .bind .change fun _ => .pure _) e
    rw [hd, recvChunk]
    omega

/-- The loop never writes `x[expected]`. -/
theorem recvLoop_faultAt : ∀ {k : Nat} {got : List Byte} {e : Engine}, e.x.expected.toNat ≤ cap →
    FaultAt (Beyond bufSize cap) (untilDoneFrom recvTurn k got e)
  | 0, _, _, _ => trivial
  | _ + 1, _, _, he => (recvTurn_faultAt he).bind fun o _ hturn => by
    cases o with
    | inl w =>
      obtain ⟨_, hexpected⟩ := recvTurn_goes hturn
      exact recvLoop_faultAt (hexpected ▸ he)
    | inr got => trivial

theorem recvRest_faultAt {first : List Byte} (he : e.x.expected.toNat ≤ cap) :
    FaultAt (Beyond bufSize cap) (recvRest first e) := by
  refine FaultAt.bind (recvLoop_faultAt he) fun _ t _ => ?_
  refine FaultsIn.look (fun e => .bind (.getBurstAndStatus _) fun v => ?_) t
  cases dataAvail e.cfg.map v.2
  · exact .pure _
  · exact .raise _

theorem fifoReadBody_faultsIn (cap : Nat) : FaultsIn (Beyond bufSize cap) (fifoReadBody cap) :=
  .look fun e => .bind (.getBurstAndStatus _) fun v => by
    cases hv : badFirstBurst e.cfg.hdrSize cap v.1 with
    | true => exact .raise _
    | false =>
      refine .bind_of_returns (.regRead _ _) (returns_regRead _ _) fun d hd =>
        .bind (memWriteAll_faultsIn ?_) fun _ m => ?_
      · rw [hd, Nat.zero_add]
        exact le_of_badFirstBurst hv
      · rw [bind_of_ok (onX_apply _ m)]
        split
        case isTrue => trivial
        case isFalse hcap =>
          rw [bind_of_ok (onX_apply _ _)]
          exact recvRest_faultAt (not_lt.mp hcap)

/-! ### TIS Session -/

theorem sendCore_faultsIn (src : Src) (len : Nat) : FaultsIn (Beyond (sourceSize src) len) (sendCore src len) :=
  .bind .change fun _ => .bind .requestLocality fun _ => .bind .change fun _ =>
    .bind .waitCommandReady fun _ => .bind .change fun _ => .bind (fifoWriteBody_faultsIn src len) fun _ =>
      .look fun _ => .regWrite _ _

theorem recvCore_faultsIn (cap : Nat) : FaultsIn (Beyond bufSize cap) (recvCore cap) :=
  .bind .change fun _ => .bind (fifoReadBody_faultsIn cap) fun _ => .bind .change fun _ =>
    .bind (.releaseLocality false) fun _ => .bind .change fun _ => .pure _

namespace FaultsIn

theorem abort (er : Err) {path : P Unit} (hpath : FaultsIn F path) : FaultsIn F (abort er path : P α) :=
  .bind .change fun _ => .bind hpath fun _ => .bind .change fun _ => .raise _

theorem sessionAbort : FaultsIn F sessionAbort := .bind .cleanup fun _ => .change

theorem shutdownAbort : FaultsIn F shutdownAbort := .bind .sessionAbort fun _ => .releaseLocality true

theorem probeCommand : FaultsIn F probeCommand := by
  have hidentify : FaultsIn F probeIdentify :=
    .bind (.regRead _ _) fun d => .bind .change fun _ => .look fun e => by
      cases familyOf e.cfg.map (didVidValue d)
      · exact .raise _
      · exact .pure _
  refine .bind (.attempt (.bind .requestLocality fun _ => hidentify)) fun r => ?_
  cases r
  · exact .abort _ (.releaseLocality true)
  · exact .pure _

/-- The fixed command and the capacity for its response are within range (R122, R265). -/
theorem shutdownCommand : FaultsIn F shutdownCommand :=
  have hsend := (sendCore_faultsIn .shutdownCmd 12).mono (F' := F) fun _ h => (h.false_of_le le_rfl).elim
  have hrecv := (recvCore_faultsIn 10).mono (F' := F) fun _ h => (h.false_of_le (by decide)).elim
  .bind (.attempt hsend) fun r => by
    cases r
    · exact .abort _ .shutdownAbort
    · exact .bind .change fun _ => .bind (.attempt hrecv) fun r => by
        cases r with
        | error er => exact .abort _ .shutdownAbort
        | ok got =>
          exact .bind (.releaseLocality true) fun _ => by
            cases shutdownMatches got
            · exact .raise _
            · exact .pure _

end FaultsIn

theorem sendCommand_faultsIn (len : Nat) : FaultsIn (Beyond bufSize len) (sendCommand len) :=
  .bind (.attempt (sendCore_faultsIn .cmdbuf len)) fun r => by
    cases r
    · exact .abort _ .sessionAbort
    · exact .bind .change fun _ => .pure _

theorem recvCommand_faultsIn (cap : Nat) : FaultsIn (Beyond bufSize cap) (recvCommand cap) :=
  .bind (.attempt (recvCore_faultsIn cap)) fun r => by
    cases r
    · exact .abort _ .sessionAbort
    · exact .pure _

end Sys2Proof.Machine
end

section
/-! PROOF. The stops of an instruction: what refuses it and what faults it (60_exceptions.md R311; 00_scope.md
R3; 20_memory.md R80, R81). -/

namespace Sys2Proof.Machine

variable {i : Instr} {s : State} {r : Refusal} {f : Fault} {F : Fault → Prop}

/-! ### Refusals -/

/-- What the violation behind a refusal is. -/
def ListedRefusal (i : Instr) (s : State) (r : Refusal) : Prop :=
  (isHostCommand i = true ∧ (r = .hostBusy ∨ r = .hostOrder)) ∨
    (r = .otherTransport ∧ neededTransport i = some .i2c ∧ s.cfg.transport = .spi) ∨
    (r = .otherTransport ∧ neededTransport i = some .spi ∧ s.cfg.transport = .i2c) ∨
    (r = .localityRange ∧ neededTransport i = some s.cfg.transport ∧
      ∃ loc, localityOf i s.args = some loc ∧ s.cfg.transport.maxLoc < loc)

/-- The instruction's work is launched, or the instruction is refused for a listed violation. -/
def LaunchedOrRefused (i : Instr) (s : State) : Prop :=
  exec i s = launch i (work s.args i).body s ∨ ∃ r, exec i s = .refused r ∧ ListedRefusal i s r

theorem launchedOrRefused_of_host {allowed : Bool} {p : P HostVal} (hi : isHostCommand i = true)
    (hw : work s.args i = .command p) (h : exec i s = launchHost i allowed p s) : LaunchedOrRefused i s := by
  rw [LaunchedOrRefused, h, hw, launchHost]
  split
  · exact .inr ⟨_, rfl, .inl ⟨hi, .inl rfl⟩⟩
  · split
    · exact .inl rfl
    · exact .inr ⟨_, rfl, .inl ⟨hi, .inr rfl⟩⟩

/-- A row of one transport is refused on the other. -/
theorem listedRefusal_of_transport {b : Transport} (hn : neededTransport i = some b)
    (hb : s.cfg.transport ≠ b) : ListedRefusal i s .otherTransport := by
  cases b with
  | i2c =>
    cases ht : s.cfg.transport with
    | i2c => exact absurd ht hb
    | spi => exact .inr (.inl ⟨rfl, hn, ht⟩)
  | spi =>
    cases ht : s.cfg.transport with
    | i2c => exact .inr (.inr (.inl ⟨rfl, hn, ht⟩))
    | spi => exact absurd ht hb

/-- Locality 0, which READY_WAIT is launched with, fits either encoding. -/
theorem launchedOrRefused_of_transport {b : Transport} {loc : Nat} {p : P RetVal}
    (hn : neededTransport i = some b) (hw : work s.args i = .code p) (h : exec i s = launchOn b loc i p s)
    (hloc : loc ≠ 0 → localityOf i s.args = some loc) : LaunchedOrRefused i s := by
  rw [LaunchedOrRefused, h, hw, launchOn]
  split
  case isTrue hb => exact .inr ⟨_, rfl, listedRefusal_of_transport hn hb⟩
  case isFalse hb =>
    obtain rfl := not_not.mp hb
    split
    case isTrue => exact .inl rfl
    case isFalse hle =>
      have hlt := not_le.mp hle
      exact .inr ⟨_, rfl, .inr (.inr (.inr ⟨rfl, hn, loc, hloc (Nat.ne_zero_of_lt hlt), hlt⟩))⟩

theorem exec_launchedOrRefused (i : Instr) (s : State) : LaunchedOrRefused i s := by
  cases i with
  | probe | send _ | recv _ | release _ | shutdown => exact launchedOrRefused_of_host rfl rfl rfl
  | readyWait => exact launchedOrRefused_of_transport rfl rfl rfl fun h => absurd rfl h
  | i2cRead | i2cWrite | spiRead | spiWrite | spiXfer
  | i2cAddrAccess _ | i2cAddrSts _ | i2cAddrDataFifo _ | i2cAddrDidVid _
  | spiHdrReadAccess _ _ | spiHdrWriteAccess _ _ | spiHdrReadSts _ _ | spiHdrWriteSts _ _
  | spiHdrReadDataFifo _ _ | spiHdrWriteDataFifo _ _ | spiHdrReadDidVid _ _ =>
    exact launchedOrRefused_of_transport rfl rfl rfl fun _ => rfl
  | checkLocality | requestLocality | releaseLocality | getBurstAndStatus | readStatus | setReady
  | waitCommandReady | fifoWriteBody | writeGo | fifoReadBody | cleanup
  | stsGoVal | stsReadyVal | accessReqVal | accessRelVal => exact .inl rfl

/-- What is launched is not refused any more. -/
theorem listedRefusal_of_exec (h : exec i s = .refused r) : ListedRefusal i s r := by
  obtain hl | ⟨r', hr, hlisted⟩ := exec_launchedOrRefused i s
  · obtain ⟨_, ho, _⟩ | ⟨_, _, _, ho⟩ | ⟨_, _, _, ho⟩ := launch_cases (hl.symm.trans h) <;> cases ho
  · cases hr.symm.trans h
    exact hlisted

/-! ### Faults -/

/-- The indices an instruction's operands can reach that a source or a buffer does not have. -/
def OutOfRange (a : Args) (f : Fault) : Instr → Prop
  | .fifoWriteBody => Beyond (sourceSize a.src) a.len f
  | .fifoReadBody => Beyond bufSize a.cap f
  | .send len => Beyond bufSize len f
  | .recv cap => Beyond bufSize cap f
  | _ => False

theorem hostCommand_faultsIn {p : P HostVal} (hp : FaultsIn F p) : FaultsIn F (hostCommand p) :=
  .bind .change fun _ => .bind (.attempt hp) fun _ => .change

theorem procedure_faultsIn {p : P RetVal} (hp : FaultsIn F p) : FaultsIn F (procedure p) :=
  .bind (.attempt hp) fun _ => .change

/-- The values of procedure codes and wire encodings. -/
theorem mapped_faultsIn {α : Type} {p : P α} (hp : FaultsIn F p) (v : α → RetVal) :
    FaultsIn F (p >>= fun a => pure (v a)) :=
  .bind hp fun _ => .pure _

theorem asFrame_faultsIn (dir : Dir) {p : P (List Byte)} (hp : FaultsIn F p) : FaultsIn F (asFrame dir p) := by
  cases dir
  · exact mapped_faultsIn hp _
  · exact mapped_faultsIn hp _

theorem command_faultsIn (a : Args) (i : Instr) : (work a i).OnCommand (FaultsIn (OutOfRange a · i)) := by
  cases i with
  | probe => exact .probeCommand
  | send len => exact sendCommand_faultsIn len
  | recv cap => exact recvCommand_faultsIn cap
  | release force => exact .bind (.releaseLocality force) fun _ => .pure _
  | shutdown => exact .shutdownCommand
  | _ => trivial

theorem code_faultsIn (a : Args) (i : Instr) : (work a i).OnCode (FaultsIn (OutOfRange a · i)) := by
  cases i with
  | probe | send _ | recv _ | release _ | shutdown => trivial
  | i2cRead => exact mapped_faultsIn (.i2cRead _ _ _) _
  | i2cWrite => exact mapped_faultsIn (.i2cWrite _ _ _) _
  | spiRead => exact mapped_faultsIn (.spiXfer _ _ _ _ _) _
  | spiWrite => exact mapped_faultsIn (.spiWrite _ _ _) _
  | readyWait => exact mapped_faultsIn .readyWait _
  | spiXfer => exact asFrame_faultsIn _ (.spiXfer _ _ _ _ _)
  | checkLocality => exact mapped_faultsIn .checkLocality _
  | requestLocality => exact mapped_faultsIn .requestLocality _
  | releaseLocality => exact mapped_faultsIn (.releaseLocality _) _
  | getBurstAndStatus => exact mapped_faultsIn (.getBurstAndStatus _) _
  | readStatus => exact mapped_faultsIn .readStatus _
  | setReady => exact mapped_faultsIn .setReady _
  | waitCommandReady => exact mapped_faultsIn .waitCommandReady _
  | fifoWriteBody => exact mapped_faultsIn (fifoWriteBody_faultsIn _ _) _
  | writeGo => exact mapped_faultsIn (.look fun _ => .regWrite _ _) _
  | fifoReadBody => exact mapped_faultsIn (fifoReadBody_faultsIn _) _
  | cleanup => exact mapped_faultsIn .cleanup _
  | i2cAddrAccess _ | i2cAddrSts _ | i2cAddrDataFifo _ | i2cAddrDidVid _ =>
    exact .look fun _ => mapped_faultsIn (.i2cSend _) _
  | spiHdrReadAccess _ _ | spiHdrWriteAccess _ _ | spiHdrReadSts _ _ | spiHdrWriteSts _ _
  | spiHdrReadDataFifo _ _ | spiHdrWriteDataFifo _ _ | spiHdrReadDidVid _ _ =>
    exact asFrame_faultsIn _ (.spiXfer _ _ _ _ _)
  | stsGoVal | stsReadyVal | accessReqVal | accessRelVal =>
    exact .look fun _ => mapped_faultsIn (.regWrite _ _) _

theorem body_faultsIn (a : Args) (i : Instr) : FaultsIn (OutOfRange a · i) (work a i).body := by
  have hcmd := command_faultsIn a i
  have hcode := code_faultsIn a i
  cases hw : work a i with
  | command p =>
    rw [hw] at hcmd
    exact hostCommand_faultsIn hcmd
  | code p =>
    rw [hw] at hcode
    exact procedure_faultsIn hcode

theorem outOfRange_of_exec (h : exec i s = .fault f) : OutOfRange s.args f i := by
  obtain hl | ⟨r, hr, _⟩ := exec_launchedOrRefused i s
  · have hbody := body_faultsIn s.args i s.toEngine
    obtain ⟨_, ho, _⟩ | ⟨_, _, _, ho⟩ | ⟨f', e, he, ho⟩ := launch_cases (hl.symm.trans h) <;> cases ho
    rw [he] at hbody
    exact hbody
  · cases hr.symm.trans h

/-- Which operand is out of range, and where. -/
theorem OutOfRange.index {a : Args} (h : OutOfRange a f i) :
    ∃ k, f = .bufferRange k ∧
      ((i = .fifoWriteBody ∧ sourceSize a.src ≤ k ∧ k < a.len) ∨
        (i = .fifoReadBody ∧ bufSize ≤ k ∧ k < a.cap) ∨
        (∃ len, i = .send len ∧ bufSize ≤ k ∧ k < len) ∨
        (∃ cap, i = .recv cap ∧ bufSize ≤ k ∧ k < cap)) := by
  cases i with
  | fifoWriteBody => exact h.imp fun _ hk => ⟨hk.1, .inl ⟨rfl, hk.2⟩⟩
  | fifoReadBody => exact h.imp fun _ hk => ⟨hk.1, .inr (.inl ⟨rfl, hk.2⟩)⟩
  | send len => exact h.imp fun _ hk => ⟨hk.1, .inr (.inr (.inl ⟨len, rfl, hk.2⟩))⟩
  | recv cap => exact h.imp fun _ hk => ⟨hk.1, .inr (.inr (.inr ⟨cap, rfl, hk.2⟩))⟩
  | _ => exact h.elim

/-- A host length or capacity of 24 bits names no byte beyond the buffers (R127). -/
theorem not_outOfRange_of_wellFormed {a : Args} (hi : isHostCommand i = true) (hw : i.WellFormed) :
    ¬ OutOfRange a f i := by
  have hfits {v : Nat} (hv : HostArgFits v) : v ≤ bufSize := Nat.le_of_lt_succ hv
  intro h
  cases i with
  | send len => exact Beyond.false_of_le h (hfits hw)
  | recv cap => exact Beyond.false_of_le h (hfits hw)
  | probe | release _ | shutdown => exact h
  | _ => cases hi

/-- Settles O15: `exec` refuses before anything runs, and a body faults only out of range. -/
theorem stopsAreTheListedOnes : Obligations.StopsAreTheListedOnes :=
  ⟨fun _ _ _ => listedRefusal_of_exec, fun _ _ _ h => (outOfRange_of_exec h).index,
    fun _ _ _ hi hw h => not_outOfRange_of_wellFormed hi hw (outOfRange_of_exec h)⟩

end Sys2Proof.Machine
end

section
/-! SUPPORT. Phases read off the recorded events. The shape of a bus's transactions is a machine that reads the
port events one after the other (`spiFrames`, `i2cPhases`); here is what a port primitive does to its phase, and
that procedures whose register transactions go from rest to rest take every instruction from rest to rest. -/

namespace Sys2Proof.Machine

variable {α φ : Type} {c : Cfg} {after : φ → Event → Option φ} {p q r f : φ} {e m t : Engine} {i : Instr}
  {s u : State} {G W : Engine → Prop} {X : Err → Engine → Prop}

/-! ### The phase since a moment -/

/-- Since `e` the recorded events have taken the machine from phase `p` to phase `q`. -/
structure Phased (after : φ → Event → Option φ) (p : φ) (e : Engine) (q : φ) (t : Engine) : Prop where
  cfg : t.cfg = e.cfg
  events : ∃ evs, t.trace = e.trace ++ evs ∧ evs.foldlM after p = some q

theorem Phased.refl (e : Engine) : Phased after p e p e := ⟨rfl, [], (List.append_nil _).symm, rfl⟩

theorem Phased.trans (h : Phased after p e q m) (k : Phased after q m r t) : Phased after p e r t := by
  obtain ⟨hcfg, evs, htrace, hevs⟩ := h
  obtain ⟨kcfg, evs', ktrace, kevs⟩ := k
  refine ⟨kcfg.trans hcfg, evs ++ evs', by rw [ktrace, htrace, List.append_assoc], ?_⟩
  rw [List.foldlM_append, hevs]
  exact kevs

/-- A recorded event. -/
theorem Phased.log {v : Event} (h : Phased after p e q t) (hv : after q v = some r) :
    Phased after p e r (t.log v) :=
  h.trans ⟨rfl, [v], rfl, by simp [hv]⟩

/-- An update that records nothing. -/
theorem Phased.congr (h : Phased after p e q m) (hcfg : t.cfg = m.cfg) (htrace : t.trace = m.trace) :
    Phased after p e q t :=
  h.trans ⟨hcfg, [], by rw [htrace, List.append_nil], rfl⟩

/-- The phase after the events that have come since. -/
theorem Phased.foldlM {evs : List Event} (h : Phased after p e q t) (htrace : t.trace = e.trace ++ evs) :
    evs.foldlM after p = some q := by
  obtain ⟨evs', htrace', hevs⟩ := h.events
  rwa [List.append_cancel_left (htrace.symm.trans htrace')]

/-! ### Port primitives -/

/-- A contract may promise less of where the procedure raises. -/
theorem Meets.raising {I : Engine → Prop} {J : α → Engine → Prop} {X' : Err → Engine → Prop} {g : P α}
    (h : Meets I g J X W) (hX : ∀ er t, X er t → X' er t) : Meets I g J X' W :=
  h.imp (fun _ h => h) (fun _ _ h => h) hX

/-- A condition that an answer and a recorded event leave true. -/
structure Kept (G : Engine → Prop) : Prop where
  settle : ∀ e a rest, G e → G (e.settle a rest)
  log : ∀ e v, G e → G (e.log v)

/-- Since `e` the machine has come from `p` to `q`, and `G` holds. -/
def At (after : φ → Event → Option φ) (p : φ) (e : Engine) (G : Engine → Prop) (q : φ) (t : Engine) : Prop :=
  Phased after p e q t ∧ G t

section Primitives

variable (hG : Kept G) (hW : ∀ m, At after p e G q m → W m)
include hG

theorem At.log {v : Event} (h : At after p e G q m) (hv : after q v = some r) : At after p e G r (m.log v) :=
  ⟨h.1.log hv, hG.log m v h.2⟩

theorem meets_record_at {v : Event} (hv : after q v = some r) :
    Meets (At after p e G q) (record v) (fun _ => At after p e G r) X W :=
  meets_change fun _ h => h.log hG hv

include hW

theorem meets_take_at (w : Prim) : Meets (At after p e G q) (take w) (fun _ => At after p e G q) X W :=
  meets_take hW fun m a rest h => ⟨h.1.congr rfl rfl, hG.settle m a rest h.2⟩

theorem meets_busWrite_at {bs : List Byte} (hdone : after q (.busWrite bs) = some r)
    (hfail : ∀ er, after q (.busWriteErr bs er) = some f) :
    Meets (At after p e G q) (busWrite bs) (fun _ => At after p e G r) (fun _ => At after p e G f) W :=
  meets_bind (meets_take_at hG hW _) fun a => by
    cases a.err with
    | none => exact meets_record_at hG hdone
    | some er =>
      exact meets_bind (meets_record_at hG (hfail er)) fun _ => meets_raise fun _ h => h

theorem meets_busRead_at {n : Nat} {done : List Byte → φ}
    (hdone : ∀ bs, bs.length = n → after q (.busRead bs) = some (done bs))
    (hfail : ∀ er, after q (.busReadErr n er) = some f) :
    Meets (At after p e G q) (busRead n) (fun bs => At after p e G (done bs)) (fun _ => At after p e G f) W :=
  meets_bind (meets_take_at hG hW _) fun a => by
    cases a.err with
    | none =>
      exact meets_bind (meets_record_at hG (hdone _ (answerBytes_length n a.bytes))) fun _ =>
        meets_pure fun _ h => h
    | some er =>
      exact meets_bind (meets_record_at hG (hfail er)) fun _ => meets_raise fun _ h => h

theorem meets_now_at {next : Nat → φ} (hnext : ∀ v, after q (.now v) = some (next v)) :
    Meets (At after p e G q) now (fun v => At after p e G (next v)) X W :=
  meets_bind (meets_take_at hG hW _) fun _ => meets_look fun m hm =>
    meets_bind ((meets_record_at hG (hnext m.clock)).at hm) fun _ => meets_pure fun _ h => h

/-- A deadline is judged by the clock value read (R16). -/
theorem meets_expired_at {next : Nat → φ} (hnext : ∀ v, after q (.now v) = some (next v)) (t0 budget : Nat) :
    Meets (At after p e G q) (expired t0 budget)
      (fun late t => ∃ v, late = decide (budget * e.cfg.clkPerMs ≤ v - t0) ∧ At after p e G (next v) t) X W :=
  meets_bind (meets_now_at hG hW hnext) fun v => meets_look fun m hm =>
    meets_pure fun t ht => ⟨v, by rw [hm.1.cfg], ht ▸ hm⟩

theorem meets_readyFlag_at {next : Bool → φ} (hnext : ∀ b, after q (.readyFlag b) = some (next b)) :
    Meets (At after p e G q) readyFlag (fun b => At after p e G (next b)) X W :=
  meets_bind (meets_take_at hG hW _) fun _ => meets_look fun m hm =>
    meets_bind ((meets_record_at hG (hnext m.ready)).at hm) fun _ => meets_pure fun _ h => h

end Primitives

/-! ### From transaction to transaction -/

/-- An event that stands between register transactions: the clock, a sleep, a host buffer. -/
def Event.between : Event → Bool
  | .now _ | .sleep _ | .memRead _ _ _ | .memWrite _ _ => true
  | _ => false

/-- What every register transaction goes along on the bus of `c`, and everything between transactions. -/
structure Transactions (c : Cfg) (R W : Engine → Engine → Prop) : Prop extends Progress R W where
  settle : ∀ e a rest, R e (e.settle a rest)
  log : ∀ e v, v.between = true → R e (e.log v)
  silent : ∀ e t, t.cfg = e.cfg → t.trace = e.trace → t.lock = e.lock → R e t
  i2cSend : c.transport = .i2c → ∀ bs, Runs c R W (i2cSend bs)
  i2cRead : c.transport = .i2c → ∀ loc kind n, Runs c R W (i2cRead loc kind n)
  i2cWrite : c.transport = .i2c → ∀ loc kind p, Runs c R W (i2cWrite loc kind p)
  spiXfer : c.transport = .spi → ∀ dir loc kind n p, Runs c R W (spiXfer dir loc kind n p)

/-- What follows a look at the state may rely on its configuration. -/
theorem runs_look {R W : Engine → Engine → Prop} {k : Engine → P α} (hk : ∀ e, e.cfg = c → Runs c R W (k e)) :
    Runs c R W (look >>= k) := by
  intro e he
  rw [bind_of_ok (look_apply e)]
  exact hk e he e he

namespace Transactions

variable {β : Type} {R W : Engine → Engine → Prop} {S : Finset Part} (h : Transactions c R W)
include h

theorem bind {p : P α} {k : α → P β} (hp : Runs c R W p) (hk : ∀ a, Runs c R W (k a)) :
    Runs c R W (p >>= k) :=
  runs_bind h.toProgress hp fun a _ => hk a

theorem take (w : Prim) : Runs c R W (take w) := by
  intro e _
  rcases take_cases w e with ⟨_, h'⟩ | ⟨a, rest, _, h'⟩ <;> rw [h']
  · exact h.stays e
  · exact h.settle e a rest

theorem record {v : Event} (hv : v.between = true) : Runs c R W (record v) := fun e _ => h.log e v hv

theorem change {f : Engine → Engine} (hcfg : ∀ e, (f e).cfg = e.cfg) (htrace : ∀ e, (f e).trace = e.trace)
    (hlock : ∀ e, (f e).lock = e.lock) : Runs c R W (change f) :=
  fun e _ => h.silent e (f e) (hcfg e) (htrace e) (hlock e)

theorem now : Runs c R W now :=
  h.bind (h.take _) fun _ => runs_look fun _ _ => h.bind (h.record rfl) fun _ => runs_pure h.toProgress _

theorem sleep (ms : Nat) : Runs c R W (sleep ms) :=
  h.bind (h.take _) fun _ => h.bind (h.change (fun _ => rfl) (fun _ => rfl) fun _ => rfl) fun _ => h.record rfl

theorem load (k : Nat) : Runs c R W (memRead .cmdbuf k) := by
  unfold memRead
  split
  · exact runs_look fun _ _ => h.bind (h.record rfl) fun _ => runs_pure h.toProgress _
  · exact fun _ _ => trivial

theorem store (k : Nat) (v : Byte) : Runs c R W (memWrite k v) := by
  unfold memWrite
  split
  · exact h.bind (h.change (fun _ => rfl) (fun _ => rfl) fun _ => rfl) fun _ => h.record rfl
  · exact fun _ _ => trivial

theorem spiWrite (hb : c.transport = .spi) (loc : Nat) (kind : Kind) (p : List Byte) :
    Runs c R W (spiWrite loc kind p) :=
  h.bind (h.spiXfer hb _ _ _ _ _) fun _ => runs_pure h.toProgress _

theorem regRead (kind : Kind) (n : Nat) : Runs c R W (regRead kind n) := by
  refine runs_look fun e he => ?_
  cases hb : e.cfg.transport with
  | i2c => exact h.i2cRead (he ▸ hb) _ _ _
  | spi => exact h.spiXfer (he ▸ hb) _ _ _ _ _

theorem regWrite (kind : Kind) (p : List Byte) : Runs c R W (regWrite kind p) := by
  refine runs_look fun e he => ?_
  cases hb : e.cfg.transport with
  | i2c => exact h.i2cWrite (he ▸ hb) _ _ _
  | spi => exact h.spiWrite (he ▸ hb) _ _ _

/-- Every operation above the transport. -/
theorem op {p : P α} (hop : Op c S α p) : Runs c R W p := by
  cases hop with
  | read kind n => exact h.regRead kind n
  | write kind p => exact h.regWrite kind p
  | now => exact h.now
  | sleep ms => exact h.sleep ms
  | load k => exact h.load k
  | store k v => exact h.store k v
  | onX f | setSess q | setPending q => exact h.change (fun _ => rfl) (fun _ => rfl) fun _ => rfl

theorem on {p : P α} (hp : On c S p) : Runs c R W p := hp.runs h.toProgress fun _ _ hop => h.op hop

theorem mapped {p : P α} (hp : Runs c R W p) (v : α → RetVal) :
    Runs c R W (p >>= fun a => pure (v a)) :=
  h.bind hp fun _ => runs_pure h.toProgress _

theorem asFrame (dir : Dir) {p : P (List Byte)} (hp : Runs c R W p) : Runs c R W (asFrame dir p) := by
  cases dir
  · exact h.mapped hp _
  · exact h.mapped hp _

theorem command (a : Args) (i : Instr) : (work a i).OnCommand (Runs c R W) := by
  have hon := command_on (c := c) a i
  cases hw : work a i with
  | command p =>
    rw [hw] at hon
    exact h.on hon
  | code p => trivial

/-- Every procedure code and wire encoding but READY_WAIT, which is a part of a transaction. -/
theorem code (a : Args) (hi : i ≠ .readyWait) (hb : ∀ b, neededTransport i = some b → c.transport = b) :
    (work a i).OnCode (Runs c R W) := by
  cases i with
  | probe | send _ | recv _ | release _ | shutdown => trivial
  | readyWait => exact absurd rfl hi
  | i2cRead => exact h.mapped (h.i2cRead (hb _ rfl) _ _ _) _
  | i2cWrite => exact h.mapped (h.i2cWrite (hb _ rfl) _ _ _) _
  | spiRead => exact h.mapped (h.spiXfer (hb _ rfl) _ _ _ _ _) _
  | spiWrite => exact h.mapped (h.spiWrite (hb _ rfl) _ _ _) _
  | spiXfer => exact h.asFrame _ (h.spiXfer (hb _ rfl) _ _ _ _ _)
  | checkLocality => exact h.mapped (h.on on_checkLocality) _
  | requestLocality => exact h.mapped (h.on on_requestLocality) _
  | releaseLocality => exact h.mapped (h.on (on_releaseLocality _)) _
  | getBurstAndStatus => exact h.mapped (h.on (on_getBurstAndStatus _)) _
  | readStatus => exact h.mapped (h.on on_readStatus) _
  | setReady => exact h.mapped (h.on on_setReady) _
  | waitCommandReady => exact h.mapped (h.on on_waitCommandReady) _
  | fifoWriteBody => exact h.mapped (h.on (on_fifoWriteBody _ _)) _
  | writeGo => exact h.mapped (h.on on_writeGo) _
  | fifoReadBody => exact h.mapped (h.on (on_fifoReadBody _)) _
  | cleanup => exact h.mapped (h.on on_cleanup) _
  | i2cAddrAccess _ | i2cAddrSts _ | i2cAddrDataFifo _ | i2cAddrDidVid _ =>
    exact runs_look fun _ _ => h.mapped (h.i2cSend (hb _ rfl) _) _
  | spiHdrReadAccess _ _ | spiHdrWriteAccess _ _ | spiHdrReadSts _ _ | spiHdrWriteSts _ _
  | spiHdrReadDataFifo _ _ | spiHdrWriteDataFifo _ _ | spiHdrReadDidVid _ _ =>
    exact h.asFrame _ (h.spiXfer (hb _ rfl) _ _ _ _ _)
  | stsGoVal | stsReadyVal | accessReqVal | accessRelVal =>
    exact runs_look fun _ _ => h.mapped (h.regWrite _ _) _

theorem body (a : Args) (hi : i ≠ .readyWait) (hb : ∀ b, neededTransport i = some b → c.transport = b) :
    Runs c R W (work a i).body := by
  have hcmd := h.command a i
  have hcode := h.code a hi hb
  have hwrites {f : Engine → Engine} := h.change (f := f)
  cases hw : work a i with
  | command p =>
    rw [hw] at hcmd
    exact h.bind (hwrites (fun _ => rfl) (fun _ => rfl) fun _ => rfl) fun _ =>
      h.bind (runs_attempt hcmd) fun _ => hwrites (fun _ => rfl) (fun _ => rfl) fun _ => rfl
  | code p =>
    rw [hw] at hcode
    exact h.bind (runs_attempt hcode) fun _ => hwrites (fun _ => rfl) (fun _ => rfl) fun _ => rfl

end Transactions

/-- An instruction goes from transaction to transaction, and where it waits it may stand in one. -/
theorem exec_transactions {R W : Engine → Engine → Prop} (h : Transactions s.cfg R W) (hi : i ≠ .readyWait)
    (hx : exec i s = .next u) :
    (u.running = none → R s.toEngine u.toEngine) ∧ (u.running ≠ none → W s.toEngine u.toEngine) := by
  obtain ⟨hrun, hbus⟩ := exec_next hx
  exact launch_runs hrun (h.body s.args hi hbus)

end Sys2Proof.Machine
end

section
/-! PROOF. SPI frames and their lock (40_transport.md R153; 70_reset_and_hazards.md R344). -/

namespace Sys2Proof.Machine

variable {c : Cfg} {q : FramePhase} {e m t : Engine} {X : Err → Engine → Prop}

/-- The shape of a trace, as a machine that reads its events. -/
theorem spiFrames_eq_foldlM (p : FramePhase) (evs : List Event) :
    spiFrames p evs = evs.foldlM FramePhase.after p := by
  induction evs generalizing p with
  | nil => rfl
  | cons v evs ih =>
    rw [spiFrames, List.foldlM_cons]
    cases p.after v with
    | none => rfl
    | some q => exact ih q

/-! ### The lock in and between frames (R45) -/

/-- An engine that did not hold the controller in `e` does not hold it now. -/
def Unheld (e t : Engine) : Prop := e.lock ≠ .engine → t.lock ≠ .engine

/-- The engine holds the controller. -/
def Held (t : Engine) : Prop := t.lock = .engine

theorem kept_unheld (e : Engine) : Kept (Unheld e) where
  settle t a rest h he := settle_unlocked t a rest (h he)
  log _ _ h := h

theorem kept_held : Kept Held where
  settle t a rest h := by rw [Held, Engine.settle_lock, if_pos (.inl h), h]
  log _ _ h := h

/-- Since `e` there have been whole frames, in the phase `q` of one with the controller held. -/
abbrev InFrame (e : Engine) (q : FramePhase) : Engine → Prop := At FramePhase.after .free e Held q

/-- Since `e` there have been whole frames, and the controller is not held. -/
abbrev Frames (e : Engine) : Engine → Prop := At FramePhase.after .free e (Unheld e) .free

theorem Frames.refl (e : Engine) : Frames e e := ⟨.refl e, id⟩

theorem Frames.trans (h : Frames e m) (k : Frames m t) : Frames e t :=
  ⟨h.1.trans k.1, fun he => k.2 (h.2 he)⟩

/-- Since `e` there have been whole frames and the beginning of one, or none, the controller held in a frame
only. -/
def Framewise (e t : Engine) : Prop :=
  ∃ q, Phased FramePhase.after .free e q t ∧ (e.lock ≠ .engine → (t.lock = .engine ↔ q ≠ .free))

/-- A frame that may end here: its unlock is the one event still to come. -/
def Unlocking (e t : Engine) : Prop := ∃ q, FramePhase.after q .unlock = some .free ∧ InFrame e q t

theorem framewise_of_frames (h : Frames e t) : Framewise e t :=
  ⟨.free, h.1, fun he => iff_of_false (h.2 he) fun hq => hq rfl⟩

theorem framewise_of_inFrame (hq : q ≠ .free) (h : InFrame e q t) : Framewise e t :=
  ⟨q, h.1, fun _ => iff_of_true h.2 hq⟩

theorem unlocking_of_over (h : InFrame e .over t) : Unlocking e t := ⟨_, rfl, h⟩

theorem unlocking_of_polling (h : InFrame e .polling t) : Unlocking e t := ⟨_, rfl, h⟩

/-! ### One frame (R153) -/

/-- The controller is taken before the header, by no event but the lock. -/
theorem frame_spiLock : Meets (Frames e) spiLock (fun _ => InFrame e .locked) X (Framewise e) :=
  meets_repeatP (fun _ h => framewise_of_frames h) <|
    meets_bind (meets_take_at (kept_unheld e) (fun _ h => framewise_of_frames h) _) fun a => by
      cases a.lockFree
      · exact meets_pure fun _ h => h
      · exact fun m h => ⟨(h.1.congr (t := m.setLock .engine) rfl rfl).log rfl, rfl⟩

theorem frame_spiUnlock : Meets (Unlocking e) spiUnlock (fun _ => Frames e) X (Framewise e) :=
  fun m ⟨_, hq, h⟩ => ⟨(h.1.congr (t := m.setLock .free) rfl rfl).log hq, fun _ => nofun⟩

/-- One look at the stall bit: the poll ends, goes on, or times out, the controller held throughout. -/
theorem frame_stallTurn :
    Meets (InFrame e .polling) spiStallTurn (Turned (InFrame e .polling) fun _ => InFrame e .paying)
      (fun _ => Unlocking e) (Framewise e) := by
  have hwaits (m : Engine) : InFrame e .polling m → Framewise e m := framewise_of_inFrame nofun
  have hbyte (bs : List Byte) (hlen : bs.length = 1) : FramePhase.polling.after (.busRead bs) =
      some (if notStalled (byteAt bs 0) then .paying else .polling) := by
    obtain ⟨b, rfl⟩ := List.length_eq_one_iff.mp hlen
    rfl
  refine meets_bind ((meets_busRead_at kept_held hwaits hbyte fun _ => rfl).raising fun _ _ =>
    unlocking_of_over) fun bs => ?_
  cases hb : notStalled (byteAt bs 0) with
  | true => exact meets_pure fun _ h => h
  | false =>
    refine meets_look fun m hm => meets_bind ((meets_expired_at kept_held hwaits (fun _ => rfl) _ _).at hm)
      fun late => ?_
    cases late
    · exact meets_pure fun _ ⟨_, _, h⟩ => h
    · exact meets_raise fun _ ⟨_, _, h⟩ => unlocking_of_polling h

theorem frame_stallWait :
    Meets (InFrame e .polling) stallWait (fun _ => InFrame e .paying) (fun _ => Unlocking e) (Framewise e) :=
  have hwaits (m : Engine) : InFrame e .polling m → Framewise e m := framewise_of_inFrame nofun
  meets_bind (meets_now_at kept_held hwaits fun _ => rfl) fun _ =>
    meets_bind (J := fun _ => InFrame e .polling) (meets_change fun _ h => ⟨h.1.congr rfl rfl, h.2⟩) fun _ =>
      meets_repeatP hwaits frame_stallTurn

theorem frame_payload (dir : Dir) (n : Nat) (p : List Byte) :
    Meets (InFrame e .paying) (spiPayload dir n p) (fun _ => InFrame e .over) (fun _ => Unlocking e)
      (Framewise e) := by
  have hwaits (m : Engine) : InFrame e .paying m → Framewise e m := framewise_of_inFrame nofun
  cases dir with
  | read =>
    exact (meets_busRead_at kept_held hwaits (done := fun _ => .over) (fun _ _ => rfl) fun _ => rfl).raising
      fun _ _ => unlocking_of_over
  | write =>
    exact meets_bind ((meets_busWrite_at kept_held hwaits rfl fun _ => rfl).raising fun _ _ =>
      unlocking_of_over) fun _ => meets_pure fun _ h => h

/-- Header, stall poll, payload: the frame can end wherever its body does. -/
theorem frame_spiBody (dir : Dir) {hdr : List Byte} (hlen : hdr.length = 4) (n : Nat) (p : List Byte) :
    Meets (InFrame e .locked) (spiBody dir hdr n p) (fun _ => Unlocking e) (fun _ => Unlocking e)
      (Framewise e) := by
  have hwaits (m : Engine) : InFrame e .locked m → Framewise e m := framewise_of_inFrame nofun
  have hheader : FramePhase.locked.after (.busWrite hdr) = some .polling := if_pos hlen
  have hfailed (er : Nat) : FramePhase.locked.after (.busWriteErr hdr er) = some .over := if_pos hlen
  rw [spiBody_eq]
  exact meets_bind ((meets_busWrite_at kept_held hwaits hheader hfailed).raising fun _ _ => unlocking_of_over) fun _ =>
      meets_bind frame_stallWait fun _ =>
        (frame_payload dir n p).imp (fun _ h => h) (fun _ _ => unlocking_of_over) fun _ _ h => h

/-- A frame is whole on every exit, and the controller is free after it. -/
theorem frames_spiXfer (dir : Dir) (loc : Nat) (kind : Kind) (n : Nat) (p : List Byte) :
    Runs c Frames Framewise (spiXfer dir loc kind n p) := by
  intro e _
  have hframe : Meets (Frames e) (spiXfer dir loc kind n p) (fun _ => Frames e) (fun _ => Frames e)
      (Framewise e) := by
    refine meets_look fun m hm => ?_
    split
    · exact meets_raise fun _ ht => ht ▸ hm
    · exact meets_bind (frame_spiLock.at hm) fun _ => meets_attempt_bind (frame_spiBody dir rfl n p)
        (fun _ => meets_bind frame_spiUnlock fun _ => meets_pure fun _ h => h)
        fun _ => meets_bind frame_spiUnlock fun _ => meets_raise fun _ h => h
  exact hframe e (.refl e)

/-! ### Every instruction -/

theorem after_between_of_free {v : Event} (hv : v.between = true) : FramePhase.free.after v = some .free := by
  cases v with
  | now _ | sleep _ | memRead _ _ _ | memWrite _ _ => rfl
  | _ => cases hv

theorem transactions_spi (hb : c.transport = .spi) : Transactions c Frames Framewise where
  refl := Frames.refl
  trans := Frames.trans
  stays e := framewise_of_frames (.refl e)
  waits := fun h ⟨q, hq, hlock⟩ => ⟨q, h.1.trans hq, fun he => hlock (h.2 he)⟩
  cfg h := h.1.cfg
  settle e a rest := ⟨(Phased.refl e).congr rfl rfl, (kept_unheld e).settle e a rest id⟩
  log e v hv := ⟨(Phased.refl e).log (after_between_of_free hv), id⟩
  silent e t hcfg htrace hlock := ⟨(Phased.refl e).congr hcfg htrace, fun he => hlock ▸ he⟩
  i2cSend hi := by rw [hb] at hi; cases hi
  i2cRead hi := by rw [hb] at hi; cases hi
  i2cWrite hi := by rw [hb] at hi; cases hi
  spiXfer _ := frames_spiXfer

/-- READY_WAIT is not for an SPI handle (R3). -/
theorem ne_readyWait_of_spi {i : Instr} {s u : State} (hb : s.cfg.transport = .spi)
    (h : exec i s = .next u) : i ≠ .readyWait := by
  rintro rfl
  have hi := (exec_next h).transport .i2c rfl
  rw [hb] at hi
  cases hi

/-- Settles O32: every register transaction is one whole frame, whatever ends it, and nothing between the
transactions is on the bus. -/
theorem spiBusOperationsAreLocked : Obligations.SpiBusOperationsAreLocked := by
  intro i s t evs hb hlock h htrace
  obtain ⟨hend, hwait⟩ := exec_transactions (transactions_spi hb) (ne_readyWait_of_spi hb h) h
  by_cases hn : t.running = none
  · obtain ⟨hphase, hfree⟩ := hend hn
    exact ⟨.free, (spiFrames_eq_foldlM _ _).trans (hphase.foldlM htrace),
      iff_of_false (hfree hlock) fun hq => hq rfl, fun _ => rfl⟩
  · obtain ⟨p, hphase, hheld⟩ := hwait hn
    exact ⟨p, (spiFrames_eq_foldlM _ _).trans (hphase.foldlM htrace), hheld hlock, fun h => absurd h hn⟩

end Sys2Proof.Machine
end

section
/-! PROOF. The ready flag around the bus writes of I2C (40_transport.md R151, R152, R157;
70_reset_and_hazards.md R343; log 14, log 35). -/

namespace Sys2Proof.Machine

variable {α : Type} {c : Cfg} {p q : WirePhase} {e t : Engine} {G I W : Engine → Prop}
  {J : α → Engine → Prop} {X : Err → Engine → Prop}

/-- The shape of a trace, as a machine that reads its events. -/
theorem i2cPhases_eq_foldlM (budget : Nat) (p : WirePhase) (evs : List Event) :
    i2cPhases budget p evs = evs.foldlM (WirePhase.after budget) p := by
  induction evs generalizing p with
  | nil => rfl
  | cons v evs ih =>
    rw [i2cPhases, List.foldlM_cons]
    cases p.after budget v with
    | none => rfl
    | some q => exact ih q

/-! ### The phase of a transaction -/

/-- The budget of READY_WAIT in ticks (R16, R157). -/
def readyBudget (c : Cfg) : Nat := c.tIrq * c.clkPerMs

/-- Since `e` the events have come from the phase `p` to the phase `q`. -/
abbrev OnWire (p : WirePhase) (e : Engine) (q : WirePhase) : Engine → Prop :=
  At (WirePhase.after (readyBudget e.cfg)) p e (fun _ => True) q

/-- Since `e` there have been transactions of the wire's shape, and perhaps the beginning of one. -/
def Wirewise (p : WirePhase) (e t : Engine) : Prop :=
  ∃ q, Phased (WirePhase.after (readyBudget e.cfg)) p e q t

theorem kept_true : Kept fun _ => True := ⟨fun _ _ _ _ => trivial, fun _ _ _ => trivial⟩

theorem wirewise_of_at (m : Engine) (h : At (WirePhase.after (readyBudget e.cfg)) p e G q m) : Wirewise p e m :=
  ⟨q, h.1⟩

/-- The wait's start is in its register. -/
def Since (v : Nat) (t : Engine) : Prop := t.x.t1 = v

theorem kept_since (v : Nat) : Kept (Since v) := ⟨fun _ _ _ h => h, fun _ _ h => h⟩

/-- In a wait that began at `v`. -/
abbrev InWait (p : WirePhase) (e : Engine) (v : Nat) (q : WirePhase) : Engine → Prop :=
  At (WirePhase.after (readyBudget e.cfg)) p e (Since v) q

/-! ### READY_WAIT (R157) -/

/-- The flag's last look, once the budget is seen as gone, is recorded where it sees the flag (log 35). -/
theorem wire_readyAtDeadline {v : Nat} :
    Meets (InWait p e v .late) readyAtDeadline (fun set => InWait p e v (if set then .seen else .late)) X W := by
  intro m hm
  rw [readyAtDeadline_apply]
  cases hr : m.ready
  · exact hm
  · exact hm.log (kept_since v) rfl

/-- A look at the flag, and where it gave 0 a look at the clock. -/
theorem wire_readyWaitTurn {v : Nat} :
    Meets (InWait p e v (.waiting v)) readyWaitTurn
      (Turned (InWait p e v (.waiting v)) fun _ => InWait p e v .seen)
      (fun er t => er = .timeout .ready ∧ InWait p e v .late t) (Wirewise p e) := by
  refine meets_bind (meets_readyFlag_at (kept_since v) wirewise_of_at
    (next := fun set => if set then .seen else .missed v) fun _ => rfl) fun seen => ?_
  cases seen with
  | true => exact meets_pure fun _ h => h
  | false =>
    refine meets_look fun m hm => meets_bind ((meets_expired_at (kept_since v) wirewise_of_at
      (next := fun w => if readyBudget e.cfg ≤ w - v then .late else .waiting v) (fun _ => rfl) _ _).at hm)
      fun late => Meets.each fun t ⟨w, hlate, ht⟩ => ?_
    obtain ⟨hphase, ht1⟩ := hm
    rw [ht1, hphase.cfg] at hlate
    change late = decide (readyBudget e.cfg ≤ w - v) at hlate
    cases late with
    | false =>
      rw [if_neg (of_decide_eq_false hlate.symm)] at ht
      exact meets_pure fun u hu => hu ▸ ht
    | true =>
      rw [if_pos (of_decide_eq_true hlate.symm)] at ht
      refine meets_bind (wire_readyAtDeadline.at ht) fun set => ?_
      cases set
      · exact meets_raise fun _ h => ⟨rfl, h⟩
      · exact meets_pure fun _ h => h

/-- From a bus write on: the wait sees the flag, or its budget has run out. -/
theorem wire_readyWait :
    Meets (OnWire p e .sent) readyWait (fun _ => OnWire p e .seen)
      (fun er t => er = .timeout .ready ∧ OnWire p e .late t) (Wirewise p e) :=
  meets_bind (meets_now_at kept_true wirewise_of_at (next := .waiting) fun _ => rfl) fun v =>
    meets_bind (J := fun _ => InWait p e v (.waiting v)) (meets_change fun _ h => ⟨h.1.congr rfl rfl, rfl⟩)
      fun _ => (meets_repeatP wirewise_of_at wire_readyWaitTurn).imp (fun _ h => h)
        (fun _ _ h => ⟨h.1, trivial⟩) fun _ _ ⟨her, h⟩ => ⟨her, h.1, trivial⟩

/-! ### Transactions (R151, R152) -/

/-- An error exit clears the flag, and no transaction has begun (R156). -/
theorem wire_clearOnErr {f : P α} (hf : Meets I f J (fun _ => OnWire p e q) (Wirewise p e))
    (hq : ∀ budget, q.after budget .readyClear = some .rest) :
    Meets I (clearOnErr f) J (fun _ => OnWire p e .rest) (Wirewise p e) :=
  meets_attempt_bind hf (fun _ => meets_pure fun _ h => h) fun _ m h =>
    ⟨(h.1.congr (t := m.setReady false) rfl rfl).log (hq _), trivial⟩

theorem after_readyClear_of_settled (hp : p.settled = true) (budget : Nat) :
    p.after budget .readyClear = some .armed := by
  cases p with
  | rest | armed | seen => rfl
  | _ => cases hp

/-- The flag is cleared directly before the bus write, and then seen. -/
theorem wire_i2cSend (hq : q.settled = true) (bs : List Byte) :
    Meets (OnWire p e q) (i2cSend bs) (fun _ => OnWire p e .seen) (fun _ => OnWire p e .rest)
      (Wirewise p e) := by
  have hclear : Meets (OnWire p e q) readyClear (fun _ => OnWire p e .armed) (fun _ => OnWire p e .rest)
      (Wirewise p e) := fun m h =>
    ⟨(h.1.congr (t := m.setReady false) rfl rfl).log (after_readyClear_of_settled hq _), trivial⟩
  refine meets_bind hclear fun _ => meets_bind (wire_clearOnErr (q := .failed)
    (meets_busWrite_at kept_true wirewise_of_at rfl fun _ => rfl) fun _ => rfl) fun _ => ?_
  exact wire_clearOnErr (q := .late) (wire_readyWait.raising fun _ _ h => h.2) fun _ => rfl

/-- Since `e` there have been whole transactions. -/
def Wired (p : WirePhase) (e t : Engine) : Prop := ∃ q, q.settled = true ∧ OnWire p e q t

theorem wired_of_settled (hq : q.settled = true) (h : OnWire p e q t) : Wired p e t := ⟨q, hq, h⟩

/-- A length error clears the flag before any bus write (log 14). -/
theorem wire_lengthError (hp : p.settled = true) (n : Nat) :
    Meets (OnWire p e p) (clearOnErr (raise (.insufficientResources n) : P α)) J (fun _ => Wired p e)
      (Wirewise p e) :=
  fun m h => ⟨.armed, rfl, (h.1.congr (t := m.setReady false) rfl rfl).log (after_readyClear_of_settled hp _),
    trivial⟩

theorem wire_i2cRead (hp : p.settled = true) (loc : Nat) (kind : Kind) (n : Nat) :
    Meets (OnWire p e p) (i2cRead loc kind n) (fun _ => Wired p e) (fun _ => Wired p e) (Wirewise p e) := by
  refine meets_look fun m hm => ?_
  split
  · exact (wire_lengthError hp n).at hm
  · refine meets_bind (((wire_i2cSend hp _).raising fun _ _ => wired_of_settled rfl).at hm) fun _ => ?_
    exact (wire_clearOnErr (q := .failed) (meets_busRead_at kept_true wirewise_of_at
      (done := fun _ => .rest) (fun _ _ => rfl) fun _ => rfl) fun _ => rfl).imp (fun _ h => h)
      (fun _ _ => wired_of_settled rfl) fun _ _ => wired_of_settled rfl

theorem wire_i2cSend_whole (hp : p.settled = true) (bs : List Byte) :
    Meets (OnWire p e p) (i2cSend bs) (fun _ => Wired p e) (fun _ => Wired p e) (Wirewise p e) :=
  (wire_i2cSend hp bs).imp (fun _ h => h) (fun _ _ => wired_of_settled rfl) fun _ _ => wired_of_settled rfl

theorem wire_i2cWrite (hp : p.settled = true) (loc : Nat) (kind : Kind) (bs : List Byte) :
    Meets (OnWire p e p) (i2cWrite loc kind bs) (fun _ => Wired p e) (fun _ => Wired p e) (Wirewise p e) := by
  refine meets_look fun m hm => ?_
  split
  · exact (wire_lengthError hp bs.length).at hm
  · exact meets_bind (J := fun _ => OnWire p e p)
      (meets_change fun _ h => h ▸ ⟨hm.1.congr rfl rfl, trivial⟩) fun _ =>
        meets_look fun u hu => (wire_i2cSend_whole hp _).at hu

/-! ### Every instruction -/

/-- From whatever settled phase: whole transactions. -/
def Settles (e t : Engine) : Prop := ∀ p : WirePhase, p.settled = true → Wired p e t

/-- From whatever settled phase: whole transactions, and perhaps the beginning of one. -/
def Unsettled (e t : Engine) : Prop := ∀ p : WirePhase, p.settled = true → Wirewise p e t

theorem OnWire.refl (p : WirePhase) (e : Engine) : OnWire p e p e := ⟨.refl e, trivial⟩

theorem Settles.cfg (h : Settles e t) : t.cfg = e.cfg := by
  obtain ⟨_, _, h⟩ := h .rest rfl
  exact h.1.cfg

/-- A procedure that makes whole transactions from every settled phase. -/
theorem settles_of_meets {f : P α} (h : ∀ e p, WirePhase.settled p = true →
    Meets (OnWire p e p) f (fun _ => Wired p e) (fun _ => Wired p e) (Wirewise p e)) :
    Runs c Settles Unsettled f := by
  intro e _
  have hrun (p : WirePhase) (hp : p.settled = true) := h e p hp e (.refl p e)
  rcases hfe : f e with ⟨a, t⟩ | ⟨_ | _ | _, t⟩ <;> rw [hfe] at hrun
  · exact hrun
  · exact hrun
  · exact hrun
  · trivial

theorem after_between_of_settled {budget : Nat} {v : Event} (hp : p.settled = true)
    (hv : v.between = true) : p.after budget v = some .rest := by
  cases v with
  | now _ | sleep _ | memRead _ _ _ | memWrite _ _ =>
    cases p with
    | rest | armed | seen => rfl
    | _ => cases hp
  | _ => cases hv

theorem Settles.trans {a b d : Engine} (h : Settles a b) (k : Settles b d) : Settles a d := by
  intro p hp
  obtain ⟨q, hq, hpq⟩ := h p hp
  obtain ⟨r, hr, hqr⟩ := k q hq
  refine ⟨r, hr, hpq.1.trans ?_, trivial⟩
  rw [← h.cfg]
  exact hqr.1

theorem Settles.waits {a b d : Engine} (h : Settles a b) (k : Unsettled b d) : Unsettled a d := by
  intro p hp
  obtain ⟨q, hq, hpq⟩ := h p hp
  obtain ⟨r, hqr⟩ := k q hq
  refine ⟨r, hpq.1.trans ?_⟩
  rw [← h.cfg]
  exact hqr

/-- An update that records nothing. -/
theorem Settles.of_silent (hcfg : t.cfg = e.cfg) (htrace : t.trace = e.trace) : Settles e t :=
  fun p hp => ⟨p, hp, (Phased.refl e).congr hcfg htrace, trivial⟩

theorem transactions_i2c (hb : c.transport = .i2c) : Transactions c Settles Unsettled where
  refl e := .of_silent rfl rfl
  trans := Settles.trans
  stays e p _ := ⟨p, .refl e⟩
  waits := Settles.waits
  cfg := Settles.cfg
  settle e a rest := .of_silent rfl rfl
  log e v hv p hp := ⟨.rest, rfl, (Phased.refl e).log (after_between_of_settled hp hv), trivial⟩
  silent e t hcfg htrace _ := .of_silent hcfg htrace
  i2cSend _ bs := settles_of_meets fun _ _ hp => wire_i2cSend_whole hp bs
  i2cRead _ loc kind n := settles_of_meets fun _ _ hp => wire_i2cRead hp loc kind n
  i2cWrite _ loc kind bs := settles_of_meets fun _ _ hp => wire_i2cWrite hp loc kind bs
  spiXfer hs := by rw [hb] at hs; cases hs

/-- READY_WAIT by its own code, begun where a bus write has been done: an error it records is that of a budget
that has run out, and the clear is left to a caller (R157; log 35). -/
theorem wire_readyWaitCode :
    Meets (OnWire .sent e .sent) (procedure (asUnit readyWait))
      (fun _ t => OnWire .sent e .seen t ∨ t.ret = .err (.timeout .ready) ∧ OnWire .sent e .late t)
      (fun _ _ => False) (Wirewise .sent e) :=
  meets_attempt_bind (meets_bind wire_readyWait fun _ => meets_pure (J := fun _ => OnWire .sent e .seen)
      fun _ h => h)
    (fun _ => meets_change fun _ h => .inl ⟨h.1.congr rfl rfl, trivial⟩)
    fun er => meets_change fun _ ⟨her, h⟩ => .inr ⟨by rw [her]; rfl, h.1.congr rfl rfl, trivial⟩

/-- Settles O31: every register transaction clears the flag, writes, and sees the flag or ends with a clear;
READY_WAIT by its own code is a part of one. -/
theorem readyClearedBeforeEveryBusWrite : Obligations.ReadyClearedBeforeEveryBusWrite := by
  intro i s t evs hb h htrace
  have hshape {p q : WirePhase} (hq : Phased (WirePhase.after (readyBudget s.cfg)) p s.toEngine q t.toEngine) :
      i2cPhases (s.cfg.tIrq * s.cfg.clkPerMs) p evs = some q :=
    (i2cPhases_eq_foldlM _ _ _).trans (hq.foldlM htrace)
  by_cases hi : i = .readyWait
  · subst hi
    obtain ⟨hend, hwait⟩ := launch_lands (exec_next h).launch wire_readyWaitCode (.refl .sent s.toEngine)
    by_cases hn : t.running = none
    · obtain (hseen | ⟨hret, hlate⟩) | ⟨_, hf⟩ := hend hn
      · exact ⟨.seen, hshape hseen.1, fun _ => .inl rfl⟩
      · exact ⟨.late, hshape hlate.1, fun _ => .inr ⟨rfl, hret, rfl⟩⟩
      · exact hf.elim
    · obtain ⟨q, hq⟩ := hwait hn
      exact ⟨q, hshape hq, fun h => absurd h hn⟩
  · rw [if_neg hi]
    obtain ⟨hend, hwait⟩ := exec_transactions (transactions_i2c hb) hi h
    by_cases hn : t.running = none
    · obtain ⟨q, hsettled, hq⟩ := hend hn .rest rfl
      exact ⟨q, hshape hq.1, fun _ => .inl hsettled⟩
    · obtain ⟨q, hq⟩ := hwait hn .rest rfl
      exact ⟨q, hshape hq, fun h => absurd h hn⟩

end Sys2Proof.Machine
end

section
/-! PROOF. A TPM that keeps reporting burst 1 (43_fifo_transfer.md R221, R227; 70_reset_and_hazards.md R345). -/

namespace Sys2Proof.Machine

variable {e m : Engine} {src : Src} {len : Nat} {b : List Byte} {n : Answer} {pa w rest : List Answer}
  {tr : List Event}

/-! ### A turn of the send loop (R221) -/

/-- The engine before a turn that has bytes to send, has sent none, and polls the accepted snapshot `b` of a burst
of 1, which the answers `pa` bring. -/
structure AtBurstOne (len : Nat) (b : List Byte) (pa : List Answer) (e : Engine) : Prop where
  serves : e.Serves
  unsent : e.x.sent = 0
  toSend : 0 < len
  length : b.length = 4
  burst : snapBurst b = 1
  accepted : accept e.cfg.burstCap (maskValid e.cfg.map) (snapStatus b) (snapBurst b) = true
  answers : AnswersRead e.cfg.transport b pa

/-- A passage that has sent nothing leaves it so. -/
theorem AtBurstOne.passed {S : Finset Part} (h : AtBurstOne len b pa e) (hm : Passed S e m rest tr)
    (hsent : m.x.sent = 0) : AtBurstOne len b pa m where
  serves := hm.serves h.serves
  unsent := hsent
  toSend := h.toSend
  length := h.length
  burst := h.burst
  accepted := hm.frame.cfg ▸ h.accepted
  answers := hm.frame.cfg ▸ h.answers

theorem AtBurstOne.pending (h : AtBurstOne len b pa e) : e.x.sent.toNat < len := by
  simpa [h.unsent] using h.toSend

/-- A burst of 1 has room for no byte. -/
theorem sendChunk_one (len : Nat) (sent : Word) : sendChunk 1 len sent = 0 := by
  simp [sendChunk]

/-- What is left of the turn after its poll: a register write of no byte, and the count of it. -/
theorem sendTurn_of_burstOne (h : AtBurstOne len b pa e) (hi : e.inbox = n :: pa ++ rest) :
    ∃ t, sendTurn src len e = (regWrite .dataFifo [] >>= fun _ =>
        onX (fun x => { x with sent := x.sent + x.limit }) >>= fun _ => pure none) t ∧
      Passed writeBodyParts e t rest (readTraffic e.cfg .sts b) ∧ t.x.sent = 0 ∧ t.x.limit = 0 := by
  have hdone : PollDone e.cfg (maskValid e.cfg.map) b (n :: pa) (readTraffic e.cfg .sts b) :=
    ⟨n, pa, h.length, h.answers, h.accepted, .inl ⟨rfl, rfl⟩⟩
  obtain ⟨m, hpoll, hm⟩ := poll_of_done h.serves hdone hi
  refine ⟨_, ?_, (hm.mono (T := writeBodyParts) (by decide)).setX fun x => { x with limit := 0 },
    (hm.touches.regs .sent (by decide)).trans h.unsent, rfl⟩
  rw [sendTurn, bind_of_ok (look_apply e), if_pos h.pending, sendMask, if_pos h.unsent, bind_of_ok hpoll,
    h.burst, sendChunk_one, bind_of_ok (onX_apply _ _)]
  rfl

/-! ### I2C: the address byte alone, and the poll again -/

/-- The turn has sent nothing, and stands where it began. -/
theorem sendTurn_of_burstOne_i2c (h : AtBurstOne len b pa e) (hb : e.cfg.transport = .i2c)
    (hw : AnswersWrite .i2c w) (hi : e.inbox = n :: pa ++ (w ++ rest)) :
    ∃ t, sendTurn src len e = .ok none t ∧ t.x.sent = 0 ∧
      Passed writeBodyParts e t rest (readTraffic e.cfg .sts b ++ writeTraffic e.cfg .dataFifo []) := by
  obtain ⟨m, hturn, hm, hsent, hlimit⟩ := sendTurn_of_burstOne (src := src) h hi
  have hcfg : m.cfg = e.cfg := hm.frame.cfg
  obtain ⟨u, hwrite, hu, _⟩ := regWrite_of_answers (kind := .dataFifo) (p := []) (hm.serves h.serves) hm.inbox
    (by rwa [hcfg, hb]) (.inr (hcfg ▸ hb)) (Nat.zero_le _)
  have hparts : OnlyTouches m.cfg {.t1} (regWrite .dataFifo []) :=
    (made_regWrite _ _).touches_of_port (by decide)
  have hpassed := passed_of_ok hwrite (along_regWrite frame_closed.toClosed _ _) hparts hu.inbox hu.traffic
  have husent : u.x.sent = 0 := (hpassed.touches.regs .sent (by decide)).trans hsent
  have hulimit : u.x.limit = 0 := (hpassed.touches.regs .limit (by decide)).trans hlimit
  rw [bind_of_ok hwrite, bind_of_ok (onX_apply _ _)] at hturn
  rw [hcfg] at hpassed
  refine ⟨_, hturn, ?_, (hm.trans (hpassed.mono (by decide))).setX fun x => { x with sent := x.sent + x.limit }⟩
  change u.x.sent + u.x.limit = 0
  rw [husent, hulimit]
  rfl

/-- With no answer left the turn waits for its poll. -/
theorem sendTurn_of_no_answer (hlt : e.x.sent.toNat < len) (hi : e.inbox = []) :
    sendTurn src len e = .error (.blocked .now) e := by
  rw [sendTurn, bind_of_ok (look_apply e), if_pos hlt]
  exact bind_of_error (bind_of_error (bind_of_error (take_nil hi)))

/-- After however many turns the loop has not ended: it waits for the answers to its next poll. -/
theorem sendLoop_of_burstOne (hw : AnswersWrite .i2c w) (turns : Nat) (h : AtBurstOne len b pa e)
    (hb : e.cfg.transport = .i2c) (hi : e.inbox = (List.replicate turns (n :: pa ++ w)).flatten) :
    ∃ t, repeatP (sendTurn src len) e = .error (.blocked .now) t ∧ t.x.sent = 0 ∧
      Emitted e
        (List.replicate turns (readTraffic e.cfg .sts b ++ writeTraffic e.cfg .dataFifo [])).flatten t := by
  induction turns generalizing e with
  | zero => exact ⟨e, repeatP_error (sendTurn_of_no_answer h.pending hi), h.unsent, .refl e⟩
  | succ turns ih =>
    rw [List.replicate_succ, List.flatten_cons, List.append_assoc] at hi
    obtain ⟨m, hturn, hsent, hm⟩ := sendTurn_of_burstOne_i2c (src := src) h hb hw hi
    have hcfg : m.cfg = e.cfg := hm.frame.cfg
    obtain ⟨t, hloop, htsent, ht⟩ := ih (h.passed hm hsent) (hcfg ▸ hb) hm.inbox
    rw [hcfg] at ht
    refine ⟨t, (sendLoop_again hturn).trans hloop, htsent, ?_⟩
    rw [List.replicate_succ, List.flatten_cons]
    exact Emitted.trans ⟨hcfg, hm.traffic⟩ ht

/-! ### SPI: a frame of no byte -/

/-- The transport refuses the frame (R155). -/
theorem sendTurn_of_burstOne_spi (h : AtBurstOne len b pa e) (hb : e.cfg.transport = .spi)
    (hi : e.inbox = n :: pa ++ rest) :
    ∃ t, sendTurn src len e = .error (.raised (.insufficientResources 0)) t ∧
      Passed writeBodyParts e t rest (readTraffic e.cfg .sts b) := by
  obtain ⟨m, hturn, hm, _⟩ := sendTurn_of_burstOne (src := src) h hi
  have hbus : m.cfg.transport = .spi := hm.frame.cfg ▸ hb
  have hwrite : regWrite .dataFifo [] m = .error (.raised (.insufficientResources 0)) m := by
    rw [regWrite, bind_of_ok (look_apply m), hbus]
    exact spiWrite_of_bad_length (.inl rfl)
  exact ⟨m, hturn.trans (bind_of_error hwrite), hm⟩

/-- What stops the loop stops FIFO_WRITE_BODY. -/
theorem fifoWriteBody_of_stopped {x : Stop} (h : repeatP (sendTurn src len) e.unsent = .error x m) :
    fifoWriteBody src len e = .error x m :=
  (bind_of_ok (onX_apply _ e)).trans (bind_of_error h)

/-- Settles O47: on I2C every turn leaves the loop where it began, on SPI the first one raises. -/
theorem burstOneNeverEndsOnI2c : Obligations.BurstOneNeverEndsOnI2c := by
  intro s b n pa w hs hpos _ hlen hone haccept ha
  have h0 := passed_unsent s.toEngine
  have hat : AtBurstOne s.args.len b pa s.unsent := ⟨h0.serves hs, rfl, hpos, hlen, hone, haccept, ha⟩
  refine ⟨fun hb hw turns hi => ?_, fun hb rest hi => ?_⟩
  · obtain ⟨t, hloop, hsent, ht⟩ := sendLoop_of_burstOne (src := s.args.src) hw turns hat hb hi
    have hblocked : (procedure (asUnit (fifoWriteBody s.args.src s.args.len))) s.toEngine =
        .error (.blocked .now) t :=
      bind_of_error (attempt_of_blocked (bind_of_error (fifoWriteBody_of_stopped hloop)))
    exact ⟨_, launch_of_blocked hblocked, nofun, hsent, ht.bus⟩
  · obtain ⟨t, hturn, ht⟩ := sendTurn_of_burstOne_spi (src := s.args.src) hat hb (h0.inbox.trans hi)
    exact ⟨_, launch_asUnit (attempt_of_raised (fifoWriteBody_of_stopped (repeatP_error hturn))),
      (h0.trans ht).finished _, rfl⟩

end Sys2Proof.Machine
end
